-- ==== Sys2Proof/Word.lean ====
section
/-! DEFINITION. The words and numbers of the TJ-4160: what the manual treats as bits is a bit vector, what it
treats as a number of one of a fixed set of things is a bounded number (00 "Conventions", 01 1.5, 01 1.6). -/

namespace Sys2Proof

/-- A 32-bit word: a gate port word, a word of a session message, a register of the management port. -/
abbrev Word := BitVec 32

/-- A value of the time count, in milliseconds modulo 2^32 (00 "Time count", R177). -/
abbrev Time := BitVec 32

/-- A page number of the shared store, 0 to FFFFFFFFh (00 "Pages"). -/
abbrev Page := BitVec 32

/-- A fencing token, 40 bits; 0 denotes no token (R21). -/
abbrev Token := BitVec 40

/-- The generation of a slot, counted modulo 256 (R14). -/
abbrev Gen := BitVec 8

/-- A sequence number of a lock link, counted modulo 64 (07 7.1). -/
abbrev Seq := BitVec 6

/-- A word of the lock link line: header in bits 33:32, payload in bits 31:0 (R160). -/
abbrev LineWord := BitVec 34

/-- An agent, which is also the number of its lock link. -/
abbrev AgentId := Fin 16

/-- A lock domain. -/
abbrev DomainId := Fin 8

/-- A slot of the record pool; slot `s` is in bank `s / 256`. -/
abbrev SlotId := Fin 4096

/-- A request tag (R152). -/
abbrev Tag := Fin 8

/-- A wait code: 0 try once, 1 to 6 a wait class, 7 without limit (02 2.3). -/
abbrev WaitCode := Fin 8

/-- A lease class (04 4.4). -/
abbrev LeaseClass := Fin 8

end Sys2Proof
end

