-- ==== Sys2Proof/Syntax.lean ====
section
/-! DEFINITION. The commands of the TJ-4160: one constructor of `Instr` per row of spec/opcode_table.json, and the types of
their operands. A row is one event of one unit, taken whole (95 "What each step holds"). What the event takes from a queue
between two units stands in State, so that a command only names the unit, the queue or the fields that come from outside. -/

namespace Sys2Proof

/-- The kind of an access at the gate port (06 6.1). -/
inductive AccessKind where
  | read
  | write
  deriving DecidableEq, Repr

/-- A handle: slot and generation, 20 bits together (R15). -/
structure Handle where
  slot : SlotId
  gen : Gen
  deriving DecidableEq, Repr

/-- A CHECK (06 6.1). `extra` is page count - 1, as the gate port codes it, so that every coding names a count 1 to 256. -/
structure Check where
  agent : AgentId
  kind : AccessKind
  token : Token
  extra : BitVec 8
  epoch : Word
  first : Page
  deriving DecidableEq, Repr

/-- A ticket: the handle of the record an access was admitted under, and the access kind (R164). -/
structure Ticket where
  kind : AccessKind
  handle : Handle
  deriving DecidableEq, Repr

/-- A DONE: the null ticket, or a ticket (R126, R164). -/
inductive Done where
  | null
  | ticket (t : Ticket)
  deriving DecidableEq, Repr

/-- The two events of a management command (R180): the write of its code to the command register, which the management
port takes, and the event at which the unit it is handed to decides it. -/
inductive Phase where
  | issue
  | decide
  deriving DecidableEq, Repr

/-- Who reads an agent's state from the session unit: the gate unit (R117), or the notice unit for the post at the head of a
domain's messages (R103). -/
inductive Reader where
  | gate
  | post (d : DomainId)
  deriving DecidableEq, Repr

/-- A unit that reports events to the fault unit (R169). -/
inductive Source where
  | management
  | session
  | notice
  | domain (d : DomainId)
  | link (n : AgentId)
  deriving DecidableEq, Repr

/-- The commands, in the order of spec/opcode_table.json. An operand of type `Option DomainId` names the domain that takes the
item, or `none` where the lock table takes it without a domain (R2). -/
inductive Instr where
  | coldReset
  | registerWrite (address : BitVec 16) (value : Word)
  | tokenCounterLowRead (d : DomainId)
  | stickyBitsWrite (value : Word)
  | interruptEnablesWrite (value : Word)
  | captureClear
  | unknownCommand (code : BitVec 8)
  | enableDomain (p : Phase)
  | closeDomain (p : Phase)
  | scrubDomain (p : Phase)
  | scrubVisit (d : DomainId)
  | enableAgent (p : Phase)
  | disableAgent (p : Phase)
  | evictAgent (p : Phase)
  | revokeRecord (p : Phase)
  | resetLink (p : Phase)
  | walkStart (p : Phase)
  | walkNext (p : Phase)
  | walkExamination
  | start
  | warmRestart
  | commandAnswer
  | lockTableWarmRestart (d : DomainId)
  | sessionWarmRestart
  | noticeWarmRestart
  | gateWarmRestart
  | linkPortWarmRestart (n : AgentId)
  | requestArrival (n : AgentId)
  | requestTake (n : AgentId)
  | join (n : AgentId)
  | leave (n : AgentId)
  | renew (n : AgentId)
  | acknowledgementTake (n : AgentId)
  | messageDiscard (n : AgentId)
  | resultTake (src : Option DomainId)
  | responseHandoff (n : AgentId)
  | liveReport (d : DomainId)
  | leaseExpiry (n : AgentId)
  | resetNotice (n : AgentId)
  | agentStateRead (r : Reader)
  | acquire (dest : Option DomainId)
  | release (d : DomainId)
  | convertUp (d : DomainId)
  | convertDown (d : DomainId)
  | query (d : DomainId)
  | waitExpiry (slot : SlotId)
  | drainOverrun (slot : SlotId)
  | reclaim (d : DomainId)
  | claim (dest : Option DomainId)
  | presentedAcknowledgement (dest : Option DomainId)
  | reversion (dest : Option DomainId)
  | noticePost (d : DomainId)
  | withdrawFront (d : DomainId)
  | withdrawFollowUp (d : DomainId)
  | clear (d : DomainId)
  | scrubRemove (d : DomainId)
  | sessionConditionPost
  | sessionSetEmpty
  | claimAnswer (src : Option DomainId)
  | acknowledgementOutcome (src : Option DomainId)
  | noticeAck (n : AgentId)
  | sessionAck (n : AgentId)
  | noticeReclaim (n : AgentId)
  | domainLoss (d : DomainId)
  | noticeLinkReset (n : AgentId)
  | checkAccept (c : Check)
  | doneAccept (m : Done)
  | gateWordDiscard (w : Word)
  | checkTake
  | checkPresent
  | check (dest : Option DomainId)
  | verdictPlace (src : Option DomainId)
  | verdictAccept
  | doneDispatch
  | done (d : DomainId)
  | faultReport (src : Source)
  | signalDetect (n : AgentId)
  | lossOfSignalDetect (n : AgentId)
  | idleReceived (n : AgentId)
  | resyncReceived (n : AgentId) (next : Seq) (flag : Bool)
  | corruptWord (n : AgentId)
  | corruptFrame (n : AgentId)
  | dataReceived (n : AgentId) (seq : Seq) (ack : Seq) (words : List Word)
  | ackReceived (n : AgentId) (ack : Seq)
  | nakReceived (n : AgentId) (expected : Seq)
  | alignmentAttemptExpiry (n : AgentId)
  | watchdogExpiry (n : AgentId)
  | replayDeadlineExpiry (n : AgentId)
  | frameSend (n : AgentId)
  | timeCountAdvance
  | aligningResyncSend (n : AgentId)
  deriving DecidableEq, Repr

end Sys2Proof
end

