-- ==== Sys2Proof/WellFormed.lean ====
section
/-! DEFINITION. Which commands are well formed. The operand types already bound every number; what is left are the three
checks of R160, R163 and R180 that say which event a word is. -/

namespace Sys2Proof

/-- A valid DATA frame carries 1 to 7 message words (R160). -/
def dataLengthOk (words : List Word) : Bool :=
  1 ≤ words.length && words.length ≤ 7

/-- A discarded first word has a type that is neither CHECK (1h) nor DONE (2h) (R163). -/
def discardTypeOk (w : Word) : Bool :=
  let t := w.extractLsb' 28 4
  t != 1#4 && t != 2#4

/-- An unknown command code is none of 01h to 0Ch (10 10.4). -/
def unknownCodeOk (code : BitVec 8) : Bool :=
  code.toNat == 0 || 12 < code.toNat

/-- The well-formed commands. -/
def Instr.wellFormed : Instr → Bool
  | .dataReceived _ _ _ words => dataLengthOk words
  | .gateWordDiscard w => discardTypeOk w
  | .unknownCommand code => unknownCodeOk code
  | .coldReset | .registerWrite _ _ | .tokenCounterLowRead _ | .stickyBitsWrite _ | .interruptEnablesWrite _
  | .captureClear | .enableDomain _ | .closeDomain _ | .scrubDomain _ | .scrubVisit _ | .enableAgent _
  | .disableAgent _ | .evictAgent _ | .revokeRecord _ | .resetLink _ | .walkStart _ | .walkNext _
  | .walkExamination | .start | .warmRestart | .commandAnswer | .lockTableWarmRestart _ | .sessionWarmRestart
  | .noticeWarmRestart | .gateWarmRestart | .linkPortWarmRestart _ | .requestArrival _ | .requestTake _
  | .join _ | .leave _ | .renew _ | .acknowledgementTake _ | .messageDiscard _ | .resultTake _
  | .responseHandoff _ | .liveReport _ | .leaseExpiry _ | .resetNotice _ | .agentStateRead _ | .acquire _
  | .release _ | .convertUp _ | .convertDown _ | .query _ | .waitExpiry _ | .drainOverrun _ | .reclaim _
  | .claim _ | .presentedAcknowledgement _ | .reversion _ | .noticePost _ | .withdrawFront _
  | .withdrawFollowUp _ | .clear _ | .scrubRemove _ | .sessionConditionPost | .sessionSetEmpty
  | .claimAnswer _ | .acknowledgementOutcome _ | .noticeAck _ | .sessionAck _ | .noticeReclaim _
  | .domainLoss _ | .noticeLinkReset _ | .checkAccept _ | .doneAccept _ | .checkTake | .checkPresent
  | .check _ | .verdictPlace _ | .verdictAccept | .doneDispatch | .done _ | .faultReport _
  | .signalDetect _ | .lossOfSignalDetect _ | .idleReceived _ | .resyncReceived _ _ _ | .corruptWord _
  | .corruptFrame _ | .ackReceived _ _ | .nakReceived _ _ | .alignmentAttemptExpiry _
  | .watchdogExpiry _ | .replayDeadlineExpiry _ | .frameSend _ | .timeCountAdvance
  | .aligningResyncSend _ => true

end Sys2Proof
end

