-- ==== Sys2Proof/Decode.lean ====
section
/-! DEFINITION. The command that a word spells by the table's bits. spec/opcode_table.json gives no row any bits
(98: 91 rows unread, none with fixed bits), so no word spells a command. The words of the line, of the session messages, of the
gate port and of the management port are read and written in Machine/Operands.lean and Machine/Formats.lean. -/

namespace Sys2Proof

/-- No row of the table gives bits (log 27). -/
def decodeTableWord (_nbits _w : Nat) : Option Instr :=
  none

end Sys2Proof
end

