-- ==== Sys2Proof/Config.lean ====
section
/-! DEFINITION. What the manual fixes for the part as numbers, and the one value it leaves open. -/

namespace Sys2Proof.Config

/-- Places of the CHECK queue, of the verdict queue and of the DONE queue, 16 each (R116, R117). -/
def gatePlaces : Nat := 16

/-- Session messages the receive queue of a link holds (R143). -/
def receivePlaces : Nat := 16

/-- Responses the response queue of a link holds (R147). -/
def responsePlaces : Nat := 8

/-- Frames the retry buffer of a link holds (R138). -/
def retryPlaces : Nat := 16

/-- Replays made without progress before a replay rollover (R141). -/
def maxReplays : Nat := 4

/-- IDLE words that make an alignment attempt aligned (R133). -/
def alignIdles : Nat := 16

/-- Consecutive corrupt words that end an alignment (R133, R135). -/
def maxCorrupt : Nat := 8

/-- The greatest in-flight count of a record (R124). -/
def maxInFlight : Nat := 63

/-- The greatest page count of a record (01 1.6). -/
def maxPages : Nat := 1048576

/-- The last token of a domain, 2^40 - 1 (R21). -/
def lastToken : Token := BitVec.allOnes 40

/-- The greatest quota (R78). -/
def maxQuota : Nat := 4096

/-- DESIGN CHOICE (log 21), a FREE VALUE: the bits of a field that is absent (00 "Absent fields: it is not zero") in a
read, at the time given, of the register at the address given. It has no body: nothing can be proved of it. -/
opaque absentBits : BitVec 16 → Time → Word

end Sys2Proof.Config
end

