-- ==== Sys2Proof/Machine/State.lean ====
section
/-! DEFINITION. The state of the part, unit by unit (00 "Internal units"), with the messages one unit has handed another and
the other has not yet taken. Plain data throughout. Every field's docstring names the rule that gives it; a field that is the
MODEL's own and not the manual's says so and names its log entry. -/

namespace Sys2Proof.Machine

/-! ## Why a step can stop -/

/-- No command of the part ends in a fault: what goes wrong in the part is a result, a verdict, a refused command or an event
report (09), and the part goes on. The type has no constructor, so that a fault cannot be answered (log 26). Safe. -/
inductive Fault where
  deriving DecidableEq, Repr

/-- The reasons a command can be refused by the model. -/
inductive Refusal where
  /-- Raised by `exec` for a command that has no meaning in the model; no arm raises it. Safe. -/
  | notModelled (mnemonic : String)
  deriving DecidableEq, Repr

/-! ## The record pool (01 1.5 to 1.7, 09 9.1) -/

/-- The two lock modes. -/
inductive Mode where
  | shared
  | exclusive
  deriving DecidableEq, Repr

/-- The six states of a slot (01 1.7). -/
inductive SlotState where
  | free
  | waiting
  | held
  | converting
  | draining
  | ended
  deriving DecidableEq, Repr

/-- The kinds of record notice (05 5.1). -/
inductive NoticeKind where
  | granted
  | waitExpired
  | upgraded
  | upgradeExpired
  | revoked
  deriving DecidableEq, Repr

/-- A record's front notice: its kind, and whether it has been sent (01 1.6). -/
structure Front where
  kind : NoticeKind
  sent : Bool
  deriving DecidableEq, Repr

/-- The fields of a record that the record store keeps, from owner to follow-up notice (01 1.6, R165). A cleared record has
state `free` and every field absent or 0 (R16). -/
structure Record where
  owner : AgentId
  mode : Mode
  state : SlotState
  first : Page
  count : Nat
  token : Option Token
  cookie : BitVec 16
  waitCode : WaitCode
  waitDeadline : Option Time
  reads : Nat
  writes : Nat
  drainDeadline : Option Time
  front : Option Front
  followUp : Option NoticeKind
  deriving DecidableEq, Repr

/-- The cleared record of a FREE slot (R16, R166; log 29). -/
def Record.cleared : Record :=
  { owner := 0, mode := .shared, state := .free, first := 0, count := 0, token := none, cookie := 0, waitCode := 0,
    waitDeadline := none, reads := 0, writes := 0, drainDeadline := none, front := none, followUp := none }

/-- One of the three copies of a slot's directory entry (R165). -/
structure DirCopy where
  gen : Gen
  free : Bool
  deriving DecidableEq, Repr

/-- How a record and its check code agree (R166): clean, exactly one bit disagrees, two or more bits disagree. The record
itself is held as it was written (log 6). -/
inductive Health where
  | clean
  | oneBit
  | manyBits
  deriving DecidableEq, Repr

/-- A slot: the three copies of its directory entry, and its record with the agreement of its check code. -/
structure Slot where
  copyA : DirCopy
  copyB : DirCopy
  copyC : DirCopy
  record : Record
  health : Health
  deriving DecidableEq, Repr

/-- A slot after cold reset: generation 0 and FREE in all three copies, a cleared record with a valid code (R165, R166). -/
def Slot.reset : Slot :=
  { copyA := ⟨0, true⟩, copyB := ⟨0, true⟩, copyC := ⟨0, true⟩, record := .cleared, health := .clean }

/-- The record pool: the slots that differ from `Slot.reset`, in rising slot order. A slot not listed is as after cold
reset. `Pool.wf` is this canonical form. -/
abbrev Pool := List (SlotId × Slot)

/-- What a storage error does to a slot (log 5). -/
inductive UpsetKind where
  | recordBit
  | recordBits
  | copyA (c : DirCopy)
  | copyB (c : DirCopy)
  | copyC (c : DirCopy)
  deriving DecidableEq, Repr

/-- A storage error that strikes a slot (log 5). -/
structure Upset where
  slot : SlotId
  kind : UpsetKind
  deriving DecidableEq, Repr

/-! ## Events reported to the fault unit (09 9.3) -/

/-- The nine kinds of event (R169). -/
inductive EventKind where
  | recordCorrected
  | recordUncorrectable
  | drainOverrun
  | tokensExhausted
  | strayDone
  | linkProtocol
  | linkRetrain
  | agentLapsed
  | commandRefused
  deriving DecidableEq, Repr

/-- A report: the kind, the fields of R169, the ticket's kind that R127 adds for STRAY_DONE, and the time count at the event
that raised it. -/
structure Report where
  kind : EventKind
  domain : Option DomainId
  agent : Option AgentId
  slot : Option SlotId
  access : Option AccessKind
  time : Time
  deriving DecidableEq, Repr

/-! ## Session messages (08) -/

/-- The results of a RESPONSE that carry no fields and refuse the request (08 8.8). -/
inductive ResultRefusal where
  | badRequest
  | tagInUse
  | notReady
  | agentDisabled
  | notJoined
  | sessionLapsed
  | noDomain
  | spanInvalid
  | domainUnavailable
  | domainClosing
  | quotaExceeded
  | selfConflict
  | poolEmpty
  | tokensExhausted
  | conflict
  | staleHandle
  | notOwner
  | wrongMode
  | upgradeConflict
  | writesInFlight
  | alreadyReleased
  deriving DecidableEq, Repr

/-- The fields of a STATUS (R158). -/
structure StatusFields where
  handle : Handle
  state : SlotState
  mode : Mode
  token : Option Token
  reads : Nat
  writes : Nat
  position : Nat
  first : Page
  count : Nat
  waitCode : WaitCode
  cookie : BitVec 16
  deriving DecidableEq, Repr

/-- The results of a RESPONSE with their fields (08 8.8). -/
inductive Response where
  | joined (epoch : Word) (duration : Nat) (quota : Nat)
  | left
  | renewed (ms : Nat)
  | granted (h : Handle) (t : Token)
  | queued (h : Handle)
  | converted (h : Handle) (t : Token)
  | released (h : Handle)
  | cancelled (h : Handle)
  | status (q : StatusFields)
  | refused (r : ResultRefusal)
  deriving DecidableEq, Repr

/-- Pending session conditions: LAPSED, EVICTED and the set of lost domains, bit `d` for domain `d` (05 5.2). -/
structure Conditions where
  lapsed : Bool
  evicted : Bool
  lost : BitVec 8
  deriving DecidableEq, Repr

/-- No condition pending. -/
def Conditions.none : Conditions :=
  { lapsed := false, evicted := false, lost := 0 }

/-- A record notice with its snapshot: kind, cookie, and the token for GRANTED and UPGRADED (R100). -/
structure NoticeItem where
  kind : NoticeKind
  cookie : BitVec 16
  token : Option Token
  deriving DecidableEq, Repr

/-- A notice handed to a link: a NOTICE or a SESSION_NOTICE (R159). -/
inductive NoticeMsg where
  | record (h : Handle) (n : NoticeItem)
  | session (c : Conditions)
  deriving DecidableEq, Repr

/-- A session message of the part: what a DATA frame of the part carries. -/
inductive OutMsg where
  | response (tag : Tag) (r : Response)
  | notice (m : NoticeMsg)
  deriving DecidableEq, Repr

/-! ## What units hand each other -/

/-- A lock request as the session unit hands it to the lock table (R26, R156). -/
inductive LockBody where
  | acquire (mode : Mode) (first : Page) (count : Nat) (cookie : BitVec 16) (code : WaitCode)
  | release (h : Handle)
  | convertUp (h : Handle) (code : WaitCode)
  | convertDown (h : Handle)
  | query (h : Handle)
  deriving DecidableEq, Repr

/-- The request with its agent, the agent's quota and live count at the handoff (R26), its reset number stamp (R143), and the
era it was handed in (the model's own, log 10). -/
structure LockRequest where
  agent : AgentId
  quota : Nat
  live : Nat
  stamp : BitVec 8
  era : Nat
  body : LockBody
  deriving DecidableEq, Repr

/-- What the session unit hands to one domain, in one order (R26, R90). A reclaim carries the agent, and the number of the
reclaim among that agent's (the model's own, log 11). -/
inductive SessionItem where
  | request (q : LockRequest)
  | reclaim (a : AgentId) (number : Nat)
  deriving DecidableEq, Repr

/-- What the notice unit presents to a domain, in one order (R106). -/
inductive NoticeAsk where
  | claim (a : AgentId) (h : Handle)
  | acknowledge (a : AgentId) (h : Handle)
  | revert (h : Handle)
  deriving DecidableEq, Repr

/-- The session states of an agent (04 4.1). -/
inductive AgentState where
  | disabled
  | offline
  | online
  | lapsed
  deriving DecidableEq, Repr

/-- A CHECK presented to the lock table, with the agent's state and epoch as the gate unit read them (R117), for the verdict
place numbered `place` (the model's own number, log 17). -/
structure PresentedCheck where
  place : Nat
  check : Check
  state : AgentState
  epoch : Word
  deriving DecidableEq, Repr

/-- The verdicts that refuse a CHECK (06 6.6). -/
inductive GateRefusal where
  | notReady
  | noDomain
  | domainUnavailable
  | token
  | agent
  | epoch
  | owner
  | mode
  | cover
  | countFull
  deriving DecidableEq, Repr

/-- A verdict with its ticket (R164). -/
inductive Verdict where
  | admitted (t : Ticket)
  | admitUntracked
  | refused (g : GateRefusal)
  deriving DecidableEq, Repr

/-- A report of a change of a domain's per-agent live count (R20, R7). -/
inductive LiveChange where
  | up
  | down
  | subtract (n : Nat)
  deriving DecidableEq, Repr

/-- What a domain hands the session unit, in one order (R96): a live report; the subtraction of quarantine entry, which also
asks for DOMAIN_LOST to be posted to the agent (R7, log 14); a request's result with its live report. The era is the domain's,
for a result the request's (the model's own, log 10). -/
inductive DomainReport where
  | live (a : AgentId) (c : LiveChange) (era : Nat)
  | lost (a : AgentId) (n : Nat) (era : Nat)
  | result (a : AgentId) (stamp : BitVec 8) (r : Response) (c : Option LiveChange) (era : Nat)
  deriving DecidableEq, Repr

/-- How the lock table placed a posted notice (R102). -/
inductive Placing where
  | newFront
  | replaceFront
  | followUp
  deriving DecidableEq, Repr

/-- What became of a presented acknowledgement (R110). -/
inductive AckOutcome where
  | promoted
  | removed
  | notTaken
  deriving DecidableEq, Repr

/-- What a domain hands the notice unit, in one order (R103, R104, R107, R110, R113). A post carries the number of the last
reclaim of the owner the domain had taken (R112, log 11). -/
inductive NoticeBody where
  | post (owner : AgentId) (h : Handle) (p : Placing) (n : NoticeItem) (after : Nat)
  | withdrawFront (owner : AgentId) (h : Handle)
  | withdrawFollowUp (owner : AgentId) (h : Handle)
  | clear (owner : AgentId) (h : Handle)
  | scrubRemove (h : Handle)
  | loss (banks : BitVec 16)
  | answer (a : AgentId) (h : Handle) (granted : Bool)
  | outcome (a : AgentId) (h : Handle) (o : AckOutcome)
  deriving DecidableEq, Repr

/-- A message of a domain to the notice unit, with the domain's era (log 10). -/
structure DomainNotice where
  era : Nat
  body : NoticeBody
  deriving DecidableEq, Repr

/-! ## The lock table (01 to 03) -/

/-- The admission policies of a domain (01 1.1). -/
inductive Policy where
  | guarded
  | writeGuarded
  deriving DecidableEq, Repr

/-- The domain states (01 1.2). -/
inductive DomainState where
  | disabled
  | enabled
  | closing
  | quarantined
  | scrubbing
  deriving DecidableEq, Repr

/-- One domain of the lock table. -/
structure Domain where
  /-- base page (R1) -/
  base : Page
  /-- limit page, inclusive (R1) -/
  limit : Page
  /-- bank set, bit `b` for bank `b` (R1) -/
  banks : BitVec 16
  /-- policy (R1, R121) -/
  policy : Policy
  /-- drain limit, units of 10 ms (R1, R67) -/
  drainLimit : BitVec 16
  /-- domain state (01 1.2) -/
  state : DomainState
  /-- scrub position while SCRUBBING (R9, R10) -/
  scrubPos : Option SlotId
  /-- free list, head first (R19) -/
  freeList : List SlotId
  /-- wait queue, head first (R40) -/
  waitQueue : List SlotId
  /-- occupancy set, held in rising slot order (R18, R22) -/
  occupancy : List SlotId
  /-- token map (R18, R22) -/
  tokenMap : List (Token × SlotId)
  /-- per-agent live counts (R20) -/
  live : Vector Nat 16
  /-- token counter (R21) -/
  tokenCounter : Token
  /-- exhausted indicator (R21) -/
  exhausted : Bool
  /-- warm restarts taken: the model's own (log 10) -/
  era : Nat
  /-- number of the last reclaim taken, per agent: the model's own (log 11) -/
  reclaimed : Vector Nat 16
  /-- requests and reclaims handed by the session unit, not yet taken (R26, R90) -/
  fromSession : List SessionItem
  /-- claims, acknowledgements and reversions presented by the notice unit, not yet taken (R106) -/
  fromNotice : List NoticeAsk
  /-- CHECKs presented by the gate unit, not yet taken (R119) -/
  checks : List PresentedCheck
  /-- DONEs handed by the gate unit, not yet taken (R126) -/
  dones : List Ticket
  /-- results and live reports, not yet taken by the session unit (R96) -/
  toSession : List DomainReport
  /-- messages not yet taken by the notice unit (R103) -/
  toNotice : List DomainNotice
  /-- verdicts not yet placed by the gate unit (R119) -/
  verdicts : List (Nat × Verdict)
  /-- reports not yet taken by the fault unit (R169) -/
  reports : List Report
  deriving DecidableEq, Repr

/-- A domain after cold reset (R1, R13). -/
def Domain.reset : Domain :=
  { base := 0, limit := 0, banks := 0, policy := .guarded, drainLimit := 100, state := .disabled, scrubPos := none,
    freeList := [], waitQueue := [], occupancy := [], tokenMap := [], live := Vector.replicate 16 0, tokenCounter := 1,
    exhausted := false, era := 0, reclaimed := Vector.replicate 16 0, fromSession := [], fromNotice := [], checks := [],
    dones := [], toSession := [], toNotice := [], verdicts := [], reports := [] }

/-- What the lock table holds without a domain: the items whose page or bank no domain held or owned when they were handed to
it, and its answers to them (R2, log 12). -/
structure NoDomain where
  requests : List LockRequest
  asks : List NoticeAsk
  checks : List PresentedCheck
  toSession : List DomainReport
  toNotice : List DomainNotice
  verdicts : List (Nat × Verdict)
  deriving DecidableEq, Repr

/-- Nothing handed (log 12). -/
def NoDomain.reset : NoDomain :=
  { requests := [], asks := [], checks := [], toSession := [], toNotice := [], verdicts := [] }

/-! ## The session unit (04, 08) -/

/-- A request in process: its tag, whether it holds the tag or is a clash (R152), its stamp (R143), and its response where the
response queue had no place for it (R147). -/
structure InProcess where
  tag : Tag
  holder : Bool
  stamp : BitVec 8
  response : Option Response
  deriving DecidableEq, Repr

/-- An entry of the agent table (04 4.1) with what the session unit keeps for the agent's messages. -/
structure Agent where
  /-- session state (R77) -/
  state : AgentState
  /-- quota (R78) -/
  quota : Nat
  /-- lease class bound (R78) -/
  bound : LeaseClass
  /-- epoch (R81) -/
  epoch : Word
  /-- lease class, present in ONLINE (R82) -/
  leaseClass : Option LeaseClass
  /-- lease deadline, present in ONLINE (R84) -/
  leaseDeadline : Option Time
  /-- live count (R96) -/
  live : Nat
  /-- tag table: true is BUSY (R152) -/
  tags : Vector Bool 8
  /-- reset number last taken from a reset notice (R146) -/
  lastReset : BitVec 8
  /-- the request in process (R153) -/
  inProcess : Option InProcess
  /-- reclaims sent for the agent: the model's own (log 11) -/
  reclaims : Nat
  deriving DecidableEq, Repr

/-- An agent entry after cold reset (R76). -/
def Agent.reset : Agent :=
  { state := .disabled, quota := 0, bound := 7, epoch := 0, leaseClass := none, leaseDeadline := none, live := 0,
    tags := Vector.replicate 8 false, lastReset := 0, inProcess := none, reclaims := 0 }

/-- The session unit. -/
structure SessionUnit where
  agents : Vector Agent 16
  /-- warm restarts taken: the model's own (log 10) -/
  era : Nat
  /-- reports not yet taken by the fault unit (R169) -/
  reports : List Report
  deriving DecidableEq, Repr

/-! ## The notice unit (05) -/

/-- An entry of a notice queue (05 5.2). -/
structure Entry where
  handle : Handle
  front : NoticeItem
  followUp : Option NoticeItem
  frozen : Bool
  deriving DecidableEq, Repr

/-- The delivery marker (05 5.5). -/
inductive Marker where
  | ready
  | claiming (h : Handle)
  | recordSent (h : Handle)
  | acking (h : Handle)
  | sessionSent (c : Conditions)
  deriving DecidableEq, Repr

/-- The retracted mark, where present (05 5.2). -/
inductive Retracted where
  | handle (h : Handle)
  | session
  deriving DecidableEq, Repr

/-- An acknowledgement passed by the session unit, with its era (R109, R111, log 10). -/
inductive AckItem where
  | notice (h : Handle) (era : Nat)
  | session (era : Nat)
  deriving DecidableEq, Repr

/-- A session condition to post (R105). -/
inductive Condition where
  | lapsed
  | evicted
  | lost (d : DomainId)
  deriving DecidableEq, Repr

/-- What the session unit hands the notice unit about session notice sets, in one order (R105): a condition to add, or the
emptying of a JOIN; with its era (log 10). -/
inductive ConditionItem where
  | post (a : AgentId) (c : Condition) (era : Nat)
  | empty (a : AgentId) (era : Nat)
  deriving DecidableEq, Repr

/-- The read of an owner's state for a post (R103): none under way, asked of the session unit, or answered with the state. -/
inductive PostRead where
  | idle
  | asked (a : AgentId)
  | answered (a : AgentId) (st : AgentState)
  deriving DecidableEq, Repr

/-- What the notice unit holds for an agent (05 5.2), with what it has been handed for the agent. -/
structure NoticeAgent where
  /-- notice queue (R101) -/
  queue : List Entry
  /-- session notice set (R105) -/
  conditions : Conditions
  /-- delivery marker (R106) -/
  marker : Marker
  /-- retracted mark (R109) -/
  retracted : Option Retracted
  /-- reclaims handed and not yet taken, by era (R90, R112) -/
  reclaims : List Nat
  /-- reclaims taken: the model's own (log 11) -/
  reclaimed : Nat
  /-- acknowledgements passed and not yet taken (R109) -/
  acks : List AckItem
  deriving DecidableEq, Repr

/-- What the notice unit holds for an agent after cold reset (R115). -/
def NoticeAgent.reset : NoticeAgent :=
  { queue := [], conditions := .none, marker := .ready, retracted := none, reclaims := [], reclaimed := 0, acks := [] }

/-- The notice unit. -/
structure NoticeUnit where
  agents : Vector NoticeAgent 16
  /-- session conditions handed and not yet taken (R105) -/
  conditions : List ConditionItem
  /-- the read for the post at the head of each domain's messages (R103) -/
  reads : Vector PostRead 8
  /-- warm restarts taken: the model's own (log 10) -/
  era : Nat
  /-- reports not yet taken by the fault unit (R169) -/
  reports : List Report
  deriving DecidableEq, Repr

/-! ## The gate unit (06) -/

/-- A message presented on GD_IN (R116). -/
inductive GateMsg where
  | check (c : Check)
  | done (m : Done)
  deriving DecidableEq, Repr

/-- A place of the verdict queue: its CHECK and its verdict, absent until decided (06 6.2); `number` is the model's own name
for the place (log 17). -/
structure Place where
  number : Nat
  check : Check
  verdict : Option Verdict
  deriving DecidableEq, Repr

/-- The gate unit. -/
structure GateUnit where
  /-- CHECK queue (R116) -/
  checkQueue : List Check
  /-- verdict queue (R117) -/
  verdictQueue : List Place
  /-- DONE queue (R116) -/
  doneQueue : List Done
  /-- messages presented on GD_IN and waiting for a place, in the order presented (R116, log 17) -/
  port : List GateMsg
  /-- reads of an agent's state and epoch asked of the session unit, for a place (R117) -/
  reads : List (Nat × AgentId)
  /-- reads answered and not yet taken (R117) -/
  answers : List (Nat × AgentState × Word)
  /-- words of a CHECK passed on GD_IN so far, in order: none between messages (R163, log 33) -/
  words : List Word
  /-- the number of the next place: the model's own (log 17) -/
  nextPlace : Nat
  /-- the verdict last accepted on GD_OUT: the model's record of the output (log 24) -/
  lastVerdict : Option Verdict
  deriving DecidableEq, Repr

/-- The gate unit after cold reset (R116, R118, R131). -/
def GateUnit.reset : GateUnit :=
  { checkQueue := [], verdictQueue := [], doneQueue := [], port := [], reads := [], answers := [], words := [],
    nextPlace := 0, lastVerdict := none }

/-! ## The link ports (07) -/

/-- The states of a link (07 7.2). -/
inductive LinkState where
  | down
  | aligning
  | active
  deriving DecidableEq, Repr

/-- A session message in a receive queue: its words, its stamp (R143), and for a REQUEST whose arrival has been taken whether
it holds its tag (`some true`) or is a clash (`some false`) (R152). -/
structure Received where
  words : List Word
  stamp : BitVec 8
  mark : Option Bool
  deriving DecidableEq, Repr

/-- A response handed to a link, stamped (R147). -/
structure QueuedResponse where
  tag : Tag
  response : Response
  stamp : BitVec 8
  deriving DecidableEq, Repr

/-- An entry of the retry buffer (07 7.1). -/
structure RetryEntry where
  seq : Seq
  msg : OutMsg
  deriving DecidableEq, Repr

/-- An alignment attempt (07 7.1, R133). -/
structure Attempt where
  idles : Nat
  aligned : Bool
  ownSent : Bool
  peer : Option (Seq × Bool)
  deadline : Time
  deriving DecidableEq, Repr

/-- A frame the port sends (07 7.3). -/
inductive Frame where
  | data (seq : Seq) (ack : Seq) (msg : OutMsg)
  | ack (ack : Seq)
  | nak (expected : Seq)
  | resync (next : Seq) (flag : Bool)
  | idle
  deriving DecidableEq, Repr

/-- A link port: the items of 07 7.1. -/
structure LinkPort where
  state : LinkState
  txSeq : Seq
  oldest : Seq
  retry : List RetryEntry
  replayPos : Option Seq
  replayCount : Nat
  replayDeadline : Option Time
  rxExpect : Seq
  ackOwed : Bool
  nakOwed : Bool
  nakSent : Bool
  rxQueue : List Received
  responses : List QueuedResponse
  notice : Option NoticeMsg
  corruptWords : Nat
  watchdog : Option Time
  attempt : Option Attempt
  resetPending : Bool
  resetNumber : BitVec 8
  /-- the reset notice at the head of the receive queue, with its reset number (R145, log 20) -/
  resetNotice : Option (BitVec 8)
  /-- reset messages handed to the notice unit and not yet taken (R145) -/
  noticeResets : Nat
  /-- the frame last sent: the model's record of the output (log 24) -/
  lastFrame : Option Frame
  /-- reports not yet taken by the fault unit (R169) -/
  reports : List Report
  deriving DecidableEq, Repr

/-- A link port after cold reset (R150). -/
def LinkPort.reset : LinkPort :=
  { state := .down, txSeq := 0, oldest := 0, retry := [], replayPos := none, replayCount := 0, replayDeadline := none,
    rxExpect := 0, ackOwed := false, nakOwed := false, nakSent := false, rxQueue := [], responses := [], notice := none,
    corruptWords := 0, watchdog := none, attempt := none, resetPending := true, resetNumber := 0, resetNotice := none,
    noticeResets := 0, lastFrame := none, reports := [] }

/-! ## The fault unit (09) -/

/-- The fault unit: one sticky bit and one enable per kind, at the bit numbers of register 0020h (10 10.2). -/
structure FaultUnit where
  /-- sticky bits (R170) -/
  sticky : BitVec 9
  /-- interrupt enables (R171) -/
  enables : BitVec 9
  /-- capture record: the captured report when full (R172) -/
  capture : Option Report
  /-- capture-missed (R172) -/
  missed : Bool
  /-- capture notes (R172) -/
  notes : Bool
  deriving DecidableEq, Repr

/-- The fault unit after cold reset (R174). -/
def FaultUnit.reset : FaultUnit :=
  { sticky := 0, enables := 0, capture := none, missed := false, notes := false }

/-! ## The management port (10) -/

/-- The part modes (10 10.3). -/
inductive PartMode where
  | setup
  | active
  deriving DecidableEq, Repr

/-- The management commands (10 10.4). -/
inductive Command where
  | enableDomain
  | closeDomain
  | scrubDomain
  | enableAgent
  | disableAgent
  | evictAgent
  | revokeRecord
  | resetLink
  | walkStart
  | walkNext
  | start
  | warmRestart
  deriving DecidableEq, Repr

/-- The refusal reasons of a command (10 10.4). -/
inductive Reason where
  | wrongState
  | bankSetEmpty
  | windowOrder
  | windowOverlap
  | bankInUse
  | staleHandle
  | notHeld
  | noWalk
  | unknownCommand
  deriving DecidableEq, Repr

/-- A unit's answer to a command (R180). -/
inductive Answer where
  | done
  | walkEnd
  | refused (r : Reason)
  deriving DecidableEq, Repr

/-- The units that have yet to take a warm restart (R179). -/
structure RestartDue where
  domains : Vector Bool 8
  session : Bool
  notice : Bool
  gate : Bool
  links : Vector Bool 16
  deriving DecidableEq, Repr

/-- A command in progress: handed to its unit with the argument register as it stood at the write and the domain it resolves
to (R180, R2); a walk search under way (R182); answered and not yet taken by the management port; or a warm restart. -/
inductive Running where
  | handed (c : Command) (arg : Word) (dest : Option DomainId)
  | searching
  | answered (c : Command) (a : Answer)
  | restarting (due : RestartDue)
  deriving DecidableEq, Repr

/-- The walk cursor (10 10.5). -/
inductive Cursor where
  | none
  | walking (d : DomainId) (filter : Option AgentId) (position : Option SlotId)
  | ended
  deriving DecidableEq, Repr

/-- The walk snapshot (10 10.5): `record` is absent after cold reset and when the record was unreadable. -/
structure Snapshot where
  domain : DomainId
  slot : SlotId
  gen : Gen
  unreadable : Bool
  record : Option Record
  position : Nat
  deriving DecidableEq, Repr

/-- The management port. -/
structure Management where
  /-- part mode (R178) -/
  mode : PartMode
  /-- command argument register (10 10.4) -/
  argument : Word
  /-- the last answer of the command status, `none` for IDLE; the status is BUSY while `command` is present (R180) -/
  status : Option Answer
  /-- code of the last command (10 10.2) -/
  lastCode : BitVec 8
  /-- the command in progress (R180) -/
  command : Option Running
  /-- link watchdog period, ms (R149) -/
  watchdogPeriod : BitVec 8
  /-- lease class table, units of 10 ms (R184) -/
  leases : Vector (BitVec 16) 8
  /-- wait class table, ms; entry `i` is wait class `i + 1` (R185) -/
  waits : Vector (BitVec 16) 6
  /-- walk cursor (R181) -/
  cursor : Cursor
  /-- walk snapshot (R182) -/
  snapshot : Snapshot
  /-- latch of token counter bits 39:32 (R176) -/
  latch : BitVec 8
  /-- the data of the last latched read on SDO: the model's record of the output (log 24) -/
  readData : Word
  /-- reports not yet taken by the fault unit (R169) -/
  reports : List Report
  deriving DecidableEq, Repr

/-- The management port after cold reset (R149, R176, R178, R180 to R185). -/
def Management.reset : Management :=
  { mode := .setup, argument := 0, status := none, lastCode := 0, command := none, watchdogPeriod := 10,
    leases := #v[10, 25, 50, 100, 200, 500, 1000, 3000], waits := #v[10, 50, 100, 500, 2000, 10000], cursor := .none,
    snapshot := { domain := 0, slot := 0, gen := 0, unreadable := false, record := none, position := 0 },
    latch := 0, readData := 0, reports := [] }

/-! ## The part -/

/-- The state of the part. -/
structure State where
  /-- time count (R177) -/
  time : Time
  /-- management port -/
  management : Management
  /-- fault unit -/
  fault : FaultUnit
  /-- record pool -/
  pool : Pool
  /-- lock table, domain by domain -/
  domains : Vector Domain 8
  /-- lock table, items without a domain -/
  noDomain : NoDomain
  /-- session unit -/
  session : SessionUnit
  /-- notice unit -/
  notice : NoticeUnit
  /-- gate unit -/
  gate : GateUnit
  /-- link ports -/
  links : Vector LinkPort 16
  /-- storage errors to strike at each coming advance of the time count: the model's own (log 5) -/
  upsets : List (List Upset)
  /-- commands waiting, first in first out: the model's own (log 1) -/
  pending : List Instr
  deriving DecidableEq, Repr

/-- The part after cold reset (R13, R76, R115, R131, R150, R174, R177, R178). -/
def State.reset : State :=
  { time := 0, management := .reset, fault := .reset, pool := [], domains := Vector.replicate 8 .reset, noDomain := .reset,
    session := { agents := Vector.replicate 16 .reset, era := 0, reports := [] },
    notice := { agents := Vector.replicate 16 .reset, conditions := [], reads := Vector.replicate 8 .idle, era := 0, reports := [] },
    gate := .reset, links := Vector.replicate 16 .reset, upsets := [], pending := [] }

end Sys2Proof.Machine
end

