-- ==== Sys2Proof/Machine/Ops.lean ====
section
/-! DEFINITION. The named operations every unit uses: the entry of a unit's table, the record pool, deadlines, bank sets and
windows, the resolution of a page and of a bank to a domain, and the update of one unit of the state. -/

namespace Sys2Proof.Machine

/-! ## Tables -/

/-- The entry `i` of a table. -/
def look {α : Type} {n : Nat} (v : Vector α n) (i : Fin n) : α :=
  v[i.val]

/-- The table with entry `i` replaced. -/
def put {α : Type} {n : Nat} (v : Vector α n) (i : Fin n) (x : α) : Vector α n :=
  v.set i.val x i.isLt

/-- Every entry of a table changed the same way. -/
def mapTable {α β : Type} {n : Nat} (f : α → β) (v : Vector α n) : Vector β n :=
  Vector.ofFn (fun i => f (look v i))

/-! ## The record pool -/

/-- The slot `i` of the pool; a slot not listed is as after cold reset (R165, R166). -/
def poolGet : Pool → SlotId → Slot
  | [], _ => .reset
  | (j, x) :: rest, i => if j = i then x else poolGet rest i

/-- The pool with slot `i` written, in canonical form: a slot equal to `Slot.reset` is not listed. -/
def poolPut : Pool → SlotId → Slot → Pool
  | [], i, x => if x = .reset then [] else [(i, x)]
  | (j, y) :: rest, i, x =>
    if i < j then (if x = .reset then (j, y) :: rest else (i, x) :: (j, y) :: rest)
    else if i = j then (if x = .reset then rest else (i, x) :: rest)
    else (j, y) :: poolPut rest i x

/-- Every slot of the pool lies above `i`. -/
def poolAbove (i : SlotId) : Pool → Bool
  | [] => true
  | (j, _) :: rest => i < j && poolAbove i rest

/-- The canonical form of the pool: slots strictly rising, none equal to `Slot.reset`. -/
def Pool.wf : Pool → Bool
  | [] => true
  | (i, x) :: rest => x != .reset && poolAbove i rest && Pool.wf rest

/-- Each bit as at least two of three copies hold it (R165). -/
def majority (a b c : DirCopy) : DirCopy :=
  { gen := (a.gen &&& b.gen) ||| (b.gen &&& c.gen) ||| (a.gen &&& c.gen),
    free := (a.free && b.free) || (b.free && c.free) || (a.free && c.free) }

/-- A slot's directory entry as a read yields it (R165). -/
def Slot.directory (x : Slot) : DirCopy :=
  majority x.copyA x.copyB x.copyC

/-- The three copies agree (R165). -/
def Slot.agrees (x : Slot) : Bool :=
  x.copyA == x.copyB && x.copyB == x.copyC

/-- A directory entry written to all three copies (R165). -/
def Slot.withDirectory (x : Slot) (c : DirCopy) : Slot :=
  { x with copyA := c, copyB := c, copyC := c }

/-- The generation the directory gives a slot. -/
def genOf (p : Pool) (i : SlotId) : Gen :=
  (poolGet p i).directory.gen

/-- The handle of the record in a slot (R15). -/
def handleOf (p : Pool) (i : SlotId) : Handle :=
  { slot := i, gen := genOf p i }

/-- The record a slot holds, as it was written. -/
def recordOf (p : Pool) (i : SlotId) : Record :=
  (poolGet p i).record

/-- The record of a slot written with a fresh check code (R166). -/
def writeRecord (p : Pool) (i : SlotId) (r : Record) : Pool :=
  poolPut p i { poolGet p i with record := r, health := .clean }

/-- The slot FREE at the next generation, with a cleared record (R14, R16). -/
def freeSlot (p : Pool) (i : SlotId) : Pool :=
  poolPut p i ({ poolGet p i with record := .cleared, health := .clean }.withDirectory ⟨genOf p i + 1, true⟩)

/-! ## Deadlines -/

/-- The deadline has come: the time count stands at or after it, modulo 2^32 (R39, R69, R88). -/
def due (now deadline : Time) : Bool :=
  (now - deadline).toNat < 2 ^ 31

/-- A deadline that is present and has come. -/
def dueAt (now : Time) (deadline : Option Time) : Bool :=
  match deadline with
  | none => false
  | some d => due now d

/-! ## Sets of slots -/

/-- A slot into a list in rising slot order, once. -/
def insertSlot (i : SlotId) : List SlotId → List SlotId
  | [] => [i]
  | j :: rest => if i < j then i :: j :: rest else if i = j then j :: rest else j :: insertSlot i rest

/-- A slot out of a list, the others in their order (R22). -/
def dropSlot (i : SlotId) (l : List SlotId) : List SlotId :=
  l.filter (fun j => j != i)

/-- The bank of the slot is in the set. -/
def inBanks (banks : BitVec 16) (i : SlotId) : Bool :=
  banks.getLsbD (i.val / 256)

/-- The slots of one bank, rising (01 1.5). -/
def slotsOfBank (b : Fin 16) : List SlotId :=
  (List.range 256).map (fun k => Fin.ofNat 4096 (256 * b.val + k))

/-- The slots of a bank set, rising (R4). -/
def slotsOfBanks (banks : BitVec 16) : List SlotId :=
  (List.finRange 16).flatMap (fun b => if banks.getLsbD b.val then slotsOfBank b else [])

/-- How many slots a bank set has (R5). -/
def slotCount (banks : BitVec 16) : Nat :=
  256 * ((List.finRange 16).filter (fun b => banks.getLsbD b.val)).length

/-- The next slot of a bank set after a position, `none` being before the first (R10, R182). -/
def nextSlot (banks : BitVec 16) (position : Option SlotId) : Option SlotId :=
  match position with
  | none => (slotsOfBanks banks).head?
  | some p => (slotsOfBanks banks).find? (fun i => p < i)

/-! ## Windows and banks of domains (01 1.2) -/

/-- The domain holds the page. -/
def Domain.holds (d : Domain) (p : Page) : Bool :=
  d.state != .disabled && d.base.toNat ≤ p.toNat && p.toNat ≤ d.limit.toNat

/-- The domain owns the bank of the slot. -/
def Domain.owns (d : Domain) (i : SlotId) : Bool :=
  d.state != .disabled && inBanks d.banks i

/-- The number of slots in use (R5). -/
def Domain.inUse (d : Domain) : Nat :=
  slotCount d.banks - d.freeList.length

/-- ENABLED or CLOSING: the states in which a domain serves requests (R5). -/
def Domain.serves (d : Domain) : Bool :=
  d.state == .enabled || d.state == .closing

/-- QUARANTINED or SCRUBBING: the states in which a domain is unavailable (R8). -/
def Domain.unavailable (d : Domain) : Bool :=
  d.state == .quarantined || d.state == .scrubbing

/-- Two windows share a page. -/
def windowsMeet (a b : Domain) : Bool :=
  max a.base.toNat b.base.toNat ≤ min a.limit.toNat b.limit.toNat

/-- The domain that holds the page, if one does (R2). -/
def holderOf (s : State) (p : Page) : Option DomainId :=
  (List.finRange 8).find? (fun d => (look s.domains d).holds p)

/-- The domain that owns the bank of the slot, if one does (R2). -/
def ownerOf (s : State) (i : SlotId) : Option DomainId :=
  (List.finRange 8).find? (fun d => (look s.domains d).owns i)

/-! ## One unit of the state replaced -/

def State.setDomain (s : State) (d : DomainId) (x : Domain) : State :=
  { s with domains := put s.domains d x }

def State.setAgent (s : State) (n : AgentId) (x : Agent) : State :=
  { s with session := { s.session with agents := put s.session.agents n x } }

def State.setNotice (s : State) (n : AgentId) (x : NoticeAgent) : State :=
  { s with notice := { s.notice with agents := put s.notice.agents n x } }

def State.setLink (s : State) (n : AgentId) (x : LinkPort) : State :=
  { s with links := put s.links n x }

def State.setGate (s : State) (x : GateUnit) : State :=
  { s with gate := x }

def State.setManagement (s : State) (x : Management) : State :=
  { s with management := x }

def State.setFault (s : State) (x : FaultUnit) : State :=
  { s with fault := x }

def State.domain (s : State) (d : DomainId) : Domain :=
  look s.domains d

def State.agent (s : State) (n : AgentId) : Agent :=
  look s.session.agents n

def State.noticeAgent (s : State) (n : AgentId) : NoticeAgent :=
  look s.notice.agents n

def State.link (s : State) (n : AgentId) : LinkPort :=
  look s.links n

/-! ## A warm restart in progress (R179) -/

/-- The units that have yet to take the warm restart in progress, if one is. -/
def restartDue (s : State) : Option RestartDue :=
  match s.management.command with
  | some (.restarting due) => some due
  | some (.handed _ _ _) | some .searching | some (.answered _ _) | none => none

/-- Link `n` has taken the warm restart in progress, and a unit has yet to take it. -/
def restartedBefore (s : State) (n : AgentId) (unit : RestartDue → Bool) : Bool :=
  match restartDue s with
  | some due => unit due && !look due.links n
  | none => false

/-- A response that reaches link `n` is of before a warm restart that the link has taken (R150, R179): the session unit has yet to
take it, and the request was not accepted under the link's reset number since (R143, log 10). -/
def lateResponse (s : State) (n : AgentId) (stamp : BitVec 8) : Bool :=
  restartedBefore s n RestartDue.session && stamp != (s.link n).resetNumber

/-- A notice that reaches link `n` is of before a warm restart that the link has taken (R150, R179): the notice unit has yet to
take it, and holds nothing of after it (log 10). -/
def lateNotice (s : State) (n : AgentId) : Bool :=
  restartedBefore s n RestartDue.notice

/-! ## Reports of units other than a domain or a link (R169) -/

/-- The management port reports an event. -/
def reportManagement (s : State) (k : EventKind) (d : Option DomainId) (a : Option AgentId) : State :=
  let m := s.management
  { s with management := { m with reports := m.reports ++ [⟨k, d, a, none, none, s.time⟩] } }

/-- The session unit reports an event of an agent. -/
def reportSession (s : State) (k : EventKind) (a : AgentId) : State :=
  { s with session := { s.session with reports := s.session.reports ++ [⟨k, none, some a, none, none, s.time⟩] } }

/-- The notice unit reports an event of an agent. -/
def reportNotice (s : State) (k : EventKind) (a : AgentId) : State :=
  { s with notice := { s.notice with reports := s.notice.reports ++ [⟨k, none, some a, none, none, s.time⟩] } }

/-- A domain reports an event that names the domain alone. -/
def reportDomain (s : State) (k : EventKind) (d : DomainId) : State :=
  s.setDomain d { s.domain d with reports := (s.domain d).reports ++ [⟨k, some d, none, none, none, s.time⟩] }

end Sys2Proof.Machine
end

