-- ==== Sys2Proof/Machine/LockOps.lean ====
section
/-! DEFINITION. The shared operations of the lock table (01 to 03, 09 9.1 and 9.2). An event of a domain works on that domain
and the record pool alone, as the lock table's unit owns nothing else; what it hands to other units it appends to the domain's
queues. An event whose slot read finds an uncorrectable record stops there with the domain QUARANTINED (R167). -/

namespace Sys2Proof.Machine

/-- One domain and the record pool: what an event of the domain works on. -/
structure LockTable where
  dom : Domain
  pool : Pool
  deriving DecidableEq, Repr

/-- What an event of a domain reads besides: which domain it is, the time count, and the wait class table (R38). -/
structure DomainEnv where
  id : DomainId
  now : Time
  waits : Vector (BitVec 16) 6

/-- How a part of an event ends: it goes on with a value, or an uncorrectable read has quarantined the domain (R167). -/
inductive Ran (α : Type) where
  | ok (a : α) (t : LockTable)
  | lost (t : LockTable)

/-- The next part of the event, where the first went on. -/
def Ran.bind {α β : Type} (r : Ran α) (f : α → LockTable → Ran β) : Ran β :=
  match r with
  | .ok a t => f a t
  | .lost t => .lost t

/-- The lock table at the end. -/
def Ran.table {α : Type} (r : Ran α) : LockTable :=
  match r with
  | .ok _ t => t
  | .lost t => t

/-! ## Messages to other units -/

/-- The domain reports an event (R169). -/
def report (e : DomainEnv) (k : EventKind) (agent : Option AgentId) (slot : Option SlotId) (access : Option AccessKind)
    (t : LockTable) : LockTable :=
  { t with dom := { t.dom with reports := t.dom.reports ++ [⟨k, some e.id, agent, slot, access, e.now⟩] } }

/-- The domain hands the notice unit a message (R103). -/
def tell (b : NoticeBody) (t : LockTable) : LockTable :=
  { t with dom := { t.dom with toNotice := t.dom.toNotice ++ [⟨t.dom.era, b⟩] } }

/-- The domain hands the session unit a live report of its own (R20). -/
def reportLive (a : AgentId) (c : LiveChange) (t : LockTable) : LockTable :=
  { t with dom := { t.dom with toSession := t.dom.toSession ++ [.live a c t.dom.era] } }

/-- The domain returns a request's result, with the live report attached to it (R26, R96). -/
def returnResult (q : LockRequest) (r : Response) (c : Option LiveChange) (t : LockTable) : LockTable :=
  { t with dom := { t.dom with toSession := t.dom.toSession ++ [.result q.agent q.stamp r c q.era] } }

/-! ## Quarantine (R7, R167) -/

/-- The agents whose per-agent live count in the domain is above 0 (R7). DESIGN CHOICE (log 32): their subtractions are handed
over in rising agent number; R7 says "for each agent" and gives no order. -/
def liveAgents (d : Domain) : List AgentId :=
  (List.finRange 16).filter (fun a => 0 < look d.live a)

/-- Quarantine entry of an ENABLED or CLOSING domain (R7): each agent's live count handed over as a subtraction, which also
asks for DOMAIN_LOST (log 14), the counts set to 0, and the notice unit told of the loss. Records and collections stay. -/
def quarantine (t : LockTable) : LockTable :=
  if t.dom.serves then
    tell (.loss t.dom.banks)
      { t with dom := { t.dom with
          state := .quarantined
          live := Vector.replicate 16 0
          toSession := t.dom.toSession ++ (liveAgents t.dom).map (fun a => .lost a (look t.dom.live a) t.dom.era) } }
  else t

/-! ## Reads of a slot (09 9.1) -/

/-- What a read of a slot finds: FREE, a record, or an uncorrectable record; with the generation. -/
inductive Probe where
  | free (g : Gen)
  | good (g : Gen) (r : Record)
  | bad (g : Gen)
  deriving DecidableEq, Repr

/-- The agent a RECORD_CORRECTED names: the owner of the slot's record, absent for a FREE slot (R165, R169). DEDUCED (log 29)
for a FREE slot's record, which allocation reads (R37): R166 says "the owner", and a cleared record has none (R16). -/
def correctedOwner (x : Slot) : Option AgentId :=
  if x.directory.free then none else some x.record.owner

/-- The read of a slot's record store (R166): a single bit is corrected, written back and reported; an uncorrectable record is
reported and not used. Answers whether the record can be used. -/
def probeRecord (e : DomainEnv) (i : SlotId) (t : LockTable) : Bool × LockTable :=
  let x := poolGet t.pool i
  match x.health with
  | .clean => (true, t)
  | .oneBit =>
    (true, report e .recordCorrected (correctedOwner x) (some i) none
      { t with pool := poolPut t.pool i { x with health := .clean } })
  | .manyBits => (false, report e .recordUncorrectable none (some i) none t)

/-- The repair of a slot's directory entry whose copies disagree (R165): the value read is written back to all three, and
reported with the owner where the slot is not FREE and its record can be used. -/
def repairDirectory (e : DomainEnv) (i : SlotId) (t : LockTable) : LockTable :=
  let x := poolGet t.pool i
  if x.agrees then t
  else
    let owner := if x.health == .manyBits then none else correctedOwner x
    report e .recordCorrected owner (some i) none { t with pool := poolPut t.pool i (x.withDirectory x.directory) }

/-- The read of a slot: its directory entry, and its record where it is not FREE (R165, R166). -/
def probe (e : DomainEnv) (i : SlotId) (t : LockTable) : Probe × LockTable :=
  let c := (poolGet t.pool i).directory
  let t := repairDirectory e i t
  if c.free then (.free c.gen, t)
  else
    let (usable, t) := probeRecord e i t
    (if usable then .good c.gen (recordOf t.pool i) else .bad c.gen, t)

/-- The read of a record by an event of an ENABLED or CLOSING domain: an uncorrectable one quarantines the domain (R167). -/
def readRecord (e : DomainEnv) (i : SlotId) (t : LockTable) : Ran Record :=
  let (usable, t) := probeRecord e i t
  if usable then .ok (recordOf t.pool i) t else .lost (quarantine t)

/-- The read of a slot by such an event: the generation, and the record where the slot is not FREE (log 8). -/
def readSlot (e : DomainEnv) (i : SlotId) (t : LockTable) : Ran (Gen × Option Record) :=
  match probe e i t with
  | (.free g, t) => .ok (g, none) t
  | (.good g r, t) => .ok (g, some r) t
  | (.bad _, t) => .lost (quarantine t)

/-- The read of every record of a list of slots, in the list's order (log 7). -/
def readAll (e : DomainEnv) : List SlotId → LockTable → Ran (List (SlotId × Record))
  | [], t => .ok [] t
  | i :: rest, t =>
    (readRecord e i t).bind fun r t =>
      (readAll e rest t).bind fun l t => .ok ((i, r) :: l) t

/-- A record written to its slot. -/
def setRecord (i : SlotId) (r : Record) (t : LockTable) : LockTable :=
  { t with pool := writeRecord t.pool i r }

/-! ## Overlap and conflict (02 2.1) -/

/-- The last page of a range, computed without wrapping (R23). -/
def lastPage (first : Page) (count : Nat) : Nat :=
  first.toNat + count - 1

/-- Two ranges overlap when the first page of each is at or below the last page of the other (R23). -/
def overlap (first : Page) (count : Nat) (first' : Page) (count' : Nat) : Bool :=
  first.toNat ≤ lastPage first' count' && first'.toNat ≤ lastPage first count

/-- The hold a record presents (R24). -/
def Record.hold (r : Record) : Option Mode :=
  match r.state with
  | .held | .draining => some r.mode
  | .converting => some .shared
  | .free | .waiting | .ended => none

/-- The claim a record presents (R24). -/
def Record.claim (r : Record) : Option Mode :=
  match r.state with
  | .waiting => some r.mode
  | .converting => some .exclusive
  | .free | .held | .draining | .ended => none

/-- A claim over a range against a hold or claim of a record, `m` being what the record presents (R24). -/
def conflicts (mode : Mode) (first : Page) (count : Nat) (r : Record) (m : Option Mode) : Bool :=
  match m with
  | none => false
  | some m => overlap first count r.first r.count && (mode == .exclusive || m == .exclusive)

/-- The claim conflicts with a hold of the list. -/
def meetsHold (mode : Mode) (first : Page) (count : Nat) (holds : List (SlotId × Record)) : Bool :=
  holds.any (fun p => conflicts mode first count p.2 p.2.hold)

/-- The claim conflicts with a claim of the list. -/
def meetsClaim (mode : Mode) (first : Page) (count : Nat) (claims : List (SlotId × Record)) : Bool :=
  claims.any (fun p => conflicts mode first count p.2 p.2.claim)

/-- The holds other than that of the slot itself (R24). -/
def otherHolds (i : SlotId) (holds : List (SlotId × Record)) : List (SlotId × Record) :=
  holds.filter (fun p => p.1 != i)

/-! ## Tokens (R21, R52) -/

/-- The next token of the domain, for a record of the owner in the slot; taking token 2^40 - 1 sets the exhausted indicator
and reports TOKENS_EXHAUSTED instead of advancing the counter. -/
def takeToken (e : DomainEnv) (owner : AgentId) (i : SlotId) (t : LockTable) : Token × LockTable :=
  let k := t.dom.tokenCounter
  if k = Config.lastToken then
    (k, report e .tokensExhausted (some owner) (some i) none { t with dom := { t.dom with exhausted := true } })
  else (k, { t with dom := { t.dom with tokenCounter := k + 1 } })

/-- A token out of the token map. -/
def dropToken (k : Option Token) (m : List (Token × SlotId)) : List (Token × SlotId) :=
  m.filter (fun p => some p.1 != k)

/-! ## Live counts (R20) -/

def liveUp (a : AgentId) (t : LockTable) : LockTable :=
  { t with dom := { t.dom with live := put t.dom.live a (look t.dom.live a + 1) } }

def liveDown (a : AgentId) (t : LockTable) : LockTable :=
  { t with dom := { t.dom with live := put t.dom.live a (look t.dom.live a - 1) } }

/-! ## Notices of a record (R64, R102, R104) -/

/-- How a post is placed in a record's notice fields, and the fields after (R102). -/
def placeNotice (r : Record) (k : NoticeKind) : Placing × Record :=
  match r.front with
  | none => (.newFront, { r with front := some ⟨k, false⟩ })
  | some f =>
    if f.sent then (.followUp, { r with followUp := some k })
    else
      match r.followUp with
      | none => (.replaceFront, { r with front := some ⟨k, false⟩ })
      | some _ => (.followUp, { r with followUp := some k })

/-- A record notice posted, with the snapshot of R100: the record's cookie, and the token a grant assigned. DESIGN CHOICE (log 36):
the generation in its handle is the majority's, taken without a write-back or a RECORD_CORRECTED, as the directory reads that R165
lists name no post. -/
def post (i : SlotId) (k : NoticeKind) (token : Option Token) (t : LockTable) : LockTable :=
  let r := recordOf t.pool i
  let (p, r') := placeNotice r k
  tell (.post r.owner (handleOf t.pool i) p ⟨k, r.cookie, token⟩ (look t.dom.reclaimed r.owner)) (setRecord i r' t)

/-- The kinds that a release withdraws (R64). -/
def withdrawable : NoticeKind → Bool
  | .granted | .upgraded | .upgradeExpired => true
  | .waitExpired | .revoked => false

/-- The withdrawal of a record's unsent notices at its release (R64); the generation in the handle as in `post` (log 36). -/
def withdraw (i : SlotId) (t : LockTable) : LockTable :=
  let r := recordOf t.pool i
  let h := handleOf t.pool i
  let frontGoes := match r.front with
    | some f => !f.sent && withdrawable f.kind
    | none => false
  let followUpGoes := match r.followUp with
    | some k => withdrawable k
    | none => false
  if frontGoes then tell (.withdrawFront r.owner h) (setRecord i { r with front := none, followUp := none } t)
  else if followUpGoes then tell (.withdrawFollowUp r.owner h) (setRecord i { r with followUp := none } t)
  else t

/-- The clearing of a record's notices by a reclaim (R72): CLEAR is handed where the record had a notice, or is ENDED (R104); the
generation in the handle as in `post` (DESIGN CHOICE, log 36). -/
def clearNotices (i : SlotId) (t : LockTable) : LockTable :=
  let r := recordOf t.pool i
  if r.front.isSome || r.followUp.isSome || r.state == .ended then
    tell (.clear r.owner (handleOf t.pool i)) (setRecord i { r with front := none, followUp := none } t)
  else t

/-! ## Allocation and retirement (R16, R17) -/

/-- The head slot of the free list taken and filled (R17). Its directory entry and its cleared record are read first, so that
a slot whose read fails stays at the head of the free list (R37). -/
def allocate (e : DomainEnv) (i : SlotId) (r : Record) (t : LockTable) : Ran Unit :=
  let t := repairDirectory e i t
  let g := genOf t.pool i
  (readRecord e i t).bind fun _ t =>
    .ok () (liveUp r.owner
      { dom := { t.dom with freeList := t.dom.freeList.tail },
        pool := poolPut t.pool i ({ poolGet t.pool i with record := r, health := .clean }.withDirectory ⟨g, false⟩) })

/-- The retirement of a record (R16): its slot FREE at the next generation with a cleared record, out of every collection, at
the tail of the free list. -/
def retire (e : DomainEnv) (i : SlotId) (t : LockTable) : Ran Unit :=
  (readSlot e i t).bind fun _ t =>
    .ok ()
      { dom := { t.dom with
          waitQueue := dropSlot i t.dom.waitQueue
          occupancy := dropSlot i t.dom.occupancy
          tokenMap := t.dom.tokenMap.filter (fun p => p.2 != i)
          freeList := t.dom.freeList ++ [i] },
        pool := freeSlot t.pool i }

/-- A domain with its collections empty (R22). -/
def emptyCollections (x : Domain) : Domain :=
  { x with freeList := [], waitQueue := [], occupancy := [], tokenMap := [] }

/-- A domain becomes DISABLED with an empty free list (R6); its wait queue, occupancy set and token map, which R6 says are empty
already, are left empty. -/
def becomeDisabled (t : LockTable) : LockTable :=
  { t with dom := { emptyCollections t.dom with state := .disabled, scrubPos := none } }

/-- The close completion of R6, the last step of an event that retires a slot. -/
def completeClose (t : LockTable) : LockTable :=
  if t.dom.state = .closing ∧ t.dom.inUse = 0 then becomeDisabled t else t

/-! ## The grant pass (02 2.5) -/

/-- A record of the wait queue can be granted (R42): its claim conflicts with no hold, its own apart, and with no claim still
waiting ahead of it. -/
def grantable (i : SlotId) (r : Record) (holds ahead : List (SlotId × Record)) : Bool :=
  match r.claim with
  | none => false
  | some m => !meetsHold m r.first r.count (otherHolds i holds) && !meetsClaim m r.first r.count ahead

/-- The grant of a WAITING record (R43). -/
def grantWaiting (e : DomainEnv) (i : SlotId) (r : Record) (t : LockTable) : LockTable :=
  let (k, t) := takeToken e r.owner i t
  let t := setRecord i { r with state := .held, waitDeadline := none, token := some k } t
  post i .granted (some k)
    { t with dom := { t.dom with
        waitQueue := dropSlot i t.dom.waitQueue
        occupancy := insertSlot i t.dom.occupancy
        tokenMap := t.dom.tokenMap ++ [(k, i)] } }

/-- The grant of a CONVERTING record (R44). -/
def grantConverting (e : DomainEnv) (i : SlotId) (r : Record) (t : LockTable) : LockTable :=
  let (k, t) := takeToken e r.owner i t
  let t := setRecord i { r with state := .held, mode := .exclusive, waitDeadline := none, token := some k } t
  post i .upgraded (some k)
    { t with dom := { t.dom with
        waitQueue := dropSlot i t.dom.waitQueue
        tokenMap := dropToken r.token t.dom.tokenMap ++ [(k, i)] } }

/-- The grant of a record of the wait queue. -/
def grantOne (e : DomainEnv) (i : SlotId) (r : Record) (t : LockTable) : LockTable :=
  if r.state = .converting then grantConverting e i r t else grantWaiting e i r t

/-- The walk of the wait queue from a position to its tail (R42); `ahead` is the records nearer the head that still wait. It
ends where a record could be granted and the exhausted indicator is set (R46), or at an uncorrectable read (R48). -/
def passFrom (e : DomainEnv) : List SlotId → List (SlotId × Record) → LockTable → Ran Unit
  | [], _, t => .ok () t
  | i :: rest, ahead, t =>
    (readRecord e i t).bind fun r t =>
      (readAll e t.dom.occupancy t).bind fun holds t =>
        if grantable i r holds ahead then
          if t.dom.exhausted then .ok () t else passFrom e rest ahead (grantOne e i r t)
        else passFrom e rest (ahead ++ [(i, r)]) t

/-- The grant pass of an ENABLED or CLOSING domain (R41). -/
def grantPass (e : DomainEnv) (t : LockTable) : Ran Unit :=
  if t.dom.serves then passFrom e t.dom.waitQueue [] t else .ok () t

/-! ## Draining (03 3.4) -/

/-- The drain limit in milliseconds (R67). -/
def drainTime (d : Domain) : Time :=
  d.drainLimit.setWidth 32 * 10

/-- Entry to DRAINING (R67). -/
def enterDraining (e : DomainEnv) (i : SlotId) (t : LockTable) : LockTable :=
  let r := recordOf t.pool i
  setRecord i { r with state := .draining, drainDeadline := some (e.now + drainTime t.dom) } t

/-- Departure from DRAINING (R68), without its grant pass: ENDED with a front notice pending, else retired. -/
def leaveDraining (e : DomainEnv) (i : SlotId) (t : LockTable) : Ran Unit :=
  let r := recordOf t.pool i
  let t := setRecord i { r with drainDeadline := none }
    { t with dom := { t.dom with occupancy := dropSlot i t.dom.occupancy } }
  if r.front.isSome then .ok () (setRecord i { r with drainDeadline := none, state := .ended } t)
  else retire e i t

/-- Departure from DRAINING with its grant pass and the close completion (R68). -/
def endDrain (e : DomainEnv) (i : SlotId) (t : LockTable) : Ran Unit :=
  (leaveDraining e i t).bind fun _ t =>
    (grantPass e t).bind fun _ t => .ok () (completeClose t)

/-! ## Release (03 3.3) -/

/-- The first part of the release of a HELD or CONVERTING record (R63): out of the wait queue, its token out of the token map. -/
def unhold (i : SlotId) (r : Record) (t : LockTable) : LockTable :=
  setRecord i { r with waitDeadline := none, mode := if r.state = .converting then .shared else r.mode }
    { t with dom := { t.dom with
        waitQueue := dropSlot i t.dom.waitQueue
        tokenMap := dropToken r.token t.dom.tokenMap } }

/-- What a REVOKE_RECORD does between the withdrawal and the entry to DRAINING: the −1 report, and REVOKED posted to an ONLINE
owner (R66). A RELEASE, for which `revoked` is absent, attaches its −1 to its result instead (log 16). -/
def reportRevocation (i : SlotId) (owner : AgentId) (revoked : Option Bool) (t : LockTable) : LockTable :=
  match revoked with
  | none => t
  | some true => post i .revoked none (reportLive owner .down t)
  | some false => reportLive owner .down t

/-- The release of a HELD or CONVERTING record (R63). `revoked` is absent for a RELEASE; for a REVOKE_RECORD it says whether the
owner is ONLINE (R66). -/
def releaseHeld (e : DomainEnv) (i : SlotId) (r : Record) (revoked : Option Bool) (t : LockTable) : Ran Unit :=
  let t := enterDraining e i (reportRevocation i r.owner revoked (liveDown r.owner (withdraw i (unhold i r t))))
  if r.reads = 0 ∧ r.writes = 0 then endDrain e i t
  else if r.state = .converting then grantPass e t
  else .ok () t

/-- The cancel of a WAITING record (R62). -/
def cancel (e : DomainEnv) (i : SlotId) (r : Record) (t : LockTable) : Ran Unit :=
  let t := liveDown r.owner { t with dom := { t.dom with waitQueue := dropSlot i t.dom.waitQueue } }
  (retire e i t).bind fun _ t =>
    (grantPass e t).bind fun _ t => .ok () (completeClose t)

/-! ## Reclaim (03 3.6) -/

/-- The visit of one record of a reclaimed agent (R72). -/
def reclaimVisit (e : DomainEnv) (i : SlotId) (t : LockTable) : Ran Unit :=
  (readRecord e i t).bind fun r t =>
    match r.state with
    | .waiting =>
      retire e i (reportLive r.owner .down (liveDown r.owner
        { t with dom := { t.dom with waitQueue := dropSlot i t.dom.waitQueue } }))
    | .held | .converting =>
      let t := enterDraining e i (reportLive r.owner .down (liveDown r.owner (clearNotices i (unhold i r t))))
      if r.reads = 0 ∧ r.writes = 0 then leaveDraining e i t else .ok () t
    | .draining => .ok () (clearNotices i t)
    | .ended => retire e i (clearNotices i t)
    | .free => .ok () t

/-- The visits of a reclaim, in the order given; an uncorrectable read ends them (R73). -/
def reclaimAll (e : DomainEnv) : List SlotId → LockTable → Ran Unit
  | [], t => .ok () t
  | i :: rest, t => (reclaimVisit e i t).bind fun _ t => reclaimAll e rest t

/-- The slots of the domain that hold a record of the agent, rising (R72). DESIGN CHOICE (log 39): they are found by the owner as it
was written, without a checked read, so that only records of the agent are read, each at its visit. -/
def slotsOwnedBy (a : AgentId) (t : LockTable) : List SlotId :=
  (t.pool.filter (fun p => inBanks t.dom.banks p.1 && !p.2.directory.free && p.2.record.owner == a)).map Prod.fst

/-- A reclaim of an agent in an ENABLED or CLOSING domain (R72, R73). -/
def reclaimAgent (e : DomainEnv) (a : AgentId) (t : LockTable) : Ran Unit :=
  (reclaimAll e (slotsOwnedBy a t) t).bind fun _ t =>
    (grantPass e t).bind fun _ t => .ok () (completeClose t)

/-! ## The handle checks (R54, R65) -/

/-- Checks 1 to 4 of R54, which R65 shares but for its names: the domain still owns the bank (R2), it is available, the slot can
be read, it is not FREE and its generation matches. -/
def currentRecord (e : DomainEnv) (h : Handle) (t : LockTable) : Ran (Except ResultRefusal Record) :=
  if !t.dom.owns h.slot then .ok (.error .staleHandle) t
  else if t.dom.unavailable then .ok (.error .domainUnavailable) t
  else
    (readSlot e h.slot t).bind fun x t =>
      match x with
      | (_, none) => .ok (.error .staleHandle) t
      | (g, some r) => if g = h.gen then .ok (.ok r) t else .ok (.error .staleHandle) t

/-- The handle checks of a request (R54). -/
def requestedRecord (e : DomainEnv) (a : AgentId) (h : Handle) (t : LockTable) : Ran (Except ResultRefusal Record) :=
  (currentRecord e h t).bind fun x t =>
    match x with
    | .error c => .ok (.error c) t
    | .ok r => if r.owner = a then .ok (.ok r) t else .ok (.error .notOwner) t

/-! ## Waiting (R38, R40) -/

/-- The wait deadline of a wait code: the time count plus the duration of the wait class, absent for 0 and 7 (R38). -/
def waitDeadlineOf (e : DomainEnv) (code : WaitCode) : Option Time :=
  if h : 1 ≤ code.val ∧ code.val ≤ 6 then
    some (e.now + (look e.waits ⟨code.val - 1, by omega⟩).setWidth 32)
  else none

/-- The position of a slot in a list counted from 1, or 0 (R40). -/
def positionIn (i : SlotId) : List SlotId → Nat
  | [] => 0
  | j :: rest => if j = i then 1 else match positionIn i rest with
    | 0 => 0
    | n + 1 => n + 2

/-- The queue position a record reports (R40, R158). -/
def queuePosition (i : SlotId) (r : Record) (t : LockTable) : Nat :=
  match r.state with
  | .waiting | .converting => positionIn i t.dom.waitQueue
  | .free | .held | .draining | .ended => 0

/-! ## An event of a domain within the part -/

/-- What an event of domain `d` reads besides its own state. -/
def envOf (s : State) (d : DomainId) : DomainEnv :=
  { id := d, now := s.time, waits := s.management.waits }

/-- The walk of a domain that becomes DISABLED is ended, and with it a search in progress (R6, R11, R182). -/
def endWalk (m : Management) (d : DomainId) : Management :=
  match m.cursor with
  | .walking w _ _ =>
    if w = d then
      { m with
        cursor := .ended
        command := match m.command with
          | some .searching => some (.answered .walkNext .walkEnd)
          | c => c }
    else m
  | .none | .ended => m

/-- One domain and the pool replaced by what an event of the domain made of them; a walk of a domain that has become DISABLED
is ended. -/
def State.withTable (s : State) (d : DomainId) (t : LockTable) : State :=
  { s with
    domains := put s.domains d t.dom
    pool := t.pool
    management := if t.dom.state = .disabled ∧ (s.domain d).state ≠ .disabled then endWalk s.management d else s.management }

/-- Domain `d` and the pool. -/
def State.table (s : State) (d : DomainId) : LockTable :=
  { dom := s.domain d, pool := s.pool }

end Sys2Proof.Machine
end

