-- ==== Sys2Proof/Machine/DomainEvents.lean ====
section
/-! DEFINITION. The events of a domain that carry no request of an agent (02 2.6, 03 3.4 to 3.6, 05, 06 6.3 and 6.4): wait expiry,
drain overrun, reclaim, the notice unit's claims, acknowledgements and reversions, CHECK and DONE. -/

namespace Sys2Proof.Machine

/-! ## Timers -/

/-- The expiry of a wait (R49 for a WAITING record, R50 for a CONVERTING one). -/
def waitExpire (e : DomainEnv) (i : SlotId) (t : LockTable) : Ran Unit :=
  (readRecord e i t).bind fun r t =>
    match r.state with
    | .waiting =>
      let t := setRecord i { r with state := .ended, waitDeadline := none, token := none }
        { t with dom := { t.dom with waitQueue := dropSlot i t.dom.waitQueue } }
      grantPass e (post i .waitExpired none (reportLive r.owner .down (liveDown r.owner t)))
    | .converting =>
      let t := setRecord i { r with state := .held, mode := .shared, waitDeadline := none }
        { t with dom := { t.dom with waitQueue := dropSlot i t.dom.waitQueue } }
      grantPass e (post i .upgradeExpired none t)
    | .free | .held | .draining | .ended => .ok () t

/-- WAIT_EXPIRY of the record in a slot: taken at or after its wait deadline, in a domain that serves (R7, R39). -/
def execWaitExpiry (slot : SlotId) (s : State) : Host.Outcome State Fault Refusal :=
  match ownerOf s slot with
  | some d =>
    if (s.domain d).serves && dueAt s.time (recordOf s.pool slot).waitDeadline then
      .next (s.withTable d (waitExpire (envOf s d) slot (s.table d)).table)
    else .next s
  | none => .next s

/-- The drain overrun of a record (R69). -/
def drainOverrun (e : DomainEnv) (i : SlotId) (t : LockTable) : Ran Unit :=
  (readRecord e i t).bind fun r t =>
    if r.state = .draining then
      endDrain e i (report e .drainOverrun (some r.owner) (some i) none (setRecord i { r with reads := 0, writes := 0 } t))
    else .ok () t

/-- DRAIN_OVERRUN of the record in a slot: taken at or after its drain deadline, in a domain that serves (R7, R69). -/
def execDrainOverrun (slot : SlotId) (s : State) : Host.Outcome State Fault Refusal :=
  match ownerOf s slot with
  | some d =>
    if (s.domain d).serves && dueAt s.time (recordOf s.pool slot).drainDeadline then
      .next (s.withTable d (drainOverrun (envOf s d) slot (s.table d)).table)
    else .next s
  | none => .next s

/-! ## Reclaim -/

/-- A reclaim as a domain takes it: ignored in DISABLED, QUARANTINED and SCRUBBING (R72, R8). The domain notes its number
(log 11). -/
def takeReclaim (e : DomainEnv) (a : AgentId) (number : Nat) (t : LockTable) : LockTable :=
  let t := { t with dom := { t.dom with
    fromSession := t.dom.fromSession.tail
    reclaimed := put t.dom.reclaimed a number } }
  if t.dom.serves then (reclaimAgent e a t).table else t

/-- RECLAIM (R72). -/
def execReclaim (d : DomainId) (s : State) : Host.Outcome State Fault Refusal :=
  match (s.domain d).fromSession with
  | .reclaim a number :: _ => .next (s.withTable d (takeReclaim (envOf s d) a number (s.table d)))
  | _ => .next s

/-! ## What the notice unit presents (05 5.5, 5.6, 5.7) -/

/-- The domain with the head of the notice unit's items taken. -/
def popNotice (t : LockTable) : LockTable :=
  { t with dom := { t.dom with fromNotice := t.dom.fromNotice.tail } }

/-- The read of a handle the notice unit presents: the record where the domain serves, owns the bank and the handle is
current, else none. -/
def presentedRecord (e : DomainEnv) (h : Handle) (t : LockTable) : Ran (Option Record) :=
  if t.dom.serves && t.dom.owns h.slot then
    (readSlot e h.slot t).bind fun x t =>
      match x with
      | (g, some r) => .ok (if g = h.gen then some r else none) t
      | (_, none) => .ok none t
  else .ok none t

/-- A claim granted marks the record's front notice sent; every other claim is declined (R107). -/
def takeClaim (e : DomainEnv) (a : AgentId) (h : Handle) (t : LockTable) : LockTable :=
  match presentedRecord e h t with
  | .lost t => tell (.answer a h false) t
  | .ok none t => tell (.answer a h false) t
  | .ok (some r) t =>
    match r.front with
    | some f =>
      if f.sent then tell (.answer a h false) t
      else tell (.answer a h true) (setRecord h.slot { r with front := some ⟨f.kind, true⟩ } t)
    | none => tell (.answer a h false) t

/-- CLAIM (R107). -/
def execClaim (dest : Option DomainId) (s : State) : Host.Outcome State Fault Refusal :=
  match dest with
  | some d =>
    match (s.domain d).fromNotice with
    | .claim a h :: _ => .next (s.withTable d (takeClaim (envOf s d) a h (popNotice (s.table d))))
    | _ => .next s
  | none =>
    match s.noDomain.asks with
    | .claim a h :: rest =>
      .next { s with noDomain := { s.noDomain with
        asks := rest, toNotice := s.noDomain.toNotice ++ [⟨s.notice.era, .answer a h false⟩] } }
    | _ => .next s

/-- The front notice of a record cleared: a follow-up becomes the front, unsent (R71). -/
def promoteFollowUp (r : Record) : Record :=
  match r.followUp with
  | some k => { r with front := some ⟨k, false⟩, followUp := none }
  | none => { r with front := none }

/-- A presented acknowledgement (R71, R110): taken where the record's front notice is sent; an ENDED record with no notice left
retires. -/
def takeAcknowledgement (e : DomainEnv) (a : AgentId) (h : Handle) (t : LockTable) : LockTable :=
  match presentedRecord e h t with
  | .lost t => tell (.outcome a h .notTaken) t
  | .ok none t => tell (.outcome a h .notTaken) t
  | .ok (some r) t =>
    match r.front with
    | some f =>
      if f.sent then
        let t := setRecord h.slot (promoteFollowUp r) t
        if r.followUp.isSome then tell (.outcome a h .promoted) t
        else if r.state = .ended then
          match retire e h.slot t with
          | .ok _ t => completeClose (tell (.outcome a h .removed) t)
          | .lost t => tell (.outcome a h .notTaken) t
        else tell (.outcome a h .removed) t
      else tell (.outcome a h .notTaken) t
    | none => tell (.outcome a h .notTaken) t

/-- PRESENTED_ACKNOWLEDGEMENT (R110). -/
def execPresentedAcknowledgement (dest : Option DomainId) (s : State) : Host.Outcome State Fault Refusal :=
  match dest with
  | some d =>
    match (s.domain d).fromNotice with
    | .acknowledge a h :: _ => .next (s.withTable d (takeAcknowledgement (envOf s d) a h (popNotice (s.table d))))
    | _ => .next s
  | none =>
    match s.noDomain.asks with
    | .acknowledge a h :: rest =>
      .next { s with noDomain := { s.noDomain with
        asks := rest, toNotice := s.noDomain.toNotice ++ [⟨s.notice.era, .outcome a h .notTaken⟩] } }
    | _ => .next s

/-- A reversion: a sent front notice becomes unsent (R114). -/
def takeReversion (e : DomainEnv) (h : Handle) (t : LockTable) : LockTable :=
  match presentedRecord e h t with
  | .lost t => t
  | .ok none t => t
  | .ok (some r) t =>
    match r.front with
    | some f => setRecord h.slot { r with front := some ⟨f.kind, false⟩ } t
    | none => t

/-- REVERSION (R114). -/
def execReversion (dest : Option DomainId) (s : State) : Host.Outcome State Fault Refusal :=
  match dest with
  | some d =>
    match (s.domain d).fromNotice with
    | .revert h :: _ => .next (s.withTable d (takeReversion (envOf s d) h (popNotice (s.table d))))
    | _ => .next s
  | none =>
    match s.noDomain.asks with
    | .revert _ :: rest => .next { s with noDomain := { s.noDomain with asks := rest } }
    | _ => .next s

/-! ## CHECK (06 6.3) -/

/-- The page count of a CHECK, 1 to 256. -/
def checkPages (c : Check) : Nat :=
  c.extra.toNat + 1

/-- The record in-flight count of a kind (R124). -/
def inFlight (r : Record) (k : AccessKind) : Nat :=
  match k with
  | .read => r.reads
  | .write => r.writes

/-- The record with the count of a kind replaced. -/
def withInFlight (r : Record) (k : AccessKind) (n : Nat) : Record :=
  match k with
  | .read => { r with reads := n }
  | .write => { r with writes := n }

/-- The slot a token maps to (R123). -/
def tokenSlot (k : Token) (m : List (Token × SlotId)) : Option SlotId :=
  (m.find? (fun p => p.1 == k)).map Prod.snd

/-- The checks of R123 and R124 against the record in slot `i`. DESIGN CHOICE (log 36): the generation of an ADMIT's ticket is
the one the directory's majority gives, taken without a write-back or a RECORD_CORRECTED, as the directory reads that R165 lists
name no CHECK. -/
def checkRecord (c : Check) (i : SlotId) (r : Record) (t : LockTable) : Verdict × LockTable :=
  if r.owner ≠ c.agent then (.refused .owner, t)
  else if c.kind = .write ∧ r.mode = .shared then (.refused .mode, t)
  else if c.first.toNat < r.first.toNat ∨ lastPage r.first r.count < lastPage c.first (checkPages c) then (.refused .cover, t)
  else if Config.maxInFlight ≤ inFlight r c.kind then (.refused .countFull, t)
  else (.admitted ⟨c.kind, handleOf t.pool i⟩, setRecord i (withInFlight r c.kind (inFlight r c.kind + 1)) t)

/-- The decision of a CHECK by the domain it was presented to (R2, R120 to R125). -/
def decideCheck (e : DomainEnv) (p : PresentedCheck) (t : LockTable) : Verdict × LockTable :=
  let c := p.check
  if !t.dom.holds c.first || t.dom.limit.toNat < lastPage c.first (checkPages c) then (.refused .noDomain, t)
  else if t.dom.unavailable then (.refused .domainUnavailable, t)
  else if c.token = 0 then
    if c.kind = .read ∧ t.dom.policy = .writeGuarded then (.admitUntracked, t) else (.refused .token, t)
  else if p.state ≠ .online then (.refused .agent, t)
  else if c.epoch ≠ p.epoch then (.refused .epoch, t)
  else
    match tokenSlot c.token t.dom.tokenMap with
    | none => (.refused .token, t)
    | some i =>
      match readRecord e i t with
      | .lost t => (.refused .domainUnavailable, t)
      | .ok r t => checkRecord c i r t

/-- A CHECK taken by a domain, its verdict returned to the gate unit (R119). -/
def takeCheck (e : DomainEnv) (p : PresentedCheck) (t : LockTable) : LockTable :=
  let t := { t with dom := { t.dom with checks := t.dom.checks.tail } }
  let (v, t) := decideCheck e p t
  { t with dom := { t.dom with verdicts := t.dom.verdicts ++ [(p.place, v)] } }

/-- CHECK (R119); one that resolved to no domain is decided G_NO_DOMAIN without one. -/
def execCheck (dest : Option DomainId) (s : State) : Host.Outcome State Fault Refusal :=
  match dest with
  | some d =>
    match (s.domain d).checks with
    | p :: _ => .next (s.withTable d (takeCheck (envOf s d) p (s.table d)))
    | [] => .next s
  | none =>
    match s.noDomain.checks with
    | p :: rest =>
      .next { s with noDomain := { s.noDomain with
        checks := rest, verdicts := s.noDomain.verdicts ++ [(p.place, .refused .noDomain)] } }
    | [] => .next s

/-! ## DONE (06 6.4) -/

/-- A DONE against a record of the domain: stray, or its count falls by 1, which may end a drain (R127). -/
def decideDone (e : DomainEnv) (k : Ticket) (t : LockTable) : Ran Unit :=
  if !t.dom.owns k.handle.slot || t.dom.unavailable then .ok () t
  else
    (readSlot e k.handle.slot t).bind fun x t =>
      match x with
      | (_, none) => .ok () (report e .strayDone none (some k.handle.slot) (some k.kind) t)
      | (g, some r) =>
        if g ≠ k.handle.gen ∨ inFlight r k.kind = 0 then
          .ok () (report e .strayDone none (some k.handle.slot) (some k.kind) t)
        else
          let r' := withInFlight r k.kind (inFlight r k.kind - 1)
          let t := setRecord k.handle.slot r' t
          if r.state = .draining ∧ r'.reads = 0 ∧ r'.writes = 0 then endDrain e k.handle.slot t else .ok () t

/-- DONE (R127). -/
def execDone (d : DomainId) (s : State) : Host.Outcome State Fault Refusal :=
  match (s.domain d).dones with
  | k :: _ =>
    let t := s.table d
    .next (s.withTable d (decideDone (envOf s d) k { t with dom := { t.dom with dones := t.dom.dones.tail } }).table)
  | [] => .next s

end Sys2Proof.Machine
end

