-- ==== Sys2Proof/Machine/Gate.lean ====
section
/-! DEFINITION. The gate unit (06): acceptance and flow control, the CHECK, verdict and DONE queues. -/

namespace Sys2Proof.Machine

/-! ## Acceptance (R116) -/

/-- There is a place for the message in its queue. -/
def GateUnit.hasRoom (g : GateUnit) : GateMsg → Bool
  | .check _ => g.checkQueue.length < Config.gatePlaces
  | .done _ => g.doneQueue.length < Config.gatePlaces

/-- The message appended to its queue. -/
def GateUnit.append (g : GateUnit) : GateMsg → GateUnit
  | .check c => { g with checkQueue := g.checkQueue ++ [c] }
  | .done m => { g with doneQueue := g.doneQueue ++ [m] }

/-- Messages presented in order, each accepted while it has a place; the first that has none waits, and those behind it wait
with it (R116). -/
def acceptFrom (g : GateUnit) : List GateMsg → GateUnit
  | [] => { g with port := [] }
  | m :: rest => if g.hasRoom m then acceptFrom (g.append m) rest else { g with port := m :: rest }

/-- The messages waiting on the port accepted as far as places have become free (R116, R117, R126). -/
def GateUnit.settle (g : GateUnit) : GateUnit :=
  acceptFrom g g.port

/-- A message presented on GD_IN (R116). -/
def GateUnit.offer (g : GateUnit) (m : GateMsg) : GateUnit :=
  acceptFrom g (g.port ++ [m])

/-- GD_IN_READY while the message is the one presented on GD_IN: deasserted while the queue of its kind is full (R116). A message
behind one that waits is not presented yet. After a cold reset it is asserted for either kind (R116, R131). -/
def GateUnit.ready (g : GateUnit) (m : GateMsg) : Bool :=
  g.hasRoom m

/-- CHECK_ACCEPT (R116). -/
def execCheckAccept (c : Check) (s : State) : Host.Outcome State Fault Refusal :=
  .next (s.setGate (s.gate.offer (.check c)))

/-- DONE_ACCEPT (R116). -/
def execDoneAccept (m : Done) (s : State) : Host.Outcome State Fault Refusal :=
  .next (s.setGate (s.gate.offer (.done m)))

/-- GATE_WORD_DISCARD: the word is taken and discarded, with no event (R163). -/
def execGateWordDiscard (_w : Word) (s : State) : Host.Outcome State Fault Refusal :=
  .next s

/-! ## CHECKs (R117, R118) -/

/-- CHECK_TAKE: the head CHECK moves into a verdict place; in SETUP its verdict is G_NOT_READY, in ACTIVE the session unit is
asked for the agent's state and epoch (R117). With no CHECK to take, a message presented since before a cold reset is accepted
(log 17). -/
def execCheckTake (s : State) : Host.Outcome State Fault Refusal :=
  match s.gate.checkQueue with
  | c :: rest =>
    if s.gate.verdictQueue.length < Config.gatePlaces then
      let k := s.gate.nextPlace
      let g : GateUnit := { s.gate with checkQueue := rest, nextPlace := k + 1 }
      let g : GateUnit := match s.management.mode with
        | .setup => { g with verdictQueue := g.verdictQueue ++ [⟨k, c, some (.refused .notReady)⟩] }
        | .active => { g with verdictQueue := g.verdictQueue ++ [⟨k, c, none⟩], reads := g.reads ++ [(k, c.agent)] }
      .next (s.setGate g.settle)
    else .next s
  | [] => .next (s.setGate s.gate.settle)

/-- The CHECK of a place that is still undecided. -/
def undecided (k : Nat) (q : List Place) : Option Check :=
  (q.find? (fun p => p.number == k && p.verdict.isNone)).map Place.check

/-- CHECK_PRESENT: the read returned, the CHECK presented to the domain that holds its first page, or to the lock table where
none does (R2, R117, R119). A read that returns for a place already decided by a restart is discarded (R131). -/
def execCheckPresent (s : State) : Host.Outcome State Fault Refusal :=
  match s.gate.answers with
  | (k, st, epoch) :: rest =>
    let s := s.setGate { s.gate with answers := rest }
    match undecided k s.gate.verdictQueue with
    | none => .next s
    | some c =>
      match holderOf s c.first with
      | some d => .next (s.setDomain d { s.domain d with checks := (s.domain d).checks ++ [⟨k, c, st, epoch⟩] })
      | none => .next { s with noDomain := { s.noDomain with checks := s.noDomain.checks ++ [⟨k, c, st, epoch⟩] } }
  | [] => .next s

/-- A verdict placed in its CHECK's place, where that is still undecided (R118, R131). -/
def placeVerdict (k : Nat) (v : Verdict) (q : List Place) : List Place :=
  q.map (fun p => if p.number = k ∧ p.verdict = none then { p with verdict := some v } else p)

/-- VERDICT_PLACE: the verdict at the head of what a domain, or the lock table without one, has returned (R119). -/
def execVerdictPlace (src : Option DomainId) (s : State) : Host.Outcome State Fault Refusal :=
  match src with
  | some d =>
    match (s.domain d).verdicts with
    | (k, v) :: rest =>
      .next ((s.setDomain d { s.domain d with verdicts := rest }).setGate
        { s.gate with verdictQueue := placeVerdict k v s.gate.verdictQueue })
    | [] => .next s
  | none =>
    match s.noDomain.verdicts with
    | (k, v) :: rest =>
      .next { s with
        noDomain := { s.noDomain with verdicts := rest }
        gate := { s.gate with verdictQueue := placeVerdict k v s.gate.verdictQueue } }
    | [] => .next s

/-- The verdict offered on GD_OUT: that of the head place, when present (R118). -/
def GateUnit.offered (g : GateUnit) : Option Verdict :=
  match g.verdictQueue with
  | p :: _ => p.verdict
  | [] => none

/-- VERDICT_ACCEPT: the storage controller accepts the verdict offered, and its place leaves (R118). -/
def execVerdictAccept (s : State) : Host.Outcome State Fault Refusal :=
  match s.gate.offered with
  | some v => .next (s.setGate { s.gate with verdictQueue := s.gate.verdictQueue.tail, lastVerdict := some v })
  | none => .next s

/-! ## DONEs (R126) -/

/-- DONE_DISPATCH: a null ticket, or a ticket whose bank no domain owns, is discarded without an event; otherwise the DONE is
handed to the domain that owns the bank. Its place in the DONE queue is free (R126). With no DONE to dispatch, a message
presented since before a cold reset is accepted (log 17). -/
def execDoneDispatch (s : State) : Host.Outcome State Fault Refusal :=
  match s.gate.doneQueue with
  | m :: rest =>
    let s := s.setGate { s.gate with doneQueue := rest }.settle
    match m with
    | .null => .next s
    | .ticket k =>
      match ownerOf s k.handle.slot with
      | some d => .next (s.setDomain d { s.domain d with dones := (s.domain d).dones ++ [k] })
      | none => .next s
  | [] => .next (s.setGate s.gate.settle)

end Sys2Proof.Machine
end

