-- ==== Sys2Proof/Machine/Link.lean ====
section
/-! DEFINITION. The link ports (07): link states, alignment, the transmit and receive sides, the link reset and the choice of the
next frame. An event of a link port works on that port alone; what it hands other units it leaves in the port. -/

namespace Sys2Proof.Machine

/-- What an event of a link port reads besides the port: its link, the time count and the link watchdog period (R149). -/
structure LinkEnv where
  id : AgentId
  now : Time
  period : Time

/-- The port reports an event, carrying the agent of the link (R169). -/
def linkReport (e : LinkEnv) (k : EventKind) (p : LinkPort) : LinkPort :=
  { p with reports := p.reports ++ [⟨k, none, some e.id, none, none, e.now⟩] }

/-! ## Alignment attempts, link resets -/

/-- A fresh alignment attempt (R133). -/
def freshAttempt (e : LinkEnv) : Attempt :=
  { idles := 0, aligned := false, ownSent := false, peer := none, deadline := e.now + e.period }

/-- The attempt started afresh (R133). -/
def restartAttempt (e : LinkEnv) (p : LinkPort) : LinkPort :=
  { p with attempt := some (freshAttempt e) }

/-- Where a link reset leaves the link state and the attempt (R145). -/
def afterReset (e : LinkEnv) (p : LinkPort) : LinkPort :=
  match p.state with
  | .active => { p with state := .aligning, attempt := some (freshAttempt e), watchdog := none }
  | .aligning => { p with attempt := p.attempt.map (fun a => { a with ownSent := false }) }
  | .down => p

/-- A link reset (R145). The corrupt word count is not among its items and is kept (log 18). -/
def linkReset (e : LinkEnv) (p : LinkPort) : LinkPort :=
  afterReset e { p with
    retry := []
    responses := []
    notice := none
    rxQueue := []
    txSeq := 0
    oldest := 0
    rxExpect := 0
    replayCount := 0
    replayPos := none
    replayDeadline := none
    ackOwed := false
    nakOwed := false
    nakSent := false
    resetPending := true
    resetNumber := p.resetNumber + 1
    resetNotice := some (p.resetNumber + 1)
    noticeResets := p.noticeResets + 1 }

/-- An ACTIVE link enters ALIGNING with a fresh attempt, every item not named being kept (R135, R136, R141). -/
def enterAligning (e : LinkEnv) (p : LinkPort) : LinkPort :=
  { p with
    state := .aligning
    attempt := some (freshAttempt e)
    watchdog := none
    replayDeadline := none
    replayPos := none
    replayCount := 0
    ackOwed := false
    nakOwed := false
    nakSent := false }

/-- An ACTIVE link enters ALIGNING with LINK_RETRAIN (R135, R141). -/
def retrain (e : LinkEnv) (p : LinkPort) : LinkPort :=
  linkReport e .linkRetrain (enterAligning e p)

/-- A link enters DOWN (R132). -/
def enterDown (p : LinkPort) : LinkPort :=
  { p with
    state := .down
    attempt := none
    watchdog := none
    replayDeadline := none
    replayPos := none
    replayCount := 0
    corruptWords := 0
    ackOwed := false
    nakOwed := false
    nakSent := false }

/-! ## The retry buffer (R139, R140) -/

/-- The number lies from oldest unacknowledged through transmit sequence, modulo 64 (R134, R140). -/
def inRange (n : Seq) (p : LinkPort) : Bool :=
  (n - p.oldest).toNat ≤ (p.txSeq - p.oldest).toNat

/-- The replay position after the frames before `n` are freed: one that was freed moves to the new oldest entry (R139). -/
def replayAfter (n : Seq) (p : LinkPort) (rest : List RetryEntry) : Option Seq :=
  match p.replayPos with
  | none => none
  | some r =>
    if (r - p.oldest).toNat < (n - p.oldest).toNat then (if rest.isEmpty then none else some n) else some r

/-- The frames of the retry buffer before `n` freed; oldest unacknowledged becomes `n`. -/
def freeBefore (n : Seq) (p : LinkPort) : LinkPort :=
  let rest := p.retry.drop (n - p.oldest).toNat
  { p with retry := rest, oldest := n, replayPos := replayAfter n p rest }

/-- The replay deadline a non-empty retry buffer carries after progress or a replay: now + 1 ms. -/
def replayDeadlineFor (e : LinkEnv) (retry : List RetryEntry) : Option Time :=
  if retry.isEmpty then none else some (e.now + 1)

/-- Progress (R139). -/
def progress (e : LinkEnv) (p : LinkPort) : LinkPort :=
  { p with replayCount := 0, replayDeadline := replayDeadlineFor e p.retry }

/-- An acknowledgement number taken (R139). -/
def takeAck (e : LinkEnv) (a : Seq) (p : LinkPort) : LinkPort :=
  if (a - p.oldest).toNat < (p.txSeq - p.oldest).toNat then progress e (freeBefore (a + 1) p) else p

/-- A replay from `n` (R140, R141). -/
def replayFrom (e : LinkEnv) (n : Seq) (p : LinkPort) : LinkPort :=
  { p with replayPos := some n, replayCount := p.replayCount + 1, replayDeadline := some (e.now + 1) }

/-- A replay from `n`, or a replay rollover after four replays without progress (R140, R141). -/
def replayOrRollover (e : LinkEnv) (n : Seq) (p : LinkPort) : LinkPort :=
  if p.replayCount < Config.maxReplays then replayFrom e n p else retrain e p

/-- A NAK taken in ACTIVE (R140). -/
def takeNak (e : LinkEnv) (n : Seq) (p : LinkPort) : LinkPort :=
  if !inRange n p then linkReport e .linkProtocol (linkReset e p)
  else
    let q := if n = p.oldest then p else progress e (freeBefore n p)
    if n = p.txSeq then q else replayOrRollover e n q

/-! ## Completion of an attempt (R134) -/

/-- The completion proper: the frames before `n` freed, the rest to be replayed, the link ACTIVE. -/
def complete (e : LinkEnv) (n : Seq) (p : LinkPort) : LinkPort :=
  let rest := p.retry.drop (n - p.oldest).toNat
  { p with
    retry := rest
    oldest := n
    replayPos := if rest.isEmpty then none else some n
    replayCount := 0
    replayDeadline := replayDeadlineFor e rest
    resetPending := false
    watchdog := some (e.now + e.period)
    attempt := none
    state := .active }

/-- The steps taken when an attempt is aligned, has sent its RESYNC and has recorded a peer RESYNC: an unflagged one does not
complete while reset pending is yes; a flagged one makes a link reset where it is no; an out-of-range one makes a link reset
with LINK_PROTOCOL and a fresh attempt (R134). -/
def tryComplete (e : LinkEnv) (p : LinkPort) : LinkPort :=
  match p.state, p.attempt with
  | .aligning, some ⟨_, true, true, some (n, flag), _⟩ =>
    if p.resetPending && !flag then p
    else if flag && !p.resetPending then linkReset e p
    else if inRange n p then complete e n p
    else restartAttempt e (linkReport e .linkProtocol (linkReset e p))
  | _, _ => p

/-- The port sends its own RESYNC in an attempt (R133). -/
def sendResync (p : LinkPort) : LinkPort :=
  { p with
    attempt := p.attempt.map (fun a => { a with ownSent := true })
    lastFrame := some (.resync p.rxExpect p.resetPending) }

/-! ## Words and frames received -/

/-- A valid word, in ACTIVE: the watchdog moves and the corrupt word count is 0 (R135). -/
def validWord (e : LinkEnv) (p : LinkPort) : LinkPort :=
  { p with watchdog := some (e.now + e.period), corruptWords := 0 }

/-- A valid word in ALIGNING that is neither IDLE nor RESYNC: its frame is discarded unprocessed (R133). -/
def otherWord (p : LinkPort) : LinkPort :=
  { p with corruptWords := 0, attempt := p.attempt.map (fun a => { a with idles := 0 }) }

/-- A frame other than IDLE and RESYNC, of valid words: what ACTIVE does with it, and nothing but its words in ALIGNING. -/
def onFrame (e : LinkEnv) (f : LinkPort → LinkPort) (p : LinkPort) : LinkPort :=
  match p.state with
  | .active => f (validWord e p)
  | .aligning => otherWord p
  | .down => p

/-- An IDLE word in ALIGNING: counted, and at the sixteenth the attempt becomes aligned, the RESYNC is sent and the attempt may
complete (R133, R134). -/
def countIdle (e : LinkEnv) (a : Attempt) (p : LinkPort) : LinkPort :=
  let k := min Config.alignIdles (a.idles + 1)
  let p := { p with corruptWords := 0 }
  if k = Config.alignIdles ∧ a.aligned = false then
    tryComplete e (sendResync { p with attempt := some { a with idles := k, aligned := true } })
  else { p with attempt := some { a with idles := k } }

/-- A valid IDLE word. -/
def idleWord (e : LinkEnv) (p : LinkPort) : LinkPort :=
  match p.state, p.attempt with
  | .active, _ => validWord e p
  | .aligning, some a => countIdle e a p
  | .aligning, none | .down, _ => p

/-- A peer RESYNC recorded in the attempt, replacing any before (R133). -/
def recordPeer (n : Seq) (flag : Bool) (p : LinkPort) : LinkPort :=
  { p with corruptWords := 0, attempt := p.attempt.map (fun a => { a with peer := some (n, flag) }) }

/-- A valid RESYNC (R133, R134, R136). -/
def resyncFrame (e : LinkEnv) (n : Seq) (flag : Bool) (p : LinkPort) : LinkPort :=
  match p.state with
  | .active => recordPeer n flag (enterAligning e p)
  | .aligning => tryComplete e (recordPeer n flag p)
  | .down => p

/-- A corrupt word (R133, R135). -/
def badWord (e : LinkEnv) (p : LinkPort) : LinkPort :=
  let k := p.corruptWords + 1
  match p.state with
  | .active =>
    if Config.maxCorrupt ≤ k then retrain e { p with corruptWords := Config.maxCorrupt } else { p with corruptWords := k }
  | .aligning =>
    if Config.maxCorrupt ≤ k then restartAttempt e { p with corruptWords := 0 }
    else { p with corruptWords := k, attempt := p.attempt.map (fun a => { a with idles := 0 }) }
  | .down => p

/-- A NAK becomes owed, whatever NAK sent was (R137, R142). -/
def oweNak (p : LinkPort) : LinkPort :=
  { p with nakOwed := true, nakSent := true }

/-- A corrupt frame (R137). Its words count as valid ones: every frame begins with a start word, and a continuation word that
belongs to no frame is itself valid (R160). A corrupt word in it is a CORRUPT_WORD of its own (log 19). -/
def badFrame (e : LinkEnv) (p : LinkPort) : LinkPort :=
  onFrame e oweNak p

/-- A session message accepted from the line (R142, R143). -/
def acceptMessage (words : List Word) (p : LinkPort) : LinkPort :=
  { p with
    rxQueue := p.rxQueue ++ [{ words := words, stamp := p.resetNumber, mark := none }]
    rxExpect := p.rxExpect + 1
    ackOwed := true
    nakSent := false }

/-- The decision of a DATA frame by its sequence number (R142). -/
def decideData (seq : Seq) (words : List Word) (p : LinkPort) : LinkPort :=
  let d := (seq - p.rxExpect).toNat
  if d = 0 then (if p.rxQueue.length < Config.receivePlaces then acceptMessage words p else p)
  else if d < 32 then (if p.nakSent then p else oweNak p)
  else { p with ackOwed := true }

/-- A DATA frame: its acknowledgement number first, then its sequence number (R137, R142). One whose message length is not 1 to
7 is a corrupt frame (R160). -/
def dataFrame (e : LinkEnv) (seq ack : Seq) (words : List Word) (p : LinkPort) : LinkPort :=
  if 1 ≤ words.length ∧ words.length ≤ 7 then
    onFrame e (fun p => decideData seq words (takeAck e ack p)) p
  else badFrame e p

/-! ## Frames sent (R138, R148) -/

/-- The acknowledgement number of a frame: the receive expectation - 1, modulo 64 (R138). -/
def ackNumber (p : LinkPort) : Seq :=
  p.rxExpect - 1

/-- A DATA frame sent: its acknowledgement clears ACK owed (R138). -/
def sendData (seq : Seq) (m : OutMsg) (p : LinkPort) : LinkPort :=
  { p with lastFrame := some (.data seq (ackNumber p) m), ackOwed := false }

/-- The frame at the replay position; the position becomes absent after the newest is sent (R140). -/
def sendReplay (r : Seq) (p : LinkPort) : LinkPort :=
  match p.retry.find? (fun x => x.seq == r) with
  | some x => sendData r x.msg { p with replayPos := if r + 1 = p.txSeq then none else some (r + 1) }
  | none => { p with replayPos := none }

/-- A new DATA frame framed into the retry buffer (R138). -/
def frameNew (e : LinkEnv) (m : OutMsg) (p : LinkPort) : LinkPort :=
  sendData p.txSeq m { p with
    retry := p.retry ++ [{ seq := p.txSeq, msg := m }]
    txSeq := p.txSeq + 1
    replayDeadline := if p.retry.isEmpty then some (e.now + 1) else p.replayDeadline }

/-- The message a new DATA frame would carry, with the port after it has left its place: the head response, otherwise the
notice (R148). -/
def nextOut (p : LinkPort) : Option (OutMsg × LinkPort) :=
  match p.responses, p.notice with
  | r :: rest, _ => some (.response r.tag r.response, { p with responses := rest })
  | [], some m => some (.notice m, { p with notice := none })
  | [], none => none

/-- An ACK when one is owed, otherwise an IDLE (R148). -/
def sendAckOrIdle (p : LinkPort) : LinkPort :=
  if p.ackOwed then { p with lastFrame := some (.ack (ackNumber p)), ackOwed := false } else { p with lastFrame := some .idle }

/-- The choice of the next frame in ACTIVE (R148). -/
def sendActive (e : LinkEnv) (p : LinkPort) : LinkPort :=
  if p.nakOwed then { p with lastFrame := some (.nak p.rxExpect), nakOwed := false }
  else
    match p.replayPos with
    | some r => sendReplay r p
    | none =>
      if p.retry.length < Config.retryPlaces then
        match nextOut p with
        | some (m, q) => frameNew e m q
        | none => sendAckOrIdle p
      else sendAckOrIdle p

/-- The frame a port sends at a frame boundary: nothing in DOWN, IDLE in ALIGNING (R133, R148). -/
def sendFrame (e : LinkEnv) (p : LinkPort) : LinkPort :=
  match p.state with
  | .active => sendActive e p
  | .aligning => { p with lastFrame := some .idle }
  | .down => p

/-! ## The commands -/

/-- What an event of link `n` reads besides its port. -/
def linkEnvOf (s : State) (n : AgentId) : LinkEnv :=
  { id := n, now := s.time, period := s.management.watchdogPeriod.setWidth 32 }

/-- An event of link `n` made on its port. -/
def onLink (n : AgentId) (f : LinkEnv → LinkPort → LinkPort) (s : State) : State :=
  s.setLink n (f (linkEnvOf s n) (s.link n))

/-- SIGNAL_DETECT (R132). -/
def execSignalDetect (n : AgentId) (s : State) : Host.Outcome State Fault Refusal :=
  if (s.link n).state = .down then
    .next (onLink n (fun e p => restartAttempt e { p with state := .aligning }) s)
  else .next s

/-- LOSS_OF_SIGNAL_DETECT (R132). -/
def execLossOfSignalDetect (n : AgentId) (s : State) : Host.Outcome State Fault Refusal :=
  match (s.link n).state with
  | .active => .next (onLink n (fun e p => linkReport e .linkRetrain (enterDown p)) s)
  | .aligning => .next (onLink n (fun _ p => enterDown p) s)
  | .down => .next s

/-- IDLE_RECEIVED (R133, R135). -/
def execIdleReceived (n : AgentId) (s : State) : Host.Outcome State Fault Refusal :=
  .next (onLink n idleWord s)

/-- RESYNC_RECEIVED (R133, R136). -/
def execResyncReceived (n : AgentId) (next : Seq) (flag : Bool) (s : State) : Host.Outcome State Fault Refusal :=
  .next (onLink n (fun e p => resyncFrame e next flag p) s)

/-- CORRUPT_WORD (R133, R135). -/
def execCorruptWord (n : AgentId) (s : State) : Host.Outcome State Fault Refusal :=
  .next (onLink n badWord s)

/-- CORRUPT_FRAME (R137). -/
def execCorruptFrame (n : AgentId) (s : State) : Host.Outcome State Fault Refusal :=
  .next (onLink n badFrame s)

/-- DATA_RECEIVED (R142). -/
def execDataReceived (n : AgentId) (seq ack : Seq) (words : List Word) (s : State) : Host.Outcome State Fault Refusal :=
  .next (onLink n (fun e p => dataFrame e seq ack words p) s)

/-- ACK_RECEIVED (R139). -/
def execAckReceived (n : AgentId) (ack : Seq) (s : State) : Host.Outcome State Fault Refusal :=
  .next (onLink n (fun e p => onFrame e (takeAck e ack) p) s)

/-- NAK_RECEIVED (R140). -/
def execNakReceived (n : AgentId) (expected : Seq) (s : State) : Host.Outcome State Fault Refusal :=
  .next (onLink n (fun e p => onFrame e (takeNak e expected) p) s)

/-- ALIGNMENT_ATTEMPT_EXPIRY, taken at or after the attempt deadline (R133). -/
def execAlignmentAttemptExpiry (n : AgentId) (s : State) : Host.Outcome State Fault Refusal :=
  if (s.link n).state = .aligning ∧ dueAt s.time ((s.link n).attempt.map Attempt.deadline) then
    .next (onLink n restartAttempt s)
  else .next s

/-- WATCHDOG_EXPIRY, taken at or after the watchdog deadline (R135). -/
def execWatchdogExpiry (n : AgentId) (s : State) : Host.Outcome State Fault Refusal :=
  if (s.link n).state = .active ∧ dueAt s.time (s.link n).watchdog then .next (onLink n retrain s) else .next s

/-- REPLAY_DEADLINE_EXPIRY, taken at or after the replay deadline (R141). -/
def execReplayDeadlineExpiry (n : AgentId) (s : State) : Host.Outcome State Fault Refusal :=
  if (s.link n).state = .active ∧ dueAt s.time (s.link n).replayDeadline then
    .next (onLink n (fun e p => replayOrRollover e p.oldest p) s)
  else .next s

/-- FRAME_SEND (R148). -/
def execFrameSend (n : AgentId) (s : State) : Host.Outcome State Fault Refusal :=
  .next (onLink n sendFrame s)

/-- An aligned attempt has yet to send its RESYNC (R134, R145). -/
def resyncOwed (p : LinkPort) : Bool :=
  match p.state, p.attempt with
  | .aligning, some a => a.aligned && !a.ownSent
  | _, _ => false

/-- ALIGNING_RESYNC_SEND (R134). -/
def execAligningResyncSend (n : AgentId) (s : State) : Host.Outcome State Fault Refusal :=
  if resyncOwed (s.link n) then .next (onLink n (fun e p => tryComplete e (sendResync p)) s) else .next s

end Sys2Proof.Machine
end

