-- ==== Sys2Proof/Machine/Flags.lean ====
section
/-! DEFINITION. The flags of the part: the fault unit's sticky bits, enables, FAULT_N pin and capture record (09 9.3 to 9.5). -/

namespace Sys2Proof.Machine

/-- The bit number of a kind in registers 0020h and 0021h, and its code in 0023h (10 10.2). -/
def EventKind.number : EventKind → Nat
  | .recordCorrected => 0
  | .recordUncorrectable => 1
  | .drainOverrun => 2
  | .tokensExhausted => 3
  | .strayDone => 4
  | .linkProtocol => 5
  | .linkRetrain => 6
  | .agentLapsed => 7
  | .commandRefused => 8

/-- The FAULT-class kinds (R169); the others are NOTE-class. -/
def EventKind.isFault : EventKind → Bool
  | .recordUncorrectable | .drainOverrun | .tokensExhausted => true
  | .recordCorrected | .strayDone | .linkProtocol | .linkRetrain | .agentLapsed | .commandRefused => false

/-- The mask of one kind's bit. -/
def EventKind.mask (k : EventKind) : BitVec 9 :=
  BitVec.ofNat 9 (2 ^ k.number)

/-- The capture record after a report (R172). -/
def captureAfter (f : FaultUnit) (r : Report) : Option Report :=
  match f.capture with
  | some c => some c
  | none => if r.kind.isFault || f.notes then some r else none

/-- A report taken: its sticky bit set (R170), the capture record and capture-missed dealt with (R172). -/
def FaultUnit.take (f : FaultUnit) (r : Report) : FaultUnit :=
  { f with
    sticky := f.sticky ||| r.kind.mask
    capture := captureAfter f r
    missed := f.missed || (r.kind.isFault && f.capture.isSome) }

/-- A write to the sticky bits clears each bit written as 1 (R170). -/
def FaultUnit.clearSticky (f : FaultUnit) (v : Word) : FaultUnit :=
  { f with sticky := f.sticky &&& ~~~(v.setWidth 9) }

/-- A write to the interrupt enables stores them (R171). -/
def FaultUnit.setEnables (f : FaultUnit) (v : Word) : FaultUnit :=
  { f with enables := v.setWidth 9 }

/-- A write of the capture clear bit empties the capture record (R173). -/
def FaultUnit.clearCapture (f : FaultUnit) : FaultUnit :=
  { f with capture := none, missed := false }

/-- FAULT_N is asserted while some kind has both its sticky bit and its enable set (R171). -/
def FaultUnit.pinAsserted (f : FaultUnit) : Bool :=
  f.sticky &&& f.enables != 0

/-- The FAULT_N pin of the part is asserted (driven low). -/
def State.faultAsserted (s : State) : Bool :=
  s.fault.pinAsserted

end Sys2Proof.Machine
end

