-- ==== Sys2Proof/Machine/Operands.lean ====
section
/-! DEFINITION. The fields of session messages that reach the part (08 8.2, 8.9, R155, R162). -/

namespace Sys2Proof.Machine

/-- The `len` bits of a word from bit `lo` up, as a number. -/
def field (w : Word) (lo len : Nat) : Nat :=
  (w.extractLsb' lo len).toNat

/-- The message type, bits 31:28 of message word 0 (R162); 0 for no words. -/
def messageType : List Word → Nat
  | [] => 0
  | w :: _ => field w 28 4

/-- The message is a REQUEST (R162). -/
def isRequest (ws : List Word) : Bool :=
  messageType ws == 1

/-- The kind of a REQUEST, bits 27:24 of word 0 (08 8.9). -/
def requestKind : List Word → Nat
  | [] => 0
  | w :: _ => field w 24 4

/-- The tag of a REQUEST, bits 23:21 of word 0 (08 8.9). -/
def requestTag : List Word → Tag
  | [] => 0
  | w :: _ => Fin.ofNat 8 (field w 21 3)

/-- A handle field, bits 19:0: slot in 19:8, generation in 7:0 (08 8.9). -/
def handleField (w : Word) : Handle :=
  { slot := Fin.ofNat 4096 (field w 8 12), gen := w.extractLsb' 0 8 }

/-- A request as its kind gives it. -/
inductive RequestBody where
  | join (c : LeaseClass)
  | leave
  | renew
  | lock (b : LockBody)
  deriving DecidableEq, Repr

/-- The fields of an ACQUIRE, or none where its mode, page count or wait code is malformed (R155). -/
def acquireFields (w0 w1 w2 : Word) : Option LockBody :=
  let mode := field w0 19 2
  let count := field w2 0 21
  let code := field w2 28 4
  if count = 0 ∨ Config.maxPages < count ∨ 7 < code then none
  else if mode = 1 then some (.acquire .shared w1 count (w0.extractLsb' 0 16) (Fin.ofNat 8 code))
  else if mode = 2 then some (.acquire .exclusive w1 count (w0.extractLsb' 0 16) (Fin.ofNat 8 code))
  else none

/-- The fields of a CONVERT, or none where its direction, or its wait code for UP, is malformed (R155). -/
def convertFields (w0 w1 : Word) : Option LockBody :=
  let direction := field w0 19 2
  let code := field w0 15 4
  if direction = 1 then
    if 7 < code then none else some (.convertUp (handleField w1) (Fin.ofNat 8 code))
  else if direction = 2 then some (.convertDown (handleField w1))
  else none

/-- A REQUEST's kind and fields, or none where it is malformed (R155). -/
def parseRequest (ws : List Word) : Option RequestBody :=
  match requestKind ws, ws with
  | 1, [w0] => some (.join (Fin.ofNat 8 (field w0 0 3)))
  | 2, [_] => some .leave
  | 3, [w0, w1, w2] => (acquireFields w0 w1 w2).map .lock
  | 4, [w0] => some (.lock (.release (handleField w0)))
  | 5, [w0, w1] => (convertFields w0 w1).map .lock
  | 6, [_] => some .renew
  | 7, [w0] => some (.lock (.query (handleField w0)))
  | _, _ => none

/-- An acknowledgement as the session unit takes it. -/
inductive AckBody where
  | notice (h : Handle)
  | session
  deriving DecidableEq, Repr

/-- A NOTICE_ACK or SESSION_ACK of its required length, else none (R151, R162). -/
def parseAck (ws : List Word) : Option AckBody :=
  match messageType ws, ws with
  | 5, [w0] => some (.notice (handleField w0))
  | 6, [_] => some .session
  | _, _ => none

/-- The message is discarded by R151: neither a REQUEST nor an acknowledgement of its required length. -/
def isDiscarded (ws : List Word) : Bool :=
  !isRequest ws && (parseAck ws).isNone

end Sys2Proof.Machine
end

