-- ==== Sys2Proof/Machine/Session.lean ====
section
/-! DEFINITION. The session unit (04, 08): arrivals and tags, the taking of messages with the front-end checks, JOIN, LEAVE and
RENEW, results and responses, live reports, lease expiry, reset notices, and reads of an agent's state. -/

namespace Sys2Proof.Machine

/-! ## What the session unit hands other units -/

/-- A domain with an item handed to it. -/
def Domain.handed (d : Domain) (x : SessionItem) : Domain :=
  { d with fromSession := d.fromSession ++ [x] }

/-- An item handed to a domain, after those handed before (R26). -/
def handDomain (s : State) (d : DomainId) (x : SessionItem) : State :=
  s.setDomain d ((s.domain d).handed x)

/-- A session condition posted to the notice unit (R105). -/
def postCondition (s : State) (a : AgentId) (c : Condition) : State :=
  { s with notice := { s.notice with conditions := s.notice.conditions ++ [.post a c s.session.era] } }

/-- The reclaim of an agent sent to each of the eight domains and to the notice unit (R90). -/
def sendReclaim (s : State) (n : AgentId) : State :=
  let k := (s.agent n).reclaims + 1
  let s := s.setAgent n { s.agent n with reclaims := k }
  let s := { s with domains := mapTable (fun d : Domain => d.handed (.reclaim n k)) s.domains }
  s.setNotice n { s.noticeAgent n with reclaims := (s.noticeAgent n).reclaims ++ [s.session.era] }

/-! ## Arrival (R152) -/

/-- The first REQUEST of a receive queue whose arrival has not been taken, marked; with the agent's tag table after. -/
def markArrival (tags : Vector Bool 8) : List Received → Vector Bool 8 × List Received
  | [] => (tags, [])
  | x :: rest =>
    if isRequest x.words && x.mark.isNone then
      let tag := requestTag x.words
      if look tags tag then (tags, { x with mark := some false } :: rest)
      else (put tags tag true, { x with mark := some true } :: rest)
    else
      let (tags, l) := markArrival tags rest
      (tags, x :: l)

/-- REQUEST_ARRIVAL: arrivals and reset notices of one link are taken in the order the port made them, so that none is taken
while a reset notice waits (R152). -/
def execRequestArrival (n : AgentId) (s : State) : Host.Outcome State Fault Refusal :=
  if (s.link n).resetNotice.isSome then .next s
  else
    let (tags, q) := markArrival (s.agent n).tags (s.link n).rxQueue
    .next ((s.setAgent n { s.agent n with tags := tags }).setLink n { s.link n with rxQueue := q })

/-! ## Handing a response on (R147, R157) -/

/-- The tag of a request's holder made FREE (R157). -/
def freeTag (tags : Vector Bool 8) (p : InProcess) : Vector Bool 8 :=
  if p.holder then put tags p.tag false else tags

/-- A response handed to the tail of the link's response queue, the tag of its holder becoming FREE; kept with the request in
process where the queue is full (R147); discarded, freeing no tag, where its stamp is not the reset number last taken (R146). The
link discards a response of before a warm restart that it has taken (R150, R179). -/
def handResponse (s : State) (n : AgentId) (p : InProcess) (r : Response) : State :=
  let a := s.agent n
  if p.stamp ≠ a.lastReset then s.setAgent n { a with inProcess := none }
  else if (s.link n).responses.length < Config.responsePlaces then
    (s.setAgent n { a with inProcess := none, tags := freeTag a.tags p }).setLink n
      { s.link n with responses := (s.link n).responses ++ if lateResponse s n p.stamp then [] else [⟨p.tag, r, p.stamp⟩] }
  else s.setAgent n { a with inProcess := some { p with response := some r } }

/-- RESPONSE_HANDOFF: a response kept for a full queue handed on (R147). -/
def execResponseHandoff (n : AgentId) (s : State) : Host.Outcome State Fault Refusal :=
  match (s.agent n).inProcess with
  | some ⟨tag, holder, stamp, some r⟩ => .next (handResponse s n ⟨tag, holder, stamp, some r⟩ r)
  | _ => .next s

/-! ## Taking a message (R153) -/

/-- The message the session unit would take next from a link: the head of the receive queue, when no reset notice stands before
it, no request of the agent is in process, and the arrival of a REQUEST has been taken (R152, R153). -/
def nextMessage (s : State) (n : AgentId) : Option Received :=
  if (s.link n).resetNotice.isSome || (s.agent n).inProcess.isSome then none
  else
    match (s.link n).rxQueue with
    | [] => none
    | x :: _ => if isRequest x.words && x.mark.isNone then none else some x

/-- The head of the receive queue taken (R143). -/
def dropMessage (s : State) (n : AgentId) : State :=
  s.setLink n { s.link n with rxQueue := (s.link n).rxQueue.tail }

/-- A request in process (R153). -/
def processOf (x : Received) : InProcess :=
  { tag := requestTag x.words, holder := x.mark == some true, stamp := x.stamp, response := none }

/-! ## The lease (R84, R85) -/

/-- The duration of a lease class in milliseconds (R84). -/
def leaseMs (s : State) (c : LeaseClass) : Nat :=
  (look s.management.leases c).toNat * 10

/-- The lease of an ONLINE agent renewed at the taking of its message (R84, R85). DESIGN CHOICE (log 34): whatever the link's
state, as R132 lets a message already in the receive queue be taken during an outage. -/
def renewLease (s : State) (n : AgentId) : State :=
  let a := s.agent n
  match a.state, a.leaseClass with
  | .online, some c => s.setAgent n { a with leaseDeadline := some (s.time + BitVec.ofNat 32 (leaseMs s c)) }
  | _, _ => s

/-! ## Front-end checks (R154) -/

/-- The front-end checks in their order; the first that fails gives the result. -/
def frontEnd (s : State) (n : AgentId) (x : Received) : Except ResultRefusal RequestBody :=
  match parseRequest x.words with
  | none => .error .badRequest
  | some b =>
    if x.mark = some false then .error .tagInUse
    else if s.management.mode = .setup then .error .notReady
    else
      match (s.agent n).state with
      | .disabled => .error .agentDisabled
      | .online => .ok b
      | .offline => match b with
        | .join _ => .ok b
        | .leave | .renew | .lock _ => .error .notJoined
      | .lapsed => match b with
        | .join _ => .ok b
        | .leave | .renew | .lock _ => .error .sessionLapsed

/-- A request answered at its taking by a front-end check: TAG_IN_USE raises LINK_PROTOCOL (R154). -/
def refuseAtFront (s : State) (n : AgentId) (x : Received) (c : ResultRefusal) : State :=
  let s := if c = .tagInUse then reportSession s .linkProtocol n else s
  handResponse s n (processOf x) (.refused c)

/-! ## JOIN, LEAVE, RENEW -/

/-- The epoch after another session is opened: 1 follows FFFFFFFFh (R81). -/
def nextEpoch (e : Word) : Word :=
  if e = BitVec.allOnes 32 then 1 else e + 1

/-- An accepted JOIN (R80): reclaim, epoch, emptying of the session notice set, lease, ONLINE. -/
def joinAgent (s : State) (n : AgentId) (requested : LeaseClass) : State :=
  let s := match (s.agent n).state with
    | .online | .lapsed => sendReclaim s n
    | .disabled | .offline => s
  let s := { s with notice := { s.notice with conditions := s.notice.conditions ++ [ConditionItem.empty n s.session.era] } }
  let a := s.agent n
  let c := min requested a.bound
  s.setAgent n { a with
    state := .online
    epoch := nextEpoch a.epoch
    leaseClass := some c
    leaseDeadline := some (s.time + BitVec.ofNat 32 (leaseMs s c)) }

/-- The fields of JOINED (04 4.3). -/
def joinedResponse (s : State) (n : AgentId) : Response :=
  let a := s.agent n
  .joined a.epoch (leaseMs s (a.leaseClass.getD 0)) a.quota

/-- JOIN (R80). -/
def execJoin (n : AgentId) (s : State) : Host.Outcome State Fault Refusal :=
  match nextMessage s n with
  | none => .next s
  | some x =>
    if isRequest x.words && requestKind x.words == 1 then
      let s := dropMessage s n
      match frontEnd s n x with
      | .error c => .next (refuseAtFront s n x c)
      | .ok (.join c) =>
        let s := joinAgent s n c
        .next (handResponse s n (processOf x) (joinedResponse s n))
      | .ok _ => .next s
    else .next s

/-- The agent out of ONLINE: its lease class and lease deadline become absent (R82, R84). -/
def endSession (s : State) (n : AgentId) (st : AgentState) : State :=
  s.setAgent n { s.agent n with state := st, leaseClass := none, leaseDeadline := none }

/-- LEAVE (R91). -/
def execLeave (n : AgentId) (s : State) : Host.Outcome State Fault Refusal :=
  match nextMessage s n with
  | none => .next s
  | some x =>
    if isRequest x.words && requestKind x.words == 2 then
      let s := dropMessage s n
      match frontEnd s n x with
      | .error c => .next (refuseAtFront s n x c)
      | .ok _ => .next (handResponse (endSession (sendReclaim s n) n .offline) n (processOf x) .left)
    else .next s

/-- RENEW (R87). -/
def execRenew (n : AgentId) (s : State) : Host.Outcome State Fault Refusal :=
  match nextMessage s n with
  | none => .next s
  | some x =>
    if isRequest x.words && requestKind x.words == 6 then
      let s := dropMessage s n
      match frontEnd s n x with
      | .error c => .next (refuseAtFront s n x c)
      | .ok _ =>
        let s := renewLease s n
        .next (handResponse s n (processOf x) (.renewed (leaseMs s ((s.agent n).leaseClass.getD 0))))
    else .next s

/-! ## Lock requests -/

/-- A lock request put in process, and handed with the agent's quota and live count (R26, R156). -/
def lockRequest (s : State) (n : AgentId) (x : Received) (b : LockBody) : LockRequest :=
  { agent := n, quota := (s.agent n).quota, live := (s.agent n).live, stamp := x.stamp, era := s.session.era, body := b }

/-- The request of an agent in process, awaiting its result (R153). -/
def putInProcess (s : State) (n : AgentId) (x : Received) : State :=
  s.setAgent n { s.agent n with inProcess := some (processOf x) }

/-- A lock request that has passed the front-end checks: an ACQUIRE handed to the domain that holds its first page, or to the
lock table where none does (R2, R26); the others to the domain that owns the handle's bank, or answered STALE_HANDLE at once
where none does (R156). -/
def handLock (s : State) (n : AgentId) (x : Received) (b : LockBody) : State :=
  let q := lockRequest s n x b
  match b with
  | .acquire _ first _ _ _ =>
    match holderOf s first with
    | some d => handDomain (putInProcess s n x) d (.request q)
    | none =>
      let s := putInProcess s n x
      { s with noDomain := { s.noDomain with requests := s.noDomain.requests ++ [q] } }
  | .release h | .convertUp h _ | .convertDown h | .query h =>
    match ownerOf s h.slot with
    | some d => handDomain (putInProcess s n x) d (.request q)
    | none => handResponse s n (processOf x) (.refused .staleHandle)

/-- REQUEST_TAKE: a REQUEST that is not a JOIN, LEAVE or RENEW (R154). -/
def execRequestTake (n : AgentId) (s : State) : Host.Outcome State Fault Refusal :=
  match nextMessage s n with
  | none => .next s
  | some x =>
    let k := requestKind x.words
    if isRequest x.words && k != 1 && k != 2 && k != 6 then
      let s := dropMessage s n
      match frontEnd s n x with
      | .error c => .next (refuseAtFront s n x c)
      | .ok (.lock b) => .next (handLock (renewLease s n) n x b)
      | .ok _ => .next s
    else .next s

/-! ## Acknowledgements and discarded messages (R151) -/

/-- An acknowledgement passed to the notice unit in the agent's order (R109). -/
def passAck (s : State) (n : AgentId) (b : AckBody) : State :=
  let item := match b with
    | .notice h => AckItem.notice h s.session.era
    | .session => AckItem.session s.session.era
  s.setNotice n { s.noticeAgent n with acks := (s.noticeAgent n).acks ++ [item] }

/-- ACKNOWLEDGEMENT_TAKE: the lease of an ONLINE agent renewed, the acknowledgement passed (R85, R151). -/
def execAcknowledgementTake (n : AgentId) (s : State) : Host.Outcome State Fault Refusal :=
  match nextMessage s n with
  | none => .next s
  | some x =>
    match parseAck x.words with
    | some b => .next (passAck (renewLease (dropMessage s n) n) n b)
    | none => .next s

/-- MESSAGE_DISCARD: a message of a type the part does not take, or an acknowledgement of the wrong length (R151). -/
def execMessageDiscard (n : AgentId) (s : State) : Host.Outcome State Fault Refusal :=
  match nextMessage s n with
  | none => .next s
  | some x => if isDiscarded x.words then .next (reportSession (dropMessage s n) .linkProtocol n) else .next s

/-! ## Results and live reports (R96, R157) -/

/-- A live report applied to a live count (R96). -/
def LiveChange.apply (c : LiveChange) (n : Nat) : Nat :=
  match c with
  | .up => n + 1
  | .down => n - 1
  | .subtract k => n - k

/-- A live report applied to an agent (R96). -/
def applyLive (s : State) (a : AgentId) (c : LiveChange) : State :=
  s.setAgent a { s.agent a with live := c.apply (s.agent a).live }

/-- The live report attached to a result, if any (R96). -/
def applyAttached (s : State) (a : AgentId) (c : Option LiveChange) : State :=
  match c with
  | some c => applyLive s a c
  | none => s

/-- A result taken: its live report applied, then its response handed on (R153, R157); a result for a request handed before
the last warm restart is discarded with its report (R99). -/
def takeResult (s : State) (a : AgentId) (stamp : BitVec 8) (r : Response) (c : Option LiveChange) (era : Nat) : State :=
  if era < s.session.era then s
  else
    let s := applyAttached s a c
    match (s.agent a).inProcess with
    | some p => handResponse s a { p with stamp := stamp } r
    | none => s

/-- RESULT_TAKE: the result at the head of what a domain, or the lock table without a domain, has handed over (R157). -/
def execResultTake (src : Option DomainId) (s : State) : Host.Outcome State Fault Refusal :=
  match src with
  | some d =>
    match (s.domain d).toSession with
    | .result a stamp r c era :: rest =>
      .next (takeResult (s.setDomain d { s.domain d with toSession := rest }) a stamp r c era)
    | _ => .next s
  | none =>
    match s.noDomain.toSession with
    | .result a stamp r c era :: rest =>
      .next (takeResult { s with noDomain := { s.noDomain with toSession := rest } } a stamp r c era)
    | _ => .next s

/-- LIVE_REPORT: the live report at the head of what a domain has handed over. A quarantine subtraction also posts DOMAIN_LOST
for the domain (R7, R105, log 14). One made before the last warm restart is discarded (R99). -/
def execLiveReport (d : DomainId) (s : State) : Host.Outcome State Fault Refusal :=
  match (s.domain d).toSession with
  | .live a c era :: rest =>
    let s := s.setDomain d { s.domain d with toSession := rest }
    .next (if era < s.session.era then s else applyLive s a c)
  | .lost a k era :: rest =>
    let s := s.setDomain d { s.domain d with toSession := rest }
    .next (if era < s.session.era then s else postCondition (applyLive s a (.subtract k)) a (.lost d))
  | _ => .next s

/-! ## Lease expiry, reset notice, reads -/

/-- LEASE_EXPIRY (R88), taken at or after the lease deadline of an ONLINE agent. -/
def execLeaseExpiry (n : AgentId) (s : State) : Host.Outcome State Fault Refusal :=
  if (s.agent n).state = .online ∧ dueAt s.time (s.agent n).leaseDeadline then
    .next (reportSession (postCondition (sendReclaim (endSession s n .lapsed) n) n .lapsed) .agentLapsed n)
  else .next s

/-- RESET_NOTICE (R146): every tag FREE, the reset number noted. -/
def execResetNotice (n : AgentId) (s : State) : Host.Outcome State Fault Refusal :=
  match (s.link n).resetNotice with
  | some k =>
    .next ((s.setAgent n { s.agent n with tags := Vector.replicate 8 false, lastReset := k }).setLink n
      { s.link n with resetNotice := none })
  | none => .next s

/-- AGENT_STATE_READ (R95, R103): the first read the gate unit asked answered with the agent's state and epoch, or the notice
unit's read for a domain's post with the owner's state. -/
def execAgentStateRead (r : Reader) (s : State) : Host.Outcome State Fault Refusal :=
  match r with
  | .gate =>
    match s.gate.reads with
    | (k, a) :: rest =>
      .next (s.setGate { s.gate with
        reads := rest, answers := s.gate.answers ++ [(k, (s.agent a).state, (s.agent a).epoch)] })
    | [] => .next s
  | .post d =>
    match look s.notice.reads d with
    | .asked a => .next { s with notice := { s.notice with reads := put s.notice.reads d (.answered a (s.agent a).state) } }
    | .idle | .answered _ _ => .next s

end Sys2Proof.Machine
end

