-- ==== Sys2Proof/Machine/Management.lean ====
section
/-! DEFINITION. The management port and the fault unit (09 9.3 to 9.5, 10): register writes, commands and their answers, the part
modes, the walk, the scrub, and the taking of reports. A management command has two events (R180): its issue at the write of the
command register, and its decision by the unit it was handed to. -/

namespace Sys2Proof.Machine

/-! ## The command register (10 10.4) -/

/-- The code of a command. -/
def Command.code : Command → BitVec 8
  | .enableDomain => 0x01
  | .closeDomain => 0x02
  | .scrubDomain => 0x03
  | .enableAgent => 0x04
  | .disableAgent => 0x05
  | .evictAgent => 0x06
  | .revokeRecord => 0x07
  | .resetLink => 0x08
  | .walkStart => 0x09
  | .walkNext => 0x0A
  | .start => 0x0B
  | .warmRestart => 0x0C

/-- The twelve commands. -/
def allCommands : List Command :=
  [.enableDomain, .closeDomain, .scrubDomain, .enableAgent, .disableAgent, .evictAgent, .revokeRecord, .resetLink,
    .walkStart, .walkNext, .start, .warmRestart]

/-- The command of a code, if it names one. -/
def Command.ofCode (k : BitVec 8) : Option Command :=
  allCommands.find? (fun c => c.code == k)

/-- The domain field of the argument register, bits 22:20. -/
def argDomain (w : Word) : DomainId :=
  Fin.ofNat 8 (field w 20 3)

/-- The agent or link field of the argument register, bits 26:23. -/
def argAgent (w : Word) : AgentId :=
  Fin.ofNat 16 (field w 23 4)

/-- The owner filter of the argument register: bit 31 says whether it is set, bits 30:27 the agent. -/
def argFilter (w : Word) : Option AgentId :=
  if field w 31 1 = 1 then some (Fin.ofNat 16 (field w 27 4)) else none

/-- The domain a command names, for COMMAND_REFUSED (R180). -/
def namedDomain (c : Command) (arg : Word) : Option DomainId :=
  match c with
  | .enableDomain | .closeDomain | .scrubDomain | .walkStart => some (argDomain arg)
  | .enableAgent | .disableAgent | .evictAgent | .revokeRecord | .resetLink | .walkNext | .start | .warmRestart => none

/-- The agent or link a command names, for COMMAND_REFUSED (R180). -/
def namedAgent (c : Command) (arg : Word) : Option AgentId :=
  match c with
  | .enableAgent | .disableAgent | .evictAgent | .resetLink => some (argAgent arg)
  | .enableDomain | .closeDomain | .scrubDomain | .revokeRecord | .walkStart | .walkNext | .start | .warmRestart => none

/-- The domain a command is handed to, resolved once at the handing (R2): for REVOKE_RECORD the owner of the handle's bank. -/
def destination (s : State) (c : Command) (arg : Word) : Option DomainId :=
  match c with
  | .revokeRecord => ownerOf s (handleField arg).slot
  | .enableDomain | .closeDomain | .scrubDomain | .walkStart => some (argDomain arg)
  | .enableAgent | .disableAgent | .evictAgent | .resetLink | .walkNext | .start | .warmRestart => none

/-- A command write refused because a command is in progress (R180). -/
def refuseBusy (s : State) (c : Command) : State :=
  reportManagement s .commandRefused (namedDomain c s.management.argument) (namedAgent c s.management.argument)

/-- The write of the code of a command other than START and WARM_RESTART (R180). -/
def issueCommand (s : State) (c : Command) : State :=
  let m := s.management
  if m.command.isSome then refuseBusy s c
  else s.setManagement { m with command := some (.handed c m.argument (destination s c m.argument)) }

/-- A unit's answer to the command in progress (R180). -/
def answer (s : State) (c : Command) (a : Answer) : State :=
  s.setManagement { s.management with command := some (.answered c a) }

/-- The argument register as a command in progress took it at its issue, with the domain it was handed to (R180). -/
def inProgress (s : State) (c : Command) : Option (Word × Option DomainId) :=
  match s.management.command with
  | some (.handed k arg dest) => if k = c then some (arg, dest) else none
  | _ => none

/-- A command with its two events. -/
def twoPhase (c : Command) (decide : Word → Option DomainId → State → State) (p : Phase) (s : State) :
    Host.Outcome State Fault Refusal :=
  match p with
  | .issue => .next (issueCommand s c)
  | .decide =>
    match inProgress s c with
    | some (arg, dest) => .next (decide arg dest s)
    | none => .next s

/-- A command refused by the domain it names (log 9). -/
def refuseByDomain (s : State) (c : Command) (d : DomainId) (r : Reason) : State :=
  answer (reportDomain s .commandRefused d) c (.refused r)

/-- A command refused by the session unit (log 9). -/
def refuseBySession (s : State) (c : Command) (n : AgentId) (r : Reason) : State :=
  answer (reportSession s .commandRefused n) c (.refused r)

/-! ## ENABLE_DOMAIN, CLOSE_DOMAIN, SCRUB_DOMAIN -/

/-- Another domain that is not DISABLED has the property. -/
def otherDomain (s : State) (d : DomainId) (f : Domain → Bool) : Bool :=
  (List.finRange 8).any (fun k => k != d && (s.domain k).state != .disabled && f (s.domain k))

/-- The checks of R4, in their order. -/
def enableCheck (s : State) (d : DomainId) : Option Reason :=
  let x := s.domain d
  if x.state ≠ .disabled then some .wrongState
  else if x.banks = 0 then some .bankSetEmpty
  else if x.limit.toNat < x.base.toNat then some .windowOrder
  else if otherDomain s d (fun y => windowsMeet x y) then some .windowOverlap
  else if otherDomain s d (fun y => x.banks &&& y.banks != 0) then some .bankInUse
  else none

/-- A domain ENABLED, with a rebuilt free list and empty collections (R4, R19). -/
def enabledDomain (x : Domain) : Domain :=
  { emptyCollections x with state := .enabled, freeList := slotsOfBanks x.banks, live := Vector.replicate 16 0 }

/-- The decision of ENABLE_DOMAIN (R4). -/
def decideEnableDomain (arg : Word) (_dest : Option DomainId) (s : State) : State :=
  let d := argDomain arg
  match enableCheck s d with
  | some r => refuseByDomain s .enableDomain d r
  | none => answer (s.setDomain d (enabledDomain (s.domain d))) .enableDomain .done

/-- ENABLE_DOMAIN (R4, R180). -/
def execEnableDomain (p : Phase) (s : State) : Host.Outcome State Fault Refusal :=
  twoPhase .enableDomain decideEnableDomain p s

/-- An ENABLED domain closed: DISABLED at once when no slot is in use, else CLOSING (R5). -/
def closedTable (t : LockTable) : LockTable :=
  if t.dom.inUse = 0 then becomeDisabled t else { t with dom := { t.dom with state := .closing } }

/-- The decision of CLOSE_DOMAIN (R5). -/
def decideCloseDomain (arg : Word) (_dest : Option DomainId) (s : State) : State :=
  let d := argDomain arg
  if (s.domain d).state = .enabled then answer (s.withTable d (closedTable (s.table d))) .closeDomain .done
  else refuseByDomain s .closeDomain d .wrongState

/-- CLOSE_DOMAIN (R5, R180). -/
def execCloseDomain (p : Phase) (s : State) : Host.Outcome State Fault Refusal :=
  twoPhase .closeDomain decideCloseDomain p s

/-- The checks of R9, in their order. -/
def scrubCheck (s : State) (d : DomainId) : Option Reason :=
  let x := s.domain d
  match x.state with
  | .quarantined => none
  | .disabled =>
    if x.banks = 0 then some .bankSetEmpty
    else if otherDomain s d (fun y => windowsMeet x y) then some .windowOverlap
    else if otherDomain s d (fun y => x.banks &&& y.banks != 0) then some .bankInUse
    else none
  | .enabled | .closing | .scrubbing => some .wrongState

/-- A domain SCRUBBING from the lowest slot of its bank set, with its collections emptied (R9). -/
def scrubbingDomain (x : Domain) : Domain :=
  { emptyCollections x with state := .scrubbing, scrubPos := nextSlot x.banks none }

/-- The decision of SCRUB_DOMAIN (R9). -/
def decideScrubDomain (arg : Word) (_dest : Option DomainId) (s : State) : State :=
  let d := argDomain arg
  match scrubCheck s d with
  | some r => refuseByDomain s .scrubDomain d r
  | none => answer (s.setDomain d (scrubbingDomain (s.domain d))) .scrubDomain .done

/-- SCRUB_DOMAIN (R9, R180). -/
def execScrubDomain (p : Phase) (s : State) : Host.Outcome State Fault Refusal :=
  twoPhase .scrubDomain decideScrubDomain p s

/-- A slot that is not FREE freed by a scrub visit: its notices removed, its generation advanced (R10, R11). -/
def scrubSlot (i : SlotId) (t : LockTable) : LockTable :=
  let t := tell (.scrubRemove (handleOf t.pool i)) t
  { t with pool := freeSlot t.pool i }

/-- The scrub position moved to the next slot of the bank set; after the last the domain is DISABLED (R10, R11). -/
def advanceScrub (i : SlotId) (t : LockTable) : LockTable :=
  match nextSlot t.dom.banks (some i) with
  | some j => { t with dom := { t.dom with scrubPos := some j } }
  | none => becomeDisabled t

/-- The visit of one slot (R10); an uncorrectable read is reported and does not stop the scrub (R11). DESIGN CHOICE (log 8): of a
FREE slot the directory entry alone is read. -/
def visitSlot (e : DomainEnv) (i : SlotId) (t : LockTable) : LockTable :=
  match probe e i t with
  | (.free _, t) => advanceScrub i t
  | (.good _ _, t) | (.bad _, t) => advanceScrub i (scrubSlot i t)

/-- SCRUB_VISIT of a SCRUBBING domain (R10, R11). -/
def execScrubVisit (d : DomainId) (s : State) : Host.Outcome State Fault Refusal :=
  match (s.domain d).state, (s.domain d).scrubPos with
  | .scrubbing, some i => .next (s.withTable d (visitSlot (envOf s d) i (s.table d)))
  | _, _ => .next s

/-! ## ENABLE_AGENT, DISABLE_AGENT, EVICT_AGENT -/

/-- The decision of ENABLE_AGENT (R79). -/
def decideEnableAgent (arg : Word) (_dest : Option DomainId) (s : State) : State :=
  let n := argAgent arg
  if (s.agent n).state = .disabled then answer (s.setAgent n { s.agent n with state := .offline }) .enableAgent .done
  else refuseBySession s .enableAgent n .wrongState

/-- ENABLE_AGENT (R79, R180). -/
def execEnableAgent (p : Phase) (s : State) : Host.Outcome State Fault Refusal :=
  twoPhase .enableAgent decideEnableAgent p s

/-- The agent DISABLED, from each state (R93). -/
def disableAgent (s : State) (n : AgentId) : State :=
  match (s.agent n).state with
  | .online => endSession (postCondition (sendReclaim s n) n .evicted) n .disabled
  | .lapsed => endSession (sendReclaim s n) n .disabled
  | .offline | .disabled => endSession s n .disabled

/-- The decision of DISABLE_AGENT, accepted in every state (R93). -/
def decideDisableAgent (arg : Word) (_dest : Option DomainId) (s : State) : State :=
  answer (disableAgent s (argAgent arg)) .disableAgent .done

/-- DISABLE_AGENT (R93, R180). -/
def execDisableAgent (p : Phase) (s : State) : Host.Outcome State Fault Refusal :=
  twoPhase .disableAgent decideDisableAgent p s

/-- The decision of EVICT_AGENT (R92). -/
def decideEvictAgent (arg : Word) (_dest : Option DomainId) (s : State) : State :=
  let n := argAgent arg
  match (s.agent n).state with
  | .online | .lapsed =>
    answer (postCondition (endSession (sendReclaim s n) n .offline) n .evicted) .evictAgent .done
  | .offline | .disabled => refuseBySession s .evictAgent n .wrongState

/-- EVICT_AGENT (R92, R180). -/
def execEvictAgent (p : Phase) (s : State) : Host.Outcome State Fault Refusal :=
  twoPhase .evictAgent decideEvictAgent p s

/-! ## REVOKE_RECORD -/

/-- COMMAND_REFUSED of a REVOKE_RECORD, which names a handle and so neither a domain nor an agent (log 30). -/
def reportRevoke (e : DomainEnv) (t : LockTable) : LockTable :=
  { t with dom := { t.dom with reports := t.dom.reports ++ [⟨.commandRefused, none, none, none, none, e.now⟩] } }

/-- The reason of a failed handle check (R65). -/
def revokeReason : ResultRefusal → Reason
  | .domainUnavailable => .wrongState
  | _ => .staleHandle

/-- REVOKE_RECORD as the domain it was handed to decides it (R65, R66). `online` answers whether an agent is ONLINE as the
session unit holds it at the event. -/
def revoke (e : DomainEnv) (online : AgentId → Bool) (h : Handle) (t : LockTable) : Answer × LockTable :=
  match currentRecord e h t with
  | .lost t => (.refused .wrongState, reportRevoke e t)
  | .ok (.error c) t => (.refused (revokeReason c), reportRevoke e t)
  | .ok (.ok r) t =>
    match r.state with
    | .held | .converting => (.done, (releaseHeld e h.slot r (some (online r.owner)) t).table)
    | .free | .waiting | .draining | .ended => (.refused .notHeld, reportRevoke e t)

/-- The decision of REVOKE_RECORD (R65). -/
def decideRevokeRecord (arg : Word) (dest : Option DomainId) (s : State) : State :=
  match dest with
  | none => answer (reportManagement s .commandRefused none none) .revokeRecord (.refused .staleHandle)
  | some d =>
    let (a, t) := revoke (envOf s d) (fun n => (s.agent n).state == .online) (handleField arg) (s.table d)
    answer (s.withTable d t) .revokeRecord a

/-- REVOKE_RECORD (R65, R180). -/
def execRevokeRecord (p : Phase) (s : State) : Host.Outcome State Fault Refusal :=
  twoPhase .revokeRecord decideRevokeRecord p s

/-! ## RESET_LINK -/

/-- The decision of RESET_LINK (R145). -/
def decideResetLink (arg : Word) (_dest : Option DomainId) (s : State) : State :=
  answer (onLink (argAgent arg) linkReset s) .resetLink .done

/-- RESET_LINK (R145, R180). -/
def execResetLink (p : Phase) (s : State) : Host.Outcome State Fault Refusal :=
  twoPhase .resetLink decideResetLink p s

/-! ## The walk (10 10.5) -/

/-- The decision of WALK_START (R181). -/
def decideWalkStart (arg : Word) (_dest : Option DomainId) (s : State) : State :=
  let d := argDomain arg
  if (s.domain d).state = .disabled then refuseByDomain s .walkStart d .wrongState
  else answer (s.setManagement { s.management with cursor := .walking d (argFilter arg) none }) .walkStart .done

/-- WALK_START (R181, R180). -/
def execWalkStart (p : Phase) (s : State) : Host.Outcome State Fault Refusal :=
  twoPhase .walkStart decideWalkStart p s

/-- The decision of WALK_NEXT (R182): a search begins, or ends at once where no slot lies after the position. -/
def decideWalkNext (_arg : Word) (_dest : Option DomainId) (s : State) : State :=
  match s.management.cursor with
  | .none => answer (reportManagement s .commandRefused none none) .walkNext (.refused .noWalk)
  | .ended => answer s .walkNext .walkEnd
  | .walking d _ pos =>
    match nextSlot (s.domain d).banks pos with
    | some _ => s.setManagement { s.management with command := some .searching }
    | none => answer (s.setManagement { s.management with cursor := .ended }) .walkNext .walkEnd

/-- WALK_NEXT (R182, R180). -/
def execWalkNext (p : Phase) (s : State) : Host.Outcome State Fault Refusal :=
  twoPhase .walkNext decideWalkNext p s

/-- What an examination finds: the slot passed over, or the search ended with a snapshot. -/
inductive Found where
  | passed
  | reported (x : Snapshot)
  deriving DecidableEq, Repr

/-- The owner filter passes a record over (R182). -/
def filteredOut (f : Option AgentId) (r : Record) : Bool :=
  match f with
  | none => false
  | some a => r.owner != a

/-- The examination of slot `i` by the walked domain (R182, R183): an uncorrectable record is reported as unreadable, and
quarantines an ENABLED or CLOSING domain. -/
def examine (e : DomainEnv) (f : Option AgentId) (i : SlotId) (t : LockTable) : Found × LockTable :=
  match probe e i t with
  | (.free _, t) => (.passed, t)
  | (.good g r, t) =>
    if filteredOut f r then (.passed, t)
    else (.reported ⟨e.id, i, g, false, some r, queuePosition i r t⟩, t)
  | (.bad g, t) => (.reported ⟨e.id, i, g, true, none, 0⟩, quarantine t)

/-- The search after an examination of slot `i` of domain `d` (R182). -/
def afterExamination (d : DomainId) (f : Option AgentId) (i : SlotId) (x : Found) (s : State) : State :=
  match x with
  | .reported x =>
    answer (s.setManagement { s.management with cursor := .walking d f (some i), snapshot := x }) .walkNext .done
  | .passed =>
    match nextSlot (s.domain d).banks (some i) with
    | some _ => s.setManagement { s.management with cursor := .walking d f (some i) }
    | none => answer (s.setManagement { s.management with cursor := .ended }) .walkNext .walkEnd

/-- WALK_EXAMINATION of the next slot of the walked domain (R182, R183). -/
def execWalkExamination (s : State) : Host.Outcome State Fault Refusal :=
  match s.management.command, s.management.cursor with
  | some .searching, .walking d f pos =>
    match nextSlot (s.domain d).banks pos with
    | some i =>
      let (x, t) := examine (envOf s d) f i (s.table d)
      .next (afterExamination d f i x (s.withTable d t))
    | none => .next s
  | _, _ => .next s

/-! ## START, WARM_RESTART, codes that name no command -/

/-- START as the management port decides it (R178). -/
def startCommand (s : State) : State :=
  let m := s.management
  if m.command.isSome then refuseBusy s .start
  else
    match m.mode with
    | .setup => s.setManagement { m with mode := .active, status := some .done, lastCode := Command.start.code }
    | .active =>
      reportManagement (s.setManagement { m with status := some (.refused .wrongState), lastCode := Command.start.code })
        .commandRefused none none

/-- START (R178). -/
def execStart (s : State) : Host.Outcome State Fault Refusal :=
  .next (startCommand s)

/-- Every unit has yet to take a warm restart (R179). -/
def allDue : RestartDue :=
  { domains := Vector.replicate 8 true, session := true, notice := true, gate := true, links := Vector.replicate 16 true }

/-- An OPEN walk becomes ENDED (R179). -/
def endedCursor : Cursor → Cursor
  | .walking _ _ _ => .ended
  | .ended => .ended
  | .none => .none

/-- WARM_RESTART as the management port accepts it (R179). -/
def restartCommand (s : State) : State :=
  let m := s.management
  if m.command.isSome then refuseBusy s .warmRestart
  else s.setManagement { m with mode := .setup, cursor := endedCursor m.cursor, command := some (.restarting allDue) }

/-- WARM_RESTART (R179). -/
def execWarmRestart (s : State) : Host.Outcome State Fault Refusal :=
  .next (restartCommand s)

/-- The write of a code to the command register (R180). DEDUCED (log 23): a code that names no command, refused while no command
is in progress, is the code of the last command from then on, as that of a refused START is (R178). -/
def writeCommand (s : State) (code : BitVec 8) : State :=
  match Command.ofCode code with
  | some .start => startCommand s
  | some .warmRestart => restartCommand s
  | some c => issueCommand s c
  | none =>
    let m := s.management
    if m.command.isSome then reportManagement s .commandRefused none none
    else
      reportManagement (s.setManagement { m with status := some (.refused .unknownCommand), lastCode := code })
        .commandRefused none none

/-- UNKNOWN_COMMAND (R180). A code that does name a command is issued as that command (log 19). -/
def execUnknownCommand (code : BitVec 8) (s : State) : Host.Outcome State Fault Refusal :=
  .next (writeCommand s code)

/-! ## COMMAND_ANSWER -/

/-- Every unit has taken the warm restart (R179). -/
def RestartDue.finished (x : RestartDue) : Bool :=
  x.domains.toList.all (fun b => !b) && !x.session && !x.notice && !x.gate && x.links.toList.all (fun b => !b)

/-- COMMAND_ANSWER: the status becomes the unit's answer, with the command's code; a warm restart that every unit has taken
ends DONE (R179, R180). -/
def execCommandAnswer (s : State) : Host.Outcome State Fault Refusal :=
  let m := s.management
  match m.command with
  | some (.answered c a) => .next (s.setManagement { m with status := some a, lastCode := c.code, command := none })
  | some (.restarting due) =>
    if due.finished then
      .next (s.setManagement { m with status := some .done, lastCode := Command.warmRestart.code, command := none })
    else .next s
  | some (.handed _ _ _) | some .searching | none => .next s

/-! ## Register writes (10 10.2) -/

/-- A write to base page, limit page or bank set of a domain, stored while DISABLED (R1). -/
def writeDomainItem (s : State) (d : DomainId) (f : Domain → Domain) : State :=
  if (s.domain d).state = .disabled then s.setDomain d (f (s.domain d)) else reportDomain s .commandRefused d

/-- A write to the drain limit: 0 is refused (R1). -/
def writeDrainLimit (s : State) (d : DomainId) (v : BitVec 16) : State :=
  if v = 0 then reportDomain s .commandRefused d else writeDomainItem s d (fun x => { x with drainLimit := v })

/-- A write to policy and drain limit, item by item (R1, R176, log 22). -/
def writePolicyAndLimit (s : State) (d : DomainId) (v : Word) : State :=
  let s := writeDomainItem s d (fun x => { x with policy := if v.getLsbD 16 then .writeGuarded else .guarded })
  writeDrainLimit s d (v.setWidth 16)

/-- A write to an agent's quota (R78). -/
def writeQuota (s : State) (n : AgentId) (v : Word) : State :=
  let a := s.agent n
  if a.state = .disabled ∧ a.live = 0 ∧ v.toNat ≤ Config.maxQuota then s.setAgent n { a with quota := v.toNat }
  else reportSession s .commandRefused n

/-- A write to an agent's lease class bound (R78). -/
def writeBound (s : State) (n : AgentId) (v : Word) : State :=
  let a := s.agent n
  if a.state = .disabled ∧ v.toNat ≤ 7 then s.setAgent n { a with bound := Fin.ofNat 8 v.toNat }
  else reportSession s .commandRefused n

/-- A write to the link watchdog period (R149). -/
def writeWatchdog (s : State) (v : Word) : State :=
  if 1 ≤ v.toNat ∧ v.toNat ≤ 255 then s.setManagement { s.management with watchdogPeriod := v.setWidth 8 }
  else reportManagement s .commandRefused none none

/-- A value a class table entry stores (R184, R185). -/
def classValueOk (v : Word) : Bool :=
  1 ≤ v.toNat && v.toNat ≤ 65535

/-- A write to a lease class table entry (R184). -/
def writeLease (s : State) (c : LeaseClass) (v : Word) : State :=
  if classValueOk v then s.setManagement { s.management with leases := put s.management.leases c (v.setWidth 16) }
  else reportManagement s .commandRefused none none

/-- A write to a wait class table entry; entry `c` is wait class `c + 1` (R185). -/
def writeWait (s : State) (c : Fin 6) (v : Word) : State :=
  if classValueOk v then s.setManagement { s.management with waits := put s.management.waits c (v.setWidth 16) }
  else reportManagement s .commandRefused none none

/-- A write to the capture control register: capture notes from bit 0, and a capture clear where bit 1 is 1 (R172, R173). -/
def writeCaptureControl (f : FaultUnit) (v : Word) : FaultUnit :=
  let f := { f with notes := v.getLsbD 0 }
  if v.getLsbD 1 then f.clearCapture else f

/-- A write to the configuration block of a domain, `k` being the last hexadecimal digit of the address. -/
def writeDomain (s : State) (d : DomainId) (k : Nat) (v : Word) : State :=
  match k with
  | 0 => writeDomainItem s d (fun x => { x with base := v })
  | 1 => writeDomainItem s d (fun x => { x with limit := v })
  | 2 => writeDomainItem s d (fun x => { x with banks := v.setWidth 16 })
  | 3 => writePolicyAndLimit s d v
  | _ => s

/-- A write to the block of an agent, `k` being the address within it. -/
def writeAgent (s : State) (n : AgentId) (k : Nat) (v : Word) : State :=
  match k with
  | 1 => writeQuota s n v
  | 2 => writeBound s n v
  | _ => s

/-- A write of a value to a register (R176, the map of 10.2). A write to an address the map does not assign or to a read-only
register is ignored. -/
def writeRegister (s : State) (address : BitVec 16) (v : Word) : State :=
  let a := address.toNat
  if a = 0x0004 then s.setManagement { s.management with argument := v }
  else if a = 0x0005 then writeCommand s (v.setWidth 8)
  else if a = 0x0008 then writeWatchdog s v
  else if 0x0010 ≤ a ∧ a ≤ 0x0017 then writeLease s (Fin.ofNat 8 (a - 0x0010)) v
  else if 0x0018 ≤ a ∧ a ≤ 0x001D then writeWait s (Fin.ofNat 6 (a - 0x0018)) v
  else if a = 0x0020 then s.setFault (s.fault.clearSticky v)
  else if a = 0x0021 then s.setFault (s.fault.setEnables v)
  else if a = 0x0022 then s.setFault (writeCaptureControl s.fault v)
  else if 0x0100 ≤ a ∧ a ≤ 0x017F then writeDomain s (Fin.ofNat 8 ((a - 0x0100) / 16)) ((a - 0x0100) % 16) v
  else if 0x0200 ≤ a ∧ a ≤ 0x027F then writeAgent s (Fin.ofNat 16 ((a - 0x0200) / 8)) ((a - 0x0200) % 8) v
  else s

/-- REGISTER_WRITE (R176). -/
def execRegisterWrite (address : BitVec 16) (value : Word) (s : State) : Host.Outcome State Fault Refusal :=
  .next (writeRegister s address value)

/-- TOKEN_COUNTER_LOW_READ: bits 31:0 are returned and bits 39:32 latched (R176). -/
def execTokenCounterLowRead (d : DomainId) (s : State) : Host.Outcome State Fault Refusal :=
  let k := (s.domain d).tokenCounter
  .next (s.setManagement { s.management with readData := k.setWidth 32, latch := k.extractLsb' 32 8 })

/-- STICKY_BITS_WRITE (R170). -/
def execStickyBitsWrite (value : Word) (s : State) : Host.Outcome State Fault Refusal :=
  .next (s.setFault (s.fault.clearSticky value))

/-- INTERRUPT_ENABLES_WRITE (R171). -/
def execInterruptEnablesWrite (value : Word) (s : State) : Host.Outcome State Fault Refusal :=
  .next (s.setFault (s.fault.setEnables value))

/-- CAPTURE_CLEAR (R173). -/
def execCaptureClear (s : State) : Host.Outcome State Fault Refusal :=
  .next (s.setFault s.fault.clearCapture)

/-! ## FAULT_REPORT -/

/-- The reports a unit has made and the fault unit has not yet taken (R169). -/
def reportsOf (s : State) (src : Source) : List Report :=
  match src with
  | .management => s.management.reports
  | .session => s.session.reports
  | .notice => s.notice.reports
  | .domain d => (s.domain d).reports
  | .link n => (s.link n).reports

/-- The same list replaced. -/
def withReports (s : State) (src : Source) (l : List Report) : State :=
  match src with
  | .management => s.setManagement { s.management with reports := l }
  | .session => { s with session := { s.session with reports := l } }
  | .notice => { s with notice := { s.notice with reports := l } }
  | .domain d => s.setDomain d { s.domain d with reports := l }
  | .link n => s.setLink n { s.link n with reports := l }

/-- FAULT_REPORT: the oldest report of a unit taken (R169, R170, R172). -/
def execFaultReport (src : Source) (s : State) : Host.Outcome State Fault Refusal :=
  match reportsOf s src with
  | r :: rest => .next ((withReports s src rest).setFault (s.fault.take r))
  | [] => .next s

end Sys2Proof.Machine
end

