-- ==== Sys2Proof/Machine/Notices.lean ====
section
/-! DEFINITION. The notice unit (05): posts, withdrawals and clearings of record notices, session conditions, delivery,
acknowledgements, reclaims, losses of domains and link resets. -/

namespace Sys2Proof.Machine

/-! ## Presenting to a domain and handing to a link -/

/-- A claim, acknowledgement or reversion presented to the domain that owns the handle's bank (R106), or to the lock table
where none does (log 12). -/
def present (s : State) (h : Handle) (x : NoticeAsk) : State :=
  match ownerOf s h.slot with
  | some d => s.setDomain d { s.domain d with fromNotice := (s.domain d).fromNotice ++ [x] }
  | none => { s with noDomain := { s.noDomain with asks := s.noDomain.asks ++ [x] } }

/-- A notice handed to the notice place of the agent's link, replacing one not yet framed (R147). The link discards a notice of
before a warm restart that it has taken (R150, R179). -/
def handNotice (s : State) (n : AgentId) (m : NoticeMsg) : State :=
  s.setLink n { s.link n with notice := if lateNotice s n then (s.link n).notice else some m }

/-! ## Queues (05 5.2) -/

/-- The entry of a handle. -/
def findEntry (h : Handle) (q : List Entry) : Option Entry :=
  q.find? (fun e => e.handle == h)

/-- The queue without the entry of a handle (R101). -/
def dropEntry (h : Handle) (q : List Entry) : List Entry :=
  q.filter (fun e => e.handle != h)

/-- The entry of a handle changed in place. -/
def changeEntry (h : Handle) (f : Entry → Entry) (q : List Entry) : List Entry :=
  q.map (fun e => if e.handle = h then f e else e)

/-! ## Delivery (R106) -/

/-- Delivery begun where the marker is READY: the session conditions first, else a claim for the first entry that is not
frozen (R106). -/
def beginDelivery (s : State) (n : AgentId) : State :=
  let a := s.noticeAgent n
  match a.marker with
  | .ready =>
    if a.conditions ≠ .none then
      handNotice (s.setNotice n { a with marker := .sessionSent a.conditions }) n (.session a.conditions)
    else
      match a.queue.find? (fun e => !e.frozen) with
      | some e => present (s.setNotice n { a with marker := .claiming e.handle }) e.handle (.claim n e.handle)
      | none => s
  | .claiming _ | .recordSent _ | .acking _ | .sessionSent _ => s

/-- The handle the marker names for a record notice in delivery. -/
def Marker.handle? (m : Marker) : Option Handle :=
  match m with
  | .claiming h | .recordSent h | .acking h => some h
  | .ready | .sessionSent _ => none

/-- A record notice taken out of delivery: the marker READY, and for RECORD_SENT and ACKING the retracted mark set to the
handle (R104, R112, R113). -/
def retract (a : NoticeAgent) : NoticeAgent :=
  match a.marker with
  | .claiming _ => { a with marker := .ready }
  | .recordSent h | .acking h => { a with marker := .ready, retracted := some (.handle h) }
  | .ready | .sessionSent _ => a

/-! ## A message of a domain -/

/-- The message at the head of what domain `d` has handed the notice unit. -/
def headMessage (s : State) (d : DomainId) : Option DomainNotice :=
  (s.domain d).toNotice.head?

/-- The head message of domain `d` taken. -/
def dropHead (s : State) (d : DomainId) : State :=
  s.setDomain d { s.domain d with toNotice := (s.domain d).toNotice.tail }

/-- The message was made before the notice unit took its last warm restart, and is discarded (R115, R179). -/
def staleMessage (s : State) (m : DomainNotice) : Bool :=
  m.era < s.notice.era

/-! ## Posts (R103) -/

/-- An entry with its front replaced, or a new one at the tail. -/
def postFront (h : Handle) (n : NoticeItem) (q : List Entry) : List Entry :=
  match findEntry h q with
  | some _ => changeEntry h (fun e => { e with front := n }) q
  | none => q ++ [{ handle := h, front := n, followUp := none, frozen := false }]

/-- A post applied to a queue by its placing (R103). -/
def applyPost (h : Handle) (p : Placing) (n : NoticeItem) (q : List Entry) : List Entry :=
  match p with
  | .newFront | .replaceFront => postFront h n q
  | .followUp => changeEntry h (fun e => { e with followUp := some n }) q

/-- The post at the head of a domain's messages, whose owner's state has been read: applied for an ONLINE owner, else
discarded (R103). -/
def takePost (s : State) (d : DomainId) (owner : AgentId) (h : Handle) (p : Placing) (n : NoticeItem) (st : AgentState) :
    State :=
  let s := dropHead { s with notice := { s.notice with reads := put s.notice.reads d .idle } } d
  if st = .online then
    beginDelivery (s.setNotice owner { s.noticeAgent owner with queue := applyPost h p n (s.noticeAgent owner).queue }) owner
  else s

/-- NOTICE_POST: the notice unit first asks for the owner's state, then applies the post with the answer (R103, log 13). A post
waits until the notice unit has taken every reclaim of the owner that the domain had taken before it (R112), and a reclaim
taken between the two events lets the state be read again (`forgetReads`). -/
def execNoticePost (d : DomainId) (s : State) : Host.Outcome State Fault Refusal :=
  match headMessage s d with
  | some ⟨era, .post owner h p n after⟩ =>
    if staleMessage s ⟨era, .post owner h p n after⟩ then
      .next (dropHead { s with notice := { s.notice with reads := put s.notice.reads d .idle } } d)
    else if (s.noticeAgent owner).reclaimed < after then .next s
    else
      match look s.notice.reads d with
      | .idle => .next { s with notice := { s.notice with reads := put s.notice.reads d (.asked owner) } }
      | .asked _ => .next s
      | .answered _ st => .next (takePost s d owner h p n st)
  | _ => .next s

/-! ## Removals (R104) -/

/-- WITHDRAW_FRONT: the entry removed, together with any follow-up (R104). -/
def execWithdrawFront (d : DomainId) (s : State) : Host.Outcome State Fault Refusal :=
  match headMessage s d with
  | some ⟨era, .withdrawFront owner h⟩ =>
    let t := dropHead s d
    if staleMessage s ⟨era, .withdrawFront owner h⟩ then .next t
    else .next (t.setNotice owner { t.noticeAgent owner with queue := dropEntry h (t.noticeAgent owner).queue })
  | _ => .next s

/-- WITHDRAW_FOLLOW_UP: the follow-up made absent, front and position kept (R104). -/
def execWithdrawFollowUp (d : DomainId) (s : State) : Host.Outcome State Fault Refusal :=
  match headMessage s d with
  | some ⟨era, .withdrawFollowUp owner h⟩ =>
    let t := dropHead s d
    if staleMessage s ⟨era, .withdrawFollowUp owner h⟩ then .next t
    else .next (t.setNotice owner { t.noticeAgent owner with
      queue := changeEntry h (fun e => { e with followUp := none }) (t.noticeAgent owner).queue })
  | _ => .next s

/-- The entry of a cleared record removed; where the marker names the handle, it is taken out of delivery, and delivery begins
again (R104, R106). DESIGN CHOICE (log 38): the marker becomes READY also where the CLEAR finds no entry, which R104 calls discarded
as well. -/
def clearEntry (s : State) (owner : AgentId) (h : Handle) : State :=
  let a := { s.noticeAgent owner with queue := dropEntry h (s.noticeAgent owner).queue }
  if a.marker.handle? = some h then beginDelivery (s.setNotice owner (retract a)) owner else s.setNotice owner a

/-- CLEAR (R104). -/
def execClear (d : DomainId) (s : State) : Host.Outcome State Fault Refusal :=
  match headMessage s d with
  | some ⟨era, .clear owner h⟩ =>
    if staleMessage s ⟨era, .clear owner h⟩ then .next (dropHead s d) else .next (clearEntry (dropHead s d) owner h)
  | _ => .next s

/-- SCRUB_REMOVE: the entry removed from whichever agent's queue holds the handle (R104, R11). -/
def execScrubRemove (d : DomainId) (s : State) : Host.Outcome State Fault Refusal :=
  match headMessage s d with
  | some ⟨era, .scrubRemove h⟩ =>
    let t := dropHead s d
    if staleMessage s ⟨era, .scrubRemove h⟩ then .next t
    else .next { t with notice := { t.notice with
      agents := mapTable (fun a : NoticeAgent => { a with queue := dropEntry h a.queue }) t.notice.agents } }
  | _ => .next s

/-! ## Session conditions (R105) -/

/-- A condition added to a set. -/
def Conditions.add (c : Conditions) : Condition → Conditions
  | .lapsed => { c with lapsed := true }
  | .evicted => { c with evicted := true }
  | .lost d => { c with lost := c.lost ||| BitVec.twoPow 8 d.val }

/-- The conditions of one set out of another. -/
def Conditions.minus (c x : Conditions) : Conditions :=
  { lapsed := c.lapsed && !x.lapsed, evicted := c.evicted && !x.evicted, lost := c.lost &&& ~~~x.lost }

/-- A condition posted (R105): added to the set, and taken out of the conditions of a SESSION_NOTICE in delivery, so that its
acknowledgement leaves the condition pending. -/
def addCondition (a : NoticeAgent) (c : Condition) : NoticeAgent :=
  { a with
    conditions := a.conditions.add c
    marker := match a.marker with
      | .sessionSent x => .sessionSent (x.minus (Conditions.none.add c))
      | m => m }

/-- SESSION_CONDITION_POST (R105). -/
def execSessionConditionPost (s : State) : Host.Outcome State Fault Refusal :=
  match s.notice.conditions with
  | .post a c era :: rest =>
    let s := { s with notice := { s.notice with conditions := rest } }
    if era < s.notice.era then .next s
    else .next (beginDelivery (s.setNotice a (addCondition (s.noticeAgent a) c)) a)
  | _ => .next s

/-- The session notice set emptied at a JOIN; a SESSION_NOTICE in delivery is retracted (R105). -/
def emptyConditions (a : NoticeAgent) : NoticeAgent :=
  match a.marker with
  | .sessionSent _ => { a with conditions := .none, marker := .ready, retracted := some .session }
  | .ready | .claiming _ | .recordSent _ | .acking _ => { a with conditions := .none }

/-- SESSION_SET_EMPTY (R105). -/
def execSessionSetEmpty (s : State) : Host.Outcome State Fault Refusal :=
  match s.notice.conditions with
  | .empty a era :: rest =>
    let s := { s with notice := { s.notice with conditions := rest } }
    if era < s.notice.era then .next s
    else .next (beginDelivery (s.setNotice a (emptyConditions (s.noticeAgent a))) a)
  | _ => .next s

/-! ## Answers of a domain (R107, R110) -/

/-- A claim's answer taken by the notice unit (R107). A granted claim finds no entry where the post of the claimed front was
discarded, its owner no longer ONLINE (R103): no notice can be handed on, and the marker becomes READY, so that delivery begins
(R106, log 25). -/
def takeAnswer (s : State) (a : AgentId) (h : Handle) (granted : Bool) : State :=
  let x := s.noticeAgent a
  if x.marker = .claiming h then
    if granted then
      match findEntry h x.queue with
      | some e => handNotice (s.setNotice a { x with marker := .recordSent h }) a (.record h e.front)
      | none => beginDelivery (s.setNotice a { x with marker := .ready }) a
    else beginDelivery (s.setNotice a { x with marker := .ready }) a
  else s

/-- An acknowledged entry whose follow-up takes the front's place, moved to the tail (R110). DESIGN CHOICE (log 35): an entry
without a follow-up, whose FOLLOW_UP post was discarded for an owner not ONLINE (R103), stays as it is. -/
def promoteEntry (h : Handle) (q : List Entry) : List Entry :=
  match findEntry h q with
  | some e =>
    match e.followUp with
    | some n => dropEntry h q ++ [{ e with front := n, followUp := none }]
    | none => q
  | none => q

/-- A queue after the outcome of an acknowledgement (R110). -/
def applyOutcome (h : Handle) (o : AckOutcome) (q : List Entry) : List Entry :=
  match o with
  | .promoted => promoteEntry h q
  | .removed => dropEntry h q
  | .notTaken => q

/-- The outcome of an acknowledgement taken by the notice unit (R110). -/
def takeOutcome (s : State) (a : AgentId) (h : Handle) (o : AckOutcome) : State :=
  let x := { s.noticeAgent a with queue := applyOutcome h o (s.noticeAgent a).queue }
  if x.marker = .acking h then beginDelivery (s.setNotice a { x with marker := .ready }) a else s.setNotice a x

/-- CLAIM_ANSWER (R107). -/
def execClaimAnswer (src : Option DomainId) (s : State) : Host.Outcome State Fault Refusal :=
  match src with
  | some d =>
    match headMessage s d with
    | some ⟨era, .answer a h granted⟩ =>
      if staleMessage s ⟨era, .answer a h granted⟩ then .next (dropHead s d)
      else .next (takeAnswer (dropHead s d) a h granted)
    | _ => .next s
  | none =>
    match s.noDomain.toNotice with
    | ⟨_, .answer a h granted⟩ :: rest =>
      .next (takeAnswer { s with noDomain := { s.noDomain with toNotice := rest } } a h granted)
    | _ => .next s

/-- ACKNOWLEDGEMENT_OUTCOME (R110). -/
def execAcknowledgementOutcome (src : Option DomainId) (s : State) : Host.Outcome State Fault Refusal :=
  match src with
  | some d =>
    match headMessage s d with
    | some ⟨era, .outcome a h o⟩ =>
      if staleMessage s ⟨era, .outcome a h o⟩ then .next (dropHead s d) else .next (takeOutcome (dropHead s d) a h o)
    | _ => .next s
  | none =>
    match s.noDomain.toNotice with
    | ⟨_, .outcome a h o⟩ :: rest =>
      .next (takeOutcome { s with noDomain := { s.noDomain with toNotice := rest } } a h o)
    | _ => .next s

/-! ## Acknowledgements of an agent (R109, R111) -/

/-- A NOTICE_ACK taken (R109): presented where the marker is RECORD_SENT for the handle; absorbed by the retracted mark;
discarded with LINK_PROTOCOL otherwise. -/
def takeNoticeAck (s : State) (n : AgentId) (h : Handle) : State :=
  let a := s.noticeAgent n
  if a.marker = .recordSent h then present (s.setNotice n { a with marker := .acking h }) h (.acknowledge n h)
  else if a.retracted = some (.handle h) then
    if a.marker = .acking h then s else s.setNotice n { a with retracted := none }
  else reportNotice s .linkProtocol n

/-- NOTICE_ACK (R109). -/
def execNoticeAck (n : AgentId) (s : State) : Host.Outcome State Fault Refusal :=
  match (s.noticeAgent n).acks with
  | .notice h era :: rest =>
    let s := s.setNotice n { s.noticeAgent n with acks := rest }
    .next (if era < s.notice.era then s else takeNoticeAck s n h)
  | _ => .next s

/-- A SESSION_ACK taken (R111). -/
def takeSessionAck (s : State) (n : AgentId) : State :=
  let a := s.noticeAgent n
  match a.marker with
  | .sessionSent c => beginDelivery (s.setNotice n { a with conditions := a.conditions.minus c, marker := .ready }) n
  | .ready | .claiming _ | .recordSent _ | .acking _ =>
    if a.retracted = some .session then s.setNotice n { a with retracted := none } else reportNotice s .linkProtocol n

/-- SESSION_ACK (R111). -/
def execSessionAck (n : AgentId) (s : State) : Host.Outcome State Fault Refusal :=
  match (s.noticeAgent n).acks with
  | .session era :: rest =>
    let s := s.setNotice n { s.noticeAgent n with acks := rest }
    .next (if era < s.notice.era then s else takeSessionAck s n)
  | _ => .next s

/-! ## Emptying (05 5.7) -/

/-- A read of the agent's state for a post, under way or answered, is forgotten. -/
def PostRead.forget (n : AgentId) (x : PostRead) : PostRead :=
  match x with
  | .idle => .idle
  | .asked a | .answered a _ => if a = n then .idle else x

/-- The reads of the agent's state for posts forgotten, so that a post not yet applied reads the state again: an answer of
before the end of the session gives a LAPSED agent no record notice (R89, R112, log 13). -/
def forgetReads (n : AgentId) (s : State) : State :=
  { s with notice := { s.notice with reads := mapTable (PostRead.forget n) s.notice.reads } }

/-- NOTICE_RECLAIM (R112): the agent's queue emptied, a record notice in delivery retracted, session conditions kept, and the
reads of the agent's state for posts made again (R89). -/
def execNoticeReclaim (n : AgentId) (s : State) : Host.Outcome State Fault Refusal :=
  match (s.noticeAgent n).reclaims with
  | era :: rest =>
    let a := { s.noticeAgent n with reclaims := rest, reclaimed := (s.noticeAgent n).reclaimed + 1 }
    if era < s.notice.era then .next (s.setNotice n a)
    else .next (beginDelivery ((forgetReads n s).setNotice n (retract { a with queue := [] })) n)
  | [] => .next s

/-- An agent's queue and marker at the loss of the domain with the bank set given (R113). -/
def loseBanks (banks : BitVec 16) (a : NoticeAgent) : NoticeAgent :=
  let a := { a with queue := a.queue.map (fun e : Entry => if inBanks banks e.handle.slot then { e with frozen := true } else e) }
  match a.marker.handle? with
  | some h => if inBanks banks h.slot then retract a else a
  | none => a

/-- A notice of one of the banks is in delivery to the agent. -/
def deliversFrom (banks : BitVec 16) (a : NoticeAgent) : Bool :=
  match a.marker.handle? with
  | some h => inBanks banks h.slot
  | none => false

/-- DOMAIN_LOSS (R113): entries of the banks frozen, notices of them in delivery retracted, and delivery begun again for the
agents concerned (R106). DESIGN CHOICE (log 32): where several agents are concerned, their deliveries begin in rising agent number,
as R113 gives no order. -/
def execDomainLoss (d : DomainId) (s : State) : Host.Outcome State Fault Refusal :=
  match headMessage s d with
  | some ⟨era, .loss banks⟩ =>
    let t := dropHead s d
    if staleMessage s ⟨era, .loss banks⟩ then .next t
    else
      let hit := (List.finRange 16).filter (fun n => deliversFrom banks (s.noticeAgent n))
      let t := { t with notice := { t.notice with agents := mapTable (loseBanks banks) t.notice.agents } }
      .next (hit.foldl beginDelivery t)
  | _ => .next s

/-- A link reset taken by the notice unit (R114). -/
def takeLinkReset (s : State) (n : AgentId) : State :=
  let a := s.noticeAgent n
  match a.marker with
  | .recordSent h =>
    beginDelivery (present (s.setNotice n { a with marker := .ready, retracted := some (.handle h) }) h (.revert h)) n
  | .sessionSent _ => beginDelivery (s.setNotice n { a with marker := .ready, retracted := some .session }) n
  | .ready | .claiming _ | .acking _ => s

/-- NOTICE_LINK_RESET (R114). -/
def execNoticeLinkReset (n : AgentId) (s : State) : Host.Outcome State Fault Refusal :=
  if 0 < (s.link n).noticeResets then
    .next (takeLinkReset (s.setLink n { s.link n with noticeResets := (s.link n).noticeResets - 1 }) n)
  else .next s

end Sys2Proof.Machine
end

