-- ==== Sys2Proof/Machine/Requests.lean ====
section
/-! DEFINITION. The lock requests as a domain takes them (02 2.2, 03 3.1 to 3.3, 08 8.6): ACQUIRE, RELEASE, CONVERT up and down,
QUERY. Each takes the head of what the session unit has handed the domain, where that is a request of its kind, and returns a
result to the session unit (R26). -/

namespace Sys2Proof.Machine

/-- The domain with the head of the session unit's items taken. -/
def popSession (t : LockTable) : LockTable :=
  { t with dom := { t.dom with fromSession := t.dom.fromSession.tail } }

/-! ## ACQUIRE -/

/-- The record an accepted ACQUIRE fills its slot with (R17), in the state given. -/
def freshRecord (a : AgentId) (mode : Mode) (first : Page) (count : Nat) (cookie : BitVec 16) (code : WaitCode)
    (st : SlotState) (token : Option Token) (deadline : Option Time) : Record :=
  { owner := a, mode := mode, state := st, first := first, count := count, token := token, cookie := cookie,
    waitCode := code, waitDeadline := deadline, reads := 0, writes := 0, drainDeadline := none, front := none,
    followUp := none }

/-- A grantable ACQUIRE granted at once from the head of the free list (R32). The slot is read before anything changes, so
that an uncorrectable read leaves the token counter as it was (R37). -/
def grantAcquire (e : DomainEnv) (a : AgentId) (mode : Mode) (first : Page) (count : Nat) (cookie : BitVec 16)
    (code : WaitCode) (i : SlotId) (t : LockTable) : Ran Response :=
  (allocate e i (freshRecord a mode first count cookie code .held none none) t).bind fun _ t =>
    let (k, t) := takeToken e a i t
    let t := setRecord i { recordOf t.pool i with token := some k }
      { t with dom := { t.dom with
          occupancy := insertSlot i t.dom.occupancy
          tokenMap := t.dom.tokenMap ++ [(k, i)] } }
    .ok (.granted (handleOf t.pool i) k) t

/-- An ACQUIRE queued in the head slot of the free list (R35). -/
def queueAcquire (e : DomainEnv) (a : AgentId) (mode : Mode) (first : Page) (count : Nat) (cookie : BitVec 16)
    (code : WaitCode) (i : SlotId) (t : LockTable) : Ran Response :=
  (allocate e i (freshRecord a mode first count cookie code .waiting none (waitDeadlineOf e code)) t).bind fun _ t =>
    let t := { t with dom := { t.dom with waitQueue := t.dom.waitQueue ++ [i] } }
    .ok (.queued (handleOf t.pool i)) t

/-- The hold of an occupying record of the agent itself conflicts with the claim (R30). -/
def selfConflict (a : AgentId) (mode : Mode) (first : Page) (count : Nat) (holds : List (SlotId × Record)) : Bool :=
  meetsHold mode first count (holds.filter (fun p => p.2.owner == a))

/-- The checks of R30 to R35, for a domain that is ENABLED and an agent below its quota. -/
def decideInDomain (e : DomainEnv) (a : AgentId) (mode : Mode) (first : Page) (count : Nat) (cookie : BitVec 16)
    (code : WaitCode) (t : LockTable) : Ran Response :=
  (readAll e t.dom.occupancy t).bind fun holds t =>
    if selfConflict a mode first count holds then .ok (.refused .selfConflict) t
    else
      match t.dom.freeList with
      | [] => .ok (.refused .poolEmpty) t
      | i :: _ =>
        (readAll e t.dom.waitQueue t).bind fun claims t =>
          if !meetsHold mode first count holds && !meetsClaim mode first count claims then
            if t.dom.exhausted then .ok (.refused .tokensExhausted) t
            else grantAcquire e a mode first count cookie code i t
          else if code = 0 then .ok (.refused .conflict) t
          else queueAcquire e a mode first count cookie code i t

/-- The decision of an ACQUIRE by the domain it was handed to (R2, R27 to R35). -/
def decideAcquire (e : DomainEnv) (q : LockRequest) (mode : Mode) (first : Page) (count : Nat) (cookie : BitVec 16)
    (code : WaitCode) (t : LockTable) : Ran Response :=
  if !t.dom.holds first then .ok (.refused .noDomain) t
  else if t.dom.limit.toNat < lastPage first count then .ok (.refused .spanInvalid) t
  else if t.dom.unavailable then .ok (.refused .domainUnavailable) t
  else if t.dom.state = .closing then .ok (.refused .domainClosing) t
  else if q.quota ≤ q.live then .ok (.refused .quotaExceeded) t
  else decideInDomain e q.agent mode first count cookie code t

/-- The live report attached to an ACQUIRE's result: +1 when a slot was allocated (R26). -/
def acquireReport : Response → Option LiveChange
  | .granted _ _ | .queued _ => some .up
  | .joined _ _ _ | .left | .renewed _ | .converted _ _ | .released _ | .cancelled _ | .status _ | .refused _ => none

/-- A decision returned to the session unit; an uncorrectable read answers DOMAIN_UNAVAILABLE (R37, R54, R55). -/
def returnDecision (q : LockRequest) (live : Response → Option LiveChange) (r : Ran Response) : LockTable :=
  match r with
  | .ok a t => returnResult q a (live a) t
  | .lost t => returnResult q (.refused .domainUnavailable) none t

/-- ACQUIRE: the domain holding the first page decides it (R26); an ACQUIRE that resolved to no domain is answered NO_DOMAIN
without one (R2). -/
def execAcquire (dest : Option DomainId) (s : State) : Host.Outcome State Fault Refusal :=
  match dest with
  | some d =>
    match (s.domain d).fromSession with
    | .request ⟨a, quota, live, stamp, era, .acquire mode first count cookie code⟩ :: _ =>
      let q : LockRequest := ⟨a, quota, live, stamp, era, .acquire mode first count cookie code⟩
      .next (s.withTable d (returnDecision q acquireReport
        (decideAcquire (envOf s d) q mode first count cookie code (popSession (s.table d)))))
    | _ => .next s
  | none =>
    match s.noDomain.requests with
    | q :: rest =>
      .next { s with noDomain := { s.noDomain with
        requests := rest
        toSession := s.noDomain.toSession ++ [.result q.agent q.stamp (.refused .noDomain) none q.era] } }
    | [] => .next s

/-! ## RELEASE -/

/-- What a release part of an event returns: its response with the −1 of the record that left the live states, made before
any later read failed (R48, R62, R63). -/
def returnReleased (q : LockRequest) (r : Response) (x : Ran Unit) : LockTable :=
  match x with
  | .ok _ t => returnResult q r (some .down) t
  | .lost t => returnResult q (.refused .domainUnavailable) (some .down) t

/-- The decision of a RELEASE by the record's state (R61). -/
def decideRelease (e : DomainEnv) (q : LockRequest) (h : Handle) (t : LockTable) : LockTable :=
  match requestedRecord e q.agent h t with
  | .lost t => returnResult q (.refused .domainUnavailable) none t
  | .ok (.error c) t => returnResult q (.refused c) none t
  | .ok (.ok r) t =>
    match r.state with
    | .draining | .ended => returnResult q (.refused .alreadyReleased) none t
    | .waiting => returnReleased q (.cancelled h) (cancel e h.slot r t)
    | .held | .converting => returnReleased q (.released h) (releaseHeld e h.slot r none t)
    | .free => returnResult q (.refused .staleHandle) none t

/-- RELEASE (R61). -/
def execRelease (d : DomainId) (s : State) : Host.Outcome State Fault Refusal :=
  match (s.domain d).fromSession with
  | .request ⟨a, quota, live, stamp, era, .release h⟩ :: _ =>
    .next (s.withTable d (decideRelease (envOf s d) ⟨a, quota, live, stamp, era, .release h⟩ h (popSession (s.table d))))
  | _ => .next s

/-! ## CONVERT -/

/-- A grantable upgrade made within the event (R56). -/
def upgradeNow (e : DomainEnv) (h : Handle) (r : Record) (t : LockTable) : Response × LockTable :=
  let (k, t) := takeToken e r.owner h.slot t
  (.converted h k,
    setRecord h.slot { r with mode := .exclusive, token := some k }
      { t with dom := { t.dom with tokenMap := dropToken r.token t.dom.tokenMap ++ [(k, h.slot)] } })

/-- An upgrade queued (R57). -/
def queueUpgrade (e : DomainEnv) (h : Handle) (code : WaitCode) (r : Record) (t : LockTable) : LockTable :=
  setRecord h.slot { r with state := .converting, waitCode := code, waitDeadline := waitDeadlineOf e code }
    { t with dom := { t.dom with waitQueue := t.dom.waitQueue ++ [h.slot] } }

/-- The queued record's range overlaps the record's, whatever the modes (R55). -/
def queuedOver (r : Record) (claims : List (SlotId × Record)) : Bool :=
  claims.any (fun p => overlap r.first r.count p.2.first p.2.count)

/-- The decision of a CONVERT UP (R55 to R57). -/
def decideConvertUp (e : DomainEnv) (a : AgentId) (h : Handle) (code : WaitCode) (t : LockTable) : Ran Response :=
  (requestedRecord e a h t).bind fun x t =>
    match x with
    | .error c => .ok (.refused c) t
    | .ok r =>
      if r.state ≠ .held ∨ r.mode ≠ .shared then .ok (.refused .wrongMode) t
      else
        (readAll e t.dom.waitQueue t).bind fun claims t =>
          if queuedOver r claims then .ok (.refused .upgradeConflict) t
          else
            (readAll e t.dom.occupancy t).bind fun holds t =>
              if !meetsHold .exclusive r.first r.count (otherHolds h.slot holds) then
                if t.dom.exhausted then .ok (.refused .tokensExhausted) t
                else let (x, t) := upgradeNow e h r t; .ok x t
              else if code = 0 then .ok (.refused .conflict) t
              else .ok (.queued h) (queueUpgrade e h code r t)

/-- CONVERT UP (R55). -/
def execConvertUp (d : DomainId) (s : State) : Host.Outcome State Fault Refusal :=
  match (s.domain d).fromSession with
  | .request ⟨a, quota, live, stamp, era, .convertUp h code⟩ :: _ =>
    .next (s.withTable d (returnDecision ⟨a, quota, live, stamp, era, .convertUp h code⟩ (fun _ => none)
      (decideConvertUp (envOf s d) a h code (popSession (s.table d)))))
  | _ => .next s

/-- The token of a record as a number: 0 denotes no token (00 "Token"). -/
def tokenBits (k : Option Token) : Token :=
  k.getD 0

/-- The decision of a CONVERT DOWN (R59): the mode becomes SHARED under the same token, and a grant pass follows. -/
def decideConvertDown (e : DomainEnv) (a : AgentId) (h : Handle) (t : LockTable) : Ran Response :=
  (requestedRecord e a h t).bind fun x t =>
    match x with
    | .error c => .ok (.refused c) t
    | .ok r =>
      if r.state ≠ .held ∨ r.mode ≠ .exclusive then .ok (.refused .wrongMode) t
      else if 0 < r.writes then .ok (.refused .writesInFlight) t
      else
        (grantPass e (setRecord h.slot { r with mode := .shared } t)).bind fun _ t =>
          .ok (.converted h (tokenBits r.token)) t

/-- CONVERT DOWN (R59). -/
def execConvertDown (d : DomainId) (s : State) : Host.Outcome State Fault Refusal :=
  match (s.domain d).fromSession with
  | .request ⟨a, quota, live, stamp, era, .convertDown h⟩ :: _ =>
    .next (s.withTable d (returnDecision ⟨a, quota, live, stamp, era, .convertDown h⟩ (fun _ => none)
      (decideConvertDown (envOf s d) a h (popSession (s.table d)))))
  | _ => .next s

/-! ## QUERY -/

/-- The STATUS of a record (R158). -/
def statusOf (h : Handle) (r : Record) (t : LockTable) : StatusFields :=
  { handle := h, state := r.state, mode := r.mode, token := r.token, reads := r.reads, writes := r.writes,
    position := queuePosition h.slot r t, first := r.first, count := r.count, waitCode := r.waitCode, cookie := r.cookie }

/-- The decision of a QUERY (R158). -/
def decideQuery (e : DomainEnv) (a : AgentId) (h : Handle) (t : LockTable) : Ran Response :=
  (requestedRecord e a h t).bind fun x t =>
    match x with
    | .error c => .ok (.refused c) t
    | .ok r => .ok (.status (statusOf h r t)) t

/-- QUERY (R158). -/
def execQuery (d : DomainId) (s : State) : Host.Outcome State Fault Refusal :=
  match (s.domain d).fromSession with
  | .request ⟨a, quota, live, stamp, era, .query h⟩ :: _ =>
    .next (s.withTable d (returnDecision ⟨a, quota, live, stamp, era, .query h⟩ (fun _ => none)
      (decideQuery (envOf s d) a h (popSession (s.table d)))))
  | _ => .next s

end Sys2Proof.Machine
end

