-- ==== Sys2Proof/Machine/Restart.lean ====
section
/-! DEFINITION. Cold reset, the taking of a warm restart by each unit (R12, R99, R115, R131, R150, R179), and the time count. -/

namespace Sys2Proof.Machine

/-- COLD_RESET: every unit in its cold reset state (R13, R76, R115, R131, R150, R174, R177, R178); the words of a CHECK passed
so far are discarded (R163). What is still to come from outside is no part of the chip and stays: the commands (log 1), the
storage errors (log 5), and the messages the storage controller still presents on GD_IN, no word of which has passed (log 17).
GD_IN_READY is then asserted for either kind (R116, R131). -/
def execColdReset (s : State) : Host.Outcome State Fault Refusal :=
  .next { State.reset with
    gate := { GateUnit.reset with port := s.gate.port }
    pending := s.pending
    upsets := s.upsets }

/-! ## Units that have yet to take a warm restart (R179) -/

/-- A unit has taken the warm restart in progress. -/
def restartTaken (s : State) (due : RestartDue) : State :=
  s.setManagement { s.management with command := some (.restarting due) }

/-! ## The lock table (R12) -/

/-- The slot FREE at the next generation with a cleared record, whatever it held (R12, R166). -/
def renewSlot (i : SlotId) (p : Pool) : Pool :=
  freeSlot p i

/-- Every slot of a list renewed. -/
def renewSlots (l : List SlotId) (p : Pool) : Pool :=
  l.foldl (fun p i => renewSlot i p) p

/-- What is common to every domain at a warm restart: requests and reclaims handed before it are discarded (R99, log 10). -/
def restartedDomain (x : Domain) : Domain :=
  { x with era := x.era + 1, fromSession := [] }

/-- A domain and its slots after a warm restart (R12). -/
def restartTable (t : LockTable) : LockTable :=
  let x := restartedDomain t.dom
  match t.dom.state with
  | .disabled => { t with dom := x }
  | .enabled => { dom := enabledDomain x, pool := renewSlots (slotsOfBanks x.banks) t.pool }
  | .closing | .quarantined | .scrubbing =>
    { dom := { emptyCollections x with state := .disabled, scrubPos := none, live := Vector.replicate 16 0 },
      pool := renewSlots (slotsOfBanks x.banks) t.pool }

/-- LOCK_TABLE_WARM_RESTART of one domain (R12, R179). -/
def execLockTableWarmRestart (d : DomainId) (s : State) : Host.Outcome State Fault Refusal :=
  match restartDue s with
  | some due =>
    if look due.domains d then
      .next (restartTaken (s.withTable d (restartTable (s.table d))) { due with domains := put due.domains d false })
    else .next s
  | none => .next s

/-! ## The session unit (R99) -/

/-- An agent after a warm restart (R99). -/
def restartedAgent (a : Agent) : Agent :=
  { a with
    state := if a.state = .disabled then .disabled else .offline
    leaseClass := none
    leaseDeadline := none
    live := 0
    tags := Vector.replicate 8 false
    inProcess := none }

/-- SESSION_WARM_RESTART (R99, R179). -/
def execSessionWarmRestart (s : State) : Host.Outcome State Fault Refusal :=
  match restartDue s with
  | some due =>
    if due.session then
      .next (restartTaken
        { s with session := { s.session with
            agents := mapTable restartedAgent s.session.agents, era := s.session.era + 1 } }
        { due with session := false })
    else .next s
  | none => .next s

/-! ## The notice unit (R115) -/

/-- What the notice unit holds for an agent after a warm restart: empty queue and set, READY, no mark, no message. The reclaims
discarded count as taken, so that no later post waits for them (log 11). -/
def restartedNoticeAgent (a : NoticeAgent) : NoticeAgent :=
  { NoticeAgent.reset with reclaimed := a.reclaimed + a.reclaims.length }

/-- NOTICE_WARM_RESTART: every message handed to the notice unit and not yet taken is discarded (R115, R179). -/
def execNoticeWarmRestart (s : State) : Host.Outcome State Fault Refusal :=
  match restartDue s with
  | some due =>
    if due.notice then
      .next (restartTaken
        { s with
          notice := { s.notice with
            agents := mapTable restartedNoticeAgent s.notice.agents
            conditions := []
            reads := Vector.replicate 8 .idle
            era := s.notice.era + 1 }
          domains := mapTable (fun d : Domain => { d with toNotice := [] }) s.domains
          noDomain := { s.noDomain with toNotice := [] }
          links := mapTable (fun p : LinkPort => { p with noticeResets := 0 }) s.links }
        { due with notice := false })
    else .next s
  | none => .next s

/-! ## The gate unit (R131) -/

/-- The gate unit after a warm restart: the DONE queue empty and DONEs waiting on the port accepted, the CHECK queue kept, every
place of the verdict queue G_NOT_READY (R131). -/
def restartedGate (g : GateUnit) : GateUnit :=
  GateUnit.settle { g with
    doneQueue := []
    verdictQueue := g.verdictQueue.map (fun p : Place => { p with verdict := some (.refused .notReady) }) }

/-- The presentations withdrawn of the CHECKs that the lock table has not yet taken (R131): every one of them has a place in the
verdict queue, so that no domain decides a CHECK of before the restart after it. -/
def withdrawChecks (s : State) : State :=
  { s with
    domains := mapTable (fun d : Domain => { d with checks := [] }) s.domains
    noDomain := { s.noDomain with checks := [] } }

/-- GATE_WARM_RESTART (R131, R179). -/
def execGateWarmRestart (s : State) : Host.Outcome State Fault Refusal :=
  match restartDue s with
  | some due =>
    if due.gate then
      .next (restartTaken ((withdrawChecks s).setGate (restartedGate s.gate)) { due with gate := false })
    else .next s
  | none => .next s

/-! ## The link ports (R150) -/

/-- LINK_PORT_WARM_RESTART: the restart taken as a link reset (R145, R150, R179). -/
def execLinkPortWarmRestart (n : AgentId) (s : State) : Host.Outcome State Fault Refusal :=
  match restartDue s with
  | some due =>
    if look due.links n then .next (restartTaken (onLink n linkReset s) { due with links := put due.links n false })
    else .next s
  | none => .next s

/-! ## The time count (R177) and storage errors (log 5) -/

/-- A record with one more bit in disagreement with its code (R166). -/
def oneBitMore : Health → Health
  | .clean => .oneBit
  | .oneBit | .manyBits => .manyBits

/-- A storage error strikes its slot (log 5, log 6). -/
def strike (u : Upset) (p : Pool) : Pool :=
  let x := poolGet p u.slot
  poolPut p u.slot (match u.kind with
    | .recordBit => { x with health := oneBitMore x.health }
    | .recordBits => { x with health := .manyBits }
    | .copyA c => { x with copyA := c }
    | .copyB c => { x with copyB := c }
    | .copyC c => { x with copyC := c })

/-- TIME_COUNT_ADVANCE: the time count advances by 1 modulo 2^32 (R177). The storage errors due in the millisecond strike. -/
def execTimeCountAdvance (s : State) : Host.Outcome State Fault Refusal :=
  .next { s with
    time := s.time + 1
    pool := (s.upsets.headD []).foldl (fun p u => strike u p) s.pool
    upsets := s.upsets.tail }

end Sys2Proof.Machine
end

