-- ==== Sys2Proof/Machine/Dispatch.lean ====
section
/-! DEFINITION. The effect of each command on everything but the queue of pending commands: one arm per row of the table, one
call of its meaning. -/

namespace Sys2Proof.Machine

/-- The effect of a command. -/
def exec (i : Instr) (s : State) : Host.Outcome State Fault Refusal :=
  match i with
  | .coldReset => Sys2Proof.Machine.execColdReset s
  | .registerWrite address value => Sys2Proof.Machine.execRegisterWrite address value s
  | .tokenCounterLowRead d => Sys2Proof.Machine.execTokenCounterLowRead d s
  | .stickyBitsWrite value => Sys2Proof.Machine.execStickyBitsWrite value s
  | .interruptEnablesWrite value => Sys2Proof.Machine.execInterruptEnablesWrite value s
  | .captureClear => Sys2Proof.Machine.execCaptureClear s
  | .unknownCommand code => Sys2Proof.Machine.execUnknownCommand code s
  | .enableDomain p => Sys2Proof.Machine.execEnableDomain p s
  | .closeDomain p => Sys2Proof.Machine.execCloseDomain p s
  | .scrubDomain p => Sys2Proof.Machine.execScrubDomain p s
  | .scrubVisit d => Sys2Proof.Machine.execScrubVisit d s
  | .enableAgent p => Sys2Proof.Machine.execEnableAgent p s
  | .disableAgent p => Sys2Proof.Machine.execDisableAgent p s
  | .evictAgent p => Sys2Proof.Machine.execEvictAgent p s
  | .revokeRecord p => Sys2Proof.Machine.execRevokeRecord p s
  | .resetLink p => Sys2Proof.Machine.execResetLink p s
  | .walkStart p => Sys2Proof.Machine.execWalkStart p s
  | .walkNext p => Sys2Proof.Machine.execWalkNext p s
  | .walkExamination => Sys2Proof.Machine.execWalkExamination s
  | .start => Sys2Proof.Machine.execStart s
  | .warmRestart => Sys2Proof.Machine.execWarmRestart s
  | .commandAnswer => Sys2Proof.Machine.execCommandAnswer s
  | .lockTableWarmRestart d => Sys2Proof.Machine.execLockTableWarmRestart d s
  | .sessionWarmRestart => Sys2Proof.Machine.execSessionWarmRestart s
  | .noticeWarmRestart => Sys2Proof.Machine.execNoticeWarmRestart s
  | .gateWarmRestart => Sys2Proof.Machine.execGateWarmRestart s
  | .linkPortWarmRestart n => Sys2Proof.Machine.execLinkPortWarmRestart n s
  | .requestArrival n => Sys2Proof.Machine.execRequestArrival n s
  | .requestTake n => Sys2Proof.Machine.execRequestTake n s
  | .join n => Sys2Proof.Machine.execJoin n s
  | .leave n => Sys2Proof.Machine.execLeave n s
  | .renew n => Sys2Proof.Machine.execRenew n s
  | .acknowledgementTake n => Sys2Proof.Machine.execAcknowledgementTake n s
  | .messageDiscard n => Sys2Proof.Machine.execMessageDiscard n s
  | .resultTake src => Sys2Proof.Machine.execResultTake src s
  | .responseHandoff n => Sys2Proof.Machine.execResponseHandoff n s
  | .liveReport d => Sys2Proof.Machine.execLiveReport d s
  | .leaseExpiry n => Sys2Proof.Machine.execLeaseExpiry n s
  | .resetNotice n => Sys2Proof.Machine.execResetNotice n s
  | .agentStateRead r => Sys2Proof.Machine.execAgentStateRead r s
  | .acquire dest => Sys2Proof.Machine.execAcquire dest s
  | .release d => Sys2Proof.Machine.execRelease d s
  | .convertUp d => Sys2Proof.Machine.execConvertUp d s
  | .convertDown d => Sys2Proof.Machine.execConvertDown d s
  | .query d => Sys2Proof.Machine.execQuery d s
  | .waitExpiry slot => Sys2Proof.Machine.execWaitExpiry slot s
  | .drainOverrun slot => Sys2Proof.Machine.execDrainOverrun slot s
  | .reclaim d => Sys2Proof.Machine.execReclaim d s
  | .claim dest => Sys2Proof.Machine.execClaim dest s
  | .presentedAcknowledgement dest => Sys2Proof.Machine.execPresentedAcknowledgement dest s
  | .reversion dest => Sys2Proof.Machine.execReversion dest s
  | .noticePost d => Sys2Proof.Machine.execNoticePost d s
  | .withdrawFront d => Sys2Proof.Machine.execWithdrawFront d s
  | .withdrawFollowUp d => Sys2Proof.Machine.execWithdrawFollowUp d s
  | .clear d => Sys2Proof.Machine.execClear d s
  | .scrubRemove d => Sys2Proof.Machine.execScrubRemove d s
  | .sessionConditionPost => Sys2Proof.Machine.execSessionConditionPost s
  | .sessionSetEmpty => Sys2Proof.Machine.execSessionSetEmpty s
  | .claimAnswer src => Sys2Proof.Machine.execClaimAnswer src s
  | .acknowledgementOutcome src => Sys2Proof.Machine.execAcknowledgementOutcome src s
  | .noticeAck n => Sys2Proof.Machine.execNoticeAck n s
  | .sessionAck n => Sys2Proof.Machine.execSessionAck n s
  | .noticeReclaim n => Sys2Proof.Machine.execNoticeReclaim n s
  | .domainLoss d => Sys2Proof.Machine.execDomainLoss d s
  | .noticeLinkReset n => Sys2Proof.Machine.execNoticeLinkReset n s
  | .checkAccept c => Sys2Proof.Machine.execCheckAccept c s
  | .doneAccept m => Sys2Proof.Machine.execDoneAccept m s
  | .gateWordDiscard w => Sys2Proof.Machine.execGateWordDiscard w s
  | .checkTake => Sys2Proof.Machine.execCheckTake s
  | .checkPresent => Sys2Proof.Machine.execCheckPresent s
  | .check dest => Sys2Proof.Machine.execCheck dest s
  | .verdictPlace src => Sys2Proof.Machine.execVerdictPlace src s
  | .verdictAccept => Sys2Proof.Machine.execVerdictAccept s
  | .doneDispatch => Sys2Proof.Machine.execDoneDispatch s
  | .done d => Sys2Proof.Machine.execDone d s
  | .faultReport src => Sys2Proof.Machine.execFaultReport src s
  | .signalDetect n => Sys2Proof.Machine.execSignalDetect n s
  | .lossOfSignalDetect n => Sys2Proof.Machine.execLossOfSignalDetect n s
  | .idleReceived n => Sys2Proof.Machine.execIdleReceived n s
  | .resyncReceived n next flag => Sys2Proof.Machine.execResyncReceived n next flag s
  | .corruptWord n => Sys2Proof.Machine.execCorruptWord n s
  | .corruptFrame n => Sys2Proof.Machine.execCorruptFrame n s
  | .dataReceived n seq a words => Sys2Proof.Machine.execDataReceived n seq a words s
  | .ackReceived n a => Sys2Proof.Machine.execAckReceived n a s
  | .nakReceived n expected => Sys2Proof.Machine.execNakReceived n expected s
  | .alignmentAttemptExpiry n => Sys2Proof.Machine.execAlignmentAttemptExpiry n s
  | .watchdogExpiry n => Sys2Proof.Machine.execWatchdogExpiry n s
  | .replayDeadlineExpiry n => Sys2Proof.Machine.execReplayDeadlineExpiry n s
  | .frameSend n => Sys2Proof.Machine.execFrameSend n s
  | .timeCountAdvance => Sys2Proof.Machine.execTimeCountAdvance s
  | .aligningResyncSend n => Sys2Proof.Machine.execAligningResyncSend n s

end Sys2Proof.Machine
end

