-- ==== Sys2Proof/Machine/Formats.lean ====
section
/-! DEFINITION. The bit layouts of 08 8.9: check codes, link frames, session messages the part sends, gate port words; and the two
receivers that turn words on the pins into commands, for the link line (R160) and the gate port (R163). -/

namespace Sys2Proof.Machine

/-- A number placed in a word from bit `lo` up. -/
def place (x lo : Nat) : Word :=
  BitVec.ofNat 32 x <<< lo

/-! ## Check codes (R161) -/

/-- The check register after one more bit: polynomial x^16 + x^12 + x^5 + 1. -/
def crcBit (r : BitVec 16) (b : Bool) : BitVec 16 :=
  if r.msb ^^ b then (r <<< 1) ^^^ 0x1021#16 else r <<< 1

/-- The bits of a vector, most significant first. -/
def bitsOf {n : Nat} (v : BitVec n) : List Bool :=
  (List.range n).map (fun i => v.getMsbD i)

/-- The check code of a list of bits: the register starts at FFFFh and is not inverted at the end. -/
def crcOf (bits : List Bool) : BitVec 16 :=
  bits.foldl crcBit 0xFFFF#16

/-- The check code of a single-word frame, over bits 31:16. -/
def singleCode (w : Word) : BitVec 16 :=
  crcOf (bitsOf (w.extractLsb' 16 16))

/-- The check code of a DATA frame, over its start word and its message words. -/
def dataCode (start : Word) (words : List Word) : BitVec 16 :=
  crcOf ((start :: words).flatMap bitsOf)

/-! ## Session messages of the part (08 8.8, 8.9) -/

/-- The result code of a refusal (08 8.8). -/
def ResultRefusal.code : ResultRefusal → Nat
  | .badRequest => 0x10
  | .tagInUse => 0x11
  | .notReady => 0x12
  | .agentDisabled => 0x13
  | .notJoined => 0x14
  | .sessionLapsed => 0x15
  | .noDomain => 0x20
  | .spanInvalid => 0x21
  | .domainUnavailable => 0x22
  | .domainClosing => 0x23
  | .quotaExceeded => 0x24
  | .selfConflict => 0x25
  | .poolEmpty => 0x26
  | .tokensExhausted => 0x27
  | .conflict => 0x28
  | .staleHandle => 0x29
  | .notOwner => 0x2A
  | .wrongMode => 0x2B
  | .upgradeConflict => 0x2C
  | .writesInFlight => 0x2D
  | .alreadyReleased => 0x2E

/-- The result code of a response (08 8.8). -/
def Response.code : Response → Nat
  | .joined _ _ _ => 0x01
  | .left => 0x02
  | .renewed _ => 0x03
  | .granted _ _ => 0x04
  | .queued _ => 0x05
  | .converted _ _ => 0x06
  | .released _ => 0x07
  | .cancelled _ => 0x08
  | .status _ => 0x09
  | .refused r => r.code

/-- A handle field, slot in bits 19:8 and generation in bits 7:0. -/
def handleWord (h : Handle) : Word :=
  place h.slot.val 8 ||| place h.gen.toNat 0

/-- The word with token bits 39:32 in 27:20 and a handle in 19:0. -/
def tokenHandleWord (k : Token) (h : Handle) : Word :=
  place (k.toNat / 2 ^ 32) 20 ||| handleWord h

/-- Token bits 31:0. -/
def tokenLow (k : Token) : Word :=
  k.setWidth 32

/-- The state code of a record: 0 for none (08 8.9, 10 10.2). -/
def SlotState.code : SlotState → Nat
  | .free => 0
  | .waiting => 1
  | .held => 2
  | .converting => 3
  | .draining => 4
  | .ended => 5

/-- The mode bit: 0 SHARED, 1 EXCLUSIVE. -/
def Mode.bit : Mode → Nat
  | .shared => 0
  | .exclusive => 1

/-- A flag as a number. -/
def bit (b : Bool) : Nat :=
  if b then 1 else 0

/-- The words of a STATUS after the first. -/
def statusWords (q : StatusFields) : List Word :=
  let k := q.token.getD 0
  [tokenHandleWord k q.handle, tokenLow k,
    place q.state.code 29 ||| place q.mode.bit 28 ||| place (bit q.token.isSome) 27 ||| place q.reads 21 |||
      place q.writes 15 ||| place q.position 0,
    q.first, place q.waitCode.val 28 ||| place q.count 0, place q.cookie.toNat 0]

/-- The words of a response after the first. -/
def Response.fields : Response → List Word
  | .joined epoch duration quota => [epoch, place duration 0, place quota 0]
  | .left => []
  | .renewed ms => [place ms 0]
  | .granted h k => [tokenHandleWord k h, tokenLow k]
  | .queued h => [handleWord h]
  | .converted h k => [tokenHandleWord k h, tokenLow k]
  | .released h => [handleWord h]
  | .cancelled h => [handleWord h]
  | .status q => statusWords q
  | .refused _ => []

/-- A RESPONSE. -/
def responseWords (tag : Tag) (r : Response) : List Word :=
  (place 2 28 ||| place r.code 20 ||| place tag.val 17) :: r.fields

/-- The kind code of a NOTICE. -/
def NoticeKind.code : NoticeKind → Nat
  | .granted => 1
  | .waitExpired => 2
  | .upgraded => 3
  | .upgradeExpired => 4
  | .revoked => 5

/-- A NOTICE or a SESSION_NOTICE. -/
def noticeWords : NoticeMsg → List Word
  | .record h n =>
    let k := n.token.getD 0
    [place 3 28 ||| place n.kind.code 24 ||| place n.cookie.toNat 0, tokenHandleWord k h, tokenLow k]
  | .session c => [place 4 28 ||| place (bit c.lapsed) 27 ||| place (bit c.evicted) 26 ||| place c.lost.toNat 0]

/-- A session message of the part (R162). -/
def messageWords : OutMsg → List Word
  | .response tag r => responseWords tag r
  | .notice m => noticeWords m

/-! ## Link frames (R160, R161) -/

/-- A start word. -/
def startWord (w : Word) : LineWord :=
  (0b10#2 ++ w)

/-- A continuation word. -/
def continuationWord (w : Word) : LineWord :=
  (0b01#2 ++ w)

/-- A single-word frame with its check code. -/
def singleFrame (w : Word) : List LineWord :=
  [startWord (w ||| (singleCode w).setWidth 32)]

/-- A DATA frame with its check word. -/
def dataFrameWords (seq ack : Seq) (words : List Word) : List LineWord :=
  let start := place 1 28 ||| place seq.toNat 22 ||| place ack.toNat 16 ||| place words.length 12
  startWord start :: (words.map continuationWord ++ [continuationWord (place (dataCode start words).toNat 16)])

/-- A frame on the line, its check code computed at the sending (R161). -/
def Frame.lineWords : Frame → List LineWord
  | .data seq number m => dataFrameWords seq number (messageWords m)
  | .ack a => singleFrame (place 2 28 ||| place a.toNat 22)
  | .nak a => singleFrame (place 3 28 ||| place a.toNat 22)
  | .resync n flag => singleFrame (place 4 28 ||| place n.toNat 22 ||| place (bit flag) 21)
  | .idle => singleFrame (place 0 28)

/-! ## The receiver of a link line (R160, R137) -/

/-- The message length of a DATA start word. -/
def dataLength (w : Word) : Nat :=
  field w 12 4

/-- The sequence number field of a start word, bits 27:22. -/
def numberField (w : Word) : Seq :=
  w.extractLsb' 22 6

/-- The event of a single-word frame: corrupt where its check code does not match or its kind is unknown. -/
def singleEvent (n : AgentId) (w : Word) : Instr :=
  if singleCode w ≠ w.extractLsb' 0 16 then .corruptFrame n
  else
    match field w 28 4 with
    | 0 => .idleReceived n
    | 2 => .ackReceived n (numberField w)
    | 3 => .nakReceived n (numberField w)
    | 4 => .resyncReceived n (numberField w) (w.getLsbD 21)
    | _ => .corruptFrame n

/-- The event of a whole DATA frame: start word, message words, check word. -/
def dataEvent (n : AgentId) (start : Word) (words : List Word) (check : Word) : Instr :=
  if dataCode start words = check.extractLsb' 16 16 then
    .dataReceived n (numberField start) (start.extractLsb' 16 6) words
  else .corruptFrame n

/-- A start word received between frames: the words held of a frame in progress, and the events. -/
def startReceived (n : AgentId) (w : Word) : List Word × List Instr :=
  if field w 28 4 = 1 ∧ 1 ≤ dataLength w ∧ dataLength w ≤ 7 then ([w], []) else ([], [singleEvent n w])

/-- A continuation word received, with the words held of the frame in progress. -/
def continuationReceived (n : AgentId) (held : List Word) (w : Word) : List Word × List Instr :=
  match held with
  | [] => ([], [.corruptFrame n])
  | start :: words =>
    if words.length = dataLength start then ([], [dataEvent n start words w]) else (start :: (words ++ [w]), [])

/-- One word received on the line of link `n`, with the words held of a frame in progress: what is held after it, and the
events it makes, in order. A corrupt word or a start word within a frame ends that frame as corrupt (log 19). -/
def lineStep (n : AgentId) (held : List Word) (w : LineWord) : List Word × List Instr :=
  let payload := w.extractLsb' 0 32
  let ended := if held.isEmpty then [] else [Instr.corruptFrame n]
  match (w.extractLsb' 32 2).toNat with
  | 2 => let (held, events) := startReceived n payload; (held, ended ++ events)
  | 1 => continuationReceived n held payload
  | _ => ([], ended ++ [.corruptWord n])

/-- The events of a list of line words. -/
def lineEvents (n : AgentId) (held : List Word) : List LineWord → List Instr
  | [] => []
  | w :: rest => let (held, events) := lineStep n held w; events ++ lineEvents n held rest

/-! ## Gate port words (R163, R164) -/

/-- The kind bit: 0 READ, 1 WRITE. -/
def accessBit : AccessKind → Nat
  | .read => 0
  | .write => 1

/-- The kind a bit names. -/
def accessOf (b : Bool) : AccessKind :=
  if b then .write else .read

/-- A CHECK of four words. -/
def decodeCheck (w0 w1 w2 w3 : Word) : Check :=
  { agent := Fin.ofNat 16 (field w0 24 4), kind := accessOf (w0.getLsbD 23), token := w0.extractLsb' 8 8 ++ w2,
    extra := w0.extractLsb' 0 8, epoch := w1, first := w3 }

/-- The first word of a CHECK. -/
def checkHead (c : Check) : Word :=
  place 1 28 ||| place c.agent.val 24 ||| place (accessBit c.kind) 23 ||| place (c.token.toNat / 2 ^ 32) 8 ||| place c.extra.toNat 0

/-- The words of a CHECK. -/
def checkWords (c : Check) : List Word :=
  [checkHead c, c.epoch, tokenLow c.token, c.first]

/-- A DONE of one word. With the null ticket bit set the other bits are not looked at (R164). -/
def decodeDone (w : Word) : Done :=
  if w.getLsbD 22 then .null else .ticket { kind := accessOf (w.getLsbD 23), handle := handleField w }

/-- The word of a DONE. -/
def doneWord : Done → Word
  | .null => place 2 28 ||| place 1 22
  | .ticket t => place 2 28 ||| place (accessBit t.kind) 23 ||| handleWord t.handle

/-- The verdict codes (08 8.9). -/
def GateRefusal.code : GateRefusal → Nat
  | .notReady => 0x10
  | .noDomain => 0x11
  | .domainUnavailable => 0x12
  | .token => 0x13
  | .agent => 0x14
  | .epoch => 0x15
  | .owner => 0x16
  | .mode => 0x17
  | .cover => 0x18
  | .countFull => 0x19

/-- The word of a VERDICT (R164). -/
def verdictWord : Verdict → Word
  | .admitted t => place 0x01 24 ||| place (accessBit t.kind) 23 ||| place 1 21 ||| handleWord t.handle
  | .admitUntracked => place 0x02 24 ||| place 1 22 ||| place 1 21
  | .refused g => place g.code 24

/-- One word passed on GD_IN, with the words held of a CHECK: what is held after it, and the events it makes (R163). -/
def gateStep (held : List Word) (w : Word) : List Word × List Instr :=
  match held with
  | [w0, w1, w2] => ([], [.checkAccept (decodeCheck w0 w1 w2 w)])
  | [] =>
    match field w 28 4 with
    | 1 => ([w], [])
    | 2 => ([], [.doneAccept (decodeDone w)])
    | _ => ([], [.gateWordDiscard w])
  | _ => (held ++ [w], [])

/-- The events of a list of words passed on GD_IN. -/
def gateEvents (held : List Word) : List Word → List Instr
  | [] => []
  | w :: rest => let (held, events) := gateStep held w; events ++ gateEvents held rest

/-- GD_IN_READY while the word is presented with GD_IN_VALID (R116, R163): asserted for every word within a CHECK; for a first
word by its type, deasserted while the queue of a CHECK or DONE has no place; asserted for a first word to be discarded. -/
def GateUnit.readyFor (g : GateUnit) (w : Word) : Bool :=
  !g.words.isEmpty ||
    match field w 28 4 with
    | 1 => g.checkQueue.length < Config.gatePlaces
    | 2 => g.doneQueue.length < Config.gatePlaces
    | _ => true

/-- One word presented on GD_IN (R163). A first word is presented once no message waits on the port before it: those that find a
place by now are accepted first, in their order (R116, log 17). Where GD_IN_READY is asserted the word passes, and the command of a
message it completes joins the commands that wait (log 33); where it is not, the word goes on being presented. -/
def State.presentWord (s : State) (w : Word) : State :=
  let g := s.gate.settle
  if (g.port.isEmpty || !g.words.isEmpty) && g.readyFor w then
    let (words, commands) := gateStep g.words w
    { s with gate := { g with words := words }, pending := s.pending ++ commands }
  else s

end Sys2Proof.Machine
end

