-- ==== Sys2Proof/Machine/Registers.lean ====
section
/-! DEFINITION. The register map as it is read (10 10.2), and the SPI transaction (R175). Reading a register changes nothing but
for the low half of a token counter, which is a command of its own (R176). -/

namespace Sys2Proof.Machine

/-- The bits of an absent field in the register at address `a`: a free value in the bits of the mask (00 "Absent fields",
log 21). -/
def absent (s : State) (a : BitVec 16) (mask : Word) : Word :=
  Config.absentBits a s.time &&& mask

/-- An optional field in its bits, with its present flag. -/
def optionField (s : State) (a : BitVec 16) (x : Option Nat) (lo len flag : Nat) : Word :=
  match x with
  | some v => place v lo ||| place 1 flag
  | none => absent s a (place (2 ^ len - 1) lo)

/-- An optional word whose present flag stands elsewhere. -/
def optionWord (s : State) (a : BitVec 16) (x : Option Word) : Word :=
  x.getD (absent s a (BitVec.allOnes 32))

/-! ## Command status (0006h) -/

/-- The reason code. -/
def Reason.code : Reason → Nat
  | .wrongState => 1
  | .bankSetEmpty => 2
  | .windowOrder => 3
  | .windowOverlap => 4
  | .bankInUse => 5
  | .staleHandle => 6
  | .notHeld => 7
  | .noWalk => 8
  | .unknownCommand => 9

/-- Status and reason of an answer. -/
def answerWord : Option Answer → Word
  | none => place 0 0
  | some .done => place 2 0
  | some .walkEnd => place 3 0
  | some (.refused r) => place 4 0 ||| place r.code 8

/-- The command status register: BUSY while a command is in progress. -/
def statusWord (m : Management) : Word :=
  (if m.command.isSome then place 1 0 else answerWord m.status) ||| place m.lastCode.toNat 16

/-! ## Capture registers (0022h to 0024h) -/

def captureControl (f : FaultUnit) : Word :=
  place (bit f.notes) 0 ||| place (bit f.capture.isSome) 2 ||| place (bit f.missed) 3

def captureFields (s : State) : Word :=
  let a : BitVec 16 := 0x0023
  let r := s.fault.capture
  optionField s a (r.map (fun r => r.kind.number)) 0 4 4 |||
    optionField s a (r.bind (fun r => r.domain.map Fin.val)) 5 3 8 |||
    optionField s a (r.bind (fun r => r.agent.map Fin.val)) 9 4 13 |||
    optionField s a (r.bind (fun r => r.slot.map Fin.val)) 14 12 26

def captureTime (s : State) : Word :=
  optionWord s 0x0024 (s.fault.capture.map Report.time)

/-! ## Walk snapshot (0040h to 0047h) -/

/-- A field of the snapshot's record: 0 before any snapshot was taken, absent where the record was unreadable (R183). -/
def snapshotField (s : State) (a : BitVec 16) (f : Record → Nat) (lo len : Nat) : Word :=
  match s.management.snapshot.record with
  | some r => place (f r) lo
  | none => if s.management.snapshot.unreadable then absent s a (place (2 ^ len - 1) lo) else 0

/-- An optional field of the snapshot's record. -/
def snapshotOption (s : State) (f : Record → Option Nat) : Option Nat :=
  s.management.snapshot.record.bind f

/-- The state code of the snapshot: 0 where it is absent. -/
def snapshotState (x : Snapshot) : Nat :=
  match x.record with
  | some r => r.state.code
  | none => 0

/-- The queue position of the snapshot: absent where the record was unreadable (R183). -/
def snapshotPosition (s : State) : Word :=
  if s.management.snapshot.unreadable then absent s 0x0047 (place (2 ^ 13 - 1) 5)
  else place s.management.snapshot.position 5

/-- The front notice: kind in bits 2:0 with its present flag, and whether it was sent. -/
def snapshotFront (s : State) : Word :=
  match s.management.snapshot.record.bind Record.front with
  | some f => place f.kind.code 0 ||| place 1 3 ||| place (bit f.sent) 4
  | none => absent s 0x0047 (place 7 0 ||| place 1 4)

def snapshotWord (s : State) (k : Nat) : Word :=
  let x := s.management.snapshot
  match k with
  | 0 =>
    place (snapshotState x) 0 ||| snapshotField s 0x0040 (fun r => r.mode.bit) 3 1 |||
      snapshotField s 0x0040 (fun r => r.owner.val) 4 4 ||| place x.domain.val 8 ||| place (bit x.unreadable) 11 |||
      place x.gen.toNat 12 ||| place x.slot.val 20
  | 1 => snapshotField s 0x0041 (fun r => r.first.toNat) 0 32
  | 2 => snapshotField s 0x0042 Record.count 0 21 ||| snapshotField s 0x0042 (fun r => r.waitCode.val) 28 4
  | 3 => optionWord s 0x0043 ((x.record.bind Record.token).map tokenLow)
  | 4 =>
    optionField s 0x0044 (snapshotOption s (fun r => r.token.map (fun k => k.toNat / 2 ^ 32))) 0 8 8 |||
      optionField s 0x0044 (snapshotOption s (fun r => r.followUp.map NoticeKind.code)) 9 3 12 |||
      snapshotField s 0x0044 (fun r => r.cookie.toNat) 16 16
  | 5 => optionWord s 0x0045 (x.record.bind Record.waitDeadline)
  | 6 => optionWord s 0x0046 (x.record.bind Record.drainDeadline)
  | 7 =>
    snapshotFront s ||| snapshotPosition s ||| snapshotField s 0x0047 Record.writes 18 6 |||
      snapshotField s 0x0047 Record.reads 24 6 |||
      place (bit (x.record.bind Record.drainDeadline).isSome) 30 ||| place (bit (x.record.bind Record.waitDeadline).isSome) 31
  | _ => 0

/-! ## Domains and agents -/

def DomainState.code : DomainState → Nat
  | .disabled => 0
  | .enabled => 1
  | .closing => 2
  | .quarantined => 3
  | .scrubbing => 4

def Policy.bit : Policy → Nat
  | .guarded => 0
  | .writeGuarded => 1

def AgentState.code : AgentState → Nat
  | .disabled => 0
  | .offline => 1
  | .online => 2
  | .lapsed => 3

def LinkState.code : LinkState → Nat
  | .down => 0
  | .aligning => 1
  | .active => 2

/-- The scrub position field: 0 outside SCRUBBING. -/
def scrubField (x : Domain) : Nat :=
  match x.state, x.scrubPos with
  | .scrubbing, some i => i.val
  | _, _ => 0

/-- The registers of domain `d`. -/
def domainWord (s : State) (d : DomainId) (k : Nat) : Word :=
  let x := s.domain d
  match k with
  | 0 => x.base
  | 1 => x.limit
  | 2 => place x.banks.toNat 0
  | 3 => place x.drainLimit.toNat 0 ||| place x.policy.bit 16
  | 4 => place x.state.code 0 ||| place (bit x.exhausted) 3 ||| place (scrubField x) 16
  | 5 => place x.freeList.length 0 ||| place x.waitQueue.length 16
  | 6 => place x.occupancy.length 0 ||| place x.tokenMap.length 16
  | 7 => tokenLow x.tokenCounter
  | 8 => place s.management.latch.toNat 0
  | _ => 0

/-- The registers of agent `n`. -/
def agentWord (s : State) (n : AgentId) (k : Nat) : Word :=
  let a := s.agent n
  match k with
  | 0 => place a.state.code 0 ||| place (s.link n).state.code 4 ||| place (s.noticeAgent n).queue.length 16
  | 1 => place a.quota 0
  | 2 => place a.bound.val 0
  | 3 => a.epoch
  | 4 => place a.live 0
  | _ => 0

/-! ## The map -/

/-- The value a read of a register returns (R176): 0 for an address the map does not assign and for the command register. -/
def readRegister (s : State) (address : BitVec 16) : Word :=
  let a := address.toNat
  let m := s.management
  if a = 0x0000 then 0x41600001
  else if a = 0x0001 then place (match m.mode with | .setup => 0 | .active => 1) 0
  else if a = 0x0002 then s.time
  else if a = 0x0004 then m.argument
  else if a = 0x0006 then statusWord m
  else if a = 0x0008 then place m.watchdogPeriod.toNat 0
  else if 0x0010 ≤ a ∧ a ≤ 0x0017 then place (look m.leases (Fin.ofNat 8 (a - 0x0010))).toNat 0
  else if 0x0018 ≤ a ∧ a ≤ 0x001D then place (look m.waits (Fin.ofNat 6 (a - 0x0018))).toNat 0
  else if a = 0x0020 then place s.fault.sticky.toNat 0
  else if a = 0x0021 then place s.fault.enables.toNat 0
  else if a = 0x0022 then captureControl s.fault
  else if a = 0x0023 then captureFields s
  else if a = 0x0024 then captureTime s
  else if 0x0040 ≤ a ∧ a ≤ 0x0047 then snapshotWord s (a - 0x0040)
  else if 0x0100 ≤ a ∧ a ≤ 0x017F then domainWord s (Fin.ofNat 8 ((a - 0x0100) / 16)) ((a - 0x0100) % 16)
  else if 0x0200 ≤ a ∧ a ≤ 0x027F then agentWord s (Fin.ofNat 16 ((a - 0x0200) / 8)) ((a - 0x0200) % 8)
  else 0

/-! ## SPI transactions (R175) -/

/-- The command of a management command's issue. -/
def issueOf : Command → Instr
  | .enableDomain => .enableDomain .issue
  | .closeDomain => .closeDomain .issue
  | .scrubDomain => .scrubDomain .issue
  | .enableAgent => .enableAgent .issue
  | .disableAgent => .disableAgent .issue
  | .evictAgent => .evictAgent .issue
  | .revokeRecord => .revokeRecord .issue
  | .resetLink => .resetLink .issue
  | .walkStart => .walkStart .issue
  | .walkNext => .walkNext .issue
  | .start => .start
  | .warmRestart => .warmRestart

/-- The command of a write to a register: the row of its own where the table has one. -/
def writeEvent (address : BitVec 16) (v : Word) : Instr :=
  if address = 0x0005 then
    match Command.ofCode (v.setWidth 8) with
    | some c => issueOf c
    | none => .unknownCommand (v.setWidth 8)
  else if address = 0x0020 then .stickyBitsWrite v
  else if address = 0x0021 then .interruptEnablesWrite v
  else .registerWrite address v

/-- The event of a read of a register, where the table has a row for it: the low half of a token counter. -/
def readEvent (address : BitVec 16) : List Instr :=
  let a := address.toNat
  if 0x0100 ≤ a ∧ a ≤ 0x017F ∧ (a - 0x0100) % 16 = 7 then [.tokenCounterLowRead (Fin.ofNat 8 ((a - 0x0100) / 16))] else []

/-- Bits as a number, most significant first. -/
def bitsToNat (bits : List Bool) : Nat :=
  bits.foldl (fun n b => 2 * n + bit b) 0

/-- The instruction byte of a transaction, its first 8 bits. -/
def spiOp (bits : List Bool) : Nat :=
  bitsToNat (bits.take 8)

/-- The register address of a transaction, the 16 bits behind the instruction byte. -/
def spiAddress (bits : List Bool) : BitVec 16 :=
  BitVec.ofNat 16 (bitsToNat ((bits.drop 8).take 16))

/-- The events of a transaction whose bits on SDI, from the falling to the rising edge of CS_N, are given: a write needs all 56
bits, a read the first 24; any other instruction byte is ignored, and so are bits after the data phase. `resetN` says that
RESET_N is released throughout: while it is asserted the port takes no transaction (R175). -/
def spiEvents (resetN : Bool) (bits : List Bool) : List Instr :=
  if !resetN then []
  else if spiOp bits = 0x5A ∧ 56 ≤ bits.length then
    [writeEvent (spiAddress bits) (BitVec.ofNat 32 (bitsToNat ((bits.drop 24).take 32)))]
  else if spiOp bits = 0xA5 ∧ 24 ≤ bits.length then readEvent (spiAddress bits)
  else []

/-- SDO at bit `k` of a transaction, counted from 0, `s` being the state at the read's event (R175): a read shifts the value out
in the data phase, most significant bit first; after the data phase, and after an instruction byte that is neither a read's nor
a write's, SDO is 0. `none` where the manual gives SDO no level: before the end of the instruction byte, during the address, in
the data phase of a write, and outside a transaction (log 37). -/
def spiOut (s : State) (resetN : Bool) (bits : List Bool) (k : Nat) : Option Bool :=
  if !resetN || bits.length ≤ k || k < 8 then none
  else if spiOp bits = 0xA5 then
    if k < 24 then none
    else if k < 56 then some ((readRegister s (spiAddress bits)).getMsbD (k - 24))
    else some false
  else if spiOp bits = 0x5A then if k < 56 then none else some false
  else some false

end Sys2Proof.Machine
end

