-- ==== Sys2Proof/Safety.lean ====
section
/-! DEFINITION. What claims about the part are stated in: the canonical forms and bounds its state keeps, what an event of one unit
leaves alone, and the timeliness of the commands (log 4). -/

namespace Sys2Proof.Machine

/-! ## What an event of one unit leaves alone -/

/-- `t` differs from `s` at most in domain `d`, in the record pool, and in the walk of `d` having been ended. -/
def onlyDomain (d : DomainId) (s t : State) : Prop :=
  t = { s with domains := t.domains, pool := t.pool, management := t.management } ∧
    (∀ k, k ≠ d → t.domain k = s.domain k) ∧
    (t.management = s.management ∨ t.management = endWalk s.management d)

/-- `t` differs from `s` at most in the port of link `n`. -/
def onlyLink (n : AgentId) (s t : State) : Prop :=
  t = { s with links := t.links } ∧ ∀ m, m ≠ n → t.link m = s.link m

/-- Every slot but `i` reads as before. -/
def onlySlot (i : SlotId) (p q : Pool) : Prop :=
  ∀ j, j ≠ i → poolGet q j = poolGet p j

/-! ## The lock table -/

/-- Every slot in the domain's collections lies in a bank of its bank set (R3, R19, R22). -/
def Domain.slotsOwned (x : Domain) : Bool :=
  x.freeList.all (inBanks x.banks) && x.waitQueue.all (inBanks x.banks) && x.occupancy.all (inBanks x.banks) &&
    x.tokenMap.all (fun p => inBanks x.banks p.2)

/-- The collections are empty (R22). -/
def Domain.noSlots (x : Domain) : Bool :=
  x.freeList.isEmpty && x.waitQueue.isEmpty && x.occupancy.isEmpty && x.tokenMap.isEmpty

/-- The collections of every domain lie in its banks, and those of a DISABLED domain are empty. -/
def State.collectionsOwned (s : State) : Prop :=
  ∀ d, (s.domain d).slotsOwned = true ∧ ((s.domain d).state = .disabled → (s.domain d).noSlots = true)

/-- Two domains that are not DISABLED have disjoint windows and disjoint bank sets (01 1.2). -/
def State.domainsApart (s : State) : Prop :=
  ∀ d k, d ≠ k → (s.domain d).state ≠ .disabled → (s.domain k).state ≠ .disabled →
    windowsMeet (s.domain d) (s.domain k) = false ∧ (s.domain d).banks &&& (s.domain k).banks = 0

/-- The configuration of a domain (01 1.1). -/
def Domain.configuration (x : Domain) : Page × Page × BitVec 16 × Policy × BitVec 16 :=
  (x.base, x.limit, x.banks, x.policy, x.drainLimit)

/-- The slot's next read is clean: its record agrees with its code and its directory copies agree (R165, R166). -/
def Slot.readsClean (x : Slot) : Bool :=
  x.health == .clean && x.agrees

/-- The records of a list of slots read clean. -/
def recordsClean (p : Pool) (l : List SlotId) : Bool :=
  l.all (fun i => (poolGet p i).health == .clean)

/-- A claim over a range conflicts with no hold of the records in the slots of a list (R24). -/
def noHoldMeets (p : Pool) (mode : Mode) (first : Page) (count : Nat) (l : List SlotId) : Bool :=
  l.all (fun i => !conflicts mode first count (recordOf p i) (recordOf p i).hold)

/-- A claim over a range conflicts with no claim of the records in the slots of a list (R24). -/
def noClaimMeets (p : Pool) (mode : Mode) (first : Page) (count : Nat) (l : List SlotId) : Bool :=
  l.all (fun i => !conflicts mode first count (recordOf p i) (recordOf p i).claim)

/-- The windows of two domains share a page (01 1.2). -/
def sharesPage (x y : Domain) : Prop :=
  ∃ p : Page, x.base ≤ p ∧ p ≤ x.limit ∧ y.base ≤ p ∧ p ≤ y.limit

/-- The bank sets of two domains share a bank (01 1.2). -/
def sharesBank (x y : Domain) : Prop :=
  ∃ b : Fin 16, x.banks.getLsbD b.val = true ∧ y.banks.getLsbD b.val = true

/-- Another domain that is not DISABLED stands in the relation to domain `d`. -/
def meetsAnother (s : State) (d : DomainId) (f : Domain → Domain → Prop) : Prop :=
  ∃ k, k ≠ d ∧ (s.domain k).state ≠ .disabled ∧ f (s.domain d) (s.domain k)

/-- The state with one domain and the pool replaced, and nothing else. -/
def State.putTable (s : State) (d : DomainId) (x : Domain) (p : Pool) : State :=
  { s with domains := put s.domains d x, pool := p }

/-- The command by which a domain takes a lock request. -/
def lockCommand (d : DomainId) : LockBody → Instr
  | .acquire _ _ _ _ _ => .acquire (some d)
  | .release _ => .release d
  | .convertUp _ _ => .convertUp d
  | .convertDown _ => .convertDown d
  | .query _ => .query d

/-- The handle a lock request names. -/
def LockBody.handle? : LockBody → Option Handle
  | .acquire _ _ _ _ _ => none
  | .release h | .convertUp h _ | .convertDown h | .query h => some h

/-- A domain whose only change is that it has taken the request at the head of the session unit's items, `rest` being the items
behind it, and returned a result with the live report given (R26). -/
def Domain.answered (x : Domain) (rest : List SessionItem) (q : LockRequest) (r : Response) (c : Option LiveChange) : Domain :=
  { x with fromSession := rest, toSession := x.toSession ++ [.result q.agent q.stamp r c q.era] }

/-- The slot holds a record whose next read is clean, under the generation of the handle, in a domain that serves and owns its
bank: what lets a request, claim or DONE that names the handle go on (R54, R107, R127). -/
def current (x : Domain) (p : Pool) (h : Handle) : Prop :=
  x.owns h.slot = true ∧ x.serves = true ∧ (poolGet p h.slot).readsClean = true ∧
    (poolGet p h.slot).directory = ⟨h.gen, false⟩

/-- A slot as a retirement leaves it: FREE at the next generation, the record cleared (R14, R16). -/
def retired (g : Gen) : Slot :=
  { copyA := ⟨g + 1, true⟩, copyB := ⟨g + 1, true⟩, copyC := ⟨g + 1, true⟩, record := .cleared, health := .clean }

/-- The domain as the last step of an event that retired a slot leaves it: a CLOSING domain with no slot in use is DISABLED, its
collections empty (R6). -/
def Domain.closedOut (x : Domain) : Domain :=
  if x.state = .closing ∧ slotCount x.banks ≤ x.freeList.length then
    { x with state := .disabled, scrubPos := none, freeList := [], waitQueue := [], occupancy := [], tokenMap := [] }
  else x

/-- Domain `d` as the read of an uncorrectable record in slot `i` leaves it where it served (R7, R166, R167): QUARANTINED, the
record reported, each live count handed over as a subtraction with the asking for DOMAIN_LOST (log 14), the notice unit told. -/
def Domain.quarantinedBy (x : Domain) (d : DomainId) (i : SlotId) (now : Time) : Domain :=
  { x with
    state := .quarantined
    live := Vector.replicate 16 0
    toSession := x.toSession ++ (liveAgents x).map (fun a => .lost a (look x.live a) x.era)
    toNotice := x.toNotice ++ [⟨x.era, .loss x.banks⟩]
    reports := x.reports ++ [⟨.recordUncorrectable, some d, none, some i, none, now⟩] }

/-! ## Notices at a release (R64, R66, R102) -/

/-- A kind that a release withdraws while it is unsent (R64). -/
def releaseDrops (k : NoticeKind) : Bool :=
  k == .granted || k == .upgraded || k == .upgradeExpired

/-- The record's front notice is one that a release withdraws (R64). -/
def Record.dropsFront (r : Record) : Bool :=
  match r.front with
  | some ⟨k, false⟩ => releaseDrops k
  | _ => false

/-- The record's follow-up notice is one that a release withdraws (R64). -/
def Record.dropsFollowUp (r : Record) : Bool :=
  r.followUp.any releaseDrops

/-- The front notice a release leaves (R64). -/
def Record.keptFront (r : Record) : Option Front :=
  if r.dropsFront then none else r.front

/-- The follow-up notice a release leaves: it goes with a front that goes (R64). -/
def Record.keptFollowUp (r : Record) : Option NoticeKind :=
  if r.dropsFront || r.dropsFollowUp then none else r.followUp

/-- What a release of the record under the handle hands the notice unit (R64, R104). -/
def Record.withdrawals (r : Record) (h : Handle) (era : Nat) : List DomainNotice :=
  if r.dropsFront then [⟨era, .withdrawFront r.owner h⟩]
  else if r.dropsFollowUp then [⟨era, .withdrawFollowUp r.owner h⟩]
  else []

/-- REVOKED placed in a record's notice fields: the placing, and the fields after (the table of R102). -/
def placeRevoked (front : Option Front) (followUp : Option NoticeKind) : Placing × Option Front × Option NoticeKind :=
  match front, followUp with
  | none, k => (.newFront, some ⟨.revoked, false⟩, k)
  | some ⟨f, true⟩, _ => (.followUp, some ⟨f, true⟩, some .revoked)
  | some ⟨_, false⟩, none => (.replaceFront, some ⟨.revoked, false⟩, none)
  | some ⟨f, false⟩, some _ => (.followUp, some ⟨f, false⟩, some .revoked)

/-! ## Records and collections (R18, R19, R25) -/

/-- The record of slot `i` and the collections of its domain agree (R18): the wait queue, the occupancy set and the token map hold
it exactly in the states R18 gives, its deadlines are present in theirs, and its slot is in the free list exactly while it holds
no record (R16, R19). -/
structure Domain.placesRecord (x : Domain) (i : SlotId) (r : Record) : Prop where
  free : i ∈ x.freeList ↔ r.state = .free
  waits : i ∈ x.waitQueue ↔ r.state = .waiting ∨ r.state = .converting
  occupies : i ∈ x.occupancy ↔ r.state = .held ∨ r.state = .converting ∨ r.state = .draining
  token : ∀ k, (k, i) ∈ x.tokenMap ↔ (r.state = .held ∨ r.state = .converting) ∧ r.token = some k
  named : r.state = .held ∨ r.state = .converting → r.token ≠ none
  waitDeadline : r.waitDeadline ≠ none → r.state = .waiting ∨ r.state = .converting
  drainDeadline : r.drainDeadline ≠ none ↔ r.state = .draining

/-- Two records in occupying states whose ranges overlap are both SHARED, a CONVERTING one counting as SHARED (R25). -/
def holdsAgree (r q : Record) : Prop :=
  ∀ m n, r.hold = some m → q.hold = some n → overlap r.first r.count q.first q.count = true → m = .shared ∧ n = .shared

/-- The records of a domain and its collections agree, and its holds with each other: every slot of its banks is placed by its
record (R18), no slot is free twice (R19), a token names one slot and lies below the token counter while that still counts (R21),
and overlapping holds are SHARED (R25). -/
structure Domain.recordsAgree (x : Domain) (p : Pool) : Prop where
  nodup : x.freeList.Nodup
  places : ∀ i, inBanks x.banks i = true → x.placesRecord i (recordOf p i)
  oneSlot : ∀ k i j, (k, i) ∈ x.tokenMap → (k, j) ∈ x.tokenMap → i = j
  below : x.exhausted = false → ∀ e ∈ x.tokenMap, e.1 < x.tokenCounter
  holds : ∀ i j, inBanks x.banks i = true → inBanks x.banks j = true → i ≠ j → holdsAgree (recordOf p i) (recordOf p j)

/-- What the lock table keeps of its records: those of an ENABLED, CLOSING or QUARANTINED domain agree with its collections; the
scrub position of a SCRUBBING domain lies in its bank set, and no slot behind it holds a record (R9, R10); no slot of a bank that
no domain owns holds a record (R4, R6, R11); and a slot is FREE exactly when it holds none (R16). -/
structure State.recordsAgree (s : State) : Prop where
  served : ∀ d, (s.domain d).state ≠ .disabled → (s.domain d).state ≠ .scrubbing → (s.domain d).recordsAgree s.pool
  position : ∀ d j, (s.domain d).state = .scrubbing → (s.domain d).scrubPos = some j → inBanks (s.domain d).banks j = true
  scrubbed : ∀ d i, (s.domain d).state = .scrubbing → inBanks (s.domain d).banks i = true →
    (∀ j, (s.domain d).scrubPos = some j → i < j) → (recordOf s.pool i).state = .free
  unowned : ∀ i, (∀ d, (s.domain d).owns i = false) → (recordOf s.pool i).state = .free
  marked : ∀ i, (poolGet s.pool i).directory.free = true ↔ (recordOf s.pool i).state = .free

/-- No storage error due in the coming millisecond strikes a copy of a directory entry (log 5): three copies that are struck too
often lose the value written (R165). -/
def State.copiesSpared (s : State) : Prop :=
  ∀ u ∈ s.upsets.headD [], u.kind = .recordBit ∨ u.kind = .recordBits

/-! ## Sessions -/

/-- What the agent table keeps of every entry: lease class and lease deadline present exactly in ONLINE (R82, R84), an epoch
other than 0 in ONLINE (R81), the quota at most 4096 (R78). -/
def Agent.ok (a : Agent) : Bool :=
  a.leaseClass.isSome == (a.state == .online) && a.leaseDeadline.isSome == (a.state == .online) &&
    (a.state != .online || a.epoch != 0) && a.quota ≤ Config.maxQuota

/-- Every agent entry is so. -/
def State.agentsOk (s : State) : Prop :=
  ∀ n, (s.agent n).ok = true

/-- The responses of link `n` once the response has reached it: at the tail, or as they stand where the link has taken a warm
restart in progress that the session unit has yet to take, and the request was not accepted since under the link's reset number
(R147, R150, R179, log 10). -/
def State.responsesWith (s : State) (n : AgentId) (r : QueuedResponse) : List QueuedResponse :=
  match s.management.command with
  | some (.restarting due) =>
    if due.session = true ∧ look due.links n = false ∧ r.stamp ≠ (s.link n).resetNumber then (s.link n).responses
    else (s.link n).responses ++ [r]
  | _ => (s.link n).responses ++ [r]

/-- The notice place of link `n` once the notice has reached it: the notice, or what stands there where the link has taken a warm
restart in progress that the notice unit has yet to take (R147, R150, R179, log 10). -/
def State.noticeWith (s : State) (n : AgentId) (m : NoticeMsg) : Option NoticeMsg :=
  match s.management.command with
  | some (.restarting due) => if due.notice = true ∧ look due.links n = false then (s.link n).notice else some m
  | _ => some m

/-! ## The gate -/

/-- The three queues of the gate hold at most 16 each (R116, R117). -/
def GateUnit.bounded (g : GateUnit) : Bool :=
  g.checkQueue.length ≤ Config.gatePlaces && g.verdictQueue.length ≤ Config.gatePlaces &&
    g.doneQueue.length ≤ Config.gatePlaces

/-! ## Links -/

/-- The entries of a retry buffer carry consecutive sequence numbers from `n` (07 7.1). -/
def consecutive (n : Seq) : List RetryEntry → Bool
  | [] => true
  | x :: rest => x.seq == n && consecutive (n + 1) rest

/-- The items of a port that stand or fall with the link state (07 7.1): the attempt in ALIGNING alone, the watchdog in ACTIVE
alone, a replay and its deadline in ACTIVE alone. -/
def LinkPort.itemsOk (p : LinkPort) : Bool :=
  match p.state with
  | .down => p.attempt.isNone && p.watchdog.isNone && p.replayPos.isNone && p.replayDeadline.isNone
  | .aligning => p.attempt.isSome && p.watchdog.isNone && p.replayPos.isNone && p.replayDeadline.isNone
  | .active => p.attempt.isNone && p.watchdog.isSome && p.replayDeadline.isSome == !p.retry.isEmpty

/-- The retry buffer holds the frames from oldest unacknowledged to before transmit sequence, in order (07 7.1, R138). -/
def LinkPort.windowOk (p : LinkPort) : Bool :=
  p.retry.length == (p.txSeq - p.oldest).toNat && consecutive p.oldest p.retry

/-- A replay position lies in the retry buffer (R139, R140). -/
def LinkPort.replayOk (p : LinkPort) : Bool :=
  match p.replayPos with
  | some r => (r - p.oldest).toNat < (p.txSeq - p.oldest).toNat
  | none => true

/-- The sizes of 07 7.1. -/
def LinkPort.sizesOk (p : LinkPort) : Bool :=
  p.retry.length ≤ Config.retryPlaces && p.rxQueue.length ≤ Config.receivePlaces &&
    p.replayCount ≤ Config.maxReplays && p.corruptWords ≤ Config.maxCorrupt

/-- What a link port keeps. -/
def LinkPort.ok (p : LinkPort) : Bool :=
  p.itemsOk && p.windowOk && p.replayOk && p.sizesOk

/-- Every port is so, and holds at most 8 responses (R147). -/
def State.linksOk (s : State) : Prop :=
  ∀ n, (s.link n).ok = true ∧ (s.link n).responses.length ≤ Config.responsePlaces

/-! ## Timeliness (00 "Timers", log 4) -/

/-- A deadline, where present, has not stood for more than 1 ms past its time. -/
def inTime (now : Time) (deadline : Option Time) : Bool :=
  !dueAt now (deadline.map (fun d => d + 2))

/-- The timers of the records of a domain that serves, of the sessions and of the links are all in time: what a sender of commands
owes the part. -/
def State.timely (s : State) : Bool :=
  (s.pool.all fun p => match ownerOf s p.1 with
    | some d => !(s.domain d).serves || (inTime s.time p.2.record.waitDeadline && inTime s.time p.2.record.drainDeadline)
    | none => true) &&
  ((List.finRange 16).all fun n => inTime s.time (s.agent n).leaseDeadline) &&
  ((List.finRange 16).all fun n => inTime s.time (s.link n).watchdog && inTime s.time (s.link n).replayDeadline &&
    inTime s.time ((s.link n).attempt.map Attempt.deadline))

end Sys2Proof.Machine
end

