-- ==== Sys2Proof/Certificates/Slice0/Obligations.lean ====
section
/-! DEFINITION. The statements for the provers. Each docstring names the rule or the section of spec/ it formalises; one that rests on a
choice of the model names its log entry. `arg` is the argument register as a command in progress took it, `dest` the domain it was
handed to. -/

open Sys2Proof Sys2Proof.Machine

/-! ## The block and its queue -/

/-- A step runs the command at the front of the queue on the queue's rest (log 1). On an empty queue the block idles. The
model's choice (log 1): the manual has no event that no command names. -/
def Obligations.StepTakesTheFrontCommand : Prop :=
  (∀ (s : State) (c : Instr) (rest : List Instr), s.pending = c :: rest → step s = exec c { s with pending := rest }) ∧
  ∀ s : State, s.pending = [] → step s = .next s

/-- No command stops the part, and none touches the queue of commands (00 "Events", log 1, log 26). -/
def Obligations.NoCommandStopsThePart : Prop :=
  ∀ (c : Instr) (s : State), ∃ t, exec c s = .next t ∧ t.pending = s.pending

/-- The time count advances by 1 modulo 2^32 at TIME_COUNT_ADVANCE, is 0 after COLD_RESET, and moves at no other command: in
particular it runs on through a warm restart and in both modes (10 10.2; of R177). The part becomes ACTIVE only at a write of
START's code to the command register, whichever row carries the write, and leaves ACTIVE only at a write of WARM_RESTART's code
or a cold reset (10 10.3). At an advance the storage errors due in the millisecond strike their slots, and no other slot: a bit
of a record that then disagrees with its code, two or more bits, or one copy of a directory entry, as R165 and R166 tell the
errors apart. The model's choice (log 5, log 6): the manual does not say when errors come. -/
def Obligations.WhatMovesTheTimeAndTheMode : Prop :=
  (∀ (c : Instr) (s t : State), exec c s = .next t →
    t.time = match c with
      | .timeCountAdvance => s.time + 1
      | .coldReset => 0
      | _ => s.time) ∧
  (∀ s : State, s.upsets = [] → exec .timeCountAdvance s = .next { s with time := s.time + 1 }) ∧
  (∀ (s : State) (us : List Upset) (rest : List (List Upset)), s.upsets = us :: rest → Pool.wf s.pool = true →
    ∃ p, exec .timeCountAdvance s = .next { s with time := s.time + 1, pool := p, upsets := rest } ∧
      (∀ i, (∀ u ∈ us, u.slot ≠ i) → poolGet p i = poolGet s.pool i) ∧
      ∀ (pre post : List Upset) (u : Upset), us = pre ++ u :: post → (∀ v ∈ pre ++ post, v.slot ≠ u.slot) →
        let x := poolGet s.pool u.slot
        poolGet p u.slot = match u.kind with
          | .recordBit => { x with health := if x.health = .clean then .oneBit else .manyBits }
          | .recordBits => { x with health := .manyBits }
          | .copyA c => { x with copyA := c }
          | .copyB c => { x with copyB := c }
          | .copyC c => { x with copyC := c }) ∧
  ∀ (c : Instr) (s t : State), exec c s = .next t →
    (s.management.mode = .setup → t.management.mode = .active →
      c = .start ∨ c = .unknownCommand 0x0B ∨ ∃ v : Word, c = .registerWrite 0x0005 v ∧ v.setWidth 8 = 0x0B#8) ∧
    (s.management.mode = .active → t.management.mode = .setup →
      c = .coldReset ∨ c = .warmRestart ∨ c = .unknownCommand 0x0C ∨
        ∃ v : Word, c = .registerWrite 0x0005 v ∧ v.setWidth 8 = 0x0C#8)

/-! ## Cold reset -/

/-- R13: the lock table after a cold reset. -/
def Obligations.ColdResetOfTheLockTable : Prop :=
  ∀ s : State, ∃ t, exec .coldReset s = .next t ∧
    (∀ d, (t.domain d).state = .disabled ∧ (t.domain d).base = 0 ∧ (t.domain d).limit = 0 ∧ (t.domain d).banks = 0 ∧
      (t.domain d).policy = .guarded ∧ (t.domain d).drainLimit = 100 ∧ (t.domain d).freeList = [] ∧
      (t.domain d).waitQueue = [] ∧ (t.domain d).occupancy = [] ∧ (t.domain d).tokenMap = [] ∧
      (∀ a : AgentId, look (t.domain d).live a = 0) ∧ (t.domain d).tokenCounter = 1 ∧ (t.domain d).exhausted = false) ∧
    ∀ i : SlotId, (poolGet t.pool i).directory = ⟨0, true⟩

/-- The other units after a cold reset (R76, R115, R131, R146, R150, R153, R163, R174, R176, R177, R178, R180, R184, R185, each
as to its reset values; 10 10.2, 10.4, 10.5). GD_IN_READY is asserted for either kind of message (R131) and for any word
(R163); the messages still presented on GD_IN are no part of the chip and stay (log 17). -/
def Obligations.ColdResetOfTheOtherUnits : Prop :=
  ∀ s : State, ∃ t, exec .coldReset s = .next t ∧
    t.time = 0 ∧ t.management.mode = .setup ∧ t.management.status = none ∧ t.management.command = none ∧
    t.management.argument = 0 ∧ t.management.lastCode = 0 ∧ t.management.snapshot = ⟨0, 0, 0, false, none, 0⟩ ∧
    t.management.cursor = .none ∧ t.management.latch = 0 ∧ t.management.watchdogPeriod = 10 ∧
    t.management.leases = #v[10, 25, 50, 100, 200, 500, 1000, 3000] ∧
    t.management.waits = #v[10, 50, 100, 500, 2000, 10000] ∧
    t.fault.sticky = 0 ∧ t.fault.enables = 0 ∧ t.fault.capture = none ∧ t.fault.missed = false ∧ t.fault.notes = false ∧
    t.faultAsserted = false ∧
    (∀ n, (t.agent n).state = .disabled ∧ (t.agent n).quota = 0 ∧ (t.agent n).bound = 7 ∧ (t.agent n).epoch = 0 ∧
      (t.agent n).leaseClass = none ∧ (t.agent n).leaseDeadline = none ∧ (t.agent n).live = 0 ∧
      (t.agent n).inProcess = none ∧ (t.agent n).lastReset = 0 ∧ ∀ k, look (t.agent n).tags k = false) ∧
    (∀ n, (t.noticeAgent n).queue = [] ∧ (t.noticeAgent n).conditions = .none ∧ (t.noticeAgent n).marker = .ready ∧
      (t.noticeAgent n).retracted = none) ∧
    t.gate.checkQueue = [] ∧ t.gate.verdictQueue = [] ∧ t.gate.doneQueue = [] ∧ t.gate.words = [] ∧
    t.gate.port = s.gate.port ∧ (∀ m, t.gate.ready m = true) ∧ (∀ w, t.gate.readyFor w = true) ∧
    ∀ n, (t.link n).state = .down ∧ (t.link n).txSeq = 0 ∧ (t.link n).oldest = 0 ∧ (t.link n).rxExpect = 0 ∧
      (t.link n).retry = [] ∧ (t.link n).rxQueue = [] ∧ (t.link n).responses = [] ∧ (t.link n).notice = none ∧
      (t.link n).replayPos = none ∧ (t.link n).replayCount = 0 ∧ (t.link n).replayDeadline = none ∧
      (t.link n).ackOwed = false ∧ (t.link n).nakOwed = false ∧ (t.link n).nakSent = false ∧
      (t.link n).corruptWords = 0 ∧ (t.link n).watchdog = none ∧ (t.link n).attempt = none ∧
      (t.link n).resetPending = true ∧ (t.link n).resetNumber = 0

/-! ## Registers of the management port and the fault unit -/

/-- R1 whole: a write to a configuration item of a DISABLED domain is stored, one of 0 to the drain limit and one in any other
state is ignored with COMMAND_REFUSED; the values after cold reset; warm restart keeps the configuration; a read returns what is
stored. The report of COMMAND_REFUSED waits in the domain until the fault unit takes it (log 3); a register of two items reports
each refused item (log 22). -/
def Obligations.DomainConfigurationWrites : Prop :=
  (∀ (s : State) (d : DomainId) (v : Word), (s.domain d).state = .disabled →
    (exec (.registerWrite (BitVec.ofNat 16 (0x0100 + 16 * d.val)) v) s = .next (s.setDomain d { s.domain d with base := v })) ∧
    (exec (.registerWrite (BitVec.ofNat 16 (0x0101 + 16 * d.val)) v) s = .next (s.setDomain d { s.domain d with limit := v })) ∧
    (exec (.registerWrite (BitVec.ofNat 16 (0x0102 + 16 * d.val)) v) s =
      .next (s.setDomain d { s.domain d with banks := v.setWidth 16 })) ∧
    (exec (.registerWrite (BitVec.ofNat 16 (0x0103 + 16 * d.val)) v) s =
      .next (if v.setWidth 16 = 0#16 then
          reportDomain (s.setDomain d { s.domain d with policy := if v.getLsbD 16 then .writeGuarded else .guarded })
            .commandRefused d
        else s.setDomain d { s.domain d with
          policy := if v.getLsbD 16 then .writeGuarded else .guarded, drainLimit := v.setWidth 16 }))) ∧
  (∀ (s : State) (d : DomainId) (v : Word), (s.domain d).state ≠ .disabled →
    (∀ k : Fin 3, exec (.registerWrite (BitVec.ofNat 16 (0x0100 + 16 * d.val + k.val)) v) s =
      .next (reportDomain s .commandRefused d)) ∧
    exec (.registerWrite (BitVec.ofNat 16 (0x0103 + 16 * d.val)) v) s =
      .next (reportDomain (reportDomain s .commandRefused d) .commandRefused d)) ∧
  (∀ d : DomainId, (State.reset.domain d).configuration = (0, 0, 0, .guarded, 100)) ∧
  (∀ (s t : State) (d k : DomainId), exec (.lockTableWarmRestart k) s = .next t →
    (t.domain d).configuration = (s.domain d).configuration) ∧
  ∀ (s : State) (d : DomainId),
    readRegister s (BitVec.ofNat 16 (0x0100 + 16 * d.val)) = (s.domain d).base ∧
    readRegister s (BitVec.ofNat 16 (0x0101 + 16 * d.val)) = (s.domain d).limit ∧
    readRegister s (BitVec.ofNat 16 (0x0102 + 16 * d.val)) = (s.domain d).banks.setWidth 32 ∧
    (readRegister s (BitVec.ofNat 16 (0x0103 + 16 * d.val))).setWidth 16 = (s.domain d).drainLimit ∧
    ((readRegister s (BitVec.ofNat 16 (0x0103 + 16 * d.val))).getLsbD 16 = true ↔ (s.domain d).policy = .writeGuarded)

/-- The quota is stored in a DISABLED agent with live count 0 for a value up to 4096, the lease class bound in a DISABLED agent
for a value up to 7; otherwise the field is kept and COMMAND_REFUSED reported (04 4.2, of R78). The argument register takes any
value; the watchdog period 1 to 255, the class table entries 1 to 65535; any other value leaves the item as it was with
COMMAND_REFUSED; a write to an address the map does not assign, or to a read-only register, is ignored without an event (07 7.8,
10 10.2, 10.4, 10.6; of R149, R176, R180, R184, R185). -/
def Obligations.RegisterWrites : Prop :=
  (∀ (s : State) (n : AgentId) (v : Word),
    exec (.registerWrite (BitVec.ofNat 16 (0x0201 + 8 * n.val)) v) s =
      .next (if (s.agent n).state = .disabled ∧ (s.agent n).live = 0 ∧ v.toNat ≤ 4096 then
          s.setAgent n { s.agent n with quota := v.toNat }
        else reportSession s .commandRefused n) ∧
    exec (.registerWrite (BitVec.ofNat 16 (0x0202 + 8 * n.val)) v) s =
      .next (if (s.agent n).state = .disabled ∧ v.toNat ≤ 7 then
          s.setAgent n { s.agent n with bound := Fin.ofNat 8 v.toNat }
        else reportSession s .commandRefused n)) ∧
  ∀ (s : State) (v : Word),
    exec (.registerWrite 0x0004 v) s = .next (s.setManagement { s.management with argument := v }) ∧
    exec (.registerWrite 0x0008 v) s =
      .next (if 1 ≤ v.toNat ∧ v.toNat ≤ 255 then s.setManagement { s.management with watchdogPeriod := v.setWidth 8 }
        else reportManagement s .commandRefused none none) ∧
    (∀ c : Fin 8, exec (.registerWrite (BitVec.ofNat 16 (0x0010 + c.val)) v) s =
      .next (if 1 ≤ v.toNat ∧ v.toNat ≤ 65535 then
          s.setManagement { s.management with leases := put s.management.leases c (v.setWidth 16) }
        else reportManagement s .commandRefused none none)) ∧
    (∀ c : Fin 6, exec (.registerWrite (BitVec.ofNat 16 (0x0018 + c.val)) v) s =
      .next (if 1 ≤ v.toNat ∧ v.toNat ≤ 65535 then
          s.setManagement { s.management with waits := put s.management.waits c (v.setWidth 16) }
        else reportManagement s .commandRefused none none)) ∧
    ∀ a : BitVec 16, (a.toNat < 0x0004 ∨ a.toNat = 0x0006 ∨ a.toNat = 0x0007 ∨ (0x0009 ≤ a.toNat ∧ a.toNat ≤ 0x000F) ∨
        a.toNat = 0x001E ∨ a.toNat = 0x001F ∨ (0x0023 ≤ a.toNat ∧ a.toNat ≤ 0x00FF) ∨
        (0x0100 ≤ a.toNat ∧ a.toNat ≤ 0x017F ∧ 4 ≤ a.toNat % 16) ∨ (0x0180 ≤ a.toNat ∧ a.toNat ≤ 0x01FF) ∨
        (0x0200 ≤ a.toNat ∧ a.toNat ≤ 0x027F ∧ a.toNat % 8 ≠ 1 ∧ a.toNat % 8 ≠ 2) ∨ 0x0280 ≤ a.toNat) →
      exec (.registerWrite a v) s = .next s

/-- R171 whole: the enables are stored as written, in either mode; FAULT_N is asserted exactly while some kind has both its
sticky bit and its enable set, whatever the capture record; it is released after a cold reset. -/
def Obligations.InterruptEnablesAndThePin : Prop :=
  (∀ (s : State) (v : Word),
    exec (.interruptEnablesWrite v) s = .next { s with fault := { s.fault with enables := v.setWidth 9 } } ∧
    exec (.registerWrite 0x0021 v) s = .next { s with fault := { s.fault with enables := v.setWidth 9 } }) ∧
  (∀ s : State, s.faultAsserted = true ↔
    ∃ k : EventKind, s.fault.sticky.getLsbD k.number = true ∧ s.fault.enables.getLsbD k.number = true) ∧
  State.reset.faultAsserted = false

/-- A write to the sticky bits clears each bit written as 1 and leaves the others; a report sets its kind's bit, whether or not
it was set, and changes no other; a write then a report leaves the bit set, a report then a write leaves it clear (09 9.4, of
R170). The capture record at a report: a FAULT-class report fills an empty record and sets capture-missed on a full one; a
NOTE-class one fills an empty record only while capture notes is yes, and never sets capture-missed (09 9.5, the table of R172).
-/
def Obligations.ReportsAreTaken : Prop :=
  ((∀ (s : State) (v : Word), exec (.stickyBitsWrite v) s =
    .next { s with fault := { s.fault with sticky := s.fault.sticky &&& ~~~(v.setWidth 9) } }) ∧
  ∀ (s : State) (src : Source) (r : Report) (rest : List Report), reportsOf s src = r :: rest →
    ∃ t, exec (.faultReport src) s = .next t ∧ reportsOf t src = rest ∧
      (∀ k : EventKind, t.fault.sticky.getLsbD k.number = (s.fault.sticky.getLsbD k.number || decide (k = r.kind))) ∧
      t.fault.enables = s.fault.enables ∧ t.fault.notes = s.fault.notes ∧
      t = { withReports s src rest with fault := t.fault }) ∧
  ∀ (s : State) (src : Source) (r : Report) (rest : List Report), reportsOf s src = r :: rest →
    ∃ t, exec (.faultReport src) s = .next t ∧
      (∀ c, s.fault.capture = some c → t.fault.capture = some c ∧
        (t.fault.missed = true ↔ s.fault.missed = true ∨ r.kind = .recordUncorrectable ∨ r.kind = .drainOverrun ∨
          r.kind = .tokensExhausted)) ∧
      (s.fault.capture = none → t.fault.missed = s.fault.missed ∧
        t.fault.capture = if r.kind = .recordUncorrectable ∨ r.kind = .drainOverrun ∨ r.kind = .tokensExhausted ∨
          s.fault.notes = true then some r else none)

/-- R173 whole: a write of the capture clear bit empties the capture record and clears capture-missed, keeping sticky bits,
enables and capture notes; on an empty record whose flag is clear it changes nothing; and in either order with a report it
leaves what the rule's table says. It reads as 0. -/
def Obligations.CaptureClear : Prop :=
  (∀ s : State, exec .captureClear s = .next { s with fault := { s.fault with capture := none, missed := false } }) ∧
  (∀ s : State, s.fault.capture = none → s.fault.missed = false → exec .captureClear s = .next s) ∧
  (∀ (s t u : State) (src : Source) (r : Report) (rest : List Report), reportsOf s src = r :: rest → r.kind.isFault = true →
    exec (.faultReport src) s = .next t → exec .captureClear t = .next u →
      u.fault.capture = none ∧ u.fault.missed = false ∧ u.fault.sticky.getLsbD r.kind.number = true) ∧
  (∀ (s t u : State) (src : Source) (r : Report) (rest : List Report), reportsOf s src = r :: rest → r.kind.isFault = true →
    exec .captureClear s = .next t → exec (.faultReport src) t = .next u →
      u.fault.capture = some r ∧ u.fault.missed = false ∧ u.fault.sticky.getLsbD r.kind.number = true) ∧
  (∀ (s : State) (v : Word), exec (.registerWrite 0x0022 v) s = .next { s with fault := { s.fault with
    notes := v.getLsbD 0
    capture := if v.getLsbD 1 then none else s.fault.capture
    missed := if v.getLsbD 1 then false else s.fault.missed } }) ∧
  ∀ s : State, (readRegister s 0x0022).getLsbD 1 = false

/-- TOKEN_COUNTER_LOW_READ returns bits 31:0 of the domain's token counter and latches bits 39:32, which the high register of
every domain then returns: low and then high are the two halves of one value (10 10.2, of R176). -/
def Obligations.TokenCounterRead : Prop :=
  ∀ (s : State) (d : DomainId), ∃ t, exec (.tokenCounterLowRead d) s = .next t ∧
    t = { s with management := { s.management with readData := t.management.readData, latch := t.management.latch } } ∧
    t.management.readData = readRegister s (BitVec.ofNat 16 (0x0107 + 16 * d.val)) ∧
    t.management.latch ++ t.management.readData = (s.domain d).tokenCounter ∧
    ∀ k : DomainId, readRegister t (BitVec.ofNat 16 (0x0108 + 16 * k.val)) = t.management.latch.setWidth 32

/-! ## Commands of the management port -/

/-- A write of a command's code, START and WARM_RESTART apart, hands the command to its unit with the argument register as it
stands; while a command is in progress every such write is refused with COMMAND_REFUSED and changes nothing else (10 10.4, of
R180; which fields of the argument register that report carries is log 30). The management port takes a unit's answer: the
status becomes it, with the command's code, and no command is in progress. A warm restart ends DONE once every unit has taken
it, and not before (10 10.3, 10.4; of R179, R180). -/
def Obligations.CommandsAreHandedOverAndAnswered : Prop :=
  (∀ (s : State) (x : Instr) (c : Command),
    (x, c) ∈ [(Instr.enableDomain .issue, Command.enableDomain), (.closeDomain .issue, .closeDomain),
      (.scrubDomain .issue, .scrubDomain), (.enableAgent .issue, .enableAgent), (.disableAgent .issue, .disableAgent),
      (.evictAgent .issue, .evictAgent), (.revokeRecord .issue, .revokeRecord), (.resetLink .issue, .resetLink),
      (.walkStart .issue, .walkStart), (.walkNext .issue, .walkNext)] →
    (s.management.command = none →
      exec x s = .next { s with management := { s.management with
        command := some (.handed c s.management.argument (destination s c s.management.argument)) } }) ∧
    (s.management.command ≠ none →
      exec x s = .next (reportManagement s .commandRefused (namedDomain c s.management.argument)
        (namedAgent c s.management.argument)))) ∧
  (∀ (s : State) (c : Command) (a : Answer), s.management.command = some (.answered c a) →
    exec .commandAnswer s = .next { s with management := { s.management with
      status := some a, lastCode := c.code, command := none } }) ∧
  ∀ (s : State) (due : RestartDue), s.management.command = some (.restarting due) →
    ((∀ d, look due.domains d = false) ∧ due.session = false ∧ due.notice = false ∧ due.gate = false ∧
        (∀ n, look due.links n = false) →
      exec .commandAnswer s = .next { s with management := { s.management with
        status := some .done, lastCode := 0x0C, command := none } }) ∧
    ((∃ d, look due.domains d = true) ∨ due.session = true ∨ due.notice = true ∨ due.gate = true ∨
        (∃ n, look due.links n = true) →
      exec .commandAnswer s = .next s)

/-- START while no command is in progress: in SETUP the mode becomes ACTIVE and the command ends DONE at the same event; in
ACTIVE it is refused with WRONG_STATE and COMMAND_REFUSED. WARM_RESTART: the mode becomes SETUP, an OPEN walk becomes ENDED, and
every unit has yet to take the restart. A code that names no command is refused with UNKNOWN_COMMAND and COMMAND_REFUSED, and
becomes the code of the last command (log 23). While a command is in progress all three are refused with COMMAND_REFUSED alone (10
10.3, 10.4; of R178, R179, R180). -/
def Obligations.StartWarmRestartAndUnknownCodes : Prop :=
  (∀ s : State, s.management.command = none →
    (s.management.mode = .setup → exec .start s = .next { s with management := { s.management with
      mode := .active, status := some .done, lastCode := 0x0B } }) ∧
    (s.management.mode = .active → exec .start s = .next { s with management := { s.management with
      status := some (.refused .wrongState), lastCode := 0x0B
      reports := s.management.reports ++ [⟨.commandRefused, none, none, none, none, s.time⟩] } }) ∧
    (exec .warmRestart s = .next { s with management := { s.management with
      mode := .setup
      cursor := match s.management.cursor with
        | .none => .none
        | _ => .ended
      command := some (.restarting ⟨Vector.replicate 8 true, true, true, true, Vector.replicate 16 true⟩) } }) ∧
    ∀ code : BitVec 8, unknownCodeOk code = true →
      exec (.unknownCommand code) s = .next { s with management := { s.management with
        status := some (.refused .unknownCommand), lastCode := code
        reports := s.management.reports ++ [⟨.commandRefused, none, none, none, none, s.time⟩] } }) ∧
  ∀ s : State, s.management.command ≠ none →
    exec .start s = .next (reportManagement s .commandRefused none none) ∧
    exec .warmRestart s = .next (reportManagement s .commandRefused none none) ∧
    ∀ code : BitVec 8, unknownCodeOk code = true →
      exec (.unknownCommand code) s = .next (reportManagement s .commandRefused none none)

/-- ENABLE_DOMAIN at its domain: the five checks of R4 in their order, each with its reason; when all pass, the domain is
ENABLED with every slot of its bank set in its free list and empty collections and counts, and the command ends DONE. Windows
share a page, and bank sets a bank, when some page or bank lies in both (01 1.2, of R4). -/
def Obligations.EnableDomainDecision : Prop :=
  ∀ (s : State) (arg : Word) (dest : Option DomainId), s.management.command = some (.handed .enableDomain arg dest) →
    let d := argDomain arg
    let x := s.domain d
    (x.state ≠ .disabled → exec (.enableDomain .decide) s = .next (refuseByDomain s .enableDomain d .wrongState)) ∧
    (x.state = .disabled → x.banks = 0 →
      exec (.enableDomain .decide) s = .next (refuseByDomain s .enableDomain d .bankSetEmpty)) ∧
    (x.state = .disabled → x.banks ≠ 0 → x.limit < x.base →
      exec (.enableDomain .decide) s = .next (refuseByDomain s .enableDomain d .windowOrder)) ∧
    (x.state = .disabled → x.banks ≠ 0 → x.base ≤ x.limit →
      (meetsAnother s d sharesPage →
        exec (.enableDomain .decide) s = .next (refuseByDomain s .enableDomain d .windowOverlap)) ∧
      (¬ meetsAnother s d sharesPage → meetsAnother s d sharesBank →
        exec (.enableDomain .decide) s = .next (refuseByDomain s .enableDomain d .bankInUse)) ∧
      (¬ meetsAnother s d sharesPage → ¬ meetsAnother s d sharesBank →
        exec (.enableDomain .decide) s = .next (answer (s.setDomain d { x with
          state := .enabled, freeList := slotsOfBanks x.banks, waitQueue := [], occupancy := [], tokenMap := []
          live := Vector.replicate 16 0 }) .enableDomain .done)))

/-- CLOSE_DOMAIN at its domain: an ENABLED domain with no slot in use becomes DISABLED at once, its collections empty and a walk
of it ENDED; with a slot in use it becomes CLOSING; in any other state the command is refused with WRONG_STATE (01 1.2, of R5,
R6). -/
def Obligations.CloseDomainDecision : Prop :=
  ∀ (s : State) (arg : Word) (dest : Option DomainId), s.management.command = some (.handed .closeDomain arg dest) →
    let d := argDomain arg
    let x := s.domain d
    (x.state = .enabled → x.freeList.length < slotCount x.banks →
      exec (.closeDomain .decide) s = .next (answer (s.setDomain d { x with state := .closing }) .closeDomain .done)) ∧
    (x.state = .enabled → slotCount x.banks ≤ x.freeList.length →
      ∃ t, exec (.closeDomain .decide) s = .next (answer t .closeDomain .done) ∧
        t.domain d = { x with
          state := .disabled, scrubPos := none, freeList := [], waitQueue := [], occupancy := [], tokenMap := [] } ∧
        (∀ k, k ≠ d → t.domain k = s.domain k) ∧
        (t.management.cursor = match s.management.cursor with
          | .walking w f p => if w = d then .ended else .walking w f p
          | c => c) ∧
        t = { s with domains := t.domains, management := { s.management with cursor := t.management.cursor } }) ∧
    (x.state ≠ .enabled → exec (.closeDomain .decide) s = .next (refuseByDomain s .closeDomain d .wrongState))

/-- SCRUB_DOMAIN at its domain: accepted in QUARANTINED, and in DISABLED where the checks of R9 pass: the domain is SCRUBBING
from the lowest slot of its bank set with empty collections. Refused otherwise, with the reason of the first check that fails
(01 1.3, of R9). -/
def Obligations.ScrubDomainDecision : Prop :=
  ∀ (s : State) (arg : Word) (dest : Option DomainId), s.management.command = some (.handed .scrubDomain arg dest) →
    let d := argDomain arg
    let x := s.domain d
    let scrubbed := answer (s.setDomain d { x with
      state := .scrubbing, scrubPos := nextSlot x.banks none
      freeList := [], waitQueue := [], occupancy := [], tokenMap := [] }) .scrubDomain .done
    (x.state = .quarantined → exec (.scrubDomain .decide) s = .next scrubbed) ∧
    (x.state = .disabled → x.banks = 0 →
      exec (.scrubDomain .decide) s = .next (refuseByDomain s .scrubDomain d .bankSetEmpty)) ∧
    (x.state = .disabled → x.banks ≠ 0 →
      (meetsAnother s d sharesPage →
        exec (.scrubDomain .decide) s = .next (refuseByDomain s .scrubDomain d .windowOverlap)) ∧
      (¬ meetsAnother s d sharesPage → meetsAnother s d sharesBank →
        exec (.scrubDomain .decide) s = .next (refuseByDomain s .scrubDomain d .bankInUse)) ∧
      (¬ meetsAnother s d sharesPage → ¬ meetsAnother s d sharesBank →
        exec (.scrubDomain .decide) s = .next scrubbed)) ∧
    (x.state = .enabled ∨ x.state = .closing ∨ x.state = .scrubbing →
      exec (.scrubDomain .decide) s = .next (refuseByDomain s .scrubDomain d .wrongState))

/-- A slot visit of a scrub takes the slot at the scrub position: a FREE one is unchanged; any other asks the notice unit to
remove its handle and becomes FREE at the next generation with a cleared record, even where its record could not be read, which
is reported, as a single bit corrected is. Directory copies that disagree are repaired first, and reported, with the owner where the
slot is not FREE and its record can be read. That of a FREE slot the record is not read, so that its store stays as it is and
nothing of it is reported, is the model's choice (log 8); that a FREE slot's RECORD_CORRECTED names no agent is log 29. The position
then moves to the next slot of the bank set, and after the last the domain is DISABLED, its collections empty. No live count is
reported and nothing else of the domain changes (01 1.3, 09 9.1; of R10, R11, R165, R166). -/
def Obligations.ScrubVisit : Prop :=
  ∀ (s : State) (d : DomainId) (i : SlotId), Pool.wf s.pool = true → (s.domain d).state = .scrubbing →
    (s.domain d).scrubPos = some i →
    let x := s.domain d
    let z := poolGet s.pool i
    let reported (k : EventKind) (a : Option AgentId) : Report := ⟨k, some d, a, some i, none, s.time⟩
    let repair : List Report := if z.agrees = true then [] else
      [reported .recordCorrected (if z.directory.free = true ∨ z.health = .manyBits then none else some z.record.owner)]
    let moved (y : Domain) : Domain := match nextSlot x.banks (some i) with
      | some j => { y with scrubPos := some j }
      | none => { y with
        state := .disabled, scrubPos := none, freeList := [], waitQueue := [], occupancy := [], tokenMap := [] }
    (z.directory.free = true →
      (z.agrees = true → exec (.scrubVisit d) s = .next (s.withTable d ⟨moved x, s.pool⟩)) ∧
      ∃ p, exec (.scrubVisit d) s = .next (s.withTable d ⟨moved { x with reports := x.reports ++ repair }, p⟩) ∧
        onlySlot i s.pool p ∧
        poolGet p i = { z with copyA := z.directory, copyB := z.directory, copyC := z.directory }) ∧
    (z.directory.free = false →
      let read : List Report := match z.health with
        | .clean => []
        | .oneBit => [reported .recordCorrected (some z.record.owner)]
        | .manyBits => [reported .recordUncorrectable none]
      ∃ p, exec (.scrubVisit d) s = .next (s.withTable d ⟨moved { x with
          toNotice := x.toNotice ++ [⟨x.era, .scrubRemove ⟨i, z.directory.gen⟩⟩], reports := x.reports ++ repair ++ read }, p⟩) ∧
        onlySlot i s.pool p ∧ poolGet p i = retired z.directory.gen)

/-- R79 and the decisions of EVICT_AGENT and DISABLE_AGENT in each session state: what the agent becomes, the reclaim sent, the
EVICTED condition posted, the refusal with WRONG_STATE; quota, bound, epoch, live count and tags are kept (04 4.5; of R92,
R93). R90 as to what is sent: a reclaim of an agent goes to the tail of what the session unit has handed each of the eight
domains, and to the notice unit, and changes nothing else of them; its number (log 11) is the next of the agent. -/
def Obligations.AgentCommandDecisions : Prop :=
  (∀ (s : State) (arg : Word) (dest : Option DomainId),
    let n := argAgent arg
    let a := s.agent n
    let ended (u : State) (st : AgentState) : State :=
      u.setAgent n { u.agent n with state := st, leaseClass := none, leaseDeadline := none }
    (s.management.command = some (.handed .enableAgent arg dest) →
      exec (.enableAgent .decide) s = .next (if a.state = .disabled then
          answer (s.setAgent n { a with state := .offline }) .enableAgent .done
        else refuseBySession s .enableAgent n .wrongState)) ∧
    (s.management.command = some (.handed .evictAgent arg dest) →
      exec (.evictAgent .decide) s = .next (if a.state = .online ∨ a.state = .lapsed then
          answer (postCondition (ended (sendReclaim s n) .offline) n .evicted) .evictAgent .done
        else refuseBySession s .evictAgent n .wrongState)) ∧
    (s.management.command = some (.handed .disableAgent arg dest) →
      exec (.disableAgent .decide) s = .next (answer
        (if a.state = .online then ended (postCondition (sendReclaim s n) n .evicted) .disabled
        else if a.state = .lapsed then ended (sendReclaim s n) .disabled
        else ended s .disabled) .disableAgent .done))) ∧
  ∀ (s : State) (n : AgentId),
    (∀ d, (sendReclaim s n).domain d = { s.domain d with
      fromSession := (s.domain d).fromSession ++ [.reclaim n ((s.agent n).reclaims + 1)] }) ∧
    (sendReclaim s n).noticeAgent n = { s.noticeAgent n with
      reclaims := (s.noticeAgent n).reclaims ++ [s.session.era] } ∧
    (sendReclaim s n).agent n = { s.agent n with reclaims := (s.agent n).reclaims + 1 } ∧
    (∀ m, m ≠ n → (sendReclaim s n).agent m = s.agent m ∧ (sendReclaim s n).noticeAgent m = s.noticeAgent m) ∧
    sendReclaim s n = { s with
      domains := (sendReclaim s n).domains, session := { s.session with agents := (sendReclaim s n).session.agents }
      notice := { s.notice with agents := (sendReclaim s n).notice.agents } }

/-- The checks of R65 in their order, and the revocation of a HELD or CONVERTING record (a grant pass that follows has no record
to grant): its token leaves the token map, its owner's live count falls with a −1 report, its unsent GRANTED, UPGRADED and
UPGRADE_EXPIRED notices are withdrawn, and REVOKED is posted to an ONLINE owner and to no other, placed by R102. With accesses in
flight the record is DRAINING with a drain deadline, its range still held; with none it is ENDED where a notice is pending, and
retires where none is, which may close the domain (R6). A FREE slot is refused with STALE_HANDLE whatever its record's health (log
8). The report of a refusal is the deciding domain's (log 9) and names neither domain nor agent (log 30). -/
def Obligations.RevokeRecordDecision : Prop :=
  ∀ (s : State) (arg : Word) (dest : Option DomainId), s.management.command = some (.handed .revokeRecord arg dest) →
    let h := handleField arg
    (dest = none → exec (.revokeRecord .decide) s =
      .next (answer (reportManagement s .commandRefused none none) .revokeRecord (.refused .staleHandle))) ∧
    ∀ d, dest = some d →
      let x := s.domain d
      let p := poolGet s.pool h.slot
      let refused (r : Reason) : State :=
        answer (s.setDomain d { x with reports := x.reports ++ [⟨.commandRefused, none, none, none, none, s.time⟩] })
          .revokeRecord (.refused r)
      (x.owns h.slot = false → exec (.revokeRecord .decide) s = .next (refused .staleHandle)) ∧
      (x.owns h.slot = true → x.state = .quarantined ∨ x.state = .scrubbing →
        exec (.revokeRecord .decide) s = .next (refused .wrongState)) ∧
      (x.owns h.slot = true → x.state = .enabled ∨ x.state = .closing → p.agrees = true →
        (p.directory.free = true → exec (.revokeRecord .decide) s = .next (refused .staleHandle)) ∧
        (p.directory.free = false → p.health = .manyBits →
          ∃ t, exec (.revokeRecord .decide) s = .next (answer t .revokeRecord (.refused .wrongState)) ∧
            (t.domain d).state = .quarantined ∧ t.pool = s.pool) ∧
        (p.directory.free = false → p.health = .clean → p.directory.gen ≠ h.gen →
          exec (.revokeRecord .decide) s = .next (refused .staleHandle)) ∧
        (p.directory.free = false → p.health = .clean → p.directory.gen = h.gen →
          p.record.state ≠ .held → p.record.state ≠ .converting →
          exec (.revokeRecord .decide) s = .next (refused .notHeld)) ∧
        (p.directory.free = false → p.health = .clean → p.directory.gen = h.gen →
          p.record.state = .held ∨ p.record.state = .converting → Pool.wf s.pool = true →
          let r := p.record
          let o := r.owner
          let online := (s.agent o).state == .online
          let placed := placeRevoked r.keptFront r.keptFollowUp
          let front := if online then placed.2.1 else r.keptFront
          let y : Domain := { x with
            waitQueue := dropSlot h.slot x.waitQueue, tokenMap := dropToken r.token x.tokenMap
            live := put x.live o (look x.live o - 1), toSession := x.toSession ++ [.live o .down x.era]
            toNotice := x.toNotice ++ r.withdrawals h x.era ++
              if online then [⟨x.era, .post o h placed.1 ⟨.revoked, r.cookie, none⟩ (look x.reclaimed o)⟩] else [] }
          let left (st : SlotState) (deadline : Option Time) : Slot := { p with record := { r with
            state := st, mode := if r.state = .converting then .shared else r.mode, waitDeadline := none
            drainDeadline := deadline, front := front, followUp := if online then placed.2.2 else r.keptFollowUp } }
          (0 < r.reads + r.writes → r.state = .held ∨ y.waitQueue = [] →
            ∃ q : Pool, exec (.revokeRecord .decide) s = .next (answer (s.putTable d y q) .revokeRecord .done) ∧
              onlySlot h.slot s.pool q ∧
              poolGet q h.slot = left .draining (some (s.time + x.drainLimit.setWidth 32 * 10))) ∧
          (r.reads = 0 → r.writes = 0 → y.waitQueue = [] →
            (front ≠ none → ∃ q : Pool, exec (.revokeRecord .decide) s = .next (answer (s.withTable d
                ⟨{ y with occupancy := dropSlot h.slot x.occupancy }.closedOut, q⟩) .revokeRecord .done) ∧
              onlySlot h.slot s.pool q ∧ poolGet q h.slot = left .ended none) ∧
            (front = none → ∃ q : Pool, exec (.revokeRecord .decide) s = .next (answer (s.withTable d
                ⟨{ y with
                  occupancy := dropSlot h.slot x.occupancy, tokenMap := y.tokenMap.filter (fun e => e.2 != h.slot)
                  freeList := x.freeList ++ [h.slot] }.closedOut, q⟩) .revokeRecord .done) ∧
              onlySlot h.slot s.pool q ∧ poolGet q h.slot = retired h.gen))))

/-- A link reset, by RESET_LINK or at a warm restart: what is emptied, what becomes 0, absent or cleared, the reset number and
the reset messages, and where the link goes on from each state (07 7.6, of R145). The corrupt word count, which R145 does not
name, is kept (log 18); of other links and units nothing changes. -/
def Obligations.LinkResets : Prop :=
  ∀ (s : State) (n : AgentId),
    let p := s.link n
    let q : LinkPort := { p with
      retry := [], responses := [], notice := none, rxQueue := [], txSeq := 0, oldest := 0, rxExpect := 0
      replayCount := 0, replayPos := none, replayDeadline := none, ackOwed := false, nakOwed := false, nakSent := false
      resetPending := true, resetNumber := p.resetNumber + 1, resetNotice := some (p.resetNumber + 1)
      noticeResets := p.noticeResets + 1 }
    let deadline := s.time + s.management.watchdogPeriod.setWidth 32
    let after : LinkPort := match p.state with
      | .active => { q with state := .aligning, watchdog := none, attempt := some ⟨0, false, false, none, deadline⟩ }
      | .aligning => { q with attempt := p.attempt.map (fun a => { a with ownSent := false }) }
      | .down => q
    (∀ (arg : Word) (dest : Option DomainId), s.management.command = some (.handed .resetLink arg dest) → argAgent arg = n →
      exec (.resetLink .decide) s = .next (answer (s.setLink n after) .resetLink .done)) ∧
    (∀ due : RestartDue, s.management.command = some (.restarting due) → look due.links n = true →
      exec (.linkPortWarmRestart n) s = .next (restartTaken (s.setLink n after) { due with links := put due.links n false }))

/-- R181 whole: WALK_START. The COMMAND_REFUSED of a refusal (R180) waits in the domain that decides it (log 9). -/
def Obligations.WalkStart : Prop :=
  ∀ (s : State) (arg : Word) (dest : Option DomainId), s.management.command = some (.handed .walkStart arg dest) →
    let d := argDomain arg
    ((s.domain d).state ≠ .disabled → exec (.walkStart .decide) s = .next { s with management := { s.management with
      cursor := .walking d (if arg.getLsbD 31 then some (Fin.ofNat 16 (arg.extractLsb' 27 4).toNat) else none) none
      command := some (.answered .walkStart .done) } }) ∧
    ((s.domain d).state = .disabled → exec (.walkStart .decide) s = .next { s with
      domains := put s.domains d { s.domain d with
        reports := (s.domain d).reports ++ [⟨.commandRefused, some d, none, none, none, s.time⟩] }
      management := { s.management with command := some (.answered .walkStart (.refused .wrongState)) } })

/-- WALK_NEXT: refused with NO_WALK where the cursor is NONE; WALK_END, changing nothing, where it is ENDED; where it is OPEN a
search begins, or ends at once with WALK_END where no slot lies after the position (10 10.5, of R182). An examination of slot
`i` by a walk, where its directory copies agree: a FREE slot, and a record of another owner than the filter's, is passed over; a
readable record ends the search with a snapshot of it, its queue position counted from 1; an unreadable one ends it with a
snapshot without a record, and quarantines an ENABLED or CLOSING domain. After the highest slot the walk has ended (10 10.5, of
R182 and R183). -/
def Obligations.WalkSearch : Prop :=
  (∀ (s : State) (arg : Word) (dest : Option DomainId), s.management.command = some (.handed .walkNext arg dest) →
    (s.management.cursor = .none → exec (.walkNext .decide) s =
      .next (answer (reportManagement s .commandRefused none none) .walkNext (.refused .noWalk))) ∧
    (s.management.cursor = .ended → exec (.walkNext .decide) s = .next (answer s .walkNext .walkEnd)) ∧
    ∀ (d : DomainId) (f : Option AgentId) (p : Option SlotId), s.management.cursor = .walking d f p →
      (nextSlot (s.domain d).banks p = none → exec (.walkNext .decide) s = .next { s with management := { s.management with
        cursor := .ended, command := some (.answered .walkNext .walkEnd) } }) ∧
      (nextSlot (s.domain d).banks p ≠ none → exec (.walkNext .decide) s =
        .next { s with management := { s.management with command := some .searching } })) ∧
  ∀ (s : State) (d : DomainId) (f : Option AgentId) (p : Option SlotId) (i : SlotId),
    s.management.command = some .searching → s.management.cursor = .walking d f p →
    nextSlot (s.domain d).banks p = some i → (poolGet s.pool i).agrees = true →
    let x := s.domain d
    let z := poolGet s.pool i
    let passed : State := { s with management := match nextSlot x.banks (some i) with
      | some _ => { s.management with cursor := .walking d f (some i) }
      | none => { s.management with cursor := .ended, command := some (.answered .walkNext .walkEnd) } }
    (z.directory.free = true → exec .walkExamination s = .next passed) ∧
    (z.directory.free = false → z.health = .clean → (∃ a, f = some a ∧ z.record.owner ≠ a) →
      exec .walkExamination s = .next passed) ∧
    (z.directory.free = false → z.health = .clean → (f = none ∨ f = some z.record.owner) →
      exec .walkExamination s = .next { s with management := { s.management with
        cursor := .walking d f (some i)
        snapshot := ⟨d, i, z.directory.gen, false, some z.record, queuePosition i z.record ⟨x, s.pool⟩⟩
        command := some (.answered .walkNext .done) } }) ∧
    (z.directory.free = false → z.health = .manyBits →
      ∃ t, exec .walkExamination s = .next t ∧ t.pool = s.pool ∧
        t.management = { s.management with
          cursor := .walking d f (some i), snapshot := ⟨d, i, z.directory.gen, true, none, 0⟩
          command := some (.answered .walkNext .done) } ∧
        ((t.domain d).state = if x.state = .enabled ∨ x.state = .closing then .quarantined else x.state) ∧
        (t.domain d).reports = x.reports ++ [⟨.recordUncorrectable, some d, none, some i, none, s.time⟩])

/-! ## Warm restart, unit by unit -/

/-- R12 as a domain takes it: an ENABLED domain stays ENABLED with every slot of its bank set in its free list, a CLOSING,
QUARANTINED or SCRUBBING one becomes DISABLED, with empty collections and counts; every slot of its bank set is FREE at the next
generation with a cleared record, whatever it held; a DISABLED domain and the slots of no bank of the domain are unchanged.
Configuration, token counter and exhausted indicator are kept, and no live report and no notice is made. What the session unit
had handed the domain is discarded (log 10). -/
def Obligations.LockTableWarmRestart : Prop :=
  ∀ (s : State) (d : DomainId) (due : RestartDue), s.management.command = some (.restarting due) →
    look due.domains d = true → Pool.wf s.pool = true →
    let x := s.domain d
    ∃ (y : Domain) (p : Pool) (m : Management), exec (.lockTableWarmRestart d) s =
        .next { s.putTable d y p with management := m } ∧
      m = { s.management with cursor := m.cursor, command := some (.restarting { due with domains := put due.domains d false }) } ∧
      y = { x with
        state := if x.state = .enabled then .enabled else .disabled
        scrubPos := if x.state = .enabled ∨ x.state = .disabled then x.scrubPos else none
        freeList := if x.state = .enabled then slotsOfBanks x.banks else if x.state = .disabled then x.freeList else []
        waitQueue := if x.state = .disabled then x.waitQueue else []
        occupancy := if x.state = .disabled then x.occupancy else []
        tokenMap := if x.state = .disabled then x.tokenMap else []
        live := if x.state = .disabled then x.live else Vector.replicate 16 0
        fromSession := [], era := x.era + 1 } ∧
      ∀ i : SlotId, poolGet p i = if x.state ≠ .disabled ∧ inBanks x.banks i = true then
        { copyA := ⟨genOf s.pool i + 1, true⟩, copyB := ⟨genOf s.pool i + 1, true⟩, copyC := ⟨genOf s.pool i + 1, true⟩,
          record := .cleared, health := .clean }
        else poolGet s.pool i

/-- The session unit at a warm restart: every agent that is not DISABLED becomes OFFLINE; leases are absent, live counts 0, tags
FREE, no request is in process; quota, bound and epoch are kept (04 4.7, of R99). The gate unit at a warm restart: the DONE
queue emptied and DONEs waiting on the port accepted, every place of the verdict queue G_NOT_READY with its presentation
withdrawn, the CHECK queue kept with the CHECKs accepted since; a session read or a decision that returns for such a place is
discarded (06 6.5, of R131). -/
def Obligations.SessionAndGateWarmRestart : Prop :=
  (∀ (s : State) (due : RestartDue), s.management.command = some (.restarting due) → due.session = true →
    ∃ t, exec .sessionWarmRestart s = .next t ∧
      (∀ n, t.agent n = { s.agent n with
        state := if (s.agent n).state = .disabled then .disabled else .offline
        leaseClass := none, leaseDeadline := none, live := 0, tags := Vector.replicate 8 false, inProcess := none }) ∧
      t = { s with
        session := { agents := t.session.agents, era := s.session.era + 1, reports := s.session.reports }
        management := { s.management with command := some (.restarting { due with session := false }) } }) ∧
  (∀ (s : State) (due : RestartDue), s.management.command = some (.restarting due) → due.gate = true → s.gate.port = [] →
    ∃ t, exec .gateWarmRestart s = .next t ∧ (∀ d, t.domain d = { s.domain d with checks := [] }) ∧ t = { s with
      domains := t.domains, noDomain := { s.noDomain with checks := [] }
      gate := { s.gate with
        doneQueue := [], verdictQueue := s.gate.verdictQueue.map (fun p => { p with verdict := some (.refused .notReady) }) }
      management := { s.management with command := some (.restarting { due with gate := false }) } }) ∧
  (∀ (s : State) (due : RestartDue) (m : Done) (rest : List GateMsg), s.management.command = some (.restarting due) →
    due.gate = true → s.gate.port = .done m :: rest →
    ∃ t, exec .gateWarmRestart s = .next t ∧ t.gate.doneQueue.head? = some m ∧ ∀ d, (t.domain d).checks = []) ∧
  (∀ (s : State) (k : Nat) (st : AgentState) (epoch : Word) (rest : List (Nat × AgentState × Word)),
    s.gate.answers = (k, st, epoch) :: rest → (∀ p ∈ s.gate.verdictQueue, p.verdict ≠ none) →
    exec .checkPresent s = .next { s with gate := { s.gate with answers := rest } }) ∧
  ∀ (s : State) (d : DomainId) (k : Nat) (v : Verdict) (rest : List (Nat × Verdict)),
    (s.domain d).verdicts = (k, v) :: rest → (∀ p ∈ s.gate.verdictQueue, p.verdict ≠ none) →
    exec (.verdictPlace (some d)) s = .next (s.setDomain d { s.domain d with verdicts := rest })

/-- R115 as to what is emptied: the notice unit at a warm restart, and after a cold reset. Every message handed to it and not
yet taken is discarded, by whichever unit: reclaims, acknowledgements, conditions, the domains' messages, the links' reset
messages. -/
def Obligations.NoticeWarmRestart : Prop :=
  (∀ (s : State) (due : RestartDue), s.management.command = some (.restarting due) → due.notice = true →
    ∃ t, exec .noticeWarmRestart s = .next t ∧
      (∀ n, t.noticeAgent n = { NoticeAgent.reset with
        reclaimed := (s.noticeAgent n).reclaimed + (s.noticeAgent n).reclaims.length }) ∧
      t.notice.conditions = [] ∧ (∀ d, look t.notice.reads d = .idle) ∧
      (∀ d, t.domain d = { s.domain d with toNotice := [] }) ∧ t.noDomain = { s.noDomain with toNotice := [] } ∧
      (∀ n, t.link n = { s.link n with noticeResets := 0 }) ∧
      t = { s with
        notice := t.notice, domains := t.domains, noDomain := t.noDomain, links := t.links
        management := { s.management with command := some (.restarting { due with notice := false }) } }) ∧
  ∀ n, (State.reset.noticeAgent n).queue = [] ∧ (State.reset.noticeAgent n).conditions = .none ∧
    (State.reset.noticeAgent n).marker = .ready ∧ (State.reset.noticeAgent n).retracted = none ∧
    (State.reset.noticeAgent n).acks = [] ∧ (State.reset.noticeAgent n).reclaims = []

/-! ## The session unit -/

/-- REQUEST_ARRIVAL takes the first REQUEST of the receive queue whose arrival has not been taken: with its tag FREE it becomes
the holder and the tag BUSY, with its tag BUSY it is a clash and the tag stays; while a reset notice waits before it no arrival
is taken. RESET_NOTICE frees every tag and notes the reset number (07 7.6, 08 8.3; of R152, R146). An acknowledgement renews the
lease of an ONLINE agent, whatever the state of its link (the model's choice, log 34), and is passed to the notice unit in the
agent's order; a message of a type the part does not take, or an acknowledgement of the wrong length, is discarded with
LINK_PROTOCOL and renews nothing (04 4.4, 08 8.1; of R85, R151). -/
def Obligations.ArrivalsResetNoticesAndAcknowledgements : Prop :=
  ((∀ (s : State) (n : AgentId) (pre rest : List Received) (x : Received),
    (s.link n).resetNotice = none → (s.link n).rxQueue = pre ++ x :: rest →
    (∀ y ∈ pre, isRequest y.words = false ∨ y.mark ≠ none) → isRequest x.words = true → x.mark = none →
    (look (s.agent n).tags (requestTag x.words) = false → exec (.requestArrival n) s =
      .next ((s.setAgent n { s.agent n with tags := put (s.agent n).tags (requestTag x.words) true }).setLink n
        { s.link n with rxQueue := pre ++ { x with mark := some true } :: rest })) ∧
    (look (s.agent n).tags (requestTag x.words) = true → exec (.requestArrival n) s =
      .next (s.setLink n { s.link n with rxQueue := pre ++ { x with mark := some false } :: rest }))) ∧
  ∀ (s : State) (n : AgentId) (k : BitVec 8), (s.link n).resetNotice = some k →
    exec (.requestArrival n) s = .next s ∧
    exec (.resetNotice n) s = .next ((s.setAgent n { s.agent n with tags := Vector.replicate 8 false, lastReset := k }).setLink n
      { s.link n with resetNotice := none })) ∧
  ∀ (s : State) (n : AgentId) (x : Received) (rest : List Received),
    (s.link n).resetNotice = none → (s.agent n).inProcess = none → (s.link n).rxQueue = x :: rest →
    isRequest x.words = false →
    let u := s.setLink n { s.link n with rxQueue := rest }
    (∀ (w : Word) (item : AckItem), x.words = [w] →
      (messageType [w] = 5 ∧ item = .notice ⟨Fin.ofNat 4096 (w.extractLsb' 8 12).toNat, w.extractLsb' 0 8⟩ s.session.era ∨
        messageType [w] = 6 ∧ item = .session s.session.era) →
      (∀ c, (s.agent n).state = .online → (s.agent n).leaseClass = some c → exec (.acknowledgementTake n) s =
        .next ((u.setAgent n { s.agent n with
          leaseDeadline := some (s.time + BitVec.ofNat 32 ((look s.management.leases c).toNat * 10)) }).setNotice n
          { s.noticeAgent n with acks := (s.noticeAgent n).acks ++ [item] })) ∧
      ((s.agent n).state ≠ .online → exec (.acknowledgementTake n) s =
        .next (u.setNotice n { s.noticeAgent n with acks := (s.noticeAgent n).acks ++ [item] }))) ∧
    ((messageType x.words ≠ 5 ∧ messageType x.words ≠ 6 ∨ x.words.length ≠ 1) →
      exec (.messageDiscard n) s = .next (reportSession u .linkProtocol n))

/-- The front-end checks of R154 in their order, at the command that takes a request of the kind: the first that fails answers
the request at its taking. The message leaves the receive queue, the response goes to the tail of the link's response queue, the
holder's tag becomes FREE, TAG_IN_USE reports LINK_PROTOCOL; nothing else changes: no lease, no domain, no notice (08 8.3, 8.4,
8.5; of R153, R154, R157). Here and below the link discards a response of before a warm restart that it has taken and the session
unit has not (07 7.8, of R150, R179; how the part tells it is log 10). -/
def Obligations.FrontEndRefusals : Prop :=
  ∀ (s : State) (n : AgentId) (x : Received) (rest : List Received) (b : Bool),
    (s.link n).resetNotice = none → (s.agent n).inProcess = none → (s.link n).rxQueue = x :: rest →
    isRequest x.words = true → x.mark = some b → x.stamp = (s.agent n).lastReset → (s.link n).responses.length < 8 →
    let k := requestKind x.words
    let take : Instr := if k = 1 then .join n else if k = 2 then .leave n else if k = 6 then .renew n else .requestTake n
    let st := (s.agent n).state
    let answered (c : ResultRefusal) : State :=
      (s.setAgent n { s.agent n with
        tags := if b then put (s.agent n).tags (requestTag x.words) false else (s.agent n).tags }).setLink n
      { s.link n with
        rxQueue := rest, responses := s.responsesWith n ⟨requestTag x.words, .refused c, x.stamp⟩ }
    (parseRequest x.words = none → exec take s = .next (answered .badRequest)) ∧
    (∀ q, parseRequest x.words = some q →
      (b = false → exec take s = .next (reportSession (answered .tagInUse) .linkProtocol n)) ∧
      (b = true →
        (s.management.mode = .setup → exec take s = .next (answered .notReady)) ∧
        (s.management.mode = .active →
          (st = .disabled → exec take s = .next (answered .agentDisabled)) ∧
          (k ≠ 1 → st = .offline → exec take s = .next (answered .notJoined)) ∧
          (k ≠ 1 → st = .lapsed → exec take s = .next (answered .sessionLapsed)))))

/-- JOIN in ACTIVE from an agent that is not DISABLED (04 4.3, 4.4; of R80, R81, R82, R84): from ONLINE and LAPSED a reclaim
first; the epoch advances, 1 after FFFFFFFFh; the notice unit is asked to empty the session notice set; the class is the lower
of the requested one and the bound, the deadline the time count plus its duration; the agent is ONLINE and its live count kept.
JOINED carries the new epoch, the duration and the quota, and frees the tag. LEAVE from ONLINE: a reclaim, OFFLINE, no lease,
LEFT; the epoch and the session notice set are kept. RENEW from ONLINE: the deadline is set afresh from the class's entry as the
table holds it, whatever the state of the link (the model's choice, log 34), and RENEWED carries that duration; nothing else
changes (04 4.4, 4.5; of R87, R91, R84). -/
def Obligations.SessionsOpenRenewAndEnd : Prop :=
  (∀ (s : State) (n : AgentId) (x : Received) (rest : List Received) (c : LeaseClass),
    (s.link n).resetNotice = none → (s.agent n).inProcess = none → (s.link n).rxQueue = x :: rest →
    isRequest x.words = true → requestKind x.words = 1 → parseRequest x.words = some (.join c) → x.mark = some true →
    x.stamp = (s.agent n).lastReset → (s.link n).responses.length < 8 → s.management.mode = .active →
    (s.agent n).state ≠ .disabled →
    let a := s.agent n
    let class' := min c a.bound
    let ms := (look s.management.leases class').toNat * 10
    let epoch := if a.epoch = 0xFFFFFFFF then 1 else a.epoch + 1
    let u := if a.state = .offline then s else sendReclaim s n
    exec (.join n) s = .next { (u.setAgent n { u.agent n with
        state := .online, epoch := epoch, leaseClass := some class', leaseDeadline := some (s.time + BitVec.ofNat 32 ms)
        tags := put a.tags (requestTag x.words) false }).setLink n
      { s.link n with
        rxQueue := rest
        responses := s.responsesWith n ⟨requestTag x.words, .joined epoch ms a.quota, x.stamp⟩ } with
      notice := { u.notice with conditions := s.notice.conditions ++ [.empty n s.session.era] } }) ∧
  ∀ (s : State) (n : AgentId) (x : Received) (rest : List Received),
    (s.link n).resetNotice = none → (s.agent n).inProcess = none → (s.link n).rxQueue = x :: rest →
    isRequest x.words = true → x.mark = some true → x.stamp = (s.agent n).lastReset → (s.link n).responses.length < 8 →
    s.management.mode = .active → (s.agent n).state = .online →
    let a := s.agent n
    let sent (r : Response) : LinkPort := { s.link n with
      rxQueue := rest, responses := s.responsesWith n ⟨requestTag x.words, r, x.stamp⟩ }
    let tags := put a.tags (requestTag x.words) false
    (requestKind x.words = 2 → parseRequest x.words = some .leave →
      exec (.leave n) s = .next (((sendReclaim s n).setAgent n { (sendReclaim s n).agent n with
        state := .offline, leaseClass := none, leaseDeadline := none, tags := tags }).setLink n (sent .left))) ∧
    ∀ c, requestKind x.words = 6 → parseRequest x.words = some .renew → a.leaseClass = some c →
      let ms := (look s.management.leases c).toNat * 10
      exec (.renew n) s = .next ((s.setAgent n { a with
        leaseDeadline := some (s.time + BitVec.ofNat 32 ms), tags := tags }).setLink n (sent (.renewed ms)))

/-- REQUEST_TAKE of a lock request of an ONLINE agent: the lease is renewed, whatever the state of the link (the model's choice,
log 34); an ACQUIRE goes to the domain that holds its first page, or to the lock table without a domain; a RELEASE, CONVERT or QUERY goes to the domain that owns the handle's bank, and is
answered STALE_HANDLE at once where none does. The request carries agent, quota, live count and stamp, and stays in process (01
1.2, 02 2.2, 04 4.4, 08 8.3, 8.4; of R2, R26, R85, R153, R156). -/
def Obligations.LockRequestsAreHandedOn : Prop :=
  ∀ (s : State) (n : AgentId) (x : Received) (rest : List Received) (b : LockBody) (c : LeaseClass),
    (s.link n).resetNotice = none → (s.agent n).inProcess = none → (s.link n).rxQueue = x :: rest →
    isRequest x.words = true → parseRequest x.words = some (.lock b) → x.mark = some true → s.management.mode = .active →
    (s.agent n).state = .online → (s.agent n).leaseClass = some c →
    let a := s.agent n
    let renewed : Agent := { a with
      leaseDeadline := some (s.time + BitVec.ofNat 32 ((look s.management.leases c).toNat * 10)) }
    let q : LockRequest := ⟨n, a.quota, a.live, x.stamp, s.session.era, b⟩
    let u : State := (s.setAgent n { renewed with inProcess := some ⟨requestTag x.words, true, x.stamp, none⟩ }).setLink n
      { s.link n with rxQueue := rest }
    let handed (d : DomainId) : State := u.setDomain d { s.domain d with
      fromSession := (s.domain d).fromSession ++ [.request q] }
    (∀ mode first count cookie code, b = .acquire mode first count cookie code →
      (∀ d, (s.domain d).holds first = true → (∀ k, k < d → (s.domain k).holds first = false) →
        exec (.requestTake n) s = .next (handed d)) ∧
      ((∀ d, (s.domain d).holds first = false) → exec (.requestTake n) s =
        .next { u with noDomain := { s.noDomain with requests := s.noDomain.requests ++ [q] } })) ∧
    (∀ h code, b = .release h ∨ b = .convertUp h code ∨ b = .convertDown h ∨ b = .query h →
      (∀ d, (s.domain d).owns h.slot = true → (∀ k, k < d → (s.domain k).owns h.slot = false) →
        exec (.requestTake n) s = .next (handed d)) ∧
      ((∀ d, (s.domain d).owns h.slot = false) → x.stamp = a.lastReset → (s.link n).responses.length < 8 →
        exec (.requestTake n) s = .next ((s.setAgent n { renewed with
          tags := put a.tags (requestTag x.words) false }).setLink n { s.link n with
            rxQueue := rest
            responses := s.responsesWith n ⟨requestTag x.words, .refused .staleHandle, x.stamp⟩ })))

/-- A result taken: its live report is applied, then its response goes to the tail of the response queue and frees the holder's
tag; it is kept with the request in process while the queue holds 8, and RESPONSE_HANDOFF hands it on; where its stamp is not
the reset number last taken it is discarded and frees no tag; one for a request handed before the last warm restart is discarded
with its live report. A live report is applied in every session state; a quarantine subtraction also posts DOMAIN_LOST (04 4.6,
4.7, 05 5.4, 07 7.6, 7.7, 08 8.5; of R96, R99, R105, R146, R147, R157; log 14). -/
def Obligations.ResultsAndLiveReports : Prop :=
  (∀ (s : State) (d : DomainId) (a : AgentId) (k : BitVec 8) (r : Response) (c : Option LiveChange) (era : Nat)
      (rest : List DomainReport) (p : InProcess),
    (s.domain d).toSession = .result a k r c era :: rest → (s.agent a).inProcess = some p →
    let u := s.setDomain d { s.domain d with toSession := rest }
    let live := match c with
      | none => (s.agent a).live
      | some .up => (s.agent a).live + 1
      | some .down => (s.agent a).live - 1
      | some (.subtract m) => (s.agent a).live - m
    let x : Agent := { s.agent a with live := live }
    (era < s.session.era → exec (.resultTake (some d)) s = .next u) ∧
    (s.session.era ≤ era → k ≠ x.lastReset → exec (.resultTake (some d)) s =
      .next (u.setAgent a { x with inProcess := none })) ∧
    (s.session.era ≤ era → k = x.lastReset → (s.link a).responses.length < 8 → exec (.resultTake (some d)) s =
      .next ((u.setAgent a { x with
        inProcess := none, tags := if p.holder then put x.tags p.tag false else x.tags }).setLink a
        { s.link a with responses := s.responsesWith a ⟨p.tag, r, k⟩ })) ∧
    (s.session.era ≤ era → k = x.lastReset → 8 ≤ (s.link a).responses.length → exec (.resultTake (some d)) s =
      .next (u.setAgent a { x with inProcess := some ⟨p.tag, p.holder, k, some r⟩ }))) ∧
  (∀ (s : State) (a : AgentId) (tag : Tag) (holder : Bool) (r : Response),
    (s.agent a).inProcess = some ⟨tag, holder, (s.agent a).lastReset, some r⟩ → (s.link a).responses.length < 8 →
    exec (.responseHandoff a) s = .next ((s.setAgent a { s.agent a with
      inProcess := none, tags := if holder then put (s.agent a).tags tag false else (s.agent a).tags }).setLink a
      { s.link a with responses := s.responsesWith a ⟨tag, r, (s.agent a).lastReset⟩ })) ∧
  (∀ (s : State) (d : DomainId) (a : AgentId) (c : LiveChange) (era : Nat) (rest : List DomainReport),
    (s.domain d).toSession = .live a c era :: rest → s.session.era ≤ era →
    exec (.liveReport d) s = .next ((s.setDomain d { s.domain d with toSession := rest }).setAgent a { s.agent a with
      live := match c with
        | .up => (s.agent a).live + 1
        | .down => (s.agent a).live - 1
        | .subtract m => (s.agent a).live - m })) ∧
  ∀ (s : State) (d : DomainId) (a : AgentId) (m era : Nat) (rest : List DomainReport),
    (s.domain d).toSession = .lost a m era :: rest → s.session.era ≤ era →
    exec (.liveReport d) s = .next { (s.setDomain d { s.domain d with toSession := rest }).setAgent a { s.agent a with
        live := (s.agent a).live - m } with
      notice := { s.notice with conditions := s.notice.conditions ++ [.post a (.lost d) s.session.era] } }

/-- The lease of an ONLINE agent expires at its deadline and not before: the agent is LAPSED without a lease, a reclaim is sent,
LAPSED is posted, AGENT_LAPSED is reported, the epoch is kept. A read of an agent's state is answered with the state, and for
the gate the epoch, that the entry holds (04 4.4, 4.5, 05 5.3; of R88, R95, R103). -/
def Obligations.LeaseExpiryAndReads : Prop :=
  (∀ (s : State) (n : AgentId) (deadline : Time), (s.agent n).state = .online → (s.agent n).leaseDeadline = some deadline →
    (∀ k : Nat, k < 2 ^ 31 → s.time = deadline + BitVec.ofNat 32 k →
      exec (.leaseExpiry n) s = .next { (sendReclaim s n).setAgent n { (sendReclaim s n).agent n with
          state := .lapsed, leaseClass := none, leaseDeadline := none } with
        session := { s.session with
          agents := put s.session.agents n { s.agent n with
            state := .lapsed, leaseClass := none, leaseDeadline := none, reclaims := (s.agent n).reclaims + 1 }
          reports := s.session.reports ++ [⟨.agentLapsed, none, some n, none, none, s.time⟩] }
        notice := { (sendReclaim s n).notice with
          conditions := s.notice.conditions ++ [.post n .lapsed s.session.era] } }) ∧
    (∀ k : Nat, 0 < k → k ≤ 2 ^ 31 → deadline = s.time + BitVec.ofNat 32 k → exec (.leaseExpiry n) s = .next s)) ∧
  (∀ (s : State) (k : Nat) (a : AgentId) (rest : List (Nat × AgentId)), s.gate.reads = (k, a) :: rest →
    exec (.agentStateRead .gate) s = .next { s with gate := { s.gate with
      reads := rest, answers := s.gate.answers ++ [(k, (s.agent a).state, (s.agent a).epoch)] } }) ∧
  ∀ (s : State) (d : DomainId) (a : AgentId), look s.notice.reads d = .asked a →
    exec (.agentStateRead (.post d)) s = .next { s with notice := { s.notice with
      reads := put s.notice.reads d (.answered a (s.agent a).state) } }

/-! ## Lock requests at a domain -/

/-- R28 and the other checks of an ACQUIRE before its searches, in their order: the domain must hold the first page and the
last, must be available, not CLOSING, and the agent below its quota. A refusal changes nothing but the result handed back. An
ACQUIRE that resolved to no domain is answered NO_DOMAIN (01 1.2, 02 2.2; of R2, R27, R29, R36). -/
def Obligations.AcquireRefusedBeforeItsSearches : Prop :=
  (∀ (s : State) (d : DomainId) (q : LockRequest) (rest : List SessionItem) (mode : Mode) (first : Page) (count : Nat)
      (cookie : BitVec 16) (code : WaitCode),
    (s.domain d).fromSession = .request q :: rest → q.body = .acquire mode first count cookie code →
    let x := s.domain d
    let refused (c : ResultRefusal) : Host.Outcome State Fault Refusal :=
      .next (s.setDomain d (x.answered rest q (.refused c) none))
    (x.holds first = false → exec (.acquire (some d)) s = refused .noDomain) ∧
    (x.holds first = true → x.limit.toNat < lastPage first count → exec (.acquire (some d)) s = refused .spanInvalid) ∧
    (x.holds first = true → lastPage first count ≤ x.limit.toNat →
      (x.state = .quarantined ∨ x.state = .scrubbing → exec (.acquire (some d)) s = refused .domainUnavailable) ∧
      (x.state = .closing → exec (.acquire (some d)) s = refused .domainClosing) ∧
      (x.state = .enabled → q.quota ≤ q.live → exec (.acquire (some d)) s = refused .quotaExceeded))) ∧
  ∀ (s : State) (q : LockRequest) (rest : List LockRequest), s.noDomain.requests = q :: rest →
    exec (.acquire none) s = .next { s with noDomain := { s.noDomain with
      requests := rest, toSession := s.noDomain.toSession ++ [.result q.agent q.stamp (.refused .noDomain) none q.era] } }

/-- R31, R34 and the other refusals an ACQUIRE meets in its searches, over records that read clean: SELF_CONFLICT with an
occupying record of the agent; POOL_EMPTY, whether or not the request is grantable; TOKENS_EXHAUSTED for a grantable request in
an exhausted domain; CONFLICT for one that is not grantable and carries wait code 0, exhausted or not. Nothing changes but the
result handed back (02 2.2; of R30, R33, R36). -/
def Obligations.AcquireRefusedByItsSearches : Prop :=
  ∀ (s : State) (d : DomainId) (q : LockRequest) (rest : List SessionItem) (mode : Mode) (first : Page) (count : Nat)
      (cookie : BitVec 16) (code : WaitCode),
    (s.domain d).fromSession = .request q :: rest → q.body = .acquire mode first count cookie code →
    (s.domain d).state = .enabled → (s.domain d).holds first = true → lastPage first count ≤ (s.domain d).limit.toNat →
    q.live < q.quota → recordsClean s.pool (s.domain d).occupancy = true → recordsClean s.pool (s.domain d).waitQueue = true →
    let x := s.domain d
    let refused (c : ResultRefusal) : Host.Outcome State Fault Refusal :=
      .next (s.setDomain d (x.answered rest q (.refused c) none))
    let selfConflicts := ∃ i ∈ x.occupancy, (recordOf s.pool i).owner = q.agent ∧
      conflicts mode first count (recordOf s.pool i) (recordOf s.pool i).hold = true
    let grantable := noHoldMeets s.pool mode first count x.occupancy = true ∧
      noClaimMeets s.pool mode first count x.waitQueue = true
    (selfConflicts → exec (.acquire (some d)) s = refused .selfConflict) ∧
    (¬ selfConflicts → x.freeList = [] → exec (.acquire (some d)) s = refused .poolEmpty) ∧
    (¬ selfConflicts → x.freeList ≠ [] → grantable → x.exhausted = true →
      exec (.acquire (some d)) s = refused .tokensExhausted) ∧
    (¬ selfConflicts → x.freeList ≠ [] → ¬ grantable → code = 0 → exec (.acquire (some d)) s = refused .conflict)

/-- An ACQUIRE that no check refuses, over slots that read clean: grantable and not exhausted it is granted at once, else with a
wait code of 1 to 7 it is queued, exhausted or not. The head slot of the free list is filled from the request at its generation;
a grant takes the token counter's value, the last one setting the exhausted indicator with TOKENS_EXHAUSTED, and joins the
occupancy set and the token map; a queued record joins the wait queue's tail with the deadline of its wait class. The owner's
live count rises, with +1 attached to the result; no notice is posted (01 1.5, 1.8, 02 2.2, 2.3; of R17, R21, R32, R35, R38). -/
def Obligations.AcquireGrantedOrQueued : Prop :=
  ∀ (s : State) (d : DomainId) (q : LockRequest) (rest : List SessionItem) (mode : Mode) (first : Page) (count : Nat)
      (cookie : BitVec 16) (code : WaitCode) (i : SlotId) (fl : List SlotId),
    (s.domain d).fromSession = .request q :: rest → q.body = .acquire mode first count cookie code →
    (s.domain d).state = .enabled → (s.domain d).holds first = true → lastPage first count ≤ (s.domain d).limit.toNat →
    q.live < q.quota → recordsClean s.pool (s.domain d).occupancy = true → recordsClean s.pool (s.domain d).waitQueue = true →
    (∀ j ∈ (s.domain d).occupancy, (recordOf s.pool j).owner = q.agent →
      conflicts mode first count (recordOf s.pool j) (recordOf s.pool j).hold = false) →
    (s.domain d).freeList = i :: fl → (poolGet s.pool i).readsClean = true → Pool.wf s.pool = true →
    let x := s.domain d
    let k := x.tokenCounter
    let g := genOf s.pool i
    let filled (st : SlotState) (token : Option Token) (deadline : Option Time) : Slot :=
      { copyA := ⟨g, false⟩, copyB := ⟨g, false⟩, copyC := ⟨g, false⟩, health := .clean
        record := ⟨q.agent, mode, st, first, count, token, cookie, code, deadline, 0, 0, none, none, none⟩ }
    let grantable := noHoldMeets s.pool mode first count x.occupancy = true ∧
      noClaimMeets s.pool mode first count x.waitQueue = true
    (grantable → x.exhausted = false → ∃ p, exec (.acquire (some d)) s = .next (s.putTable d
        { x.answered rest q (.granted ⟨i, g⟩ k) (some .up) with
          freeList := fl, occupancy := insertSlot i x.occupancy, tokenMap := x.tokenMap ++ [(k, i)]
          live := put x.live q.agent (look x.live q.agent + 1)
          tokenCounter := if k = BitVec.allOnes 40 then k else k + 1
          exhausted := k == BitVec.allOnes 40
          reports := if k = BitVec.allOnes 40 then
              x.reports ++ [⟨.tokensExhausted, some d, some q.agent, some i, none, s.time⟩]
            else x.reports } p) ∧
      poolGet p i = filled .held (some k) none ∧ onlySlot i s.pool p) ∧
    (¬ grantable → code ≠ 0 → ∃ p, exec (.acquire (some d)) s = .next (s.putTable d
        { x.answered rest q (.queued ⟨i, g⟩) (some .up) with
          freeList := fl, waitQueue := x.waitQueue ++ [i]
          live := put x.live q.agent (look x.live q.agent + 1) } p) ∧
      poolGet p i = filled .waiting none (if code = 7 then none else
        some (s.time + (look s.management.waits (Fin.ofNat 6 (code.val - 1))).setWidth 32)) ∧ onlySlot i s.pool p)

/-- The handle checks of a RELEASE, CONVERT or QUERY at its domain, in their order, over a directory entry whose copies agree:
the bank is still owned, the domain available, the slot readable (else the domain is QUARANTINED, each subtraction of its entry
in one message with the asking for DOMAIN_LOST: log 14; in rising agent number: log 32), not FREE, whatever its record's health (log 8), and of the handle's
generation, and the record the agent's own. A refusal changes nothing else, and starts no grant pass. Where the slot reads with
an error that can be corrected, the refusal is the same, and the error is: copies that disagree are all written with the value
read, and reported with the owner of a slot that is not FREE, and with no agent for a FREE one (log 29); then a bit that disagrees in the record is corrected and reported
with the owner (01 1.2, 1.3, 03 3.1, 09 9.1; of R2, R7, R8, R54, R165, R166). -/
def Obligations.HandleChecks : Prop :=
  ∀ (s : State) (d : DomainId) (q : LockRequest) (rest : List SessionItem) (h : Handle),
    (s.domain d).fromSession = .request q :: rest → q.body.handle? = some h →
    let x := s.domain d
    let p := poolGet s.pool h.slot
    let refused (c : ResultRefusal) : Host.Outcome State Fault Refusal :=
      .next (s.setDomain d (x.answered rest q (.refused c) none))
    (x.owns h.slot = false → exec (lockCommand d q.body) s = refused .staleHandle) ∧
    (x.owns h.slot = true → x.state = .quarantined ∨ x.state = .scrubbing →
      exec (lockCommand d q.body) s = refused .domainUnavailable) ∧
    (x.owns h.slot = true → x.state = .enabled ∨ x.state = .closing → p.agrees = true →
      (p.directory.free = true → exec (lockCommand d q.body) s = refused .staleHandle) ∧
      (p.directory.free = false → p.health = .manyBits → ∃ t, exec (lockCommand d q.body) s = .next t ∧
        (t.domain d).state = .quarantined ∧ t.pool = s.pool ∧ (t.domain d).toSession =
          x.toSession ++ (liveAgents x).map (fun a => .lost a (look x.live a) x.era) ++
            [.result q.agent q.stamp (.refused .domainUnavailable) none q.era]) ∧
      (p.directory.free = false → p.health = .clean → p.directory.gen ≠ h.gen →
        exec (lockCommand d q.body) s = refused .staleHandle) ∧
      (p.directory.free = false → p.health = .clean → p.directory.gen = h.gen → p.record.owner ≠ q.agent →
        exec (lockCommand d q.body) s = refused .notOwner)) ∧
    (x.owns h.slot = true → x.state = .enabled ∨ x.state = .closing → Pool.wf s.pool = true →
      let note (a : Option AgentId) : Report := ⟨.recordCorrected, some d, a, some h.slot, none, s.time⟩
      let repaired : Slot := { p with copyA := p.directory, copyB := p.directory, copyC := p.directory }
      let corrected (r : List Report) (z : Slot) (c : ResultRefusal) : Prop :=
        ∃ u, exec (lockCommand d q.body) s =
            .next (s.putTable d { x.answered rest q (.refused c) none with reports := x.reports ++ r } u) ∧
          poolGet u h.slot = z ∧ onlySlot h.slot s.pool u
      (p.agrees = false → p.directory.free = true → corrected [note none] repaired .staleHandle) ∧
      (p.directory.free = false → ∀ c,
        (c = .staleHandle ∧ p.directory.gen ≠ h.gen ∨
          c = .notOwner ∧ p.directory.gen = h.gen ∧ p.record.owner ≠ q.agent) →
        (p.agrees = false → p.health = .clean → corrected [note (some p.record.owner)] repaired c) ∧
        (p.agrees = true → p.health = .oneBit →
          corrected [note (some p.record.owner)] { p with health := .clean } c) ∧
        (p.agrees = false → p.health = .oneBit →
          corrected [note (some p.record.owner), note (some p.record.owner)] { repaired with health := .clean } c)) ∧
      (p.directory.free = false → p.agrees = false → p.health = .manyBits →
        ∃ t, exec (lockCommand d q.body) s = .next t ∧ (t.domain d).state = .quarantined ∧
          (t.domain d).reports = x.reports ++ [note none, ⟨.recordUncorrectable, some d, none, some h.slot, none, s.time⟩] ∧
          poolGet t.pool h.slot = repaired ∧ onlySlot h.slot s.pool t.pool))

/-- RELEASE of the agent's current record, by its state (03 3.3, 3.4; of R61 to R64, R67, R68): DRAINING or ENDED,
ALREADY_RELEASED with nothing else changed. WAITING with no other record queued, CANCELLED: the slot retires to the free list's
tail. HELD or CONVERTING, RELEASED: unsent GRANTED, UPGRADED and UPGRADE_EXPIRED notices are withdrawn, with WITHDRAW_FRONT or
WITHDRAW_FOLLOW_UP handed to the notice unit, the others stay; the token leaves the token map. With accesses in flight the record
is DRAINING with the drain deadline, CONVERTING as SHARED, its range still held; with none, and no other record queued, it is ENDED
where a notice is left, and its slot retires at once where none is. A retirement that leaves a CLOSING domain without a slot in use
makes it DISABLED (R6). The −1 goes with the result (log 16). -/
def Obligations.ReleaseByState : Prop :=
  ∀ (s : State) (d : DomainId) (q : LockRequest) (rest : List SessionItem) (h : Handle),
    (s.domain d).fromSession = .request q :: rest → q.body = .release h → current (s.domain d) s.pool h →
    (recordOf s.pool h.slot).owner = q.agent → Pool.wf s.pool = true →
    let x := s.domain d
    let r := recordOf s.pool h.slot
    let live := put x.live q.agent (look x.live q.agent - 1)
    let y : Domain := { x.answered rest q (.released h) (some .down) with
      waitQueue := dropSlot h.slot x.waitQueue, tokenMap := dropToken r.token x.tokenMap, live := live
      toNotice := x.toNotice ++ r.withdrawals h x.era }
    let left (st : SlotState) (deadline : Option Time) : Slot := { poolGet s.pool h.slot with record := { r with
      state := st, mode := if r.state = .converting then .shared else r.mode, waitDeadline := none, drainDeadline := deadline
      front := r.keptFront, followUp := r.keptFollowUp } }
    (r.state = .draining ∨ r.state = .ended →
      exec (.release d) s = .next (s.setDomain d (x.answered rest q (.refused .alreadyReleased) none))) ∧
    (r.state = .waiting → dropSlot h.slot x.waitQueue = [] →
      ∃ p, exec (.release d) s = .next (s.withTable d ⟨{ x.answered rest q (.cancelled h) (some .down) with
          waitQueue := [], occupancy := dropSlot h.slot x.occupancy
          tokenMap := x.tokenMap.filter (fun e => e.2 != h.slot), freeList := x.freeList ++ [h.slot], live := live }.closedOut, p⟩) ∧
        poolGet p h.slot = retired h.gen ∧ onlySlot h.slot s.pool p) ∧
    (r.state = .held ∨ r.state = .converting →
      (r.state = .held ∨ y.waitQueue = [] → 0 < r.reads + r.writes →
        ∃ p, exec (.release d) s = .next (s.putTable d y p) ∧
          poolGet p h.slot = left .draining (some (s.time + x.drainLimit.setWidth 32 * 10)) ∧ onlySlot h.slot s.pool p) ∧
      (y.waitQueue = [] → r.reads = 0 → r.writes = 0 →
        (r.keptFront ≠ none →
          ∃ p, exec (.release d) s =
              .next (s.withTable d ⟨{ y with occupancy := dropSlot h.slot x.occupancy }.closedOut, p⟩) ∧
            poolGet p h.slot = left .ended none ∧ onlySlot h.slot s.pool p) ∧
        (r.keptFront = none →
          ∃ p, exec (.release d) s = .next (s.withTable d ⟨{ y with
              occupancy := dropSlot h.slot x.occupancy, tokenMap := y.tokenMap.filter (fun e => e.2 != h.slot)
              freeList := x.freeList ++ [h.slot] }.closedOut, p⟩) ∧
            poolGet p h.slot = retired h.gen ∧ onlySlot h.slot s.pool p)))

/-- CONVERT UP of the agent's current record, over records that read clean: WRONG_MODE unless HELD SHARED; UPGRADE_CONFLICT
where a queued record overlaps it; then, where its EXCLUSIVE claim conflicts with no other hold, granted with the next token
(TOKENS_EXHAUSTED in an exhausted domain), else CONFLICT with wait code 0 and queued as CONVERTING at the tail with the deadline
of its wait class otherwise, keeping its SHARED hold and token (03 3.2; of R55, R56, R57). -/
def Obligations.ConvertUp : Prop :=
  ∀ (s : State) (d : DomainId) (q : LockRequest) (rest : List SessionItem) (h : Handle) (code : WaitCode),
    (s.domain d).fromSession = .request q :: rest → q.body = .convertUp h code → current (s.domain d) s.pool h →
    (recordOf s.pool h.slot).owner = q.agent → Pool.wf s.pool = true → recordsClean s.pool (s.domain d).waitQueue = true →
    recordsClean s.pool (s.domain d).occupancy = true →
    let x := s.domain d
    let r := recordOf s.pool h.slot
    let k := x.tokenCounter
    let refused (c : ResultRefusal) : Host.Outcome State Fault Refusal :=
      .next (s.setDomain d (x.answered rest q (.refused c) none))
    let queuedOver := ∃ i ∈ x.waitQueue, overlap r.first r.count (recordOf s.pool i).first (recordOf s.pool i).count = true
    let clear := noHoldMeets s.pool .exclusive r.first r.count (x.occupancy.filter (fun i => i != h.slot)) = true
    (¬ (r.state = .held ∧ r.mode = .shared) → exec (.convertUp d) s = refused .wrongMode) ∧
    (r.state = .held → r.mode = .shared →
      (queuedOver → exec (.convertUp d) s = refused .upgradeConflict) ∧
      (¬ queuedOver → clear → x.exhausted = true → exec (.convertUp d) s = refused .tokensExhausted) ∧
      (¬ queuedOver → clear → x.exhausted = false → k ≠ BitVec.allOnes 40 →
        ∃ p, exec (.convertUp d) s = .next (s.putTable d { x.answered rest q (.converted h k) none with
            tokenCounter := k + 1, tokenMap := dropToken r.token x.tokenMap ++ [(k, h.slot)] } p) ∧
          poolGet p h.slot = { poolGet s.pool h.slot with record := { r with mode := .exclusive, token := some k } } ∧
          onlySlot h.slot s.pool p) ∧
      (¬ queuedOver → ¬ clear → code = 0 → exec (.convertUp d) s = refused .conflict) ∧
      (¬ queuedOver → ¬ clear → code ≠ 0 →
        ∃ p, exec (.convertUp d) s = .next (s.putTable d { x.answered rest q (.queued h) none with
            waitQueue := x.waitQueue ++ [h.slot] } p) ∧
          poolGet p h.slot = { poolGet s.pool h.slot with record := { r with
            state := .converting, waitCode := code
            waitDeadline := if code = 7 then none else
              some (s.time + (look s.management.waits (Fin.ofNat 6 (code.val - 1))).setWidth 32) } } ∧
          onlySlot h.slot s.pool p))

/-- CONVERT DOWN of the agent's current record: WRONG_MODE unless HELD EXCLUSIVE, WRITES_IN_FLIGHT while writes are counted;
else the mode becomes SHARED under the same token, and with an empty wait queue nothing else changes; where the one record
queued is a WAITING SHARED one that conflicts with no other hold, the same event grants it with the next token and posts
GRANTED; where it is a CONVERTING one whose EXCLUSIVE claim overlaps no other hold, the event grants the upgrade: HELD EXCLUSIVE
under the next token in place of the old, with UPGRADED. A queued record is held back behind a record ahead of it that still
waits and whose claim conflicts with its own: neither is granted. With the exhausted indicator set the pass stops at the first
record it could grant, and every record queued stays. The handle posted carries the generation of the majority, with no repair or
report of directory copies that differ (the model's choice, log 36). QUERY returns the record's STATUS and changes nothing (02 2.5,
03 3.2, 08 8.6; of R42, R43, R44, R45, R46, R59, R158). -/
def Obligations.ConvertDownAndQuery : Prop :=
  ∀ (s : State) (d : DomainId) (q : LockRequest) (rest : List SessionItem) (h : Handle),
    (s.domain d).fromSession = .request q :: rest → current (s.domain d) s.pool h →
    (recordOf s.pool h.slot).owner = q.agent → Pool.wf s.pool = true →
    let x := s.domain d
    let r := recordOf s.pool h.slot
    let refused (c : ResultRefusal) : Host.Outcome State Fault Refusal :=
      .next (s.setDomain d (x.answered rest q (.refused c) none))
    let down : Slot := { poolGet s.pool h.slot with record := { r with mode := .shared } }
    (q.body = .convertDown h →
      (¬ (r.state = .held ∧ r.mode = .exclusive) → exec (.convertDown d) s = refused .wrongMode) ∧
      (r.state = .held → r.mode = .exclusive → 0 < r.writes → exec (.convertDown d) s = refused .writesInFlight) ∧
      ∀ k, r.state = .held → r.mode = .exclusive → r.writes = 0 → r.token = some k →
        (x.waitQueue = [] →
          ∃ p, exec (.convertDown d) s = .next (s.putTable d (x.answered rest q (.converted h k) none) p) ∧
            poolGet p h.slot = down ∧ onlySlot h.slot s.pool p) ∧
        ∀ j, x.waitQueue = [j] → j ≠ h.slot → (poolGet s.pool j).health = .clean →
          (recordOf s.pool j).state = .waiting → (recordOf s.pool j).mode = .shared → (recordOf s.pool j).front = none →
          recordsClean s.pool x.occupancy = true →
          noHoldMeets s.pool .shared (recordOf s.pool j).first (recordOf s.pool j).count
            (x.occupancy.filter (fun i => i != h.slot && i != j)) = true →
          x.exhausted = false → x.tokenCounter ≠ BitVec.allOnes 40 →
          ∃ p, exec (.convertDown d) s = .next (s.putTable d { x.answered rest q (.converted h k) none with
              waitQueue := [], occupancy := insertSlot j x.occupancy, tokenMap := x.tokenMap ++ [(x.tokenCounter, j)]
              tokenCounter := x.tokenCounter + 1
              toNotice := x.toNotice ++ [⟨x.era, .post (recordOf s.pool j).owner ⟨j, genOf s.pool j⟩ .newFront
                ⟨.granted, (recordOf s.pool j).cookie, some x.tokenCounter⟩ (look x.reclaimed (recordOf s.pool j).owner)⟩] } p) ∧
            poolGet p h.slot = down ∧
            poolGet p j = { poolGet s.pool j with record := { recordOf s.pool j with
              state := .held, waitDeadline := none, token := some x.tokenCounter, front := some ⟨.granted, false⟩ } } ∧
            ∀ i, i ≠ h.slot → i ≠ j → poolGet p i = poolGet s.pool i) ∧
    (∀ k, q.body = .convertDown h → r.state = .held → r.mode = .exclusive → r.writes = 0 → r.token = some k →
      recordsClean s.pool x.occupancy = true →
      let unmoved : Prop := ∃ p, exec (.convertDown d) s = .next (s.putTable d (x.answered rest q (.converted h k) none) p) ∧
        poolGet p h.slot = down ∧ onlySlot h.slot s.pool p
      (∀ j, x.waitQueue = [j] → j ≠ h.slot → (poolGet s.pool j).health = .clean → (recordOf s.pool j).state = .converting →
        (recordOf s.pool j).front = none →
        overlap (recordOf s.pool j).first (recordOf s.pool j).count r.first r.count = false →
        noHoldMeets s.pool .exclusive (recordOf s.pool j).first (recordOf s.pool j).count
          (x.occupancy.filter (fun i => i != h.slot && i != j)) = true →
        x.exhausted = false → x.tokenCounter ≠ BitVec.allOnes 40 →
        ∃ p, exec (.convertDown d) s = .next (s.putTable d { x.answered rest q (.converted h k) none with
            waitQueue := [], tokenMap := dropToken (recordOf s.pool j).token x.tokenMap ++ [(x.tokenCounter, j)]
            tokenCounter := x.tokenCounter + 1
            toNotice := x.toNotice ++ [⟨x.era, .post (recordOf s.pool j).owner ⟨j, genOf s.pool j⟩ .newFront
              ⟨.upgraded, (recordOf s.pool j).cookie, some x.tokenCounter⟩ (look x.reclaimed (recordOf s.pool j).owner)⟩] } p) ∧
          poolGet p h.slot = down ∧
          poolGet p j = { poolGet s.pool j with record := { recordOf s.pool j with
            state := .held, mode := .exclusive, waitDeadline := none, token := some x.tokenCounter
            front := some ⟨.upgraded, false⟩ } } ∧
          ∀ i, i ≠ h.slot → i ≠ j → poolGet p i = poolGet s.pool i) ∧
      (∀ i j, x.waitQueue = [i, j] → i ≠ h.slot → j ≠ h.slot → recordsClean s.pool [i, j] = true → h.slot ∈ x.occupancy →
        (recordOf s.pool i).state = .waiting → (recordOf s.pool i).mode = .exclusive →
        overlap (recordOf s.pool i).first (recordOf s.pool i).count r.first r.count = true →
        (recordOf s.pool j).state = .waiting ∨ (recordOf s.pool j).state = .converting →
        overlap (recordOf s.pool j).first (recordOf s.pool j).count (recordOf s.pool i).first (recordOf s.pool i).count = true →
        unmoved) ∧
      ∀ (j : SlotId) (js : List SlotId), x.waitQueue = j :: js → j ≠ h.slot → (poolGet s.pool j).health = .clean →
        (recordOf s.pool j).state = .waiting → (recordOf s.pool j).mode = .shared →
        noHoldMeets s.pool .shared (recordOf s.pool j).first (recordOf s.pool j).count
          (x.occupancy.filter (fun i => i != h.slot && i != j)) = true →
        x.exhausted = true → unmoved) ∧
    (q.body = .query h → exec (.query d) s = .next (s.setDomain d (x.answered rest q (.status ⟨h, r.state, r.mode, r.token,
      r.reads, r.writes, if r.state = .waiting ∨ r.state = .converting then positionIn h.slot x.waitQueue else 0, r.first, r.count,
      r.waitCode, r.cookie⟩) none)))

/-! ## Other events of a domain -/

/-- The timers of a record, in a domain that serves and whose wait queue holds no other record. WAIT_EXPIRY at or after the wait
deadline: a WAITING record becomes ENDED without a token, with −1 and WAIT_EXPIRED; a CONVERTING one returns to HELD SHARED with
its token and counts, with UPGRADE_EXPIRED and no live report. DRAIN_OVERRUN at or after the drain deadline: both counts are 0,
DRAIN_OVERRUN is reported, the record retires, which may close the domain (R6), or is ENDED where a notice is pending. Where the
record is uncorrectable the domain is QUARANTINED and nothing else happens (R7, R168; logs 14, 32). Before its deadline neither
happens, nor ever in a domain that is QUARANTINED, SCRUBBING or DISABLED (01 1.3, 02 2.3, 2.6, 03 3.4, 09 9.2; of R7, R39, R49, R50,
R68, R69). A
deadline has come exactly when the time count stands at it or after it, by less than 2^31 ms modulo 2^32 (00 "Timers", 02 2.3).
-/
def Obligations.TimersOfRecords : Prop :=
  (∀ (s : State) (d : DomainId) (i : SlotId), ownerOf s i = some d →
    let x := s.domain d
    let r := recordOf s.pool i
    let g := genOf s.pool i
    (dueAt s.time r.waitDeadline = false ∨ x.serves = false → exec (.waitExpiry i) s = .next s) ∧
    (dueAt s.time r.drainDeadline = false ∨ x.serves = false → exec (.drainOverrun i) s = .next s) ∧
    (x.serves = true → (poolGet s.pool i).health = .manyBits →
      (dueAt s.time r.waitDeadline = true →
        exec (.waitExpiry i) s = .next (s.setDomain d (x.quarantinedBy d i s.time))) ∧
      (dueAt s.time r.drainDeadline = true →
        exec (.drainOverrun i) s = .next (s.setDomain d (x.quarantinedBy d i s.time)))) ∧
    (x.serves = true → (poolGet s.pool i).readsClean = true → (poolGet s.pool i).directory.free = false →
      Pool.wf s.pool = true → dropSlot i x.waitQueue = [] →
      (dueAt s.time r.waitDeadline = true → r.front = none →
        (r.state = .waiting → ∃ p, exec (.waitExpiry i) s = .next (s.putTable d { x with
              waitQueue := [], live := put x.live r.owner (look x.live r.owner - 1)
              toSession := x.toSession ++ [.live r.owner .down x.era]
              toNotice := x.toNotice ++ [⟨x.era, .post r.owner ⟨i, g⟩ .newFront ⟨.waitExpired, r.cookie, none⟩
                (look x.reclaimed r.owner)⟩] } p) ∧
            onlySlot i s.pool p ∧ poolGet p i = { poolGet s.pool i with record := { r with
              state := .ended, waitDeadline := none, token := none, front := some ⟨.waitExpired, false⟩ } }) ∧
        (r.state = .converting → ∃ p, exec (.waitExpiry i) s = .next (s.putTable d { x with
              waitQueue := []
              toNotice := x.toNotice ++ [⟨x.era, .post r.owner ⟨i, g⟩ .newFront ⟨.upgradeExpired, r.cookie, none⟩
                (look x.reclaimed r.owner)⟩] } p) ∧
            onlySlot i s.pool p ∧ poolGet p i = { poolGet s.pool i with record := { r with
              state := .held, mode := .shared, waitDeadline := none, front := some ⟨.upgradeExpired, false⟩ } })) ∧
      (dueAt s.time r.drainDeadline = true → r.state = .draining →
        let overrun : List Report := x.reports ++ [⟨.drainOverrun, some d, some r.owner, some i, none, s.time⟩]
        (r.front = none → ∃ p, exec (.drainOverrun i) s = .next (s.withTable d ⟨{ x with
              reports := overrun, occupancy := dropSlot i x.occupancy, waitQueue := []
              tokenMap := x.tokenMap.filter (fun e => e.2 != i), freeList := x.freeList ++ [i] }.closedOut, p⟩) ∧
            onlySlot i s.pool p ∧ poolGet p i = retired g) ∧
        (r.front ≠ none → x.waitQueue = [] → ∃ p, exec (.drainOverrun i) s = .next (s.withTable d ⟨{ x with
              reports := overrun, occupancy := dropSlot i x.occupancy }.closedOut, p⟩) ∧
            onlySlot i s.pool p ∧ poolGet p i = { poolGet s.pool i with record := { r with
              state := .ended, reads := 0, writes := 0, drainDeadline := none } })))) ∧
  (∀ (deadline : Time) (k : Nat), k < 2 ^ 31 → dueAt (deadline + BitVec.ofNat 32 k) (some deadline) = true) ∧
  (∀ (now : Time) (k : Nat), 0 < k → k ≤ 2 ^ 31 → dueAt now (some (now + BitVec.ofNat 32 k)) = false) ∧
  ∀ now : Time, dueAt now none = false

/-- DONE at its domain, over a slot that reads clean. In a domain that does not own the bank, or is QUARANTINED or SCRUBBING, it
is discarded. It is stray, with STRAY_DONE, where the slot is FREE, of another generation, or the count of its kind is 0.
Otherwise the count falls by 1, and where the record is DRAINING with both counts then 0 it leaves DRAINING: with no notice
pending its slot retires, which may close the domain (R6), with one it is ENDED (01 1.2, 03 3.4, 06 6.4; of R2, R68, R127). Where
the record is uncorrectable the domain is QUARANTINED and nothing else happens (01 1.3, 09 9.2; of R7, R167; logs 14, 32). -/
def Obligations.DoneFreesAnAccess : Prop :=
  ∀ (s : State) (d : DomainId) (k : Ticket) (rest : List Ticket), (s.domain d).dones = k :: rest →
    let x := { s.domain d with dones := rest }
    let i := k.handle.slot
    let r := recordOf s.pool i
    let stray := s.setDomain d { x with reports := x.reports ++ [⟨.strayDone, some d, none, some i, some k.kind, s.time⟩] }
    (x.owns i = false ∨ x.state = .quarantined ∨ x.state = .scrubbing → exec (.done d) s = .next (s.setDomain d x)) ∧
    (x.owns i = true → x.serves = true → (poolGet s.pool i).agrees = true → (poolGet s.pool i).directory.free = false →
      (poolGet s.pool i).health = .manyBits → exec (.done d) s = .next (s.setDomain d (x.quarantinedBy d i s.time))) ∧
    (x.owns i = true → x.state = .enabled ∨ x.state = .closing → (poolGet s.pool i).readsClean = true → Pool.wf s.pool = true →
      ((poolGet s.pool i).directory.free = true ∨ genOf s.pool i ≠ k.handle.gen ∨ inFlight r k.kind = 0 →
        exec (.done d) s = .next stray) ∧
      ((poolGet s.pool i).directory.free = false → genOf s.pool i = k.handle.gen → 0 < inFlight r k.kind →
        (¬ (r.state = .draining ∧ r.reads + r.writes = 1) → ∃ p, exec (.done d) s = .next (s.putTable d x p) ∧
          onlySlot i s.pool p ∧ poolGet p i = { poolGet s.pool i with
            record := withInFlight r k.kind (inFlight r k.kind - 1) }) ∧
        (r.state = .draining → r.reads + r.writes = 1 →
          (r.front = none → dropSlot i x.waitQueue = [] →
            ∃ p, exec (.done d) s = .next (s.withTable d ⟨{ x with
                occupancy := dropSlot i x.occupancy, waitQueue := []
                tokenMap := x.tokenMap.filter (fun e => e.2 != i), freeList := x.freeList ++ [i] }.closedOut, p⟩) ∧
              onlySlot i s.pool p ∧ poolGet p i = retired k.handle.gen) ∧
          (r.front ≠ none → x.waitQueue = [] →
            ∃ p, exec (.done d) s = .next (s.withTable d ⟨{ x with occupancy := dropSlot i x.occupancy }.closedOut, p⟩) ∧
              onlySlot i s.pool p ∧ poolGet p i = { poolGet s.pool i with record := { withInFlight r k.kind 0 with
                state := .ended, drainDeadline := none } }))))

/-- A reclaim is ignored in DISABLED, QUARANTINED and SCRUBBING but for its place in the order, its number being noted (log
11). In a domain that serves, whose slots all read clean and hold a record with a state wherever they are not FREE, it leaves
of the agent's records only ones DRAINING without notices; the records of other agents keep owner, range and generation (01
1.3, 03 3.6; of R8, R72). That a slot is FREE exactly when it holds no record with a state is in `EveryStepKeepsDomainsApart`.
What the visits leave, where the records of the agent read clean and stand in the domain's collections as R18 says: WAITING and
ENDED records, and HELD and CONVERTING ones without accesses in flight, retire in rising slot order; the other HELD and CONVERTING
ones are DRAINING with a drain deadline, CONVERTING as SHARED; those already DRAINING keep deadline and counts; notices are cleared,
with a CLEAR for each record that had one or is ENDED; each live record gives a −1 report, in visiting order. A single grant pass
follows, and the close completion (of R72, R73, R104). The agent's records are found by the owner as written (log 39). Where the
first of them is uncorrectable the domain is QUARANTINED and the records stay as they are (of R7, R73; logs 14, 32). -/
def Obligations.ReclaimTakesEveryRecord : Prop :=
  (∀ (s : State) (d : DomainId) (a : AgentId) (k : Nat) (rest : List SessionItem),
    (s.domain d).fromSession = .reclaim a k :: rest →
    (((s.domain d).serves = false → exec (.reclaim d) s = .next (s.setDomain d { s.domain d with
      fromSession := rest, reclaimed := put (s.domain d).reclaimed a k })) ∧
    ((s.domain d).serves = true → Pool.wf s.pool = true → (∀ i, (poolGet s.pool i).readsClean = true) →
      (∀ i, (poolGet s.pool i).directory.free = false → (recordOf s.pool i).state ≠ .free) →
      ∃ t, exec (.reclaim d) s = .next t ∧ (t.domain d).fromSession = rest ∧ look (t.domain d).reclaimed a = k ∧
        (∀ i, inBanks (s.domain d).banks i = true → (poolGet t.pool i).directory.free = false → (recordOf t.pool i).owner = a →
          (recordOf t.pool i).state = .draining ∧ (recordOf t.pool i).front = none) ∧
        ∀ i, (recordOf s.pool i).owner ≠ a → (poolGet s.pool i).directory.free = false →
          (poolGet t.pool i).directory = (poolGet s.pool i).directory ∧
          (recordOf t.pool i).owner = (recordOf s.pool i).owner ∧ (recordOf t.pool i).first = (recordOf s.pool i).first ∧
          (recordOf t.pool i).count = (recordOf s.pool i).count))) ∧
  ∀ (s : State) (d : DomainId) (a : AgentId) (k : Nat) (rest : List SessionItem) (slots : List SlotId),
    (s.domain d).fromSession = .reclaim a k :: rest → (s.domain d).serves = true → slots.Pairwise (· < ·) →
    (∀ i, i ∈ slots ↔ inBanks (s.domain d).banks i = true ∧ (poolGet s.pool i).directory.free = false ∧
      (recordOf s.pool i).owner = a) → Pool.wf s.pool = true →
    let x : Domain := { s.domain d with fromSession := rest, reclaimed := put (s.domain d).reclaimed a k }
    let r (i : SlotId) : Record := recordOf s.pool i
    let lives (i : SlotId) : Bool := (r i).state == .waiting || (r i).state == .held || (r i).state == .converting
    let gone (i : SlotId) : Bool := (r i).state == .waiting || (r i).state == .ended ||
      (((r i).state == .held || (r i).state == .converting) && (r i).reads == 0 && (r i).writes == 0)
    let clears (i : SlotId) : Bool :=
      (r i).state != .waiting && ((r i).front.isSome || (r i).followUp.isSome || (r i).state == .ended)
    (∀ i more, slots = i :: more → (poolGet s.pool i).health = .manyBits →
      exec (.reclaim d) s = .next (s.setDomain d (x.quarantinedBy d i s.time))) ∧
    ((∀ i ∈ slots, (poolGet s.pool i).readsClean = true ∧ (r i).state ≠ .free ∧ x.placesRecord i (r i)) →
      (∀ t i j, (t, i) ∈ x.tokenMap → (t, j) ∈ x.tokenMap → i = j) →
      ∃ p : Pool,
        (∀ i, poolGet p i =
          if i ∈ slots then
            if gone i then retired (genOf s.pool i)
            else { poolGet s.pool i with record := { r i with
              state := .draining, mode := if (r i).state = .converting then .shared else (r i).mode, waitDeadline := none
              drainDeadline := if (r i).state = .draining then (r i).drainDeadline
                else some (s.time + x.drainLimit.setWidth 32 * 10)
              front := none, followUp := none } }
          else poolGet s.pool i) ∧
        let visited : Domain := { x with
          waitQueue := x.waitQueue.filter (fun i => !slots.contains i)
          occupancy := x.occupancy.filter (fun i => !(slots.contains i && gone i))
          tokenMap := x.tokenMap.filter (fun e => !slots.contains e.2)
          freeList := x.freeList ++ slots.filter gone
          live := put x.live a (look x.live a - (slots.filter lives).length)
          toSession := x.toSession ++ (slots.filter lives).map (fun _ => .live a .down x.era)
          toNotice := x.toNotice ++ (slots.filter clears).map (fun i => ⟨x.era, .clear a ⟨i, genOf s.pool i⟩⟩) }
        exec (.reclaim d) s = .next (s.withTable d (match grantPass (envOf s d) ⟨visited, p⟩ with
          | .ok _ t => ⟨t.dom.closedOut, t.pool⟩
          | .lost t => t)))

/-- What a domain makes of the notice unit's items, over a slot that reads clean. A claim of a current record whose front
notice is unsent is granted and marks it sent; an acknowledgement of a sent front clears it, promoting a follow-up as unsent,
and retires an ENDED record with no notice left; a reversion makes a sent front unsent. In every other case the claim is
declined, the acknowledgement not taken, a front already unsent left so, the record unchanged (03 3.5, 05 5.5, 5.6, 5.7; of
R71, R107, R110, R114). The retirement may close the domain (R6). Where the record is uncorrectable the domain is QUARANTINED, the
claim declined or the acknowledgement not taken behind the loss message (09 9.2, of R7, R168; logs 14, 32). An item that resolved to
no domain is declined or not taken (log 12). -/
def Obligations.ClaimsAcknowledgementsAndReversions : Prop :=
  (∀ (s : State) (d : DomainId) (a : AgentId) (h : Handle) (rest : List NoticeAsk),
    let x := { s.domain d with fromNotice := rest }
    let p := poolGet s.pool h.slot
    let r := p.record
    let said (b : NoticeBody) : Domain := { x with toNotice := x.toNotice ++ [⟨x.era, b⟩] }
    let wrote (y : Domain) (r' : Record) (t : Host.Outcome State Fault Refusal) : Prop :=
      ∃ q, t = .next (s.putTable d y q) ∧ onlySlot h.slot s.pool q ∧ poolGet q h.slot = { p with record := r' }
    let stale := x.owns h.slot = false ∨ x.serves = false ∨
      x.owns h.slot = true ∧ x.serves = true ∧ p.readsClean = true ∧ (p.directory.free = true ∨ p.directory.gen ≠ h.gen)
    let unreadable := x.owns h.slot = true ∧ x.serves = true ∧ p.agrees = true ∧ p.directory.free = false ∧ p.health = .manyBits
    let lost := x.quarantinedBy d h.slot s.time
    let lostAnd (b : NoticeBody) : State := s.setDomain d { lost with toNotice := lost.toNotice ++ [⟨x.era, b⟩] }
    Pool.wf s.pool = true →
    ((s.domain d).fromNotice = .claim a h :: rest →
      (∀ f, current x s.pool h → r.front = some ⟨f, false⟩ →
        wrote (said (.answer a h true)) { r with front := some ⟨f, true⟩ } (exec (.claim (some d)) s)) ∧
      (stale ∨ current x s.pool h ∧ (∀ f, r.front ≠ some ⟨f, false⟩) →
        exec (.claim (some d)) s = .next (s.setDomain d (said (.answer a h false)))) ∧
      (unreadable → exec (.claim (some d)) s = .next (lostAnd (.answer a h false)))) ∧
    ((s.domain d).fromNotice = .acknowledge a h :: rest →
      (∀ f k, current x s.pool h → r.front = some ⟨f, true⟩ → r.followUp = some k →
        wrote (said (.outcome a h .promoted)) { r with front := some ⟨k, false⟩, followUp := none }
          (exec (.presentedAcknowledgement (some d)) s)) ∧
      (∀ f, current x s.pool h → r.front = some ⟨f, true⟩ → r.followUp = none → r.state ≠ .ended →
        wrote (said (.outcome a h .removed)) { r with front := none } (exec (.presentedAcknowledgement (some d)) s)) ∧
      (∀ f, current x s.pool h → r.front = some ⟨f, true⟩ → r.followUp = none → r.state = .ended →
        ∃ q, exec (.presentedAcknowledgement (some d)) s = .next (s.withTable d ⟨{ said (.outcome a h .removed) with
            waitQueue := dropSlot h.slot x.waitQueue, occupancy := dropSlot h.slot x.occupancy
            tokenMap := x.tokenMap.filter (fun e => e.2 != h.slot), freeList := x.freeList ++ [h.slot] }.closedOut, q⟩) ∧
          onlySlot h.slot s.pool q ∧ poolGet q h.slot = retired h.gen) ∧
      (stale ∨ current x s.pool h ∧ (∀ f, r.front ≠ some ⟨f, true⟩) →
        exec (.presentedAcknowledgement (some d)) s = .next (s.setDomain d (said (.outcome a h .notTaken)))) ∧
      (unreadable → exec (.presentedAcknowledgement (some d)) s = .next (lostAnd (.outcome a h .notTaken)))) ∧
    ((s.domain d).fromNotice = .revert h :: rest →
      (∀ f, current x s.pool h → r.front = some ⟨f, true⟩ →
        wrote x { r with front := some ⟨f, false⟩ } (exec (.reversion (some d)) s)) ∧
      (stale ∨ current x s.pool h ∧ (∀ f, r.front ≠ some ⟨f, true⟩) →
        exec (.reversion (some d)) s = .next (s.setDomain d x)) ∧
      (unreadable → exec (.reversion (some d)) s = .next (s.setDomain d lost)))) ∧
  ∀ (s : State) (a : AgentId) (h : Handle) (rest : List NoticeAsk),
    (s.noDomain.asks = .claim a h :: rest → exec (.claim none) s = .next { s with noDomain := { s.noDomain with
      asks := rest, toNotice := s.noDomain.toNotice ++ [⟨s.notice.era, .answer a h false⟩] } }) ∧
    (s.noDomain.asks = .acknowledge a h :: rest → exec (.presentedAcknowledgement none) s = .next { s with noDomain :=
      { s.noDomain with asks := rest, toNotice := s.noDomain.toNotice ++ [⟨s.notice.era, .outcome a h .notTaken⟩] } }) ∧
    (s.noDomain.asks = .revert h :: rest → exec (.reversion none) s = .next { s with noDomain :=
      { s.noDomain with asks := rest } })

/-- The decision of a CHECK by the domain that holds its first page, in the order of the rules, over a record that reads clean:
the range, the domain's state, the absent token by policy, session state, epoch, token map, owner, mode, cover, count; an
admission raises the record's count of the kind by 1 and carries the record's handle, its generation taken without a repair or a
report of directory copies that differ (the model's choice, log 36). One that resolved to no domain is G_NO_DOMAIN (06 6.3; of R119
to R124). -/
def Obligations.CheckDecision : Prop :=
  (∀ (s : State) (d : DomainId) (p : PresentedCheck) (rest : List PresentedCheck), (s.domain d).checks = p :: rest →
    let x := { s.domain d with checks := rest }
    let c := p.check
    let verdict (v : Verdict) : Domain := { x with verdicts := x.verdicts ++ [(p.place, v)] }
    let decided (v : Verdict) : Prop := exec (.check (some d)) s = .next (s.setDomain d (verdict v))
    let inside := x.holds c.first = true ∧ c.first.toNat + c.extra.toNat ≤ x.limit.toNat
    (¬ inside → decided (.refused .noDomain)) ∧
    (inside → x.state = .quarantined ∨ x.state = .scrubbing → decided (.refused .domainUnavailable)) ∧
    (inside → x.state = .enabled ∨ x.state = .closing →
      (c.token = 0 → c.kind = .read → x.policy = .writeGuarded → decided .admitUntracked) ∧
      (c.token = 0 → c.kind = .write ∨ x.policy = .guarded → decided (.refused .token)) ∧
      (c.token ≠ 0 → p.state ≠ .online → decided (.refused .agent)) ∧
      (c.token ≠ 0 → p.state = .online → c.epoch ≠ p.epoch → decided (.refused .epoch)) ∧
      (c.token ≠ 0 → p.state = .online → c.epoch = p.epoch →
        ((∀ e ∈ x.tokenMap, e.1 ≠ c.token) → decided (.refused .token)) ∧
        ∀ (pre post : List (Token × SlotId)) (i : SlotId), x.tokenMap = pre ++ (c.token, i) :: post →
          (∀ e ∈ pre, e.1 ≠ c.token) →
          let r := recordOf s.pool i
          let covers := r.first.toNat ≤ c.first.toNat ∧ c.first.toNat + c.extra.toNat ≤ lastPage r.first r.count
          ((poolGet s.pool i).health = .manyBits → ∃ t, exec (.check (some d)) s = .next t ∧
            (t.domain d).state = .quarantined ∧ t.pool = s.pool ∧
            (t.domain d).verdicts = x.verdicts ++ [(p.place, .refused .domainUnavailable)]) ∧
          ((poolGet s.pool i).health = .clean →
            (r.owner ≠ c.agent → decided (.refused .owner)) ∧
            (r.owner = c.agent → c.kind = .write → r.mode = .shared → decided (.refused .mode)) ∧
            (r.owner = c.agent → c.kind = .read ∨ r.mode = .exclusive →
              (¬ covers → decided (.refused .cover)) ∧
              (covers → 63 ≤ inFlight r c.kind → decided (.refused .countFull)) ∧
              (covers → inFlight r c.kind < 63 → Pool.wf s.pool = true →
                ∃ q, exec (.check (some d)) s = .next (s.putTable d (verdict (.admitted ⟨c.kind, ⟨i, genOf s.pool i⟩⟩)) q) ∧
                  onlySlot i s.pool q ∧ poolGet q i = { poolGet s.pool i with
                    record := withInFlight r c.kind (inFlight r c.kind + 1) })))))) ∧
  ∀ (s : State) (p : PresentedCheck) (rest : List PresentedCheck), s.noDomain.checks = p :: rest →
    exec (.check none) s = .next { s with noDomain := { s.noDomain with
      checks := rest, verdicts := s.noDomain.verdicts ++ [(p.place, .refused .noDomain)] } }

/-! ## The notice unit -/

/-- Delivery begins for an agent whose marker is READY: the whole session notice set first, in a SESSION_NOTICE that takes the
place of a notice not yet framed; else a claim for the first entry that is not frozen, presented to the domain that owns its
bank, or to the lock table where none does (log 12); where nothing is eligible, or the marker is not READY, nothing happens (05
5.5, 07 7.7; of R106, R147). Here and below a link that has taken a warm restart discards the notices that reach it before the
notice unit takes it (07 7.8, of R150, R179; log 10). -/
def Obligations.DeliveryBegins : Prop :=
  ∀ (s : State) (n : AgentId),
    let a := s.noticeAgent n
    (a.marker ≠ .ready → beginDelivery s n = s) ∧
    (a.marker = .ready → a.conditions ≠ .none → beginDelivery s n =
      (s.setNotice n { a with marker := .sessionSent a.conditions }).setLink n { s.link n with
        notice := s.noticeWith n (.session a.conditions) }) ∧
    (a.marker = .ready → a.conditions = .none →
      ((∀ e ∈ a.queue, e.frozen = true) → beginDelivery s n = s) ∧
      ∀ (pre post : List Entry) (e : Entry), a.queue = pre ++ e :: post → (∀ y ∈ pre, y.frozen = true) → e.frozen = false →
        let u := s.setNotice n { a with marker := .claiming e.handle }
        (∀ d, ownerOf s e.handle.slot = some d → beginDelivery s n = u.setDomain d { s.domain d with
          fromNotice := (s.domain d).fromNotice ++ [.claim n e.handle] }) ∧
        (ownerOf s e.handle.slot = none → beginDelivery s n = { u with noDomain := { s.noDomain with
          asks := s.noDomain.asks ++ [.claim n e.handle] } }))

/-- NOTICE_POST of a post made since the last warm restart. It waits for the reclaims of the owner that its domain had taken
before it; then the owner's state is asked for; an answer other than ONLINE discards it; ONLINE applies it by its placing to the
entry of its handle, or at the tail, and delivery may begin. One made before the restart is discarded (05 5.3, 5.7; of R103,
R112, R115; the two events are log 13). -/
def Obligations.NoticePosts : Prop :=
  ∀ (s : State) (d : DomainId) (era : Nat) (a : AgentId) (h : Handle) (p : Placing) (m : NoticeItem) (k : Nat)
      (rest : List DomainNotice),
    (s.domain d).toNotice = ⟨era, .post a h p m k⟩ :: rest →
    let taken (st : PostRead) : State :=
      { s.setDomain d { s.domain d with toNotice := rest } with notice := { s.notice with reads := put s.notice.reads d st } }
    let applied (q : List Entry) : State :=
      beginDelivery ((taken .idle).setNotice a { s.noticeAgent a with queue := q }) a
    let q := (s.noticeAgent a).queue
    (era < s.notice.era → exec (.noticePost d) s = .next (taken .idle)) ∧
    (s.notice.era ≤ era → (s.noticeAgent a).reclaimed < k → exec (.noticePost d) s = .next s) ∧
    (s.notice.era ≤ era → k ≤ (s.noticeAgent a).reclaimed →
      (look s.notice.reads d = .idle → exec (.noticePost d) s =
        .next { s with notice := { s.notice with reads := put s.notice.reads d (.asked a) } }) ∧
      (∀ b st, look s.notice.reads d = .answered b st → st ≠ .online → exec (.noticePost d) s = .next (taken .idle)) ∧
      (∀ b, look s.notice.reads d = .answered b .online →
        (∀ (pre post : List Entry) (e : Entry), q = pre ++ e :: post → e.handle = h →
          (∀ y ∈ pre, y.handle ≠ h) → (∀ y ∈ post, y.handle ≠ h) →
          (p ≠ .followUp → exec (.noticePost d) s = .next (applied (pre ++ { e with front := m } :: post))) ∧
          (p = .followUp → exec (.noticePost d) s = .next (applied (pre ++ { e with followUp := some m } :: post)))) ∧
        ((∀ y ∈ q, y.handle ≠ h) →
          (p ≠ .followUp → exec (.noticePost d) s = .next (applied (q ++ [⟨h, m, none, false⟩]))) ∧
          (p = .followUp → exec (.noticePost d) s = .next (applied q)))))

/-- The removals, made since the last warm restart: WITHDRAW_FRONT removes the entry with any follow-up; WITHDRAW_FOLLOW_UP
keeps front and position; CLEAR removes the entry and takes it out of delivery, the mark set for a notice already sent;
SCRUB_REMOVE removes it from whichever agent's queue holds it. One that finds no entry changes no queue; that a CLEAR then still
makes a marker that names its handle READY is the model's choice (log 38) (05 5.3; of R104). -/
def Obligations.NoticeRemovals : Prop :=
  ∀ (s : State) (d : DomainId) (era : Nat) (b : NoticeBody) (rest : List DomainNotice),
    (s.domain d).toNotice = ⟨era, b⟩ :: rest → s.notice.era ≤ era →
    let u := s.setDomain d { s.domain d with toNotice := rest }
    (∀ a h, b = .withdrawFront a h → exec (.withdrawFront d) s = .next (u.setNotice a { s.noticeAgent a with
      queue := (s.noticeAgent a).queue.filter (fun e => e.handle != h) })) ∧
    (∀ a h, b = .withdrawFollowUp a h → exec (.withdrawFollowUp d) s = .next (u.setNotice a { s.noticeAgent a with
      queue := (s.noticeAgent a).queue.map (fun e => if e.handle = h then { e with followUp := none } else e) })) ∧
    (∀ a h, b = .clear a h →
      let x : NoticeAgent := { s.noticeAgent a with queue := (s.noticeAgent a).queue.filter (fun e => e.handle != h) }
      (x.marker = .claiming h →
        exec (.clear d) s = .next (beginDelivery (u.setNotice a { x with marker := .ready }) a)) ∧
      (x.marker = .recordSent h ∨ x.marker = .acking h → exec (.clear d) s =
        .next (beginDelivery (u.setNotice a { x with marker := .ready, retracted := some (.handle h) }) a)) ∧
      (x.marker ≠ .claiming h → x.marker ≠ .recordSent h → x.marker ≠ .acking h →
        exec (.clear d) s = .next (u.setNotice a x))) ∧
    (∀ h, b = .scrubRemove h → ∃ t, exec (.scrubRemove d) s = .next t ∧
      (∀ a, t.noticeAgent a = { s.noticeAgent a with
        queue := (s.noticeAgent a).queue.filter (fun e => e.handle != h) }) ∧
      t = { u with notice := { s.notice with agents := t.notice.agents } })

/-- R111 whole, and the posting and emptying of session conditions: a condition joins the set once and leaves a SESSION_NOTICE
in delivery, so that its acknowledgement leaves it pending; a JOIN's emptying retracts a SESSION_NOTICE in delivery; a
SESSION_ACK removes what was sent, is absorbed by the retracted mark, or raises LINK_PROTOCOL (05 5.4; of R105). -/
def Obligations.SessionConditions : Prop :=
  (∀ (s : State) (n : AgentId) (c : Condition) (era : Nat) (rest : List ConditionItem),
    s.notice.conditions = .post n c era :: rest → s.notice.era ≤ era →
    let u := { s with notice := { s.notice with conditions := rest } }
    let a := s.noticeAgent n
    let one : Conditions := Conditions.none.add c
    let both : Conditions :=
      ⟨a.conditions.lapsed || one.lapsed, a.conditions.evicted || one.evicted, a.conditions.lost ||| one.lost⟩
    (∀ y, a.marker = .sessionSent y → exec .sessionConditionPost s = .next (beginDelivery (u.setNotice n { a with
      conditions := both
      marker := .sessionSent ⟨y.lapsed && !one.lapsed, y.evicted && !one.evicted, y.lost &&& ~~~one.lost⟩ }) n)) ∧
    ((∀ y, a.marker ≠ .sessionSent y) → exec .sessionConditionPost s =
      .next (beginDelivery (u.setNotice n { a with conditions := both }) n))) ∧
  (∀ (s : State) (n : AgentId) (era : Nat) (rest : List ConditionItem),
    s.notice.conditions = .empty n era :: rest → s.notice.era ≤ era →
    let u := { s with notice := { s.notice with conditions := rest } }
    let a := s.noticeAgent n
    (∀ y, a.marker = .sessionSent y → exec .sessionSetEmpty s = .next (beginDelivery (u.setNotice n { a with
      conditions := .none, marker := .ready, retracted := some .session }) n)) ∧
    ((∀ y, a.marker ≠ .sessionSent y) → exec .sessionSetEmpty s =
      .next (beginDelivery (u.setNotice n { a with conditions := .none }) n))) ∧
  ∀ (s : State) (n : AgentId) (era : Nat) (rest : List AckItem),
    (s.noticeAgent n).acks = .session era :: rest → s.notice.era ≤ era →
    let a : NoticeAgent := { s.noticeAgent n with acks := rest }
    (∀ y, a.marker = .sessionSent y → exec (.sessionAck n) s = .next (beginDelivery (s.setNotice n { a with
      marker := .ready
      conditions := ⟨a.conditions.lapsed && !y.lapsed, a.conditions.evicted && !y.evicted,
        a.conditions.lost &&& ~~~y.lost⟩ }) n)) ∧
    ((∀ y, a.marker ≠ .sessionSent y) → a.retracted = some .session → exec (.sessionAck n) s =
      .next (s.setNotice n { a with retracted := none })) ∧
    ((∀ y, a.marker ≠ .sessionSent y) → a.retracted ≠ some .session → exec (.sessionAck n) s =
      .next (reportNotice (s.setNotice n a) .linkProtocol n))

/-- What the notice unit makes of a claim's answer, an acknowledgement's outcome and a NOTICE_ACK. A granted claim the marker
still names hands the link the entry's front, or, where the post of that front was discarded and no entry stands, begins
delivery again (log 25); a declined one begins delivery again; any other answer is discarded. PROMOTED moves the entry to the
tail with its follow-up as front, and keeps an entry without one (log 35); REMOVED drops it, NOT_TAKEN keeps it. A NOTICE_ACK
of the notice sent is presented to the record's domain, one the mark names is absorbed, any other raises LINK_PROTOCOL (05 5.5,
5.6; of R106, R107, R109, R110). -/
def Obligations.AnswersOutcomesAndAcknowledgements : Prop :=
  (∀ (s : State) (d : DomainId) (era : Nat) (n : AgentId) (h : Handle) (granted : Bool) (rest : List DomainNotice),
    (s.domain d).toNotice = ⟨era, .answer n h granted⟩ :: rest → s.notice.era ≤ era →
    let u := s.setDomain d { s.domain d with toNotice := rest }
    let a := s.noticeAgent n
    (a.marker ≠ .claiming h → exec (.claimAnswer (some d)) s = .next u) ∧
    (a.marker = .claiming h → granted = false →
      exec (.claimAnswer (some d)) s = .next (beginDelivery (u.setNotice n { a with marker := .ready }) n)) ∧
    (a.marker = .claiming h → granted = true → (∀ e ∈ a.queue, e.handle ≠ h) →
      exec (.claimAnswer (some d)) s = .next (beginDelivery (u.setNotice n { a with marker := .ready }) n)) ∧
    (∀ (pre post : List Entry) (e : Entry), a.marker = .claiming h → granted = true → a.queue = pre ++ e :: post →
      e.handle = h → (∀ y ∈ pre, y.handle ≠ h) →
      exec (.claimAnswer (some d)) s = .next ((u.setNotice n { a with marker := .recordSent h }).setLink n { s.link n with
        notice := s.noticeWith n (.record h e.front) }))) ∧
  (∀ (s : State) (d : DomainId) (era : Nat) (n : AgentId) (h : Handle) (o : AckOutcome) (rest : List DomainNotice)
      (pre post : List Entry) (e : Entry),
    (s.domain d).toNotice = ⟨era, .outcome n h o⟩ :: rest → s.notice.era ≤ era → (s.noticeAgent n).marker = .acking h →
    (s.noticeAgent n).queue = pre ++ e :: post → e.handle = h → (∀ y ∈ pre, y.handle ≠ h) → (∀ y ∈ post, y.handle ≠ h) →
    let after (q : List Entry) : State := beginDelivery ((s.setDomain d { s.domain d with toNotice := rest }).setNotice n
      { s.noticeAgent n with queue := q, marker := .ready }) n
    (∀ m, o = .promoted → e.followUp = some m → exec (.acknowledgementOutcome (some d)) s =
      .next (after (pre ++ post ++ [{ e with front := m, followUp := none }]))) ∧
    (o = .promoted → e.followUp = none → exec (.acknowledgementOutcome (some d)) s = .next (after (pre ++ e :: post))) ∧
    (o = .removed → exec (.acknowledgementOutcome (some d)) s = .next (after (pre ++ post))) ∧
    (o = .notTaken → exec (.acknowledgementOutcome (some d)) s = .next (after (pre ++ e :: post)))) ∧
  ∀ (s : State) (n : AgentId) (h : Handle) (era : Nat) (rest : List AckItem),
    (s.noticeAgent n).acks = .notice h era :: rest → s.notice.era ≤ era →
    let a : NoticeAgent := { s.noticeAgent n with acks := rest }
    (∀ d, a.marker = .recordSent h → ownerOf s h.slot = some d → exec (.noticeAck n) s =
      .next ((s.setNotice n { a with marker := .acking h }).setDomain d { s.domain d with
        fromNotice := (s.domain d).fromNotice ++ [.acknowledge n h] })) ∧
    (a.marker = .acking h → a.retracted = some (.handle h) → exec (.noticeAck n) s = .next (s.setNotice n a)) ∧
    (a.marker ≠ .recordSent h → a.marker ≠ .acking h → a.retracted = some (.handle h) → exec (.noticeAck n) s =
      .next (s.setNotice n { a with retracted := none })) ∧
    (a.marker ≠ .recordSent h → a.retracted ≠ some (.handle h) → exec (.noticeAck n) s =
      .next (reportNotice (s.setNotice n a) .linkProtocol n))

/-- A reclaim empties the agent's queue and retracts a record notice in delivery, keeping the session conditions, and lets the
agent's state be read again for each post that waits with an answer or for one (R89, log 13); a domain's
loss freezes the entries of its banks, keeping their order, and takes a notice of them out of delivery: a marker that claims one is
READY, one that names a notice sent is READY with the retracted mark set to the handle; where several agents are concerned their
deliveries begin in rising agent number (log 32); a link reset takes back a notice sent: a record notice is reverted at its domain,
a session notice's conditions stay pending. Each begins delivery again where it made the marker READY (04 4.4, 05 5.5, 5.7; of R106,
R112, R113, R114). -/
def Obligations.ReclaimLossAndLinkReset : Prop :=
  (∀ (s : State) (n : AgentId) (era : Nat) (rest : List Nat), (s.noticeAgent n).reclaims = era :: rest → s.notice.era ≤ era →
    let a : NoticeAgent := { s.noticeAgent n with
      reclaims := rest, reclaimed := (s.noticeAgent n).reclaimed + 1, queue := [] }
    ∃ reads : Vector PostRead 8,
      (∀ d, ((look s.notice.reads d = .asked n ∨ ∃ st, look s.notice.reads d = .answered n st) → look reads d = .idle) ∧
        (look s.notice.reads d ≠ .asked n → (∀ st, look s.notice.reads d ≠ .answered n st) →
          look reads d = look s.notice.reads d)) ∧
      let u : State := { s with notice := { s.notice with reads := reads } }
      (∀ h, a.marker = .recordSent h ∨ a.marker = .acking h → exec (.noticeReclaim n) s = .next (beginDelivery (u.setNotice n
        { a with marker := .ready, retracted := some (.handle h) }) n)) ∧
      (∀ h, a.marker = .claiming h → exec (.noticeReclaim n) s =
        .next (beginDelivery (u.setNotice n { a with marker := .ready }) n)) ∧
      (∀ y, a.marker = .ready ∨ a.marker = .sessionSent y → exec (.noticeReclaim n) s =
        .next (beginDelivery (u.setNotice n a) n))) ∧
  (∀ (s : State) (d : DomainId) (era : Nat) (banks : BitVec 16) (rest : List DomainNotice) (hit : List AgentId),
    (s.domain d).toNotice = ⟨era, .loss banks⟩ :: rest → s.notice.era ≤ era → hit.Pairwise (· < ·) →
    (∀ n, n ∈ hit ↔ ∃ h, ((s.noticeAgent n).marker = .claiming h ∨ (s.noticeAgent n).marker = .recordSent h ∨
      (s.noticeAgent n).marker = .acking h) ∧ inBanks banks h.slot = true) →
    ∃ u : State,
      u = { s.setDomain d { s.domain d with toNotice := rest } with notice := { s.notice with agents := u.notice.agents } } ∧
      (∀ n, n ∉ hit → u.noticeAgent n = { s.noticeAgent n with queue := (s.noticeAgent n).queue.map (fun e =>
        { e with frozen := e.frozen || inBanks banks e.handle.slot }) }) ∧
      (∀ n, n ∈ hit → u.noticeAgent n = { s.noticeAgent n with
        queue := (s.noticeAgent n).queue.map (fun e => { e with frozen := e.frozen || inBanks banks e.handle.slot })
        marker := .ready
        retracted := match (s.noticeAgent n).marker with
          | .recordSent h | .acking h => some (.handle h)
          | _ => (s.noticeAgent n).retracted }) ∧
      exec (.domainLoss d) s = .next (hit.foldl beginDelivery u) ∧
      ∀ t, exec (.domainLoss d) s = .next t →
        (∀ n, n ∈ hit → t.noticeAgent n = (beginDelivery u n).noticeAgent n) ∧
        ∀ n, n ∉ hit → t.noticeAgent n = u.noticeAgent n) ∧
  ∀ (s : State) (n : AgentId), 0 < (s.link n).noticeResets →
    let u := s.setLink n { s.link n with noticeResets := (s.link n).noticeResets - 1 }
    let a := s.noticeAgent n
    (∀ h d, a.marker = .recordSent h → ownerOf s h.slot = some d → exec (.noticeLinkReset n) s = .next (beginDelivery
      ((u.setNotice n { a with marker := .ready, retracted := some (.handle h) }).setDomain d { s.domain d with
        fromNotice := (s.domain d).fromNotice ++ [.revert h] }) n)) ∧
    (∀ y, a.marker = .sessionSent y → exec (.noticeLinkReset n) s = .next (beginDelivery
      (u.setNotice n { a with marker := .ready, retracted := some .session }) n)) ∧
    ((∀ h, a.marker ≠ .recordSent h) → (∀ y, a.marker ≠ .sessionSent y) → exec (.noticeLinkReset n) s = .next u)

/-! ## The gate unit -/

/-- A message presented on GD_IN with no message waiting is accepted while its queue holds fewer than 16, and waits on the port
otherwise; one of either kind presented behind a message that waits for a place waits with it; GD_IN_READY is asserted for a
message presented exactly while its queue has a place. A word whose type is neither CHECK nor DONE is taken and
discarded (06 6.1, 08 8.9; of R116, R163). The way of a CHECK and of a DONE through the gate unit, with nothing waiting on the
port. CHECK_TAKE moves the head CHECK into a place of the verdict queue, G_NOT_READY at once in SETUP, undecided in ACTIVE with
the agent's state asked for; CHECK_PRESENT hands it with the answer to the domain that holds its first page, or to the lock
table without one; VERDICT_PLACE puts the verdict in its place, where that is still undecided; VERDICT_ACCEPT lets the head
place leave, where its verdict is present, and nothing otherwise. DONE_DISPATCH discards the null ticket and a ticket of a bank
no domain owns, and hands any other to the owner of its bank (01 1.2, 06 6.2, 6.3, 6.4, 6.5; of R2, R117, R118, R119, R126,
R131). -/
def Obligations.TheWayThroughTheGate : Prop :=
  (∀ s : State,
    (∀ c : Check,
      (s.gate.port = [] → s.gate.checkQueue.length < 16 → exec (.checkAccept c) s =
        .next { s with gate := { s.gate with checkQueue := s.gate.checkQueue ++ [c] } }) ∧
      (s.gate.port = [] → 16 ≤ s.gate.checkQueue.length → exec (.checkAccept c) s =
        .next { s with gate := { s.gate with port := [.check c] } })) ∧
    (∀ m : Done,
      (s.gate.port = [] → s.gate.doneQueue.length < 16 → exec (.doneAccept m) s =
        .next { s with gate := { s.gate with doneQueue := s.gate.doneQueue ++ [m] } }) ∧
      (s.gate.port = [] → 16 ≤ s.gate.doneQueue.length → exec (.doneAccept m) s =
        .next { s with gate := { s.gate with port := [.done m] } }) ∧
      (∀ (b : Check) (rest : List GateMsg), s.gate.port = .check b :: rest → 16 ≤ s.gate.checkQueue.length →
        exec (.doneAccept m) s = .next { s with gate := { s.gate with port := s.gate.port ++ [.done m] } })) ∧
    (∀ (w : GateMsg) (rest : List GateMsg), s.gate.port = w :: rest → s.gate.ready w = false →
      (∀ c, exec (.checkAccept c) s = .next { s with gate := { s.gate with port := s.gate.port ++ [.check c] } }) ∧
      ∀ m, exec (.doneAccept m) s = .next { s with gate := { s.gate with port := s.gate.port ++ [.done m] } }) ∧
    (∀ c : Check, s.gate.ready (.check c) = true ↔ s.gate.checkQueue.length < 16) ∧
    (∀ m : Done, s.gate.ready (.done m) = true ↔ s.gate.doneQueue.length < 16) ∧
    ∀ w : Word, exec (.gateWordDiscard w) s = .next s) ∧
  ∀ s : State, s.gate.port = [] →
    (∀ (c : Check) (rest : List Check), s.gate.checkQueue = c :: rest → s.gate.verdictQueue.length < 16 →
      (s.management.mode = .setup → exec .checkTake s = .next { s with gate := { s.gate with
        checkQueue := rest, nextPlace := s.gate.nextPlace + 1
        verdictQueue := s.gate.verdictQueue ++ [⟨s.gate.nextPlace, c, some (.refused .notReady)⟩] } }) ∧
      (s.management.mode = .active → exec .checkTake s = .next { s with gate := { s.gate with
        checkQueue := rest, nextPlace := s.gate.nextPlace + 1
        verdictQueue := s.gate.verdictQueue ++ [⟨s.gate.nextPlace, c, none⟩]
        reads := s.gate.reads ++ [(s.gate.nextPlace, c.agent)] } })) ∧
    (16 ≤ s.gate.verdictQueue.length → exec .checkTake s = .next s) ∧
    (∀ (k : Nat) (st : AgentState) (epoch : Word) (rest : List (Nat × AgentState × Word)) (pre post : List Place) (c : Check),
      s.gate.answers = (k, st, epoch) :: rest → s.gate.verdictQueue = pre ++ ⟨k, c, none⟩ :: post →
      (∀ p ∈ pre, p.number ≠ k) →
      let u : State := { s with gate := { s.gate with answers := rest } }
      (∀ d, holderOf s c.first = some d → exec .checkPresent s = .next (u.setDomain d { s.domain d with
        checks := (s.domain d).checks ++ [⟨k, c, st, epoch⟩] })) ∧
      (holderOf s c.first = none → exec .checkPresent s = .next { u with noDomain := { s.noDomain with
        checks := s.noDomain.checks ++ [⟨k, c, st, epoch⟩] } })) ∧
    (∀ (d : DomainId) (k : Nat) (v : Verdict) (rest : List (Nat × Verdict)) (pre post : List Place) (c : Check)
        (w : Option Verdict),
      (s.domain d).verdicts = (k, v) :: rest → s.gate.verdictQueue = pre ++ ⟨k, c, w⟩ :: post →
      (∀ p ∈ pre, p.number ≠ k) → (∀ p ∈ post, p.number ≠ k) →
      exec (.verdictPlace (some d)) s = .next { s.setDomain d { s.domain d with verdicts := rest } with
        gate := { s.gate with verdictQueue := pre ++ ⟨k, c, some (w.getD v)⟩ :: post } }) ∧
    (∀ (k : Nat) (v : Verdict) (rest : List (Nat × Verdict)) (pre post : List Place) (c : Check) (w : Option Verdict),
      s.noDomain.verdicts = (k, v) :: rest → s.gate.verdictQueue = pre ++ ⟨k, c, w⟩ :: post →
      (∀ p ∈ pre, p.number ≠ k) → (∀ p ∈ post, p.number ≠ k) →
      exec (.verdictPlace none) s = .next { s with
        noDomain := { s.noDomain with verdicts := rest }
        gate := { s.gate with verdictQueue := pre ++ ⟨k, c, some (w.getD v)⟩ :: post } }) ∧
    (∀ (k : Nat) (c : Check) (rest : List Place),
      (∀ v, s.gate.verdictQueue = ⟨k, c, some v⟩ :: rest → exec .verdictAccept s = .next { s with gate := { s.gate with
        verdictQueue := rest, lastVerdict := some v } }) ∧
      (s.gate.verdictQueue = ⟨k, c, none⟩ :: rest → exec .verdictAccept s = .next s)) ∧
    ∀ (m : Done) (rest : List Done), s.gate.doneQueue = m :: rest →
      let u : State := { s with gate := { s.gate with doneQueue := rest } }
      (m = .null → exec .doneDispatch s = .next u) ∧
      ∀ k : Ticket, m = .ticket k →
        (ownerOf s k.handle.slot = none → exec .doneDispatch s = .next u) ∧
        ∀ d, ownerOf s k.handle.slot = some d → exec .doneDispatch s = .next (u.setDomain d { s.domain d with
          dones := (s.domain d).dones ++ [k] })

/-! ## Encodings -/

/-- The words of a CHECK and of a DONE, passed on GD_IN, make exactly the event of that CHECK or DONE; a first word of any
other type makes the discard of that word. The first word of a CHECK or DONE does not pass while its queue is full; the four
words of a CHECK presented to a port with a place all pass, and its event joins the commands that wait at the fourth (log 33),
and a cold reset discards the words taken of one (06 6.1, 08 8.9; of R116, R163, R164). The words of a frame, received on a
line with no frame in progress, make exactly the event of that frame, for every frame the part sends whose message has 1 to 7
words: no bit of a header, a field or a check code is dropped (08 8.9; of R160, R161, R162). -/
def Obligations.WordsOnThePinsRoundTrip : Prop :=
  ((∀ c : Check, gateEvents [] (checkWords c) = [.checkAccept c]) ∧
  (∀ m : Done, gateEvents [] [doneWord m] = [.doneAccept m]) ∧
  ∀ w : Word, discardTypeOk w = true → gateEvents [] [w] = [.gateWordDiscard w]) ∧
  (∀ (s : State) (c : Check), s.gate.words = [] → s.gate.port = [] →
    (s.gate.checkQueue.length < 16 →
      (checkWords c).foldl (fun u w => u.presentWord w) s = { s with pending := s.pending ++ [.checkAccept c] }) ∧
    (16 ≤ s.gate.checkQueue.length → s.presentWord (checkHead c) = s)) ∧
  (∀ (s : State) (m : Done), s.gate.words = [] → s.gate.port = [] →
    (s.gate.doneQueue.length < 16 → s.presentWord (doneWord m) = { s with pending := s.pending ++ [.doneAccept m] }) ∧
    (16 ≤ s.gate.doneQueue.length → s.presentWord (doneWord m) = s)) ∧
  (∀ s : State, ∃ t, exec .coldReset s = .next t ∧ t.gate.words = []) ∧
  ∀ (n : AgentId) (seq number : Seq) (flag : Bool),
    (∀ words : List Word, 1 ≤ words.length → words.length ≤ 7 →
      lineEvents n [] (dataFrameWords seq number words) = [.dataReceived n seq number words]) ∧
    (∀ m : OutMsg, 1 ≤ (messageWords m).length ∧ (messageWords m).length ≤ 7) ∧
    lineEvents n [] (Frame.ack number).lineWords = [.ackReceived n number] ∧
    lineEvents n [] (Frame.nak number).lineWords = [.nakReceived n number] ∧
    lineEvents n [] (Frame.resync number flag).lineWords = [.resyncReceived n number flag] ∧
    lineEvents n [] Frame.idle.lineWords = [.idleReceived n]

/-! ## The link ports -/

/-- Signals and attempts (07 7.2; of R132, R133). SIGNAL_DETECT takes a DOWN link to ALIGNING with a fresh attempt; its loss
takes an ALIGNING or ACTIVE link to DOWN, with LINK_RETRAIN from ACTIVE, keeping buffers, queues, sequence numbers and reset
state. In ALIGNING a RESYNC received before the attempt is aligned and has sent its own is recorded as the peer's, replacing one
before, and leaves the count of IDLEs; an IDLE counts, and the sixteenth makes the attempt aligned and sends the RESYNC; any other
valid word but a RESYNC sets the count to 0; a corrupt word also counts, and the eighth in a row starts the attempt afresh, as its expiry does,
and as does one that finds the count left at 8 by ACTIVE (log 18). SIGNAL_DETECT outside DOWN, and its loss in DOWN, change
nothing (log 2); nothing received in DOWN has an effect (log 25). What the sixteenth IDLE does with a peer RESYNC recorded is
in `AttemptsComplete`. -/
def Obligations.SignalsAndAttempts : Prop :=
  ∀ (s : State) (n : AgentId),
    let p := s.link n
    let to' (q : LinkPort) : Host.Outcome State Fault Refusal := .next (s.setLink n q)
    let fresh : Attempt := ⟨0, false, false, none, s.time + s.management.watchdogPeriod.setWidth 32⟩
    let down : LinkPort := { p with
      state := .down, attempt := none, watchdog := none, replayDeadline := none, replayPos := none, replayCount := 0
      corruptWords := 0, ackOwed := false, nakOwed := false, nakSent := false }
    (p.state = .down → exec (.signalDetect n) s = to' { p with state := .aligning, attempt := some fresh } ∧
      (∀ x ∈ [Instr.lossOfSignalDetect n, .idleReceived n, .corruptWord n, .corruptFrame n], exec x s = .next s) ∧
      ∀ (k m : Seq) (flag : Bool) (ws : List Word), ∀ x ∈ [Instr.ackReceived n k, .nakReceived n k, .resyncReceived n k flag,
        .dataReceived n k m ws], exec x s = .next s) ∧
    (p.state ≠ .down → exec (.signalDetect n) s = .next s) ∧
    (p.state = .active → exec (.lossOfSignalDetect n) s =
      to' { down with reports := p.reports ++ [⟨.linkRetrain, none, some n, none, none, s.time⟩] }) ∧
    (p.state = .aligning → exec (.lossOfSignalDetect n) s = to' down) ∧
    ∀ a : Attempt, p.state = .aligning → p.attempt = some a →
      (∀ next flag, a.aligned = false ∨ a.ownSent = false → exec (.resyncReceived n next flag) s =
        to' { p with corruptWords := 0, attempt := some { a with peer := some (next, flag) } }) ∧
      (a.idles < 15 → exec (.idleReceived n) s =
        to' { p with corruptWords := 0, attempt := some { a with idles := a.idles + 1 } }) ∧
      (15 ≤ a.idles → a.aligned = true → exec (.idleReceived n) s =
        to' { p with corruptWords := 0, attempt := some { a with idles := 16 } }) ∧
      (15 ≤ a.idles → a.aligned = false → a.peer = none → exec (.idleReceived n) s = to' { p with
        corruptWords := 0, attempt := some { a with idles := 16, aligned := true, ownSent := true }
        lastFrame := some (.resync p.rxExpect p.resetPending) }) ∧
      (∀ x, (x = .corruptFrame n ∨ (∃ k, x = .ackReceived n k ∨ x = .nakReceived n k) ∨
          ∃ k m ws, x = .dataReceived n k m ws) →
        exec x s = to' { p with corruptWords := 0, attempt := some { a with idles := 0 } }) ∧
      (p.corruptWords < 7 → exec (.corruptWord n) s =
        to' { p with corruptWords := p.corruptWords + 1, attempt := some { a with idles := 0 } }) ∧
      (7 ≤ p.corruptWords → exec (.corruptWord n) s = to' { p with corruptWords := 0, attempt := some fresh }) ∧
      (exec (.alignmentAttemptExpiry n) s =
        if dueAt s.time (some a.deadline) = true then to' { p with attempt := some fresh } else .next s)

/-- The completion of an attempt, whichever of the three comes last: at the sixteenth IDLE, which aligns it and sends its
RESYNC, once a peer RESYNC is recorded; at a RESYNC received once the attempt is aligned and has sent its own; or at
ALIGNING_RESYNC_SEND once a peer RESYNC is recorded (07 7.2; of R133, R134, R136). An unflagged one while reset pending is yes
is kept and does not complete it. A flagged one while it is no makes a link reset. One whose number lies outside the retry
buffer makes a link reset with LINK_PROTOCOL and a fresh attempt. Otherwise the frames before the number are freed, the rest
will be replayed, reset pending is no and the link is ACTIVE. -/
def Obligations.AttemptsComplete : Prop :=
  ∀ (s : State) (n : AgentId) (a : Attempt) (next : Seq) (flag : Bool),
    (s.link n).state = .aligning → (s.link n).attempt = some a →
    let e := linkEnvOf s n
    (a.aligned = true → a.ownSent = false → a.peer = none → exec (.aligningResyncSend n) s = .next (s.setLink n { s.link n with
      attempt := some { a with ownSent := true }
      lastFrame := some (.resync (s.link n).rxExpect (s.link n).resetPending) })) ∧
    ∀ (c : Instr) (p : LinkPort),
      (c = .idleReceived n ∧ a.aligned = false ∧ 15 ≤ a.idles ∧ a.peer = some (next, flag) ∧
          p = { s.link n with
            corruptWords := 0, attempt := some { a with idles := 16, aligned := true, ownSent := true }
            lastFrame := some (.resync (s.link n).rxExpect (s.link n).resetPending) } ∨
        c = .resyncReceived n next flag ∧ a.aligned = true ∧ a.ownSent = true ∧
          p = { s.link n with corruptWords := 0, attempt := some { a with peer := some (next, flag) } } ∨
        c = .aligningResyncSend n ∧ a.aligned = true ∧ a.ownSent = false ∧ a.peer = some (next, flag) ∧
          p = { s.link n with
            attempt := some { a with ownSent := true }
            lastFrame := some (.resync (s.link n).rxExpect (s.link n).resetPending) }) →
      let used := (next - p.oldest).toNat
      (p.resetPending = true → flag = false → exec c s = .next (s.setLink n p)) ∧
      (p.resetPending = false → flag = true → exec c s = .next (s.setLink n (linkReset e p))) ∧
      (flag = p.resetPending → (p.txSeq - p.oldest).toNat < used → ∃ q, exec c s = .next (s.setLink n q) ∧
        q.state = .aligning ∧ q.attempt = some ⟨0, false, false, none, e.now + e.period⟩ ∧ q.retry = [] ∧ q.txSeq = 0 ∧
        q.oldest = 0 ∧ q.rxExpect = 0 ∧ q.resetPending = true ∧ q.resetNumber = p.resetNumber + 1 ∧
        q.reports = p.reports ++ [⟨.linkProtocol, none, some n, none, none, s.time⟩]) ∧
      (flag = p.resetPending → used ≤ (p.txSeq - p.oldest).toNat →
        exec c s = .next (s.setLink n { p with
          state := .active, attempt := none, oldest := next, retry := p.retry.drop used
          replayPos := if p.retry.length ≤ used then none else some next
          replayCount := 0, replayDeadline := if p.retry.length ≤ used then none else some (s.time + 1)
          resetPending := false, watchdog := some (s.time + s.management.watchdogPeriod.setWidth 32) }))

/-- What an ACTIVE port makes of what it receives (07 7.2, 7.3, 7.4, 7.5; of R135 to R137, R139, R140, R142, R143). Every valid
word moves the watchdog and clears the corrupt word count, and so does a corrupt frame, whose words count as valid (log 19);
the eighth corrupt word in a row is a retrain, which leaves the count at 8 (log 18); a corrupt frame makes a NAK owed; a RESYNC
starts an alignment with it recorded, without LINK_RETRAIN. An ACK of a number in the retry buffer frees the entries through
it, as progress, any other nothing. DATA takes its acknowledgement number so, then: in order with room it is accepted with the
reset number and an ACK owed, in order without room discarded, ahead a NAK is owed once, behind an ACK is owed. A NAK out of
range is a link reset with LINK_PROTOCOL; in range it frees what lies before it and replays from it, or frees all. -/
def Obligations.AnActivePortReceives : Prop :=
  ∀ (s : State) (n : AgentId), (s.link n).state = .active →
    let p := s.link n
    let e := linkEnvOf s n
    let period : Time := s.management.watchdogPeriod.setWidth 32
    let to' (q : LinkPort) : Host.Outcome State Fault Refusal := .next (s.setLink n q)
    let v : LinkPort := { p with watchdog := some (s.time + period), corruptWords := 0 }
    let out : LinkPort := { p with
      state := .aligning, attempt := some ⟨0, false, false, none, s.time + period⟩, watchdog := none
      replayDeadline := none, replayPos := none, replayCount := 0, ackOwed := false, nakOwed := false, nakSent := false }
    let freed (q : LinkPort) (k : Nat) (m : Seq) : LinkPort := { q with
      retry := q.retry.drop k, oldest := m, replayCount := 0
      replayPos := match q.replayPos with
        | none => none
        | some r => if (r - q.oldest).toNat < k then (if q.retry.length ≤ k then none else some m) else some r
      replayDeadline := if q.retry.length ≤ k then none else some (s.time + 1) }
    (exec (.idleReceived n) s = to' v) ∧
    (p.corruptWords < 7 → exec (.corruptWord n) s = to' { p with corruptWords := p.corruptWords + 1 }) ∧
    (7 ≤ p.corruptWords → exec (.corruptWord n) s = to' { out with
      corruptWords := 8, reports := p.reports ++ [⟨.linkRetrain, none, some n, none, none, s.time⟩] }) ∧
    (exec (.corruptFrame n) s = to' { v with nakOwed := true, nakSent := true }) ∧
    (∀ next flag, exec (.resyncReceived n next flag) s = to' { out with
      corruptWords := 0, attempt := some ⟨0, false, false, some (next, flag), s.time + period⟩ }) ∧
    (∀ a : Seq, let k := (a - p.oldest).toNat
      (k < (p.txSeq - p.oldest).toNat → exec (.ackReceived n a) s = to' (freed v (k + 1) (a + 1))) ∧
      ((p.txSeq - p.oldest).toNat ≤ k → exec (.ackReceived n a) s = to' v)) ∧
    (∀ (seq a : Seq) (ws : List Word), dataLengthOk ws = true →
      let k := (a - p.oldest).toNat
      let q : LinkPort := if k < (p.txSeq - p.oldest).toNat then freed v (k + 1) (a + 1) else v
      let d := (seq - p.rxExpect).toNat
      (d = 0 → p.rxQueue.length < 16 → exec (.dataReceived n seq a ws) s = to' { q with
        rxQueue := p.rxQueue ++ [⟨ws, p.resetNumber, none⟩], rxExpect := p.rxExpect + 1, ackOwed := true, nakSent := false }) ∧
      (d = 0 → 16 ≤ p.rxQueue.length → exec (.dataReceived n seq a ws) s = to' q) ∧
      (1 ≤ d → d ≤ 31 → p.nakSent = false →
        exec (.dataReceived n seq a ws) s = to' { q with nakOwed := true, nakSent := true }) ∧
      (1 ≤ d → d ≤ 31 → p.nakSent = true → exec (.dataReceived n seq a ws) s = to' q) ∧
      (32 ≤ d → exec (.dataReceived n seq a ws) s = to' { q with ackOwed := true })) ∧
    (∀ m : Seq, let k := (m - p.oldest).toNat
      let q : LinkPort := if k = 0 then v else freed v k m
      ((p.txSeq - p.oldest).toNat < k → exec (.nakReceived n m) s =
        to' { linkReset e v with reports := p.reports ++ [⟨.linkProtocol, none, some n, none, none, s.time⟩] }) ∧
      (m = p.txSeq → exec (.nakReceived n m) s = to' q) ∧
      (k < (p.txSeq - p.oldest).toNat → q.replayCount < 4 → exec (.nakReceived n m) s = to' { q with
        replayPos := some m, replayCount := q.replayCount + 1, replayDeadline := some (s.time + 1) }) ∧
      (k = 0 → m ≠ p.txSeq → 4 ≤ p.replayCount → exec (.nakReceived n m) s = to' { out with
        corruptWords := 0, reports := p.reports ++ [⟨.linkRetrain, none, some n, none, none, s.time⟩] }))

/-- The deadlines of an ACTIVE port, at or after their time and not before: the watchdog's expiry takes the link to ALIGNING
with LINK_RETRAIN; the replay deadline's replays from the oldest entry, or, after four replays without progress, is a rollover
to ALIGNING with LINK_RETRAIN. What the port sends next, in the order of R148: a NAK owed; the frame at the replay position; a
new DATA frame, the head response before the notice, its message moved to the retry buffer's tail; an ACK owed; an IDLE. In
ALIGNING it sends IDLE, in DOWN nothing (07 7.2, 7.4, 7.7; of R135, R138, R140, R141, R148). -/
def Obligations.AnActivePortExpiresAndSends : Prop :=
  ∀ (s : State) (n : AgentId),
    let p := s.link n
    let to' (q : LinkPort) : Host.Outcome State Fault Refusal := .next (s.setLink n q)
    let out : LinkPort := { p with
      state := .aligning, watchdog := none
      attempt := some ⟨0, false, false, none, s.time + s.management.watchdogPeriod.setWidth 32⟩
      replayDeadline := none, replayPos := none, replayCount := 0, ackOwed := false, nakOwed := false, nakSent := false
      reports := p.reports ++ [⟨.linkRetrain, none, some n, none, none, s.time⟩] }
    (p.state = .active →
      (exec (.watchdogExpiry n) s = if dueAt s.time p.watchdog = true then to' out else .next s) ∧
      (dueAt s.time p.replayDeadline = false → exec (.replayDeadlineExpiry n) s = .next s) ∧
      (dueAt s.time p.replayDeadline = true →
        (p.replayCount < 4 → exec (.replayDeadlineExpiry n) s = to' { p with
          replayPos := some p.oldest, replayCount := p.replayCount + 1, replayDeadline := some (s.time + 1) }) ∧
        (4 ≤ p.replayCount → exec (.replayDeadlineExpiry n) s = to' out)) ∧
      (p.nakOwed = true → exec (.frameSend n) s = to' { p with lastFrame := some (.nak p.rxExpect), nakOwed := false }) ∧
      (p.nakOwed = false →
        (∀ r x, p.replayPos = some r → p.retry.find? (fun y => y.seq == r) = some x → exec (.frameSend n) s = to' { p with
          lastFrame := some (.data r (p.rxExpect - 1) x.msg), ackOwed := false
          replayPos := if r + 1 = p.txSeq then none else some (r + 1) }) ∧
        (p.replayPos = none →
          (p.retry.length < 16 → ∀ (m : OutMsg) (q : LinkPort),
            ((∃ x rest, p.responses = x :: rest ∧ m = .response x.tag x.response ∧ q = { p with responses := rest }) ∨
              (∃ y, p.responses = [] ∧ p.notice = some y ∧ m = .notice y ∧ q = { p with notice := none })) →
            exec (.frameSend n) s = to' { q with
              lastFrame := some (.data p.txSeq (p.rxExpect - 1) m), ackOwed := false, txSeq := p.txSeq + 1
              retry := p.retry ++ [⟨p.txSeq, m⟩]
              replayDeadline := if p.retry = [] then some (s.time + 1) else p.replayDeadline }) ∧
          (16 ≤ p.retry.length ∨ p.responses = [] ∧ p.notice = none → exec (.frameSend n) s =
            to' (if p.ackOwed then { p with lastFrame := some (.ack (p.rxExpect - 1)), ackOwed := false }
              else { p with lastFrame := some .idle }))))) ∧
    (p.state = .aligning → exec (.frameSend n) s = to' { p with lastFrame := some .idle }) ∧
    (p.state = .down → exec (.frameSend n) s = .next s)

/-! ## Invariants of every step -/

/-- What every unit keeps from every state, whatever command a step takes: the record pool its canonical form; an agent entry
its lease exactly while ONLINE, an epoch other than 0 there, a quota of at most 4096 (04, of R78, R81, R82, R84); the gate's
queues at most 16 (R116, R117); a link port the form of 07 7.1: its attempt and deadlines with the link state, its retry buffer
the consecutive frames from oldest unacknowledged to transmit sequence, its queues and counts within their sizes (R138, R139,
R143, R147). -/
def Obligations.EveryStepKeepsTheUnitsInForm : Prop :=
  ∀ s t : State, step s = .next t →
    (Pool.wf s.pool = true → Pool.wf t.pool = true) ∧
    (s.agentsOk → t.agentsOk) ∧
    (s.gate.bounded = true → t.gate.bounded = true) ∧ (s.linksOk → t.linksOk)

/-- Domains stay apart: from every state in which two domains that are not DISABLED share no page and no bank, and the
collections of every domain lie in its banks and are empty while it is DISABLED, every step leads to such a state (01 1.2, 1.3,
1.8; of R3, R4, R9, R22). From such a state in which the records agree with the collections, and overlapping holds are SHARED,
every step leads to one in which they do, where no storage error strikes a copy of a directory entry: what a record's state
says of its domain's wait queue, occupancy set, token map and free list and of its deadlines holds after every event, and two
occupying records of a domain whose ranges overlap are both SHARED (01 1.7, 1.8, 02 2.1; of R18, R19, R21, R25; when storage
errors come is log 5). -/
def Obligations.EveryStepKeepsDomainsApart : Prop :=
  ∀ s t : State, step s = .next t → s.domainsApart → s.collectionsOwned →
    (t.domainsApart ∧ t.collectionsOwned) ∧
    (Pool.wf s.pool = true → s.recordsAgree → s.copiesSpared → t.recordsAgree)

/-- The invariants hold after reset (R13, R76, R131, R150). -/
def Obligations.TheInvariantsHoldAtReset : Prop :=
  Pool.wf State.reset.pool = true ∧ State.reset.agentsOk ∧ State.reset.gate.bounded = true ∧ State.reset.linksOk ∧
    State.reset.domainsApart ∧ State.reset.collectionsOwned ∧ State.reset.recordsAgree

/-- What a command other than COLD_RESET never changes: the configuration of a domain that is not DISABLED (R1); the quota and
lease class bound of an agent that is not (R78); a token counter and an exhausted indicator only rise (R21); an epoch changes
only at that agent's JOIN, to the next one, and the agent is then ONLINE (R81). -/
def Obligations.WhatServiceKeeps : Prop :=
  ∀ (c : Instr) (s t : State), exec c s = .next t → c ≠ .coldReset → s.collectionsOwned →
    (∀ d, (s.domain d).state ≠ .disabled → (t.domain d).configuration = (s.domain d).configuration) ∧
    (∀ d, (s.domain d).tokenCounter ≤ (t.domain d).tokenCounter ∧
      ((s.domain d).exhausted = true → (t.domain d).exhausted = true)) ∧
    ∀ n, ((s.agent n).state ≠ .disabled → (t.agent n).quota = (s.agent n).quota ∧ (t.agent n).bound = (s.agent n).bound) ∧
      ((t.agent n).epoch ≠ (s.agent n).epoch → c = .join n ∧ (t.agent n).state = .online ∧
        (t.agent n).epoch = if (s.agent n).epoch = BitVec.allOnes 32 then 1 else (s.agent n).epoch + 1)

/-- What an event of one domain leaves alone: every other unit and domain, the slots of other banks, and of its own domain the
configuration; only a walk of the domain may end with it. While the domain is SCRUBBING its scrub position is taken to lie in
its bank set, as R9 and R10 put it there (`ScrubDomainDecision`, `ScrubVisit`). What an event of one link port leaves alone:
everything else (00 "Internal units", 95; of R6, R182). -/
def Obligations.EventsStayInTheirUnit : Prop :=
  (∀ (c : Instr) (s t : State) (d : DomainId),
    (c = .acquire (some d) ∨ c = .release d ∨ c = .convertUp d ∨ c = .convertDown d ∨ c = .query d ∨ c = .reclaim d ∨
      c = .claim (some d) ∨ c = .presentedAcknowledgement (some d) ∨ c = .reversion (some d) ∨ c = .check (some d) ∨
      c = .done d ∨ c = .scrubVisit d ∨ ∃ i, ownerOf s i = some d ∧ (c = .waitExpiry i ∨ c = .drainOverrun i)) →
    exec c s = .next t → (s.domain d).slotsOwned = true →
    onlyDomain d s t ∧ (t.domain d).configuration = (s.domain d).configuration ∧
      ((∀ j, (s.domain d).scrubPos = some j → inBanks (s.domain d).banks j = true) →
        ∀ i, inBanks (s.domain d).banks i = false → poolGet t.pool i = poolGet s.pool i)) ∧
  ∀ (c : Instr) (s t : State) (n : AgentId),
    (c = .signalDetect n ∨ c = .lossOfSignalDetect n ∨ c = .idleReceived n ∨ (∃ k f, c = .resyncReceived n k f) ∨
      c = .corruptWord n ∨ c = .corruptFrame n ∨ (∃ k a ws, c = .dataReceived n k a ws) ∨ (∃ a, c = .ackReceived n a) ∨
      (∃ k, c = .nakReceived n k) ∨ c = .alignmentAttemptExpiry n ∨ c = .watchdogExpiry n ∨ c = .replayDeadlineExpiry n ∨
      c = .frameSend n ∨ c = .aligningResyncSend n) →
    exec c s = .next t → onlyLink n s t
end

