-- ==== Sys2Proof/Laws/Pool.lean ====
section
/-! SUPPORT. The record pool: what a write of a slot does to the reads of every slot, and that every operation keeps the canonical
form. -/

namespace Sys2Proof.Machine

/-! ## Above -/

theorem poolAbove_trans {i j : SlotId} (h : i < j) {p : Pool} (hp : poolAbove j p = true) : poolAbove i p = true := by
  induction p with
  | nil => rfl
  | cons e p ih =>
    obtain ⟨k, x⟩ := e
    simp only [poolAbove, Bool.and_eq_true, decide_eq_true_eq] at hp ⊢
    exact ⟨lt_trans h hp.1, ih hp.2⟩

/-- A slot below every listed slot reads as after cold reset. -/
theorem poolGet_above {i : SlotId} {p : Pool} (h : poolAbove i p = true) : poolGet p i = .reset := by
  induction p with
  | nil => rfl
  | cons e p ih =>
    obtain ⟨k, x⟩ := e
    simp only [poolAbove, Bool.and_eq_true, decide_eq_true_eq] at h
    have hk : k ≠ i := (ne_of_lt h.1).symm
    simp [poolGet, hk, ih h.2]

/-! ## Reads after a write -/

theorem poolGet_poolPut_ne (p : Pool) {i j : SlotId} (x : Slot) (h : j ≠ i) :
    poolGet (poolPut p i x) j = poolGet p j := by
  induction p with
  | nil =>
    by_cases hx : x = .reset
    · simp [poolPut, hx]
    · simp [poolPut, hx, poolGet, h.symm]
  | cons e p ih =>
    obtain ⟨k, y⟩ := e
    simp only [poolPut]
    by_cases h1 : i < k
    · by_cases hx : x = .reset
      · simp [h1, hx]
      · simp [h1, hx, poolGet, h.symm]
    · by_cases h2 : i = k
      · subst h2
        by_cases hx : x = .reset
        · simp [hx, poolGet, h.symm]
        · simp [hx, poolGet, h.symm]
      · simp only [h1, h2, if_false, poolGet]
        split
        · rfl
        · exact ih

theorem poolGet_poolPut_same {p : Pool} (hp : Pool.wf p = true) (i : SlotId) (x : Slot) :
    poolGet (poolPut p i x) i = x := by
  induction p with
  | nil =>
    by_cases hx : x = .reset
    · simp [poolPut, hx, poolGet]
    · simp [poolPut, hx, poolGet]
  | cons e p ih =>
    obtain ⟨k, y⟩ := e
    simp only [Pool.wf, Bool.and_eq_true] at hp
    simp only [poolPut]
    by_cases h1 : i < k
    · by_cases hx : x = .reset
      · have hk : k ≠ i := (ne_of_lt h1).symm
        simp [h1, hx, poolGet, hk, poolGet_above (poolAbove_trans h1 hp.1.2)]
      · simp [h1, hx, poolGet]
    · by_cases h2 : i = k
      · subst h2
        by_cases hx : x = .reset
        · simp [hx, poolGet_above hp.1.2]
        · simp [hx, poolGet]
      · simp only [h1, h2, if_false, poolGet]
        rw [if_neg (Ne.symm h2)]
        exact ih hp.2

/-- A write of a slot: that slot reads as written, every other as before. -/
theorem poolGet_poolPut {p : Pool} (hp : Pool.wf p = true) (i j : SlotId) (x : Slot) :
    poolGet (poolPut p i x) j = if j = i then x else poolGet p j := by
  by_cases h : j = i
  · subst h; simp [poolGet_poolPut_same hp]
  · simp [h, poolGet_poolPut_ne p x h]

/-! ## The canonical form -/

theorem poolAbove_poolPut {i k : SlotId} (h : k < i) (x : Slot) {p : Pool} (hp : poolAbove k p = true) :
    poolAbove k (poolPut p i x) = true := by
  induction p with
  | nil =>
    by_cases hx : x = .reset
    · simp [poolPut, hx, poolAbove]
    · simp [poolPut, hx, poolAbove, h]
  | cons e p ih =>
    obtain ⟨m, y⟩ := e
    simp only [poolAbove, Bool.and_eq_true, decide_eq_true_eq] at hp
    simp only [poolPut]
    by_cases h1 : i < m
    · by_cases hx : x = .reset
      · simp [h1, hx, poolAbove, hp.1, hp.2]
      · simp [h1, hx, poolAbove, h, hp.1, hp.2]
    · by_cases h2 : i = m
      · by_cases hx : x = .reset
        · simp [h2, hx, hp.2]
        · simp [h2, hx, poolAbove, hp.1, hp.2]
      · simp [h1, h2, poolAbove, hp.1, ih hp.2]

/-- A write of a slot keeps the canonical form. -/
theorem wf_poolPut {p : Pool} (hp : Pool.wf p = true) (i : SlotId) (x : Slot) : Pool.wf (poolPut p i x) = true := by
  induction p with
  | nil =>
    by_cases hx : x = .reset
    · simp [poolPut, hx, Pool.wf]
    · simp [poolPut, hx, Pool.wf, poolAbove]
  | cons e p ih =>
    obtain ⟨k, y⟩ := e
    simp only [Pool.wf, Bool.and_eq_true, bne_iff_ne] at hp
    simp only [poolPut]
    by_cases h1 : i < k
    · by_cases hx : x = .reset
      · simp [h1, hx, Pool.wf, hp.1.1, hp.1.2, hp.2]
      · simp [h1, hx, Pool.wf, poolAbove, hp.1.1, hp.1.2, hp.2, poolAbove_trans h1 hp.1.2]
    · by_cases h2 : i = k
      · subst h2
        by_cases hx : x = .reset
        · simp [hx, hp.2]
        · simp [hx, Pool.wf, hp.1.2, hp.2]
      · have h3 : k < i := lt_of_le_of_ne (not_lt.mp h1) (Ne.symm h2)
        simp [h1, h2, Pool.wf, hp.1.1, ih hp.2, poolAbove_poolPut h3 x hp.1.2]

theorem wf_writeRecord {p : Pool} (hp : Pool.wf p = true) (i : SlotId) (r : Record) : Pool.wf (writeRecord p i r) = true :=
  wf_poolPut hp _ _

theorem wf_freeSlot {p : Pool} (hp : Pool.wf p = true) (i : SlotId) : Pool.wf (freeSlot p i) = true :=
  wf_poolPut hp _ _

theorem wf_strike {p : Pool} (hp : Pool.wf p = true) (u : Upset) : Pool.wf (strike u p) = true :=
  wf_poolPut hp _ _

theorem wf_strikes {p : Pool} (hp : Pool.wf p = true) (l : List Upset) :
    Pool.wf (l.foldl (fun p u => strike u p) p) = true := by
  induction l generalizing p with
  | nil => exact hp
  | cons u l ih => exact ih (wf_strike hp u)

theorem wf_renewSlots {p : Pool} (hp : Pool.wf p = true) (l : List SlotId) : Pool.wf (renewSlots l p) = true := by
  unfold renewSlots
  induction l generalizing p with
  | nil => exact hp
  | cons i l ih => exact ih (wf_freeSlot hp i)

/-- A record written: its slot holds it with a valid code and its directory entry unchanged; every other slot is unchanged. -/
theorem poolGet_writeRecord {p : Pool} (hp : Pool.wf p = true) (i j : SlotId) (r : Record) :
    poolGet (writeRecord p i r) j = if j = i then { poolGet p i with record := r, health := .clean } else poolGet p j :=
  poolGet_poolPut hp i j _

/-- A slot freed: FREE at the next generation, its record cleared; every other slot is unchanged (R14, R16). -/
theorem poolGet_freeSlot {p : Pool} (hp : Pool.wf p = true) (i j : SlotId) :
    poolGet (freeSlot p i) j =
      if j = i then
        { copyA := ⟨genOf p i + 1, true⟩, copyB := ⟨genOf p i + 1, true⟩, copyC := ⟨genOf p i + 1, true⟩,
          record := .cleared, health := .clean }
      else poolGet p j :=
  poolGet_poolPut hp i j _

/-- Three copies that agree read as any of them (R165). -/
@[simp] theorem majority_same (c : DirCopy) : majority c c c = c := by
  simp [majority]

@[simp] theorem directory_withDirectory (x : Slot) (c : DirCopy) : (x.withDirectory c).directory = c := by
  simp [Slot.withDirectory, Slot.directory]

/-- A freed slot's directory entry: FREE at the next generation (R14). -/
theorem directory_freeSlot {p : Pool} (hp : Pool.wf p = true) (i : SlotId) :
    (poolGet (freeSlot p i) i).directory = ⟨genOf p i + 1, true⟩ := by
  rw [poolGet_freeSlot hp]
  simp [Slot.directory]

theorem recordOf_writeRecord {p : Pool} (hp : Pool.wf p = true) (i j : SlotId) (r : Record) :
    recordOf (writeRecord p i r) j = if j = i then r else recordOf p j := by
  simp only [recordOf, poolGet_writeRecord hp]
  split <;> rfl

theorem genOf_writeRecord {p : Pool} (hp : Pool.wf p = true) (i j : SlotId) (r : Record) :
    genOf (writeRecord p i r) j = genOf p j := by
  simp only [genOf, poolGet_writeRecord hp]
  split
  · next h => subst h; rfl
  · rfl

end Sys2Proof.Machine
end

