-- ==== Sys2Proof/Laws/State.lean ====
section
/-! SUPPORT. One lemma per field per update of the state. -/

namespace Sys2Proof.Machine

/-! ### setDomain -/

@[simp] theorem setDomain_time (s : State) (d : DomainId) (x : Domain) : (s.setDomain d x).time = s.time := rfl

@[simp] theorem setDomain_management (s : State) (d : DomainId) (x : Domain) : (s.setDomain d x).management = s.management := rfl

@[simp] theorem setDomain_fault (s : State) (d : DomainId) (x : Domain) : (s.setDomain d x).fault = s.fault := rfl

@[simp] theorem setDomain_pool (s : State) (d : DomainId) (x : Domain) : (s.setDomain d x).pool = s.pool := rfl

@[simp] theorem setDomain_noDomain (s : State) (d : DomainId) (x : Domain) : (s.setDomain d x).noDomain = s.noDomain := rfl

@[simp] theorem setDomain_session (s : State) (d : DomainId) (x : Domain) : (s.setDomain d x).session = s.session := rfl

@[simp] theorem setDomain_notice (s : State) (d : DomainId) (x : Domain) : (s.setDomain d x).notice = s.notice := rfl

@[simp] theorem setDomain_gate (s : State) (d : DomainId) (x : Domain) : (s.setDomain d x).gate = s.gate := rfl

@[simp] theorem setDomain_links (s : State) (d : DomainId) (x : Domain) : (s.setDomain d x).links = s.links := rfl

@[simp] theorem setDomain_upsets (s : State) (d : DomainId) (x : Domain) : (s.setDomain d x).upsets = s.upsets := rfl

@[simp] theorem setDomain_pending (s : State) (d : DomainId) (x : Domain) : (s.setDomain d x).pending = s.pending := rfl

@[simp] theorem setDomain_agent (s : State) (d : DomainId) (x : Domain) (k : AgentId) : (s.setDomain d x).agent k = s.agent k := rfl

@[simp] theorem setDomain_noticeAgent (s : State) (d : DomainId) (x : Domain) (k : AgentId) : (s.setDomain d x).noticeAgent k = s.noticeAgent k := rfl

@[simp] theorem setDomain_link (s : State) (d : DomainId) (x : Domain) (k : AgentId) : (s.setDomain d x).link k = s.link k := rfl


/-! ### setAgent -/

@[simp] theorem setAgent_time (s : State) (n : AgentId) (x : Agent) : (s.setAgent n x).time = s.time := rfl

@[simp] theorem setAgent_management (s : State) (n : AgentId) (x : Agent) : (s.setAgent n x).management = s.management := rfl

@[simp] theorem setAgent_fault (s : State) (n : AgentId) (x : Agent) : (s.setAgent n x).fault = s.fault := rfl

@[simp] theorem setAgent_pool (s : State) (n : AgentId) (x : Agent) : (s.setAgent n x).pool = s.pool := rfl

@[simp] theorem setAgent_domains (s : State) (n : AgentId) (x : Agent) : (s.setAgent n x).domains = s.domains := rfl

@[simp] theorem setAgent_noDomain (s : State) (n : AgentId) (x : Agent) : (s.setAgent n x).noDomain = s.noDomain := rfl

@[simp] theorem setAgent_notice (s : State) (n : AgentId) (x : Agent) : (s.setAgent n x).notice = s.notice := rfl

@[simp] theorem setAgent_gate (s : State) (n : AgentId) (x : Agent) : (s.setAgent n x).gate = s.gate := rfl

@[simp] theorem setAgent_links (s : State) (n : AgentId) (x : Agent) : (s.setAgent n x).links = s.links := rfl

@[simp] theorem setAgent_upsets (s : State) (n : AgentId) (x : Agent) : (s.setAgent n x).upsets = s.upsets := rfl

@[simp] theorem setAgent_pending (s : State) (n : AgentId) (x : Agent) : (s.setAgent n x).pending = s.pending := rfl

@[simp] theorem setAgent_domain (s : State) (n : AgentId) (x : Agent) (k : DomainId) : (s.setAgent n x).domain k = s.domain k := rfl

@[simp] theorem setAgent_noticeAgent (s : State) (n : AgentId) (x : Agent) (k : AgentId) : (s.setAgent n x).noticeAgent k = s.noticeAgent k := rfl

@[simp] theorem setAgent_link (s : State) (n : AgentId) (x : Agent) (k : AgentId) : (s.setAgent n x).link k = s.link k := rfl


/-! ### setNotice -/

@[simp] theorem setNotice_time (s : State) (n : AgentId) (x : NoticeAgent) : (s.setNotice n x).time = s.time := rfl

@[simp] theorem setNotice_management (s : State) (n : AgentId) (x : NoticeAgent) : (s.setNotice n x).management = s.management := rfl

@[simp] theorem setNotice_fault (s : State) (n : AgentId) (x : NoticeAgent) : (s.setNotice n x).fault = s.fault := rfl

@[simp] theorem setNotice_pool (s : State) (n : AgentId) (x : NoticeAgent) : (s.setNotice n x).pool = s.pool := rfl

@[simp] theorem setNotice_domains (s : State) (n : AgentId) (x : NoticeAgent) : (s.setNotice n x).domains = s.domains := rfl

@[simp] theorem setNotice_noDomain (s : State) (n : AgentId) (x : NoticeAgent) : (s.setNotice n x).noDomain = s.noDomain := rfl

@[simp] theorem setNotice_session (s : State) (n : AgentId) (x : NoticeAgent) : (s.setNotice n x).session = s.session := rfl

@[simp] theorem setNotice_gate (s : State) (n : AgentId) (x : NoticeAgent) : (s.setNotice n x).gate = s.gate := rfl

@[simp] theorem setNotice_links (s : State) (n : AgentId) (x : NoticeAgent) : (s.setNotice n x).links = s.links := rfl

@[simp] theorem setNotice_upsets (s : State) (n : AgentId) (x : NoticeAgent) : (s.setNotice n x).upsets = s.upsets := rfl

@[simp] theorem setNotice_pending (s : State) (n : AgentId) (x : NoticeAgent) : (s.setNotice n x).pending = s.pending := rfl

@[simp] theorem setNotice_domain (s : State) (n : AgentId) (x : NoticeAgent) (k : DomainId) : (s.setNotice n x).domain k = s.domain k := rfl

@[simp] theorem setNotice_agent (s : State) (n : AgentId) (x : NoticeAgent) (k : AgentId) : (s.setNotice n x).agent k = s.agent k := rfl

@[simp] theorem setNotice_link (s : State) (n : AgentId) (x : NoticeAgent) (k : AgentId) : (s.setNotice n x).link k = s.link k := rfl


/-! ### setLink -/

@[simp] theorem setLink_time (s : State) (n : AgentId) (x : LinkPort) : (s.setLink n x).time = s.time := rfl

@[simp] theorem setLink_management (s : State) (n : AgentId) (x : LinkPort) : (s.setLink n x).management = s.management := rfl

@[simp] theorem setLink_fault (s : State) (n : AgentId) (x : LinkPort) : (s.setLink n x).fault = s.fault := rfl

@[simp] theorem setLink_pool (s : State) (n : AgentId) (x : LinkPort) : (s.setLink n x).pool = s.pool := rfl

@[simp] theorem setLink_domains (s : State) (n : AgentId) (x : LinkPort) : (s.setLink n x).domains = s.domains := rfl

@[simp] theorem setLink_noDomain (s : State) (n : AgentId) (x : LinkPort) : (s.setLink n x).noDomain = s.noDomain := rfl

@[simp] theorem setLink_session (s : State) (n : AgentId) (x : LinkPort) : (s.setLink n x).session = s.session := rfl

@[simp] theorem setLink_notice (s : State) (n : AgentId) (x : LinkPort) : (s.setLink n x).notice = s.notice := rfl

@[simp] theorem setLink_gate (s : State) (n : AgentId) (x : LinkPort) : (s.setLink n x).gate = s.gate := rfl

@[simp] theorem setLink_upsets (s : State) (n : AgentId) (x : LinkPort) : (s.setLink n x).upsets = s.upsets := rfl

@[simp] theorem setLink_pending (s : State) (n : AgentId) (x : LinkPort) : (s.setLink n x).pending = s.pending := rfl

@[simp] theorem setLink_domain (s : State) (n : AgentId) (x : LinkPort) (k : DomainId) : (s.setLink n x).domain k = s.domain k := rfl

@[simp] theorem setLink_agent (s : State) (n : AgentId) (x : LinkPort) (k : AgentId) : (s.setLink n x).agent k = s.agent k := rfl

@[simp] theorem setLink_noticeAgent (s : State) (n : AgentId) (x : LinkPort) (k : AgentId) : (s.setLink n x).noticeAgent k = s.noticeAgent k := rfl


/-! ### setGate -/

@[simp] theorem setGate_time (s : State) (x : GateUnit) : (s.setGate x).time = s.time := rfl

@[simp] theorem setGate_management (s : State) (x : GateUnit) : (s.setGate x).management = s.management := rfl

@[simp] theorem setGate_fault (s : State) (x : GateUnit) : (s.setGate x).fault = s.fault := rfl

@[simp] theorem setGate_pool (s : State) (x : GateUnit) : (s.setGate x).pool = s.pool := rfl

@[simp] theorem setGate_domains (s : State) (x : GateUnit) : (s.setGate x).domains = s.domains := rfl

@[simp] theorem setGate_noDomain (s : State) (x : GateUnit) : (s.setGate x).noDomain = s.noDomain := rfl

@[simp] theorem setGate_session (s : State) (x : GateUnit) : (s.setGate x).session = s.session := rfl

@[simp] theorem setGate_notice (s : State) (x : GateUnit) : (s.setGate x).notice = s.notice := rfl

@[simp] theorem setGate_links (s : State) (x : GateUnit) : (s.setGate x).links = s.links := rfl

@[simp] theorem setGate_upsets (s : State) (x : GateUnit) : (s.setGate x).upsets = s.upsets := rfl

@[simp] theorem setGate_pending (s : State) (x : GateUnit) : (s.setGate x).pending = s.pending := rfl

@[simp] theorem setGate_gate (s : State) (x : GateUnit) : (s.setGate x).gate = x := rfl

@[simp] theorem setGate_domain (s : State) (x : GateUnit) (k : DomainId) : (s.setGate x).domain k = s.domain k := rfl

@[simp] theorem setGate_agent (s : State) (x : GateUnit) (k : AgentId) : (s.setGate x).agent k = s.agent k := rfl

@[simp] theorem setGate_noticeAgent (s : State) (x : GateUnit) (k : AgentId) : (s.setGate x).noticeAgent k = s.noticeAgent k := rfl

@[simp] theorem setGate_link (s : State) (x : GateUnit) (k : AgentId) : (s.setGate x).link k = s.link k := rfl


/-! ### setManagement -/

@[simp] theorem setManagement_time (s : State) (x : Management) : (s.setManagement x).time = s.time := rfl

@[simp] theorem setManagement_fault (s : State) (x : Management) : (s.setManagement x).fault = s.fault := rfl

@[simp] theorem setManagement_pool (s : State) (x : Management) : (s.setManagement x).pool = s.pool := rfl

@[simp] theorem setManagement_domains (s : State) (x : Management) : (s.setManagement x).domains = s.domains := rfl

@[simp] theorem setManagement_noDomain (s : State) (x : Management) : (s.setManagement x).noDomain = s.noDomain := rfl

@[simp] theorem setManagement_session (s : State) (x : Management) : (s.setManagement x).session = s.session := rfl

@[simp] theorem setManagement_notice (s : State) (x : Management) : (s.setManagement x).notice = s.notice := rfl

@[simp] theorem setManagement_gate (s : State) (x : Management) : (s.setManagement x).gate = s.gate := rfl

@[simp] theorem setManagement_links (s : State) (x : Management) : (s.setManagement x).links = s.links := rfl

@[simp] theorem setManagement_upsets (s : State) (x : Management) : (s.setManagement x).upsets = s.upsets := rfl

@[simp] theorem setManagement_pending (s : State) (x : Management) : (s.setManagement x).pending = s.pending := rfl

@[simp] theorem setManagement_management (s : State) (x : Management) : (s.setManagement x).management = x := rfl

@[simp] theorem setManagement_domain (s : State) (x : Management) (k : DomainId) : (s.setManagement x).domain k = s.domain k := rfl

@[simp] theorem setManagement_agent (s : State) (x : Management) (k : AgentId) : (s.setManagement x).agent k = s.agent k := rfl

@[simp] theorem setManagement_noticeAgent (s : State) (x : Management) (k : AgentId) : (s.setManagement x).noticeAgent k = s.noticeAgent k := rfl

@[simp] theorem setManagement_link (s : State) (x : Management) (k : AgentId) : (s.setManagement x).link k = s.link k := rfl


/-! ### setFault -/

@[simp] theorem setFault_time (s : State) (x : FaultUnit) : (s.setFault x).time = s.time := rfl

@[simp] theorem setFault_management (s : State) (x : FaultUnit) : (s.setFault x).management = s.management := rfl

@[simp] theorem setFault_pool (s : State) (x : FaultUnit) : (s.setFault x).pool = s.pool := rfl

@[simp] theorem setFault_domains (s : State) (x : FaultUnit) : (s.setFault x).domains = s.domains := rfl

@[simp] theorem setFault_noDomain (s : State) (x : FaultUnit) : (s.setFault x).noDomain = s.noDomain := rfl

@[simp] theorem setFault_session (s : State) (x : FaultUnit) : (s.setFault x).session = s.session := rfl

@[simp] theorem setFault_notice (s : State) (x : FaultUnit) : (s.setFault x).notice = s.notice := rfl

@[simp] theorem setFault_gate (s : State) (x : FaultUnit) : (s.setFault x).gate = s.gate := rfl

@[simp] theorem setFault_links (s : State) (x : FaultUnit) : (s.setFault x).links = s.links := rfl

@[simp] theorem setFault_upsets (s : State) (x : FaultUnit) : (s.setFault x).upsets = s.upsets := rfl

@[simp] theorem setFault_pending (s : State) (x : FaultUnit) : (s.setFault x).pending = s.pending := rfl

@[simp] theorem setFault_fault (s : State) (x : FaultUnit) : (s.setFault x).fault = x := rfl

@[simp] theorem setFault_domain (s : State) (x : FaultUnit) (k : DomainId) : (s.setFault x).domain k = s.domain k := rfl

@[simp] theorem setFault_agent (s : State) (x : FaultUnit) (k : AgentId) : (s.setFault x).agent k = s.agent k := rfl

@[simp] theorem setFault_noticeAgent (s : State) (x : FaultUnit) (k : AgentId) : (s.setFault x).noticeAgent k = s.noticeAgent k := rfl

@[simp] theorem setFault_link (s : State) (x : FaultUnit) (k : AgentId) : (s.setFault x).link k = s.link k := rfl


/-! ### What a replaced entry reads as -/

@[simp] theorem setDomain_domain_same (s : State) (d : DomainId) (x : Domain) : (s.setDomain d x).domain d = x := by
  simp [State.setDomain, State.domain]

theorem setDomain_domain_ne (s : State) {d k : DomainId} (x : Domain) (h : k ≠ d) : (s.setDomain d x).domain k = s.domain k := by
  simp [State.setDomain, State.domain, look_put_ne, h]

@[simp] theorem setAgent_agent_same (s : State) (n : AgentId) (x : Agent) : (s.setAgent n x).agent n = x := by
  simp [State.setAgent, State.agent]

theorem setAgent_agent_ne (s : State) {n k : AgentId} (x : Agent) (h : k ≠ n) : (s.setAgent n x).agent k = s.agent k := by
  simp [State.setAgent, State.agent, look_put_ne, h]

@[simp] theorem setNotice_noticeAgent_same (s : State) (n : AgentId) (x : NoticeAgent) : (s.setNotice n x).noticeAgent n = x := by
  simp [State.setNotice, State.noticeAgent]

theorem setNotice_noticeAgent_ne (s : State) {n k : AgentId} (x : NoticeAgent) (h : k ≠ n) : (s.setNotice n x).noticeAgent k = s.noticeAgent k := by
  simp [State.setNotice, State.noticeAgent, look_put_ne, h]

@[simp] theorem setLink_link_same (s : State) (n : AgentId) (x : LinkPort) : (s.setLink n x).link n = x := by
  simp [State.setLink, State.link]

theorem setLink_link_ne (s : State) {n k : AgentId} (x : LinkPort) (h : k ≠ n) : (s.setLink n x).link k = s.link k := by
  simp [State.setLink, State.link, look_put_ne, h]

@[simp] theorem setAgent_era (s : State) (n : AgentId) (x : Agent) : (s.setAgent n x).session.era = s.session.era := rfl

@[simp] theorem setAgent_reports (s : State) (n : AgentId) (x : Agent) :
    (s.setAgent n x).session.reports = s.session.reports := rfl

@[simp] theorem setNotice_conditions (s : State) (n : AgentId) (x : NoticeAgent) :
    (s.setNotice n x).notice.conditions = s.notice.conditions := rfl

@[simp] theorem setNotice_reads (s : State) (n : AgentId) (x : NoticeAgent) :
    (s.setNotice n x).notice.reads = s.notice.reads := rfl

@[simp] theorem setNotice_era (s : State) (n : AgentId) (x : NoticeAgent) :
    (s.setNotice n x).notice.era = s.notice.era := rfl

@[simp] theorem setNotice_reports (s : State) (n : AgentId) (x : NoticeAgent) :
    (s.setNotice n x).notice.reports = s.notice.reports := rfl


/-! ### withTable -/

@[simp] theorem withTable_time (s : State) (d : DomainId) (t : LockTable) : (s.withTable d t).time = s.time := rfl

@[simp] theorem withTable_fault (s : State) (d : DomainId) (t : LockTable) : (s.withTable d t).fault = s.fault := rfl

@[simp] theorem withTable_noDomain (s : State) (d : DomainId) (t : LockTable) : (s.withTable d t).noDomain = s.noDomain := rfl

@[simp] theorem withTable_session (s : State) (d : DomainId) (t : LockTable) : (s.withTable d t).session = s.session := rfl

@[simp] theorem withTable_notice (s : State) (d : DomainId) (t : LockTable) : (s.withTable d t).notice = s.notice := rfl

@[simp] theorem withTable_gate (s : State) (d : DomainId) (t : LockTable) : (s.withTable d t).gate = s.gate := rfl

@[simp] theorem withTable_links (s : State) (d : DomainId) (t : LockTable) : (s.withTable d t).links = s.links := rfl

@[simp] theorem withTable_upsets (s : State) (d : DomainId) (t : LockTable) : (s.withTable d t).upsets = s.upsets := rfl

@[simp] theorem withTable_pending (s : State) (d : DomainId) (t : LockTable) : (s.withTable d t).pending = s.pending := rfl

@[simp] theorem withTable_pool (s : State) (d : DomainId) (t : LockTable) : (s.withTable d t).pool = t.pool := rfl

@[simp] theorem withTable_domain_same (s : State) (d : DomainId) (t : LockTable) : (s.withTable d t).domain d = t.dom := by
  simp [State.withTable, State.domain]

theorem withTable_domain_ne (s : State) {d k : DomainId} (t : LockTable) (h : k ≠ d) :
    (s.withTable d t).domain k = s.domain k := by
  simp [State.withTable, State.domain, look_put_ne, h]

@[simp] theorem withTable_agent (s : State) (d : DomainId) (t : LockTable) (k : AgentId) :
    (s.withTable d t).agent k = s.agent k := rfl

@[simp] theorem withTable_noticeAgent (s : State) (d : DomainId) (t : LockTable) (k : AgentId) :
    (s.withTable d t).noticeAgent k = s.noticeAgent k := rfl

@[simp] theorem withTable_link (s : State) (d : DomainId) (t : LockTable) (k : AgentId) :
    (s.withTable d t).link k = s.link k := rfl

@[simp] theorem table_dom (s : State) (d : DomainId) : (s.table d).dom = s.domain d := rfl

@[simp] theorem table_pool (s : State) (d : DomainId) : (s.table d).pool = s.pool := rfl

/-- An event of a domain changes the management port at most by ending the walk of that domain. -/
theorem withTable_management (s : State) (d : DomainId) (t : LockTable) :
    (s.withTable d t).management = s.management ∨ (s.withTable d t).management = endWalk s.management d := by
  simp only [State.withTable]
  split
  · exact .inr rfl
  · exact .inl rfl

end Sys2Proof.Machine
end

