-- ==== Sys2Proof/Laws/Lock.lean ====
section
/-! SUPPORT. What every shared operation of the lock table keeps: `Kept t u` says that from `t` to `u` the configuration and the
queues of other units' items stand, tokens never fall, the pool keeps its canonical form, slots outside the domain's banks are
untouched, and the collections stay within the banks. One lemma per operation, then the events are compositions. -/

namespace Sys2Proof.Machine

/-- What every operation of a domain keeps. -/
structure Kept (t u : LockTable) : Prop where
  config : u.dom.configuration = t.dom.configuration
  era : u.dom.era = t.dom.era
  reclaimed : u.dom.reclaimed = t.dom.reclaimed
  fromSession : u.dom.fromSession = t.dom.fromSession
  fromNotice : u.dom.fromNotice = t.dom.fromNotice
  checks : u.dom.checks = t.dom.checks
  dones : u.dom.dones = t.dom.dones
  verdicts : u.dom.verdicts = t.dom.verdicts
  tokens : t.dom.tokenCounter.toNat ≤ u.dom.tokenCounter.toNat
  exhausted : t.dom.exhausted = true → u.dom.exhausted = true
  wf : Pool.wf t.pool = true → Pool.wf u.pool = true
  others : ∀ i, inBanks t.dom.banks i = false → poolGet u.pool i = poolGet t.pool i
  owned : t.dom.slotsOwned = true → u.dom.slotsOwned = true
  state : u.dom.state = t.dom.state ∨ (t.dom.serves = true ∧ u.dom.state = .quarantined) ∨
    (t.dom.serves = true ∧ u.dom.state = .disabled ∧ u.dom.noSlots = true)
  stays : t.dom.state = .disabled → t.dom.noSlots = true → u.dom.noSlots = true

namespace Kept

theorem banks {t u : LockTable} (h : Kept t u) : u.dom.banks = t.dom.banks :=
  congrArg (fun c : Page × Page × BitVec 16 × Policy × BitVec 16 => c.2.2.1) h.config

theorem refl (t : LockTable) : Kept t t where
  config := rfl
  era := rfl
  reclaimed := rfl
  fromSession := rfl
  fromNotice := rfl
  checks := rfl
  dones := rfl
  verdicts := rfl
  tokens := le_refl _
  exhausted := id
  wf := id
  others := fun _ _ => rfl
  owned := id
  state := .inl rfl
  stays := fun _ h => h

theorem trans {t u v : LockTable} (h : Kept t u) (g : Kept u v) : Kept t v where
  config := g.config.trans h.config
  era := g.era.trans h.era
  reclaimed := g.reclaimed.trans h.reclaimed
  fromSession := g.fromSession.trans h.fromSession
  fromNotice := g.fromNotice.trans h.fromNotice
  checks := g.checks.trans h.checks
  dones := g.dones.trans h.dones
  verdicts := g.verdicts.trans h.verdicts
  tokens := le_trans h.tokens g.tokens
  exhausted := fun e => g.exhausted (h.exhausted e)
  wf := fun w => g.wf (h.wf w)
  others := fun i hi => (g.others i (by rw [h.banks]; exact hi)).trans (h.others i hi)
  owned := fun o => g.owned (h.owned o)
  state := by
    have serves : ∀ x y : Domain, x.state = y.state → x.serves = y.serves := by
      intro x y e; simp [Domain.serves, e]
    rcases h.state with hs | ⟨hq, hs⟩ | ⟨hq, hs, hn⟩
    · rcases g.state with gs | ⟨gq, gs⟩ | ⟨gq, gs, gn⟩
      · exact .inl (gs.trans hs)
      · exact .inr (.inl ⟨(serves _ _ hs) ▸ gq, gs⟩)
      · exact .inr (.inr ⟨(serves _ _ hs) ▸ gq, gs, gn⟩)
    · rcases g.state with gs | ⟨gq, _⟩ | ⟨gq, _, _⟩
      · exact .inr (.inl ⟨hq, gs.trans hs⟩)
      · simp [Domain.serves, hs] at gq
      · simp [Domain.serves, hs] at gq
    · rcases g.state with gs | ⟨gq, _⟩ | ⟨gq, _, _⟩
      · exact .inr (.inr ⟨hq, gs.trans hs, g.stays hs hn⟩)
      · simp [Domain.serves, hs] at gq
      · simp [Domain.serves, hs] at gq
  stays := by
    intro d n
    rcases h.state with hs | ⟨hq, _⟩ | ⟨hq, _, _⟩
    · exact g.stays (hs.trans d) (h.stays d n)
    · simp [Domain.serves, d] at hq
    · simp [Domain.serves, d] at hq

end Kept

/-! ## Steps that write one slot, or the domain's own fields -/

/-- The domain's fields other than those `Kept` speaks of may change at will. -/
theorem kept_dom {t : LockTable} {x : Domain} (hc : x.configuration = t.dom.configuration) (he : x.era = t.dom.era)
    (hr : x.reclaimed = t.dom.reclaimed) (hs : x.fromSession = t.dom.fromSession) (hn : x.fromNotice = t.dom.fromNotice)
    (hk : x.checks = t.dom.checks) (hd : x.dones = t.dom.dones) (hv : x.verdicts = t.dom.verdicts)
    (ht : x.tokenCounter = t.dom.tokenCounter) (hx : x.exhausted = t.dom.exhausted) (hf : x.freeList = t.dom.freeList)
    (hw : x.waitQueue = t.dom.waitQueue) (ho : x.occupancy = t.dom.occupancy) (hm : x.tokenMap = t.dom.tokenMap)
    (hst : x.state = t.dom.state) : Kept t { t with dom := x } where
  config := hc
  era := he
  reclaimed := hr
  fromSession := hs
  fromNotice := hn
  checks := hk
  dones := hd
  verdicts := hv
  tokens := by simp [ht]
  exhausted := by simp [hx]
  wf := id
  others := fun _ _ => rfl
  owned := by
    have hb : x.banks = t.dom.banks := congrArg (fun c : Page × Page × BitVec 16 × Policy × BitVec 16 => c.2.2.1) hc
    simp [Domain.slotsOwned, hb, hf, hw, ho, hm]
  state := .inl hst
  stays := by simp [Domain.noSlots, hf, hw, ho, hm]

/-- A slot of the domain written. -/
theorem kept_put {t : LockTable} {i : SlotId} (hi : inBanks t.dom.banks i = true) (x : Slot) :
    Kept t { t with pool := poolPut t.pool i x } where
  config := rfl
  era := rfl
  reclaimed := rfl
  fromSession := rfl
  fromNotice := rfl
  checks := rfl
  dones := rfl
  verdicts := rfl
  tokens := le_refl _
  exhausted := id
  wf := fun w => wf_poolPut w i x
  others := fun j hj => poolGet_poolPut_ne _ _ (by rintro rfl; simp [hi] at hj)
  owned := id
  state := .inl rfl
  stays := fun _ h => h

/-- The collections changed within the banks, in a domain that is not DISABLED. -/
theorem kept_collections {t : LockTable} (fl wq oc : List SlotId) (tm : List (Token × SlotId))
    (hf : t.dom.slotsOwned = true → fl.all (inBanks t.dom.banks) = true)
    (hw : t.dom.slotsOwned = true → wq.all (inBanks t.dom.banks) = true)
    (ho : t.dom.slotsOwned = true → oc.all (inBanks t.dom.banks) = true)
    (hm : t.dom.slotsOwned = true → tm.all (fun p => inBanks t.dom.banks p.2) = true)
    (hs : t.dom.state ≠ .disabled) :
    Kept t { t with dom := { t.dom with freeList := fl, waitQueue := wq, occupancy := oc, tokenMap := tm } } where
  config := rfl
  era := rfl
  reclaimed := rfl
  fromSession := rfl
  fromNotice := rfl
  checks := rfl
  dones := rfl
  verdicts := rfl
  tokens := le_refl _
  exhausted := id
  wf := id
  others := fun _ _ => rfl
  owned := by
    intro h
    simp only [Domain.slotsOwned, Bool.and_eq_true]
    exact ⟨⟨⟨hf h, hw h⟩, ho h⟩, hm h⟩
  state := .inl rfl
  stays := fun h => absurd h hs

/-! ## Reports, messages, quarantine -/

theorem kept_report (e : DomainEnv) (k : EventKind) (a : Option AgentId) (i : Option SlotId) (x : Option AccessKind)
    (t : LockTable) : Kept t (report e k a i x t) :=
  kept_dom rfl rfl rfl rfl rfl rfl rfl rfl rfl rfl rfl rfl rfl rfl rfl

theorem kept_tell (b : NoticeBody) (t : LockTable) : Kept t (tell b t) :=
  kept_dom rfl rfl rfl rfl rfl rfl rfl rfl rfl rfl rfl rfl rfl rfl rfl

theorem kept_reportLive (a : AgentId) (c : LiveChange) (t : LockTable) : Kept t (reportLive a c t) :=
  kept_dom rfl rfl rfl rfl rfl rfl rfl rfl rfl rfl rfl rfl rfl rfl rfl

theorem kept_returnResult (q : LockRequest) (r : Response) (c : Option LiveChange) (t : LockTable) :
    Kept t (returnResult q r c t) :=
  kept_dom rfl rfl rfl rfl rfl rfl rfl rfl rfl rfl rfl rfl rfl rfl rfl

theorem kept_liveUp (a : AgentId) (t : LockTable) : Kept t (liveUp a t) :=
  kept_dom rfl rfl rfl rfl rfl rfl rfl rfl rfl rfl rfl rfl rfl rfl rfl

theorem kept_liveDown (a : AgentId) (t : LockTable) : Kept t (liveDown a t) :=
  kept_dom rfl rfl rfl rfl rfl rfl rfl rfl rfl rfl rfl rfl rfl rfl rfl

theorem kept_quarantine (t : LockTable) : Kept t (quarantine t) := by
  unfold quarantine
  split
  · next h =>
    refine { Kept.refl t with config := rfl, state := .inr (.inl ⟨h, rfl⟩), owned := id, stays := fun _ n => n }
  · exact Kept.refl t

/-! ## Slot reads and writes -/

theorem kept_setRecord {t : LockTable} {i : SlotId} (hi : inBanks t.dom.banks i = true) (r : Record) :
    Kept t (setRecord i r t) :=
  kept_put hi _

theorem kept_probeRecord (e : DomainEnv) {t : LockTable} {i : SlotId} (hi : inBanks t.dom.banks i = true) :
    Kept t (probeRecord e i t).2 ∧ (probeRecord e i t).2.dom.state = t.dom.state := by
  simp only [probeRecord]
  split
  · exact ⟨Kept.refl t, rfl⟩
  · exact ⟨(kept_put hi _).trans (kept_report ..), rfl⟩
  · exact ⟨kept_report .., rfl⟩

theorem kept_repairDirectory (e : DomainEnv) {t : LockTable} {i : SlotId} (hi : inBanks t.dom.banks i = true) :
    Kept t (repairDirectory e i t) ∧ (repairDirectory e i t).dom.state = t.dom.state := by
  simp only [repairDirectory]
  split
  · exact ⟨Kept.refl t, rfl⟩
  · exact ⟨(kept_put hi _).trans (kept_report ..), rfl⟩

theorem kept_probe (e : DomainEnv) {t : LockTable} {i : SlotId} (hi : inBanks t.dom.banks i = true) :
    Kept t (probe e i t).2 ∧ (probe e i t).2.dom.state = t.dom.state := by
  have h := kept_repairDirectory e hi
  have hi' : inBanks (repairDirectory e i t).dom.banks i = true := by rw [h.1.banks]; exact hi
  have g := kept_probeRecord e hi'
  simp only [probe]
  split
  · exact h
  · exact ⟨h.1.trans g.1, g.2.trans h.2⟩

/-- What a part of an event keeps: where it goes on, the domain's state as well. -/
def RanKept {α : Type} (t : LockTable) : Ran α → Prop
  | .ok _ u => Kept t u ∧ u.dom.state = t.dom.state
  | .lost u => Kept t u

theorem RanKept.table {α : Type} {t : LockTable} {r : Ran α} (h : RanKept t r) : Kept t r.table := by
  cases r with
  | ok a u => exact h.1
  | lost u => exact h

theorem RanKept.bind {α β : Type} {t : LockTable} {r : Ran α} {f : α → LockTable → Ran β} (h : RanKept t r)
    (g : ∀ a u, Kept t u → u.dom.state = t.dom.state → RanKept u (f a u)) : RanKept t (r.bind f) := by
  cases r with
  | ok a u =>
    have k := g a u h.1 h.2
    simp only [Ran.bind]
    cases hr : f a u with
    | ok b v =>
      rw [hr] at k
      exact ⟨h.1.trans k.1, k.2.trans h.2⟩
    | lost v =>
      rw [hr] at k
      exact h.1.trans k
  | lost u => exact h

theorem RanKept.table_bind {α β : Type} {t : LockTable} {r : Ran α} {f : α → LockTable → Ran β} (h : RanKept t r)
    (g : ∀ a u, Kept t u → u.dom.state = t.dom.state → Kept u (f a u).table) : Kept t (r.bind f).table := by
  cases r with
  | ok a u => exact h.1.trans (g a u h.1 h.2)
  | lost u => exact h

theorem kept_readRecord (e : DomainEnv) {t : LockTable} {i : SlotId} (hi : inBanks t.dom.banks i = true) :
    RanKept t (readRecord e i t) := by
  have h := kept_probeRecord e hi
  simp only [readRecord]
  split
  · exact h
  · exact h.1.trans (kept_quarantine _)

theorem kept_readSlot (e : DomainEnv) {t : LockTable} {i : SlotId} (hi : inBanks t.dom.banks i = true) :
    RanKept t (readSlot e i t) := by
  have h := kept_probe e hi
  simp only [readSlot]
  split
  · next heq => rw [heq] at h; exact h
  · next heq => rw [heq] at h; exact h
  · next heq => rw [heq] at h; exact h.1.trans (kept_quarantine _)

theorem kept_readAll (e : DomainEnv) {l : List SlotId} {t : LockTable} (hl : l.all (inBanks t.dom.banks) = true) :
    RanKept t (readAll e l t) := by
  induction l generalizing t with
  | nil => exact ⟨Kept.refl t, rfl⟩
  | cons i l ih =>
    simp only [List.all_cons, Bool.and_eq_true] at hl
    apply (kept_readRecord e hl.1).bind
    intro r u hu _
    have hl' : l.all (inBanks u.dom.banks) = true := by rw [hu.banks]; exact hl.2
    apply (ih hl').bind
    intro l' v _ _
    exact ⟨Kept.refl v, rfl⟩

/-! ## Sets of slots -/

theorem all_dropSlot {f : SlotId → Bool} {l : List SlotId} (h : l.all f = true) (i : SlotId) :
    (dropSlot i l).all f = true := by
  simp only [List.all_eq_true, dropSlot, List.mem_filter] at *
  exact fun x hx => h x hx.1

theorem all_insertSlot {f : SlotId → Bool} {l : List SlotId} (h : l.all f = true) {i : SlotId} (hi : f i = true) :
    (insertSlot i l).all f = true := by
  induction l with
  | nil => simp [insertSlot, hi]
  | cons j l ih =>
    simp only [List.all_cons, Bool.and_eq_true] at h
    simp only [insertSlot]
    split
    · simp [hi, h.1, h.2]
    · split
      · simp [h.1, h.2]
      · simp [h.1, ih h.2]

theorem all_filter {α : Type} {f g : α → Bool} {l : List α} (h : l.all f = true) : (l.filter g).all f = true := by
  simp only [List.all_eq_true, List.mem_filter] at *
  exact fun x hx => h x hx.1

/-- The parts of `slotsOwned`. -/
theorem slotsOwned_iff (x : Domain) : x.slotsOwned = true ↔
    x.freeList.all (inBanks x.banks) = true ∧ x.waitQueue.all (inBanks x.banks) = true ∧
      x.occupancy.all (inBanks x.banks) = true ∧ x.tokenMap.all (fun p => inBanks x.banks p.2) = true := by
  simp [Domain.slotsOwned, and_assoc]

/-! ## Tokens, notices -/

theorem kept_takeToken (e : DomainEnv) (a : AgentId) (i : SlotId) (t : LockTable) :
    Kept t (takeToken e a i t).2 ∧ (takeToken e a i t).2.dom.state = t.dom.state := by
  simp only [takeToken]
  split
  · exact ⟨{ Kept.refl t with config := rfl, exhausted := fun _ => rfl, state := .inl rfl, owned := id, stays := fun _ n => n },
      rfl⟩
  · next h =>
    refine ⟨{ Kept.refl t with config := rfl, tokens := ?_, state := .inl rfl, owned := id, stays := fun _ n => n }, rfl⟩
    have hk : t.dom.tokenCounter.toNat ≠ 2 ^ 40 - 1 := by
      intro e'
      apply h
      apply BitVec.eq_of_toNat_eq
      simp [Config.lastToken, e']
    have hlt := t.dom.tokenCounter.isLt
    show t.dom.tokenCounter.toNat ≤ (t.dom.tokenCounter + 1).toNat
    rw [BitVec.toNat_add, show (1 : Token).toNat = 1 from rfl]
    omega

theorem kept_post {t : LockTable} {i : SlotId} (hi : inBanks t.dom.banks i = true) (k : NoticeKind) (x : Option Token) :
    Kept t (post i k x t) := by
  simp only [post]
  exact (kept_setRecord hi _).trans (kept_tell _ _)

theorem state_post (i : SlotId) (k : NoticeKind) (x : Option Token) (t : LockTable) :
    (post i k x t).dom.state = t.dom.state := rfl

theorem kept_withdraw {t : LockTable} {i : SlotId} (hi : inBanks t.dom.banks i = true) :
    Kept t (withdraw i t) ∧ (withdraw i t).dom.state = t.dom.state := by
  simp only [withdraw]
  repeat' split
  all_goals first
    | exact ⟨(kept_setRecord hi _).trans (kept_tell _ _), rfl⟩
    | exact ⟨Kept.refl t, rfl⟩

theorem kept_clearNotices {t : LockTable} {i : SlotId} (hi : inBanks t.dom.banks i = true) :
    Kept t (clearNotices i t) ∧ (clearNotices i t).dom.state = t.dom.state := by
  simp only [clearNotices]
  split
  · exact ⟨(kept_setRecord hi _).trans (kept_tell _ _), rfl⟩
  · exact ⟨Kept.refl t, rfl⟩

/-! ## Allocation, retirement, close -/

theorem kept_allocate (e : DomainEnv) {t : LockTable} {i : SlotId} (hi : inBanks t.dom.banks i = true) (r : Record)
    (hs : t.dom.state ≠ .disabled) : RanKept t (allocate e i r t) := by
  have h := kept_repairDirectory e hi
  have hi' : inBanks (repairDirectory e i t).dom.banks i = true := by rw [h.1.banks]; exact hi
  have k : RanKept (repairDirectory e i t) (allocate e i r t) := by
    simp only [allocate]
    apply (kept_readRecord e hi').bind
    intro _ u hu su
    have hb : inBanks u.dom.banks i = true := by rw [hu.banks]; exact hi'
    have hsu : u.dom.state ≠ .disabled := by rw [su, h.2]; exact hs
    refine ⟨?_, rfl⟩
    have h1 := kept_collections (t := u) u.dom.freeList.tail u.dom.waitQueue u.dom.occupancy u.dom.tokenMap
      (fun o => by
        have := ((slotsOwned_iff _).mp o).1
        simp only [List.all_eq_true] at *
        exact fun x hx => this x (List.mem_of_mem_tail hx))
      (fun o => ((slotsOwned_iff _).mp o).2.1) (fun o => ((slotsOwned_iff _).mp o).2.2.1)
      (fun o => ((slotsOwned_iff _).mp o).2.2.2) hsu
    exact (h1.trans (kept_put (t := { u with dom := { u.dom with freeList := u.dom.freeList.tail } }) hb _)).trans
      (kept_liveUp _ _)
  cases hr : allocate e i r t with
  | ok a u => rw [hr] at k; exact ⟨h.1.trans k.1, k.2.trans h.2⟩
  | lost u => rw [hr] at k; exact h.1.trans k

theorem kept_retire (e : DomainEnv) {t : LockTable} {i : SlotId} (hi : inBanks t.dom.banks i = true)
    (hs : t.dom.state ≠ .disabled) : RanKept t (retire e i t) := by
  apply (kept_readSlot e hi).bind
  intro _ u hu su
  have hb : inBanks u.dom.banks i = true := by rw [hu.banks]; exact hi
  have hsu : u.dom.state ≠ .disabled := by rw [su]; exact hs
  refine ⟨?_, rfl⟩
  have h1 := kept_collections (t := u) (u.dom.freeList ++ [i]) (dropSlot i u.dom.waitQueue) (dropSlot i u.dom.occupancy)
    (u.dom.tokenMap.filter (fun p => p.2 != i))
    (fun o => by have := ((slotsOwned_iff _).mp o).1; simp [this, hb])
    (fun o => all_dropSlot ((slotsOwned_iff _).mp o).2.1 i) (fun o => all_dropSlot ((slotsOwned_iff _).mp o).2.2.1 i)
    (fun o => all_filter ((slotsOwned_iff _).mp o).2.2.2) hsu
  exact h1.trans (kept_put (t := { u with dom := { u.dom with
    freeList := u.dom.freeList ++ [i], waitQueue := dropSlot i u.dom.waitQueue, occupancy := dropSlot i u.dom.occupancy,
    tokenMap := u.dom.tokenMap.filter (fun p => p.2 != i) } }) hb _)

theorem kept_becomeDisabled {t : LockTable} (h : t.dom.serves = true) : Kept t (becomeDisabled t) :=
  { Kept.refl t with
    config := rfl, owned := fun _ => rfl, state := .inr (.inr ⟨h, rfl, rfl⟩), stays := fun _ _ => rfl }

theorem kept_completeClose (t : LockTable) : Kept t (completeClose t) := by
  simp only [completeClose]
  split
  · next h => exact kept_becomeDisabled (by simp [Domain.serves, h.1])
  · exact Kept.refl t

/-! ## The grant pass -/

theorem serves_not_disabled {x : Domain} (h : x.serves = true) : x.state ≠ .disabled := by
  intro e; simp [Domain.serves, e] at h

theorem kept_grantOne (e : DomainEnv) {t : LockTable} {i : SlotId} (r : Record) (hi : inBanks t.dom.banks i = true)
    (hs : t.dom.state ≠ .disabled) : Kept t (grantOne e i r t) ∧ (grantOne e i r t).dom.state = t.dom.state := by
  have h := kept_takeToken e r.owner i t
  have hi1 : inBanks (takeToken e r.owner i t).2.dom.banks i = true := by rw [h.1.banks]; exact hi
  simp only [grantOne]
  split
  · simp only [grantConverting]
    generalize ht : takeToken e r.owner i t = kt at h hi1
    obtain ⟨k, u⟩ := kt
    simp only at h hi1 ⊢
    have hsu : u.dom.state ≠ .disabled := by rw [h.2]; exact hs
    have h2 := kept_setRecord hi1 { r with state := .held, mode := .exclusive, waitDeadline := none, token := some k }
    have h3 := kept_collections (t := setRecord i { r with state := .held, mode := .exclusive, waitDeadline := none, token := some k } u)
      u.dom.freeList (dropSlot i u.dom.waitQueue) u.dom.occupancy (dropToken r.token u.dom.tokenMap ++ [(k, i)])
      (fun o => ((slotsOwned_iff _).mp o).1) (fun o => all_dropSlot ((slotsOwned_iff _).mp o).2.1 i)
      (fun o => ((slotsOwned_iff _).mp o).2.2.1)
      (fun o => by
        have := all_filter (g := fun p => some p.1 != r.token) ((slotsOwned_iff _).mp o).2.2.2
        simp only [dropToken, List.all_append, Bool.and_eq_true]
        refine ⟨this, ?_⟩
        rw [List.all_cons, List.all_nil, Bool.and_true]
        exact hi1) hsu
    exact ⟨((h.1.trans h2).trans h3).trans (kept_post (by exact hi1) _ _), h.2⟩
  · simp only [grantWaiting]
    generalize ht : takeToken e r.owner i t = kt at h hi1
    obtain ⟨k, u⟩ := kt
    simp only at h hi1 ⊢
    have hsu : u.dom.state ≠ .disabled := by rw [h.2]; exact hs
    have h2 := kept_setRecord hi1 { r with state := .held, waitDeadline := none, token := some k }
    have h3 := kept_collections (t := setRecord i { r with state := .held, waitDeadline := none, token := some k } u)
      u.dom.freeList (dropSlot i u.dom.waitQueue) (insertSlot i u.dom.occupancy) (u.dom.tokenMap ++ [(k, i)])
      (fun o => ((slotsOwned_iff _).mp o).1) (fun o => all_dropSlot ((slotsOwned_iff _).mp o).2.1 i)
      (fun o => all_insertSlot ((slotsOwned_iff _).mp o).2.2.1 hi1)
      (fun o => by
        simp only [List.all_append, Bool.and_eq_true]
        refine ⟨((slotsOwned_iff _).mp o).2.2.2, ?_⟩
        rw [List.all_cons, List.all_nil, Bool.and_true]
        exact hi1) hsu
    exact ⟨((h.1.trans h2).trans h3).trans (kept_post (by exact hi1) _ _), h.2⟩

theorem kept_passFrom (e : DomainEnv) (l : List SlotId) (ahead : List (SlotId × Record)) {t : LockTable}
    (hl : l.all (inBanks t.dom.banks) = true) (ho : t.dom.slotsOwned = true) (hs : t.dom.state ≠ .disabled) :
    RanKept t (passFrom e l ahead t) := by
  induction l generalizing t ahead with
  | nil => exact ⟨Kept.refl t, rfl⟩
  | cons i l ih =>
    simp only [List.all_cons, Bool.and_eq_true] at hl
    apply (kept_readRecord e hl.1).bind
    intro r u hu su
    have hou := hu.owned ho
    apply (kept_readAll e ((slotsOwned_iff _).mp hou).2.2.1).bind
    intro holds v hv sv
    have hb : v.dom.banks = t.dom.banks := hv.banks.trans hu.banks
    have hlv : l.all (inBanks v.dom.banks) = true := by rw [hb]; exact hl.2
    have hov := hv.owned hou
    have hsv : v.dom.state ≠ .disabled := by rw [sv, su]; exact hs
    split
    · split
      · exact ⟨Kept.refl v, rfl⟩
      · have g := kept_grantOne e (t := v) (i := i) r (by rw [hb]; exact hl.1) hsv
        have k := ih ahead (t := grantOne e i r v) (by rw [g.1.banks]; exact hlv) (g.1.owned hov) (by rw [g.2]; exact hsv)
        cases hr : passFrom e l ahead (grantOne e i r v) with
        | ok a w => rw [hr] at k; exact ⟨g.1.trans k.1, k.2.trans g.2⟩
        | lost w => rw [hr] at k; exact g.1.trans k
    · exact ih _ hlv hov hsv

theorem kept_grantPass (e : DomainEnv) {t : LockTable} (ho : t.dom.slotsOwned = true) : RanKept t (grantPass e t) := by
  simp only [grantPass]
  split
  · next h => exact kept_passFrom e _ _ ((slotsOwned_iff _).mp ho).2.1 ho (serves_not_disabled h)
  · exact ⟨Kept.refl t, rfl⟩

/-! ## Draining -/

theorem kept_enterDraining (e : DomainEnv) {t : LockTable} {i : SlotId} (hi : inBanks t.dom.banks i = true) :
    Kept t (enterDraining e i t) :=
  kept_setRecord hi _

theorem kept_dropOccupancy {t : LockTable} (i : SlotId) (hs : t.dom.state ≠ .disabled) :
    Kept t { t with dom := { t.dom with occupancy := dropSlot i t.dom.occupancy } } :=
  kept_collections t.dom.freeList t.dom.waitQueue (dropSlot i t.dom.occupancy) t.dom.tokenMap
    (fun o => ((slotsOwned_iff _).mp o).1) (fun o => ((slotsOwned_iff _).mp o).2.1)
    (fun o => all_dropSlot ((slotsOwned_iff _).mp o).2.2.1 i) (fun o => ((slotsOwned_iff _).mp o).2.2.2) hs

theorem kept_dropWait {t : LockTable} (i : SlotId) (hs : t.dom.state ≠ .disabled) :
    Kept t { t with dom := { t.dom with waitQueue := dropSlot i t.dom.waitQueue } } :=
  kept_collections t.dom.freeList (dropSlot i t.dom.waitQueue) t.dom.occupancy t.dom.tokenMap
    (fun o => ((slotsOwned_iff _).mp o).1) (fun o => all_dropSlot ((slotsOwned_iff _).mp o).2.1 i)
    (fun o => ((slotsOwned_iff _).mp o).2.2.1) (fun o => ((slotsOwned_iff _).mp o).2.2.2) hs

/-- Going on from a state already reached. -/
theorem RanKept.after {α : Type} {t u : LockTable} {r : Ran α} (h : Kept t u) (hs : u.dom.state = t.dom.state)
    (k : RanKept u r) : RanKept t r := by
  cases r with
  | ok a w => exact ⟨h.trans k.1, k.2.trans hs⟩
  | lost w => exact h.trans k

theorem kept_leaveDraining (e : DomainEnv) {t : LockTable} {i : SlotId} (hi : inBanks t.dom.banks i = true)
    (hs : t.dom.state ≠ .disabled) : RanKept t (leaveDraining e i t) := by
  have h1 := kept_dropOccupancy i hs
  have h2 := kept_setRecord (t := { t with dom := { t.dom with occupancy := dropSlot i t.dom.occupancy } }) hi
    { recordOf t.pool i with drainDeadline := none }
  simp only [leaveDraining]
  refine RanKept.after (h1.trans h2) rfl ?_
  split
  · exact ⟨kept_setRecord (by exact hi) _, rfl⟩
  · exact kept_retire e (by exact hi) hs

theorem kept_endDrain (e : DomainEnv) {t : LockTable} {i : SlotId} (hi : inBanks t.dom.banks i = true)
    (ho : t.dom.slotsOwned = true) (hs : t.dom.state ≠ .disabled) : Kept t (endDrain e i t).table := by
  apply (kept_leaveDraining e hi hs).table_bind
  intro _ u hu _
  apply (kept_grantPass e (hu.owned ho)).table_bind
  intro _ v _ _
  exact kept_completeClose v

/-! ## Release -/

theorem kept_unhold {t : LockTable} {i : SlotId} (r : Record) (hi : inBanks t.dom.banks i = true)
    (hs : t.dom.state ≠ .disabled) : Kept t (unhold i r t) := by
  have h1 := kept_collections (t := t) t.dom.freeList (dropSlot i t.dom.waitQueue) t.dom.occupancy
    (dropToken r.token t.dom.tokenMap) (fun o => ((slotsOwned_iff _).mp o).1)
    (fun o => all_dropSlot ((slotsOwned_iff _).mp o).2.1 i) (fun o => ((slotsOwned_iff _).mp o).2.2.1)
    (fun o => all_filter ((slotsOwned_iff _).mp o).2.2.2) hs
  exact h1.trans (kept_setRecord (by exact hi) _)

theorem kept_reportRevocation {t : LockTable} {i : SlotId} (a : AgentId) (hi : inBanks t.dom.banks i = true)
    (revoked : Option Bool) :
    Kept t (reportRevocation i a revoked t) ∧ (reportRevocation i a revoked t).dom.state = t.dom.state := by
  match revoked with
  | none => exact ⟨Kept.refl t, rfl⟩
  | some false => exact ⟨kept_reportLive _ _ _, rfl⟩
  | some true => exact ⟨(kept_reportLive a .down t).trans (kept_post (by exact hi) _ _), rfl⟩

theorem kept_releaseHeld (e : DomainEnv) {t : LockTable} {i : SlotId} (r : Record) (revoked : Option Bool)
    (hi : inBanks t.dom.banks i = true) (ho : t.dom.slotsOwned = true) (hs : t.dom.state ≠ .disabled) :
    Kept t (releaseHeld e i r revoked t).table := by
  have h1 := kept_unhold r hi hs
  have h2 := kept_withdraw (t := unhold i r t) (i := i) (by rw [h1.banks]; exact hi)
  have h3 := (h1.trans h2.1).trans (kept_liveDown r.owner (withdraw i (unhold i r t)))
  have h4 := kept_reportRevocation r.owner (t := liveDown r.owner (withdraw i (unhold i r t))) (i := i)
    (by rw [h3.banks]; exact hi) revoked
  have h14 := h3.trans h4.1
  have hs4 : (reportRevocation i r.owner revoked (liveDown r.owner (withdraw i (unhold i r t)))).dom.state = t.dom.state :=
    h4.2.trans h2.2
  simp only [releaseHeld]
  generalize reportRevocation i r.owner revoked (liveDown r.owner (withdraw i (unhold i r t))) = u at h14 hs4
  have h5 := h14.trans (kept_enterDraining e (t := u) (i := i) (by rw [h14.banks]; exact hi))
  have hs5 : (enterDraining e i u).dom.state ≠ .disabled := by
    have : (enterDraining e i u).dom.state = t.dom.state := hs4
    rw [this]; exact hs
  split
  · exact h5.trans (kept_endDrain e (by rw [h5.banks]; exact hi) (h5.owned ho) hs5)
  · split
    · exact h5.trans (kept_grantPass e (h5.owned ho)).table
    · exact h5

theorem kept_cancel (e : DomainEnv) {t : LockTable} {i : SlotId} (r : Record) (hi : inBanks t.dom.banks i = true)
    (ho : t.dom.slotsOwned = true) (hs : t.dom.state ≠ .disabled) : Kept t (cancel e i r t).table := by
  have h1 := (kept_dropWait i hs).trans (kept_liveDown r.owner { t with dom := { t.dom with waitQueue := dropSlot i t.dom.waitQueue } })
  simp only [cancel]
  refine h1.trans ?_
  apply (kept_retire e (by rw [h1.banks]; exact hi) (by exact hs)).table_bind
  intro _ u hu _
  apply (kept_grantPass e (hu.owned (h1.owned ho))).table_bind
  intro _ v _ _
  exact kept_completeClose v

/-! ## Reclaim -/

theorem kept_reclaimVisit (e : DomainEnv) {t : LockTable} {i : SlotId} (hi : inBanks t.dom.banks i = true)
    (hs : t.dom.state ≠ .disabled) : RanKept t (reclaimVisit e i t) := by
  apply (kept_readRecord e hi).bind
  intro r u hu su
  have hiu : inBanks u.dom.banks i = true := by rw [hu.banks]; exact hi
  have hsu : u.dom.state ≠ .disabled := by rw [su]; exact hs
  have held : RanKept u
      (let t := enterDraining e i (reportLive r.owner .down (liveDown r.owner (clearNotices i (unhold i r u))))
       if r.reads = 0 ∧ r.writes = 0 then leaveDraining e i t else .ok () t) := by
    have h1 := kept_unhold r hiu hsu
    have hi1 : inBanks (unhold i r u).dom.banks i = true := by rw [h1.banks]; exact hiu
    have h2 := kept_clearNotices hi1
    have h3 := (h1.trans h2.1).trans ((kept_liveDown r.owner _).trans (kept_reportLive r.owner .down _))
    have hi3 : inBanks (reportLive r.owner .down (liveDown r.owner (clearNotices i (unhold i r u)))).dom.banks i = true := by
      rw [h3.banks]; exact hiu
    have h4 := h3.trans (kept_enterDraining e hi3)
    have hs4 : (enterDraining e i (reportLive r.owner .down (liveDown r.owner (clearNotices i (unhold i r u))))).dom.state =
        u.dom.state := h2.2
    refine RanKept.after h4 hs4 ?_
    split
    · exact kept_leaveDraining e (by rw [h4.banks]; exact hiu) (by rw [hs4]; exact hsu)
    · exact ⟨Kept.refl _, rfl⟩
  split
  · have h1 := ((kept_dropWait i hsu).trans (kept_liveDown r.owner _)).trans (kept_reportLive r.owner .down _)
    exact RanKept.after h1 rfl (kept_retire e (by rw [h1.banks]; exact hiu) hsu)
  · exact held
  · exact held
  · exact kept_clearNotices hiu
  · have h1 := kept_clearNotices hiu
    exact RanKept.after h1.1 h1.2 (kept_retire e (by rw [h1.1.banks]; exact hiu) (by rw [h1.2]; exact hsu))
  · exact ⟨Kept.refl u, rfl⟩

theorem kept_reclaimAll (e : DomainEnv) {l : List SlotId} {t : LockTable} (hl : l.all (inBanks t.dom.banks) = true)
    (hs : t.dom.state ≠ .disabled) : RanKept t (reclaimAll e l t) := by
  induction l generalizing t with
  | nil => exact ⟨Kept.refl t, rfl⟩
  | cons i l ih =>
    simp only [List.all_cons, Bool.and_eq_true] at hl
    apply (kept_reclaimVisit e hl.1 hs).bind
    intro _ u hu su
    exact ih (by rw [hu.banks]; exact hl.2) (by rw [su]; exact hs)

theorem all_slotsOwnedBy (a : AgentId) (t : LockTable) : (slotsOwnedBy a t).all (inBanks t.dom.banks) = true := by
  simp only [slotsOwnedBy, List.all_eq_true, List.mem_map, List.mem_filter]
  rintro i ⟨p, ⟨_, hp⟩, rfl⟩
  simp only [Bool.and_eq_true] at hp
  exact hp.1.1

theorem kept_reclaimAgent (e : DomainEnv) (a : AgentId) {t : LockTable} (ho : t.dom.slotsOwned = true)
    (hs : t.dom.state ≠ .disabled) : Kept t (reclaimAgent e a t).table := by
  apply (kept_reclaimAll e (all_slotsOwnedBy a t) hs).table_bind
  intro _ u hu _
  apply (kept_grantPass e (hu.owned ho)).table_bind
  intro _ v _ _
  exact kept_completeClose v

/-! ## The handle checks -/

theorem owns_inBanks {x : Domain} {i : SlotId} (h : x.owns i = true) : x.state ≠ .disabled ∧ inBanks x.banks i = true := by
  simpa [Domain.owns] using h

theorem kept_currentRecord (e : DomainEnv) (h : Handle) (t : LockTable) : RanKept t (currentRecord e h t) := by
  simp only [currentRecord]
  split
  · exact ⟨Kept.refl t, rfl⟩
  · next ho =>
    have ho' : t.dom.owns h.slot = true := by simpa using ho
    split
    · exact ⟨Kept.refl t, rfl⟩
    · apply (kept_readSlot e (owns_inBanks ho').2).bind
      intro x u _ _
      split
      · exact ⟨Kept.refl u, rfl⟩
      · split
        · exact ⟨Kept.refl u, rfl⟩
        · exact ⟨Kept.refl u, rfl⟩

/-- A record that passes the checks lies in a bank of the domain, which is not DISABLED. -/
theorem currentRecord_owned {e : DomainEnv} {h : Handle} {t u : LockTable} {r : Record}
    (hc : currentRecord e h t = .ok (.ok r) u) : t.dom.state ≠ .disabled ∧ inBanks t.dom.banks h.slot = true := by
  simp only [currentRecord] at hc
  split at hc
  · simp at hc
  · next ho => exact owns_inBanks (by simpa using ho)

theorem kept_requestedRecord (e : DomainEnv) (a : AgentId) (h : Handle) (t : LockTable) :
    RanKept t (requestedRecord e a h t) := by
  apply (kept_currentRecord e h t).bind
  intro x u _ _
  split
  · exact ⟨Kept.refl u, rfl⟩
  · split
    · exact ⟨Kept.refl u, rfl⟩
    · exact ⟨Kept.refl u, rfl⟩

theorem requestedRecord_owned {e : DomainEnv} {a : AgentId} {h : Handle} {t u : LockTable} {r : Record}
    (hc : requestedRecord e a h t = .ok (.ok r) u) : t.dom.state ≠ .disabled ∧ inBanks t.dom.banks h.slot = true := by
  simp only [requestedRecord] at hc
  cases hq : currentRecord e h t with
  | lost v => rw [hq] at hc; simp [Ran.bind] at hc
  | ok x v =>
    cases x with
    | error c => rw [hq] at hc; simp [Ran.bind] at hc
    | ok r' => exact currentRecord_owned hq

end Sys2Proof.Machine
end

