-- ==== Sys2Proof/Laws/Events.lean ====
section
/-! SUPPORT. What each event of a domain keeps (`Kept`), from the taking of its item on, where the collections lie in the banks. -/

namespace Sys2Proof.Machine

theorem inBanks_freeHead {t : LockTable} (ho : t.dom.slotsOwned = true) {i : SlotId} {l : List SlotId}
    (h : t.dom.freeList = i :: l) : inBanks t.dom.banks i = true := by
  have := ((slotsOwned_iff _).mp ho).1
  rw [h] at this
  simp only [List.all_cons, Bool.and_eq_true] at this
  exact this.1

theorem inBanks_tokenSlot {x : Domain} (ho : x.slotsOwned = true) {k : Token} {i : SlotId}
    (h : tokenSlot k x.tokenMap = some i) : inBanks x.banks i = true := by
  have hm := ((slotsOwned_iff _).mp ho).2.2.2
  simp only [tokenSlot, Option.map_eq_some_iff] at h
  obtain ⟨p, hp, rfl⟩ := h
  exact (List.all_eq_true.mp hm) p (List.mem_of_find?_eq_some hp)

/-! ## Requests -/

theorem kept_grantAcquire (e : DomainEnv) (a : AgentId) (mode : Mode) (first : Page) (count : Nat) (cookie : BitVec 16)
    (code : WaitCode) {i : SlotId} {t : LockTable} (hi : inBanks t.dom.banks i = true) (hs : t.dom.state ≠ .disabled) :
    Kept t (grantAcquire e a mode first count cookie code i t).table := by
  apply (kept_allocate e hi _ hs).table_bind
  intro _ u hu su
  have h1 := kept_takeToken e a i u
  have hb : inBanks (takeToken e a i u).2.dom.banks i = true := by rw [h1.1.banks, hu.banks]; exact hi
  have hs1 : (takeToken e a i u).2.dom.state ≠ .disabled := by rw [h1.2, su]; exact hs
  have h2 := kept_collections (t := (takeToken e a i u).2) (takeToken e a i u).2.dom.freeList (takeToken e a i u).2.dom.waitQueue
    (insertSlot i (takeToken e a i u).2.dom.occupancy)
    ((takeToken e a i u).2.dom.tokenMap ++ [((takeToken e a i u).1, i)])
    (fun o => ((slotsOwned_iff _).mp o).1) (fun o => ((slotsOwned_iff _).mp o).2.1)
    (fun o => all_insertSlot ((slotsOwned_iff _).mp o).2.2.1 hb)
    (fun o => by rw [List.all_append]; simp [((slotsOwned_iff _).mp o).2.2.2, hb]) hs1
  exact (h1.1.trans h2).trans (kept_setRecord (by exact hb) _)

theorem kept_queueAcquire (e : DomainEnv) (a : AgentId) (mode : Mode) (first : Page) (count : Nat) (cookie : BitVec 16)
    (code : WaitCode) {i : SlotId} {t : LockTable} (hi : inBanks t.dom.banks i = true) (hs : t.dom.state ≠ .disabled) :
    Kept t (queueAcquire e a mode first count cookie code i t).table := by
  apply (kept_allocate e hi _ hs).table_bind
  intro _ u hu su
  have hb : inBanks u.dom.banks i = true := by rw [hu.banks]; exact hi
  exact kept_collections u.dom.freeList (u.dom.waitQueue ++ [i]) u.dom.occupancy u.dom.tokenMap
    (fun o => ((slotsOwned_iff _).mp o).1)
    (fun o => by rw [List.all_append]; simp [((slotsOwned_iff _).mp o).2.1, hb])
    (fun o => ((slotsOwned_iff _).mp o).2.2.1) (fun o => ((slotsOwned_iff _).mp o).2.2.2) (by rw [su]; exact hs)

theorem holds_not_disabled {x : Domain} {p : Page} (h : x.holds p = true) : x.state ≠ .disabled := by
  simp only [Domain.holds, Bool.and_eq_true] at h
  simpa using h.1.1

theorem kept_decideAcquire (e : DomainEnv) (q : LockRequest) (mode : Mode) (first : Page) (count : Nat) (cookie : BitVec 16)
    (code : WaitCode) {t : LockTable} (ho : t.dom.slotsOwned = true) :
    Kept t (decideAcquire e q mode first count cookie code t).table := by
  simp only [decideAcquire]
  split
  · exact Kept.refl t
  · next hh =>
    have hs : t.dom.state ≠ .disabled := holds_not_disabled (p := first) (by simpa using hh)
    repeat (split; · exact Kept.refl t)
    apply (kept_readAll e ((slotsOwned_iff _).mp ho).2.2.1).table_bind
    intro holds u hu su
    split
    · exact Kept.refl u
    · split
      · exact Kept.refl u
      · next i l hf =>
        apply (kept_readAll e ((slotsOwned_iff _).mp (hu.owned ho)).2.1).table_bind
        intro claims v hv sv
        have hi : inBanks v.dom.banks i = true := by rw [hv.banks]; exact inBanks_freeHead (hu.owned ho) hf
        have hsv : v.dom.state ≠ .disabled := by rw [sv, su]; exact hs
        split
        · split
          · exact Kept.refl v
          · exact kept_grantAcquire e _ _ _ _ _ _ hi hsv
        · split
          · exact Kept.refl v
          · exact kept_queueAcquire e _ _ _ _ _ _ hi hsv

/-- A decision returned keeps what the decision kept. -/
theorem kept_returnDecision (q : LockRequest) (live : Response → Option LiveChange) {t : LockTable} {r : Ran Response}
    (h : Kept t r.table) : Kept t (returnDecision q live r) := by
  cases r with
  | ok a u => exact h.trans (kept_returnResult q a (live a) u)
  | lost u => exact h.trans (kept_returnResult q _ none u)

theorem kept_returnReleased (q : LockRequest) (a : Response) {t : LockTable} {r : Ran Unit} (h : Kept t r.table) :
    Kept t (returnReleased q a r) := by
  cases r with
  | ok x u => exact h.trans (kept_returnResult q a _ u)
  | lost u => exact h.trans (kept_returnResult q _ _ u)

theorem kept_decideRelease (e : DomainEnv) (q : LockRequest) (h : Handle) {t : LockTable} (ho : t.dom.slotsOwned = true) :
    Kept t (decideRelease e q h t) := by
  have key := kept_requestedRecord e q.agent h t
  simp only [decideRelease]
  split <;> rename_i hq <;> rw [hq] at key
  · exact Kept.trans key (kept_returnResult q _ none _)
  · exact key.1.trans (kept_returnResult q _ none _)
  · have hn := requestedRecord_owned hq
    rename_i r u
    have hi : inBanks u.dom.banks h.slot = true := by rw [key.1.banks]; exact hn.2
    have hs : u.dom.state ≠ .disabled := by rw [key.2]; exact hn.1
    refine key.1.trans ?_
    split
    · exact kept_returnResult q _ none _
    · exact kept_returnResult q _ none _
    · exact kept_returnReleased q _ (kept_cancel e _ hi (key.1.owned ho) hs)
    · exact kept_returnReleased q _ (kept_releaseHeld e _ _ hi (key.1.owned ho) hs)
    · exact kept_returnReleased q _ (kept_releaseHeld e _ _ hi (key.1.owned ho) hs)
    · exact kept_returnResult q _ none _

theorem kept_upgradeNow (e : DomainEnv) (h : Handle) (r : Record) {t : LockTable} (hi : inBanks t.dom.banks h.slot = true)
    (hs : t.dom.state ≠ .disabled) : Kept t (upgradeNow e h r t).2 := by
  have h1 := kept_takeToken e r.owner h.slot t
  have hb : inBanks (takeToken e r.owner h.slot t).2.dom.banks h.slot = true := by rw [h1.1.banks]; exact hi
  have h2 := kept_collections (t := (takeToken e r.owner h.slot t).2) (takeToken e r.owner h.slot t).2.dom.freeList
    (takeToken e r.owner h.slot t).2.dom.waitQueue (takeToken e r.owner h.slot t).2.dom.occupancy
    (dropToken r.token (takeToken e r.owner h.slot t).2.dom.tokenMap ++ [((takeToken e r.owner h.slot t).1, h.slot)])
    (fun o => ((slotsOwned_iff _).mp o).1) (fun o => ((slotsOwned_iff _).mp o).2.1)
    (fun o => ((slotsOwned_iff _).mp o).2.2.1)
    (fun o => by
      have := all_filter (g := fun p : Token × SlotId => some p.1 != r.token) ((slotsOwned_iff _).mp o).2.2.2
      rw [List.all_append]
      simp only [dropToken, this, List.all_cons, List.all_nil, hb, Bool.and_true])
    (by rw [h1.2]; exact hs)
  exact (h1.1.trans h2).trans (kept_setRecord (by exact hb) _)

theorem kept_queueUpgrade (e : DomainEnv) (h : Handle) (code : WaitCode) (r : Record) {t : LockTable}
    (hi : inBanks t.dom.banks h.slot = true) (hs : t.dom.state ≠ .disabled) : Kept t (queueUpgrade e h code r t) := by
  have h1 := kept_collections (t := t) t.dom.freeList (t.dom.waitQueue ++ [h.slot]) t.dom.occupancy t.dom.tokenMap
    (fun o => ((slotsOwned_iff _).mp o).1)
    (fun o => by rw [List.all_append]; simp [((slotsOwned_iff _).mp o).2.1, hi])
    (fun o => ((slotsOwned_iff _).mp o).2.2.1) (fun o => ((slotsOwned_iff _).mp o).2.2.2) hs
  exact h1.trans (kept_setRecord (by exact hi) _)

/-- An event that goes on with a record which passed the handle checks keeps what its rest keeps. -/
theorem kept_afterChecks {β : Type} (e : DomainEnv) (a : AgentId) (h : Handle) {t : LockTable}
    {f : Except ResultRefusal Record → LockTable → Ran β} (he : ∀ c u, Kept u (f (.error c) u).table)
    (hr : ∀ r u, Kept t u → u.dom.state ≠ .disabled → inBanks u.dom.banks h.slot = true → Kept u (f (.ok r) u).table) :
    Kept t ((requestedRecord e a h t).bind f).table := by
  have key := kept_requestedRecord e a h t
  cases hq : requestedRecord e a h t with
  | lost u => rw [hq] at key; exact key
  | ok x u =>
    rw [hq] at key
    cases x with
    | error c => exact key.1.trans (he c u)
    | ok r =>
      have hn := requestedRecord_owned hq
      exact key.1.trans (hr r u key.1 (by rw [key.2]; exact hn.1) (by rw [key.1.banks]; exact hn.2))

theorem kept_decideConvertUp (e : DomainEnv) (a : AgentId) (h : Handle) (code : WaitCode) {t : LockTable}
    (ho : t.dom.slotsOwned = true) : Kept t (decideConvertUp e a h code t).table := by
  apply kept_afterChecks e a h
  · exact fun c u => Kept.refl u
  · intro r u hu hs hi
    have hou := hu.owned ho
    dsimp only
    split
    · exact Kept.refl u
    · apply (kept_readAll e ((slotsOwned_iff _).mp hou).2.1).table_bind
      intro claims v hv sv
      split
      · exact Kept.refl v
      · apply (kept_readAll e ((slotsOwned_iff _).mp (hv.owned hou)).2.2.1).table_bind
        intro holds w hw sw
        have hiw : inBanks w.dom.banks h.slot = true := by rw [hw.banks, hv.banks]; exact hi
        have hsw : w.dom.state ≠ .disabled := by rw [sw, sv]; exact hs
        split
        · split
          · exact Kept.refl w
          · exact kept_upgradeNow e h r hiw hsw
        · split
          · exact Kept.refl w
          · exact kept_queueUpgrade e h code r hiw hsw

theorem kept_decideConvertDown (e : DomainEnv) (a : AgentId) (h : Handle) {t : LockTable} (ho : t.dom.slotsOwned = true) :
    Kept t (decideConvertDown e a h t).table := by
  apply kept_afterChecks e a h
  · exact fun c u => Kept.refl u
  · intro r u hu hs hi
    dsimp only
    split
    · exact Kept.refl u
    · split
      · exact Kept.refl u
      · have h1 := kept_setRecord hi { r with mode := .shared }
        refine h1.trans ?_
        apply (kept_grantPass e (h1.owned (hu.owned ho))).table_bind
        exact fun _ v _ _ => Kept.refl v

theorem kept_decideQuery (e : DomainEnv) (a : AgentId) (h : Handle) (t : LockTable) : Kept t (decideQuery e a h t).table :=
  kept_afterChecks e a h (fun _ u => Kept.refl u) (fun _ u _ _ _ => Kept.refl u)

/-! ## Timers and reclaims -/

theorem kept_waitExpire (e : DomainEnv) {i : SlotId} {t : LockTable} (hi : inBanks t.dom.banks i = true)
    (ho : t.dom.slotsOwned = true) (hs : t.dom.state ≠ .disabled) : Kept t (waitExpire e i t).table := by
  apply (kept_readRecord e hi).table_bind
  intro r u hu su
  have hiu : inBanks u.dom.banks i = true := by rw [hu.banks]; exact hi
  have h1 := kept_dropWait (t := u) i (by rw [su]; exact hs)
  split
  · have h2 := h1.trans (kept_setRecord (by exact hiu) { r with state := .ended, waitDeadline := none, token := none })
    have h3 := (h2.trans (kept_liveDown r.owner _)).trans (kept_reportLive r.owner .down _)
    have h4 := h3.trans (kept_post (i := i) (by rw [h3.banks]; exact hiu) .waitExpired none)
    exact h4.trans (kept_grantPass e (h4.owned (hu.owned ho))).table
  · have h2 := h1.trans (kept_setRecord (by exact hiu) { r with state := .held, mode := .shared, waitDeadline := none })
    have h4 := h2.trans (kept_post (i := i) (by rw [h2.banks]; exact hiu) .upgradeExpired none)
    exact h4.trans (kept_grantPass e (h4.owned (hu.owned ho))).table
  all_goals exact Kept.refl u

theorem kept_drainOverrun (e : DomainEnv) {i : SlotId} {t : LockTable} (hi : inBanks t.dom.banks i = true)
    (ho : t.dom.slotsOwned = true) (hs : t.dom.state ≠ .disabled) : Kept t (drainOverrun e i t).table := by
  apply (kept_readRecord e hi).table_bind
  intro r u hu su
  have hiu : inBanks u.dom.banks i = true := by rw [hu.banks]; exact hi
  split
  · have h1 := (kept_setRecord hiu { r with reads := 0, writes := 0 }).trans
      (kept_report e .drainOverrun (some r.owner) (some i) none _)
    exact h1.trans (kept_endDrain e (by rw [h1.banks]; exact hiu) (h1.owned (hu.owned ho)) (by rw [← su] at hs; exact hs))
  · exact Kept.refl u

/-! ## What the notice unit presents -/

/-- A presented record lies in a bank of the domain, which serves. -/
theorem kept_presentedRecord (e : DomainEnv) (h : Handle) (t : LockTable) : RanKept t (presentedRecord e h t) := by
  simp only [presentedRecord]
  split
  · next hc =>
    simp only [Bool.and_eq_true] at hc
    apply (kept_readSlot e (owns_inBanks hc.2).2).bind
    intro x u _ _
    split <;> exact ⟨Kept.refl u, rfl⟩
  · exact ⟨Kept.refl t, rfl⟩

theorem presentedRecord_owned {e : DomainEnv} {h : Handle} {t u : LockTable} {r : Record}
    (hc : presentedRecord e h t = .ok (some r) u) : t.dom.state ≠ .disabled ∧ inBanks t.dom.banks h.slot = true := by
  simp only [presentedRecord] at hc
  split at hc
  · next h' =>
    simp only [Bool.and_eq_true] at h'
    exact owns_inBanks h'.2
  · simp at hc

theorem kept_takeClaim (e : DomainEnv) (a : AgentId) (h : Handle) (t : LockTable) : Kept t (takeClaim e a h t) := by
  have key := kept_presentedRecord e h t
  simp only [takeClaim]
  split <;> rename_i hq <;> rw [hq] at key
  · exact Kept.trans key (kept_tell _ _)
  · exact key.1.trans (kept_tell _ _)
  · have hi := (presentedRecord_owned hq).2
    rw [← key.1.banks] at hi
    refine key.1.trans ?_
    split
    · split
      · exact kept_tell _ _
      · exact (kept_setRecord hi _).trans (kept_tell _ _)
    · exact kept_tell _ _

theorem kept_takeAcknowledgement (e : DomainEnv) (a : AgentId) (h : Handle) (t : LockTable) :
    Kept t (takeAcknowledgement e a h t) := by
  have key := kept_presentedRecord e h t
  simp only [takeAcknowledgement]
  split <;> rename_i hq <;> rw [hq] at key
  · exact Kept.trans key (kept_tell _ _)
  · exact key.1.trans (kept_tell _ _)
  · have hn := presentedRecord_owned hq
    rename_i r u
    have hi : inBanks u.dom.banks h.slot = true := by rw [key.1.banks]; exact hn.2
    have hs : u.dom.state ≠ .disabled := by rw [key.2]; exact hn.1
    refine key.1.trans ?_
    split
    · split
      · have h1 := kept_setRecord hi (promoteFollowUp r)
        refine h1.trans ?_
        split
        · exact kept_tell _ _
        · split
          · have h2 := kept_retire e (t := setRecord h.slot (promoteFollowUp r) u) (i := h.slot) (by exact hi) (by exact hs)
            split <;> rename_i hp <;> rw [hp] at h2
            · exact (h2.1.trans (kept_tell _ _)).trans (kept_completeClose _)
            · exact Kept.trans h2 (kept_tell _ _)
          · exact kept_tell _ _
      · exact kept_tell _ _
    · exact kept_tell _ _

theorem kept_takeReversion (e : DomainEnv) (h : Handle) (t : LockTable) : Kept t (takeReversion e h t) := by
  have key := kept_presentedRecord e h t
  simp only [takeReversion]
  split <;> rename_i hq <;> rw [hq] at key
  · exact key
  · exact key.1
  · have hi := (presentedRecord_owned hq).2
    rw [← key.1.banks] at hi
    refine key.1.trans ?_
    split
    · exact kept_setRecord hi _
    · exact Kept.refl _

/-! ## CHECK and DONE -/

theorem kept_decideCheck (e : DomainEnv) (p : PresentedCheck) {t : LockTable} (ho : t.dom.slotsOwned = true) :
    Kept t (decideCheck e p t).2 := by
  simp only [decideCheck]
  repeat (split; · first | exact Kept.refl t | (split <;> exact Kept.refl t))
  rename_i i hk
  have hi := inBanks_tokenSlot ho hk
  have hr := kept_readRecord e hi
  cases hq : readRecord e i t with
  | lost v => rw [hq] at hr; exact hr
  | ok r v =>
    rw [hq] at hr
    refine hr.1.trans ?_
    simp only [checkRecord]
    repeat (split; · exact Kept.refl v)
    exact kept_setRecord (by rw [hr.1.banks]; exact hi) _

theorem kept_decideDone (e : DomainEnv) (k : Ticket) {t : LockTable} (ho : t.dom.slotsOwned = true) :
    Kept t (decideDone e k t).table := by
  simp only [decideDone]
  split
  · exact Kept.refl t
  · next hc =>
    simp only [Bool.or_eq_true, not_or, Bool.not_eq_true, Bool.not_eq_false'] at hc
    have hn := owns_inBanks hc.1
    apply (kept_readSlot e hn.2).table_bind
    intro x u hu su
    have hi : inBanks u.dom.banks k.handle.slot = true := by rw [hu.banks]; exact hn.2
    split
    · exact kept_report _ _ _ _ _ _
    · split
      · exact kept_report _ _ _ _ _ _
      · rename_i g r _
        have h1 := kept_setRecord hi (withInFlight r k.kind (inFlight r k.kind - 1))
        split
        · exact h1.trans (kept_endDrain e (by exact hi) (h1.owned (hu.owned ho)) (by
            have : (setRecord k.handle.slot (withInFlight r k.kind (inFlight r k.kind - 1)) u).dom.state = t.dom.state := su
            rw [this]; exact hn.1))
        · exact h1

/-! ## REVOKE_RECORD and the walk -/

theorem kept_reportRevoke (e : DomainEnv) (t : LockTable) : Kept t (reportRevoke e t) :=
  kept_dom rfl rfl rfl rfl rfl rfl rfl rfl rfl rfl rfl rfl rfl rfl rfl

theorem kept_revoke (e : DomainEnv) (online : AgentId → Bool) (h : Handle) {t : LockTable} (ho : t.dom.slotsOwned = true) :
    Kept t (revoke e online h t).2 := by
  have key := kept_currentRecord e h t
  simp only [revoke]
  split <;> rename_i hq <;> rw [hq] at key
  · exact Kept.trans key (kept_reportRevoke e _)
  · exact key.1.trans (kept_reportRevoke e _)
  · have hn := currentRecord_owned hq
    rename_i r u
    have hi : inBanks u.dom.banks h.slot = true := by rw [key.1.banks]; exact hn.2
    have hs : u.dom.state ≠ .disabled := by rw [key.2]; exact hn.1
    refine key.1.trans ?_
    split
    · exact kept_releaseHeld e _ _ hi (key.1.owned ho) hs
    · exact kept_releaseHeld e _ _ hi (key.1.owned ho) hs
    all_goals exact kept_reportRevoke e _

theorem kept_examine (e : DomainEnv) (f : Option AgentId) {i : SlotId} {t : LockTable} (hi : inBanks t.dom.banks i = true) :
    Kept t (examine e f i t).2 := by
  have key := (kept_probe e hi).1
  simp only [examine]
  split <;> rename_i hq <;> rw [hq] at key
  · exact key
  · split <;> exact key
  · exact key.trans (kept_quarantine _)

end Sys2Proof.Machine
end

