-- ==== Sys2Proof/Laws/Form.lean ====
section
/-! SUPPORT. Every operation of the lock table keeps the canonical form of the record pool, one lemma per operation. -/

namespace Sys2Proof.Machine

/-- From `t`, a part of an event keeps the pool's canonical form. -/
def WfKept {α : Type} (t : LockTable) (r : Ran α) : Prop :=
  Pool.wf t.pool = true → Pool.wf r.table.pool = true

theorem WfKept.bind {α β : Type} {t : LockTable} {r : Ran α} {f : α → LockTable → Ran β} (h : WfKept t r)
    (g : ∀ a u, WfKept u (f a u)) : WfKept t (r.bind f) := by
  intro hp
  cases r with
  | ok a u => exact g a u (h hp)
  | lost u => exact h hp

theorem WfKept.ok {α : Type} {t u : LockTable} (a : α) (h : Pool.wf t.pool = true → Pool.wf u.pool = true) :
    WfKept t (.ok a u) := h

theorem WfKept.from {α : Type} {t u : LockTable} {r : Ran α} (h : Pool.wf t.pool = true → Pool.wf u.pool = true)
    (k : WfKept u r) : WfKept t r :=
  fun hp => k (h hp)

@[simp] theorem pool_quarantine (t : LockTable) : (quarantine t).pool = t.pool := by
  simp only [quarantine]; split <;> rfl

theorem wf_probeRecord (e : DomainEnv) (i : SlotId) (t : LockTable) (h : Pool.wf t.pool = true) :
    Pool.wf (probeRecord e i t).2.pool = true := by
  simp only [probeRecord]
  split
  · exact h
  · exact wf_poolPut h _ _
  · exact h

theorem wf_repairDirectory (e : DomainEnv) (i : SlotId) (t : LockTable) (h : Pool.wf t.pool = true) :
    Pool.wf (repairDirectory e i t).pool = true := by
  simp only [repairDirectory]
  split
  · exact h
  · exact wf_poolPut h _ _

theorem wf_probe (e : DomainEnv) (i : SlotId) (t : LockTable) (h : Pool.wf t.pool = true) :
    Pool.wf (probe e i t).2.pool = true := by
  simp only [probe]
  split
  · exact wf_repairDirectory e i t h
  · exact wf_probeRecord e i _ (wf_repairDirectory e i t h)

theorem wf_readRecord (e : DomainEnv) (i : SlotId) (t : LockTable) : WfKept t (readRecord e i t) := by
  intro h
  have := wf_probeRecord e i t h
  simp only [readRecord]
  split
  · exact this
  · simpa [Ran.table] using this

theorem wf_readSlot (e : DomainEnv) (i : SlotId) (t : LockTable) : WfKept t (readSlot e i t) := by
  intro h
  have := wf_probe e i t h
  simp only [readSlot]
  split <;> rename_i hq <;> rw [hq] at this
  · exact this
  · exact this
  · simpa [Ran.table] using this

theorem wf_readAll (e : DomainEnv) (l : List SlotId) (t : LockTable) : WfKept t (readAll e l t) := by
  induction l generalizing t with
  | nil => exact id
  | cons i l ih => exact (wf_readRecord e i t).bind fun _ u => (ih u).bind fun _ v => id

theorem wf_setRecord (i : SlotId) (r : Record) (t : LockTable) (h : Pool.wf t.pool = true) :
    Pool.wf (setRecord i r t).pool = true :=
  wf_writeRecord h i r

@[simp] theorem pool_takeToken (e : DomainEnv) (a : AgentId) (i : SlotId) (t : LockTable) :
    (takeToken e a i t).2.pool = t.pool := by
  simp only [takeToken]; split <;> rfl

theorem wf_takeToken (e : DomainEnv) (a : AgentId) (i : SlotId) (t : LockTable) (h : Pool.wf t.pool = true) :
    Pool.wf (takeToken e a i t).2.pool = true := by
  rw [pool_takeToken]; exact h

theorem wf_post (i : SlotId) (k : NoticeKind) (x : Option Token) (t : LockTable) (h : Pool.wf t.pool = true) :
    Pool.wf (post i k x t).pool = true :=
  wf_writeRecord h i _

theorem wf_withdraw (i : SlotId) (t : LockTable) (h : Pool.wf t.pool = true) : Pool.wf (withdraw i t).pool = true := by
  simp only [withdraw]
  repeat' split
  all_goals first | exact h | exact wf_writeRecord h i _

theorem wf_clearNotices (i : SlotId) (t : LockTable) (h : Pool.wf t.pool = true) :
    Pool.wf (clearNotices i t).pool = true := by
  simp only [clearNotices]
  split
  · exact wf_writeRecord h i _
  · exact h

theorem wf_allocate (e : DomainEnv) (i : SlotId) (r : Record) (t : LockTable) : WfKept t (allocate e i r t) :=
  WfKept.from (wf_repairDirectory e i t) ((wf_readRecord e i _).bind fun _ _ h => wf_poolPut h _ _)

theorem wf_retire (e : DomainEnv) (i : SlotId) (t : LockTable) : WfKept t (retire e i t) :=
  (wf_readSlot e i t).bind fun _ _ h => wf_freeSlot h i

@[simp] theorem pool_completeClose (t : LockTable) : (completeClose t).pool = t.pool := by
  simp only [completeClose]; split <;> rfl

theorem wf_grantOne (e : DomainEnv) (i : SlotId) (r : Record) (t : LockTable) (h : Pool.wf t.pool = true) :
    Pool.wf (grantOne e i r t).pool = true := by
  have key := wf_takeToken e r.owner i t h
  simp only [grantOne]
  split
  · exact wf_writeRecord (wf_writeRecord key i _) i _
  · exact wf_writeRecord (wf_writeRecord key i _) i _

theorem wf_passFrom (e : DomainEnv) (l : List SlotId) (ahead : List (SlotId × Record)) (t : LockTable) :
    WfKept t (passFrom e l ahead t) := by
  induction l generalizing ahead t with
  | nil => exact id
  | cons i l ih =>
    refine (wf_readRecord e i t).bind fun r u => (wf_readAll e _ u).bind fun holds v => ?_
    split
    · split
      · exact id
      · exact WfKept.from (wf_grantOne e i r v) (ih _ _)
    · exact ih _ _

theorem wf_grantPass (e : DomainEnv) (t : LockTable) : WfKept t (grantPass e t) := by
  simp only [grantPass]
  split
  · exact wf_passFrom e _ _ t
  · exact id

/-- The grant pass and close completion that end an event. -/
theorem wf_finish (e : DomainEnv) (t : LockTable) :
    WfKept t ((grantPass e t).bind fun _ u => .ok () (completeClose u)) :=
  (wf_grantPass e t).bind fun _ u h => by simpa [Ran.table] using h

theorem wf_enterDraining (e : DomainEnv) (i : SlotId) (t : LockTable) (h : Pool.wf t.pool = true) :
    Pool.wf (enterDraining e i t).pool = true :=
  wf_writeRecord h i _

theorem wf_leaveDraining (e : DomainEnv) (i : SlotId) (t : LockTable) : WfKept t (leaveDraining e i t) := by
  intro h
  simp only [leaveDraining]
  split
  · exact wf_writeRecord (wf_writeRecord h i _) i _
  · exact wf_retire e i _ (wf_writeRecord h i _)

theorem wf_endDrain (e : DomainEnv) (i : SlotId) (t : LockTable) : WfKept t (endDrain e i t) :=
  (wf_leaveDraining e i t).bind fun _ u => wf_finish e u

theorem wf_unhold (i : SlotId) (r : Record) (t : LockTable) (h : Pool.wf t.pool = true) :
    Pool.wf (unhold i r t).pool = true :=
  wf_writeRecord h i _

theorem wf_reportRevocation (i : SlotId) (a : AgentId) (x : Option Bool) (t : LockTable) (h : Pool.wf t.pool = true) :
    Pool.wf (reportRevocation i a x t).pool = true := by
  simp only [reportRevocation]
  split
  · exact h
  · exact wf_post i _ _ _ h
  · exact h

theorem wf_releaseHeld (e : DomainEnv) (i : SlotId) (r : Record) (x : Option Bool) (t : LockTable) :
    WfKept t (releaseHeld e i r x t) := by
  have key := fun h => wf_enterDraining e i _ (wf_reportRevocation i r.owner x _
    (show Pool.wf (liveDown r.owner (withdraw i (unhold i r t))).pool = true from wf_withdraw i _ (wf_unhold i r t h)))
  simp only [releaseHeld]
  split
  · exact WfKept.from key (wf_endDrain e i _)
  · split
    · exact WfKept.from key (wf_grantPass e _)
    · exact key

theorem wf_cancel (e : DomainEnv) (i : SlotId) (r : Record) (t : LockTable) : WfKept t (cancel e i r t) :=
  WfKept.from (u := liveDown r.owner { t with dom := { t.dom with waitQueue := dropSlot i t.dom.waitQueue } }) id
    ((wf_retire e i _).bind fun _ u => wf_finish e u)

theorem wf_reclaimVisit (e : DomainEnv) (i : SlotId) (t : LockTable) : WfKept t (reclaimVisit e i t) := by
  refine (wf_readRecord e i t).bind fun r u => ?_
  have key : Pool.wf u.pool = true →
      Pool.wf (enterDraining e i (reportLive r.owner .down (liveDown r.owner (clearNotices i (unhold i r u))))).pool = true :=
    fun h => wf_enterDraining e i (reportLive r.owner .down (liveDown r.owner (clearNotices i (unhold i r u))))
      (wf_clearNotices i _ (wf_unhold i r u h))
  have held : WfKept u (
      let t := enterDraining e i (reportLive r.owner .down (liveDown r.owner (clearNotices i (unhold i r u))))
      if r.reads = 0 ∧ r.writes = 0 then leaveDraining e i t else .ok () t) := by
    refine WfKept.from key ?_
    split
    · exact wf_leaveDraining e i _
    · exact id
  split
  · exact WfKept.from (u := reportLive r.owner .down (liveDown r.owner
      { u with dom := { u.dom with waitQueue := dropSlot i u.dom.waitQueue } })) id (wf_retire e i _)
  · exact held
  · exact held
  · exact wf_clearNotices i u
  · exact WfKept.from (wf_clearNotices i u) (wf_retire e i _)
  · exact id

theorem wf_reclaimAll (e : DomainEnv) (l : List SlotId) (t : LockTable) : WfKept t (reclaimAll e l t) := by
  induction l generalizing t with
  | nil => exact id
  | cons i l ih => exact (wf_reclaimVisit e i t).bind fun _ u => ih u

theorem wf_reclaimAgent (e : DomainEnv) (a : AgentId) (t : LockTable) : WfKept t (reclaimAgent e a t) :=
  (wf_reclaimAll e _ t).bind fun _ u => wf_finish e u

theorem wf_currentRecord (e : DomainEnv) (h : Handle) (t : LockTable) : WfKept t (currentRecord e h t) := by
  simp only [currentRecord]
  split
  · exact id
  · split
    · exact id
    · refine (wf_readSlot e h.slot t).bind fun x u => ?_
      split
      · exact id
      · split <;> exact id

theorem wf_requestedRecord (e : DomainEnv) (a : AgentId) (h : Handle) (t : LockTable) :
    WfKept t (requestedRecord e a h t) := by
  refine (wf_currentRecord e h t).bind fun x u => ?_
  split
  · exact id
  · split <;> exact id

theorem wf_presentedRecord (e : DomainEnv) (h : Handle) (t : LockTable) : WfKept t (presentedRecord e h t) := by
  simp only [presentedRecord]
  split
  · refine (wf_readSlot e h.slot t).bind fun x u => ?_
    split <;> exact id
  · exact id

/-! ## Events -/

theorem wf_decideAcquire (e : DomainEnv) (q : LockRequest) (mode : Mode) (first : Page) (count : Nat) (cookie : BitVec 16)
    (code : WaitCode) (t : LockTable) : WfKept t (decideAcquire e q mode first count cookie code t) := by
  simp only [decideAcquire]
  repeat (split; · exact id)
  refine (wf_readAll e _ t).bind fun holds u => ?_
  split
  · exact id
  · split
    · exact id
    · refine (wf_readAll e _ u).bind fun claims v => ?_
      split
      · split
        · exact id
        · exact (wf_allocate e _ _ v).bind fun _ w h => wf_writeRecord (wf_takeToken e q.agent _ w h) _ _
      · split
        · exact id
        · exact (wf_allocate e _ _ v).bind fun _ w h => h

theorem wf_decideConvertUp (e : DomainEnv) (a : AgentId) (h : Handle) (code : WaitCode) (t : LockTable) :
    WfKept t (decideConvertUp e a h code t) := by
  refine (wf_requestedRecord e a h t).bind fun x u => ?_
  split
  · exact id
  · split
    · exact id
    · refine (wf_readAll e _ u).bind fun claims v => ?_
      split
      · exact id
      · refine (wf_readAll e _ v).bind fun holds w => ?_
        split
        · split
          · exact id
          · exact fun hp => wf_writeRecord (wf_takeToken e _ h.slot w hp) _ _
        · split
          · exact id
          · exact fun hp => wf_writeRecord hp _ _

theorem wf_decideConvertDown (e : DomainEnv) (a : AgentId) (h : Handle) (t : LockTable) :
    WfKept t (decideConvertDown e a h t) := by
  refine (wf_requestedRecord e a h t).bind fun x u => ?_
  split
  · exact id
  · split
    · exact id
    · split
      · exact id
      · exact (WfKept.from (fun hp => wf_setRecord h.slot _ u hp) (wf_grantPass e _)).bind fun _ v => id

theorem wf_decideQuery (e : DomainEnv) (a : AgentId) (h : Handle) (t : LockTable) : WfKept t (decideQuery e a h t) := by
  refine (wf_requestedRecord e a h t).bind fun x u => ?_
  split <;> exact id

theorem wf_returnDecision {t : LockTable} {r : Ran Response} (q : LockRequest) (live : Response → Option LiveChange)
    (h : WfKept t r) (hp : Pool.wf t.pool = true) : Pool.wf (returnDecision q live r).pool = true := by
  cases r with
  | ok a u => exact h hp
  | lost u => exact h hp

theorem wf_decideRelease (e : DomainEnv) (q : LockRequest) (h : Handle) (t : LockTable) (hp : Pool.wf t.pool = true) :
    Pool.wf (decideRelease e q h t).pool = true := by
  have back : ∀ (r : Response) {u : LockTable} {x : Ran Unit}, WfKept u x → Pool.wf u.pool = true →
      Pool.wf (returnReleased q r x).pool = true := by
    intro r u x hx hu
    cases x with
    | ok a v => exact hx hu
    | lost v => exact hx hu
  have key := wf_requestedRecord e q.agent h t hp
  simp only [decideRelease]
  split <;> rename_i hq <;> rw [hq] at key
  · exact key
  · exact key
  · split
    · exact key
    · exact key
    · exact back _ (wf_cancel e _ _ _) key
    · exact back _ (wf_releaseHeld e _ _ _ _) key
    · exact back _ (wf_releaseHeld e _ _ _ _) key
    · exact key

theorem wf_waitExpire (e : DomainEnv) (i : SlotId) (t : LockTable) : WfKept t (waitExpire e i t) := by
  refine (wf_readRecord e i t).bind fun r u => ?_
  split
  · intro h
    exact wf_grantPass e _ (wf_writeRecord (wf_writeRecord h i _) i _)
  · intro h
    exact wf_grantPass e _ (wf_writeRecord (wf_writeRecord h i _) i _)
  all_goals exact id

theorem wf_drainOverrun (e : DomainEnv) (i : SlotId) (t : LockTable) : WfKept t (drainOverrun e i t) := by
  refine (wf_readRecord e i t).bind fun r u => ?_
  split
  · intro h
    exact wf_endDrain e i _ (wf_writeRecord h i _)
  · exact id

theorem wf_takeReclaim (e : DomainEnv) (a : AgentId) (k : Nat) (t : LockTable) (h : Pool.wf t.pool = true) :
    Pool.wf (takeReclaim e a k t).pool = true := by
  simp only [takeReclaim]
  split
  · exact wf_reclaimAgent e a _ h
  · exact h

theorem wf_takeClaim (e : DomainEnv) (a : AgentId) (h : Handle) (t : LockTable) (hp : Pool.wf t.pool = true) :
    Pool.wf (takeClaim e a h t).pool = true := by
  have key := wf_presentedRecord e h t hp
  simp only [takeClaim]
  split <;> rename_i hq <;> rw [hq] at key
  · exact key
  · exact key
  · repeat' split
    all_goals first | exact key | exact wf_writeRecord key _ _

theorem wf_takeAcknowledgement (e : DomainEnv) (a : AgentId) (h : Handle) (t : LockTable) (hp : Pool.wf t.pool = true) :
    Pool.wf (takeAcknowledgement e a h t).pool = true := by
  have key := wf_presentedRecord e h t hp
  simp only [takeAcknowledgement]
  split <;> rename_i hq <;> rw [hq] at key
  · exact key
  · exact key
  · split
    · split
      · split
        · exact wf_writeRecord key _ _
        · split
          · rename_i r u _ f _ _ _ _
            have hr := wf_retire e h.slot (setRecord h.slot (promoteFollowUp r) u) (wf_writeRecord key h.slot _)
            split <;> rename_i hs <;> rw [hs] at hr
            · simpa [Ran.table, tell] using hr
            · exact hr
          · exact wf_writeRecord key _ _
      · exact key
    · exact key

theorem wf_takeReversion (e : DomainEnv) (h : Handle) (t : LockTable) (hp : Pool.wf t.pool = true) :
    Pool.wf (takeReversion e h t).pool = true := by
  have key := wf_presentedRecord e h t hp
  simp only [takeReversion]
  split <;> rename_i hq <;> rw [hq] at key
  · exact key
  · exact key
  · split
    · exact wf_writeRecord key _ _
    · exact key

theorem wf_takeCheck (e : DomainEnv) (p : PresentedCheck) (t : LockTable) (hp : Pool.wf t.pool = true) :
    Pool.wf (takeCheck e p t).pool = true := by
  have key : ∀ u : LockTable, Pool.wf u.pool = true → Pool.wf (decideCheck e p u).2.pool = true := by
    intro u hu
    simp only [decideCheck]
    repeat (split; · first | exact hu | (split <;> exact hu))
    rename_i i _
    have hr := wf_readRecord e i u hu
    cases hq : readRecord e i u with
    | lost v => rw [hq] at hr; exact hr
    | ok r v =>
      rw [hq] at hr
      simp only [checkRecord]
      repeat (split; · exact hr)
      exact wf_writeRecord hr _ _
  exact key _ hp

theorem wf_decideDone (e : DomainEnv) (k : Ticket) (t : LockTable) : WfKept t (decideDone e k t) := by
  simp only [decideDone]
  split
  · exact id
  · refine (wf_readSlot e _ t).bind fun x u => ?_
    split
    · exact id
    · split
      · exact id
      · split
        · exact WfKept.from (fun h => wf_setRecord _ _ _ h) (wf_endDrain e _ _)
        · exact fun h => wf_setRecord _ _ _ h

theorem wf_visitSlot (e : DomainEnv) (i : SlotId) (t : LockTable) (hp : Pool.wf t.pool = true) :
    Pool.wf (visitSlot e i t).pool = true := by
  have adv : ∀ u : LockTable, (advanceScrub i u).pool = u.pool := by
    intro u; simp only [advanceScrub]; split <;> rfl
  have key := wf_probe e i t hp
  simp only [visitSlot]
  split <;> rename_i hq <;> rw [hq] at key <;> rw [adv]
  · exact key
  · exact wf_freeSlot key i
  · exact wf_freeSlot key i

theorem wf_examine (e : DomainEnv) (f : Option AgentId) (i : SlotId) (t : LockTable) (hp : Pool.wf t.pool = true) :
    Pool.wf (examine e f i t).2.pool = true := by
  have key := wf_probe e i t hp
  simp only [examine]
  split <;> rename_i hq <;> rw [hq] at key
  · exact key
  · split <;> exact key
  · simpa using key

theorem wf_revoke (e : DomainEnv) (online : AgentId → Bool) (h : Handle) (t : LockTable) (hp : Pool.wf t.pool = true) :
    Pool.wf (revoke e online h t).2.pool = true := by
  have key := wf_currentRecord e h t hp
  simp only [revoke]
  split <;> rename_i hq <;> rw [hq] at key
  · exact key
  · exact key
  · split
    · exact wf_releaseHeld e _ _ _ _ key
    · exact wf_releaseHeld e _ _ _ _ key
    all_goals exact key

theorem wf_restartTable (t : LockTable) (hp : Pool.wf t.pool = true) : Pool.wf (restartTable t).pool = true := by
  simp only [restartTable]
  split
  · exact hp
  all_goals exact wf_renewSlots hp _

end Sys2Proof.Machine
end

