-- ==== Sys2Proof/Laws/Slots.lean ====
section
/-! SUPPORT. The slots of a bank set: which they are, that they rise, and that the next slot is the lowest above a position. -/

namespace Sys2Proof.Machine

theorem mem_slotsOfBank (b : Fin 16) (i : SlotId) : i ∈ slotsOfBank b ↔ i.val / 256 = b.val := by
  simp only [slotsOfBank, List.mem_map, List.mem_range]
  have hb := b.isLt
  have hi := i.isLt
  constructor
  · rintro ⟨k, hk, rfl⟩
    simp only [Fin.ofNat]
    omega
  · intro h
    refine ⟨i.val - 256 * b.val, by omega, ?_⟩
    ext
    simp only [Fin.ofNat]
    omega

/-- A slot is among a bank set's when its bank is in the set. -/
theorem mem_slotsOfBanks (banks : BitVec 16) (i : SlotId) : i ∈ slotsOfBanks banks ↔ inBanks banks i = true := by
  have hi := i.isLt
  simp only [slotsOfBanks, List.mem_flatMap, inBanks]
  constructor
  · rintro ⟨b, _, h⟩
    split at h
    · next hb => rw [(mem_slotsOfBank b i).mp h]; exact hb
    · simp at h
  · intro h
    refine ⟨⟨i.val / 256, by omega⟩, List.mem_finRange _, ?_⟩
    simp only [h, if_true]
    exact (mem_slotsOfBank _ i).mpr rfl

theorem pairwise_slotsOfBank (b : Fin 16) : (slotsOfBank b).Pairwise (· < ·) := by
  have hb := b.isLt
  simp only [slotsOfBank, List.pairwise_map]
  refine (List.pairwise_lt_range (n := 256)).imp_of_mem ?_
  intro j k hj hk h
  simp only [List.mem_range] at hj hk
  simp only [Fin.lt_def, Fin.ofNat]
  omega

/-- The slots of a bank set rise. -/
theorem pairwise_slotsOfBanks (banks : BitVec 16) : (slotsOfBanks banks).Pairwise (· < ·) := by
  have key : ∀ l : List (Fin 16), l.Pairwise (· < ·) →
      (l.flatMap fun b => if banks.getLsbD b.val then slotsOfBank b else []).Pairwise (· < ·) := by
    intro l
    induction l with
    | nil => simp
    | cons b l ih =>
      intro hp
      rw [List.pairwise_cons] at hp
      rw [List.flatMap_cons, List.pairwise_append]
      refine ⟨?_, ih hp.2, ?_⟩
      · split
        · exact pairwise_slotsOfBank b
        · exact List.Pairwise.nil
      · intro i hi j hj
        have hb : i.val / 256 = b.val := by
          split at hi
          · exact (mem_slotsOfBank b i).mp hi
          · simp at hi
        obtain ⟨c, hc, hj⟩ := List.mem_flatMap.mp hj
        have hc' : j.val / 256 = c.val := by
          split at hj
          · exact (mem_slotsOfBank c j).mp hj
          · simp at hj
        have := hp.1 c hc
        rw [Fin.lt_def] at this ⊢
        omega
  exact key _ (by decide)

theorem nodup_slotsOfBanks (banks : BitVec 16) : (slotsOfBanks banks).Nodup :=
  (pairwise_slotsOfBanks banks).imp (fun h => ne_of_lt h)

/-- In a rising list the first element with a property is the lowest with it. -/
theorem find_rising {f : SlotId → Bool} {l : List SlotId} (h : l.Pairwise (· < ·)) (j : SlotId) :
    l.find? f = some j ↔ j ∈ l ∧ f j = true ∧ ∀ k ∈ l, f k = true → j ≤ k := by
  induction l with
  | nil => simp
  | cons a l ih =>
    rw [List.pairwise_cons] at h
    rw [List.find?_cons]
    cases ha : f a with
    | true =>
      simp only [Option.some.injEq]
      constructor
      · rintro rfl
        refine ⟨by simp, ha, ?_⟩
        intro k hk _
        rcases List.mem_cons.mp hk with rfl | hk
        · exact le_refl _
        · exact le_of_lt (h.1 k hk)
      · rintro ⟨hj, _, hl⟩
        rcases List.mem_cons.mp hj with rfl | hj
        · rfl
        · exact absurd (hl a (by simp) ha) (not_le_of_gt (h.1 j hj))
    | false =>
      simp only [ih h.2]
      constructor
      · rintro ⟨h1, h2, h3⟩
        refine ⟨by simp [h1], h2, ?_⟩
        intro k hk hf
        rcases List.mem_cons.mp hk with rfl | hk
        · rw [ha] at hf; exact absurd hf (by simp)
        · exact h3 k hk hf
      · rintro ⟨h1, h2, h3⟩
        refine ⟨?_, h2, fun k hk => h3 k (by simp [hk])⟩
        rcases List.mem_cons.mp h1 with rfl | h1
        · rw [ha] at h2; exact absurd h2 (by simp)
        · exact h1

/-- The next slot of a bank set after a position is the lowest slot of its banks above it (R10, R182). -/
theorem nextSlot_lowest_above (banks : BitVec 16) (p : Option SlotId) (j : SlotId) :
    nextSlot banks p = some j ↔
      inBanks banks j = true ∧ (∀ i, p = some i → i < j) ∧
        ∀ k : SlotId, inBanks banks k = true → (∀ i, p = some i → i < k) → j ≤ k := by
  cases p with
  | none =>
    have := find_rising (f := fun _ => true) (pairwise_slotsOfBanks banks) j
    have head : ∀ l : List SlotId, l.head? = l.find? (fun _ => true) := by intro l; cases l <;> rfl
    rw [nextSlot, head, this]
    simp [mem_slotsOfBanks]
  | some p =>
    rw [nextSlot, find_rising (pairwise_slotsOfBanks banks) j]
    simp [mem_slotsOfBanks]

end Sys2Proof.Machine
end

