-- ==== Sys2Proof/Laws/Agree.lean ====
section
/-! SUPPORT. Every operation of the lock table keeps the agreement of records, collections and holds (R18, R25): `Agrees` for one
domain and the pool, what leaves it alone (`Same`), and the one lemma by which a record changes its state (`Agrees.move`). -/

namespace Sys2Proof.Machine

set_option Elab.async false -- one proof at a time: the file fits a small number of threads

/-- What the agreement looks at in a record. -/
def Record.core (r : Record) : SlotState × Mode × Page × Nat × Option Token × Option Time × Option Time :=
  (r.state, r.mode, r.first, r.count, r.token, r.waitDeadline, r.drainDeadline)

/-- What the agreement looks at in a domain. -/
def Domain.sets (x : Domain) :
    BitVec 16 × List SlotId × List SlotId × List SlotId × List (Token × SlotId) × Token × Bool × Option SlotId :=
  (x.banks, x.freeList, x.waitQueue, x.occupancy, x.tokenMap, x.tokenCounter, x.exhausted, x.scrubPos)

/-- The agreement of one domain that is not DISABLED and the pool, with the forms it rests on. -/
structure Agrees (t : LockTable) : Prop where
  on : t.dom.state ≠ .disabled
  wf : Pool.wf t.pool = true
  owned : t.dom.slotsOwned = true
  agree : t.dom.recordsAgree t.pool
  marked : ∀ i, (poolGet t.pool i).directory.free = true ↔ (recordOf t.pool i).state = .free

/-! ## What does not touch it -/

/-- From `t` to `u` nothing changes that the agreement looks at. -/
structure Same (t u : LockTable) : Prop where
  on : t.dom.state ≠ .disabled → u.dom.state ≠ .disabled
  sets : u.dom.sets = t.dom.sets
  wf : Pool.wf t.pool = true → Pool.wf u.pool = true
  core : Pool.wf t.pool = true → ∀ i, (recordOf u.pool i).core = (recordOf t.pool i).core
  mark : Pool.wf t.pool = true → ∀ i, (poolGet u.pool i).directory.free = (poolGet t.pool i).directory.free
  clean : Pool.wf t.pool = true → ∀ i, (poolGet t.pool i).health = .clean → (poolGet u.pool i).health = .clean

theorem Same.refl (t : LockTable) : Same t t :=
  ⟨id, rfl, id, fun _ _ => rfl, fun _ _ => rfl, fun _ _ => id⟩

theorem Same.trans {t u v : LockTable} (h : Same t u) (g : Same u v) : Same t v :=
  ⟨fun n => g.on (h.on n), g.sets.trans h.sets, fun w => g.wf (h.wf w), fun w i => (g.core (h.wf w) i).trans (h.core w i),
    fun w i => (g.mark (h.wf w) i).trans (h.mark w i), fun w i c => g.clean (h.wf w) i (h.clean w i c)⟩

/-- The domain's fields other than its sets may change at will. -/
theorem Same.dom {t : LockTable} {x : Domain} (h : x.sets = t.dom.sets) (hs : x.state = t.dom.state := by rfl) :
    Same t { t with dom := x } :=
  ⟨fun n => by rw [show ({ t with dom := x } : LockTable).dom.state = t.dom.state from hs]; exact n, h, id, fun _ _ => rfl, fun _ _ => rfl, fun _ _ => id⟩

theorem core_parts {r q : Record} (h : q.core = r.core) :
    q.state = r.state ∧ q.mode = r.mode ∧ q.first = r.first ∧ q.count = r.count ∧ q.token = r.token ∧
      q.waitDeadline = r.waitDeadline ∧ q.drainDeadline = r.drainDeadline := by
  simpa [Record.core] using h

theorem placesRecord_core {x : Domain} {i : SlotId} {r q : Record} (h : q.core = r.core) (p : x.placesRecord i r) :
    x.placesRecord i q := by
  obtain ⟨h1, -, -, -, h5, h6, h7⟩ := core_parts h
  constructor
  · rw [h1]; exact p.free
  · rw [h1]; exact p.waits
  · rw [h1]; exact p.occupies
  · rw [h1, h5]; exact p.token
  · rw [h1, h5]; exact p.named
  · rw [h1, h6]; exact p.waitDeadline
  · rw [h1, h7]; exact p.drainDeadline

theorem hold_core {r q : Record} (h : q.core = r.core) : q.hold = r.hold := by
  obtain ⟨h1, h2, -⟩ := core_parts h
  simp [Record.hold, h1, h2]

theorem holdsAgree_core {r r' q q' : Record} (h : r'.core = r.core) (g : q'.core = q.core) (k : holdsAgree r q) :
    holdsAgree r' q' := by
  obtain ⟨-, -, h3, h4, -⟩ := core_parts h
  obtain ⟨-, -, g3, g4, -⟩ := core_parts g
  intro m n hm hn ho
  rw [hold_core h] at hm
  rw [hold_core g] at hn
  rw [h3, h4, g3, g4] at ho
  exact k m n hm hn ho

theorem sets_parts {x y : Domain} (h : x.sets = y.sets) :
    x.banks = y.banks ∧ x.freeList = y.freeList ∧ x.waitQueue = y.waitQueue ∧ x.occupancy = y.occupancy ∧
      x.tokenMap = y.tokenMap ∧ x.tokenCounter = y.tokenCounter ∧ x.exhausted = y.exhausted := by
  simp only [Domain.sets, Prod.mk.injEq] at h
  exact ⟨h.1, h.2.1, h.2.2.1, h.2.2.2.1, h.2.2.2.2.1, h.2.2.2.2.2.1, h.2.2.2.2.2.2.1⟩

theorem sets_scrubPos {x y : Domain} (h : x.sets = y.sets) : x.scrubPos = y.scrubPos := by
  simp only [Domain.sets, Prod.mk.injEq] at h
  exact h.2.2.2.2.2.2.2

theorem placesRecord_sets {x y : Domain} (h : x.sets = y.sets) {i : SlotId} {r : Record} (p : y.placesRecord i r) :
    x.placesRecord i r := by
  obtain ⟨-, h2, h3, h4, h5, -⟩ := sets_parts h
  constructor
  · rw [h2]; exact p.free
  · rw [h3]; exact p.waits
  · rw [h4]; exact p.occupies
  · rw [h5]; exact p.token
  · exact p.named
  · exact p.waitDeadline
  · exact p.drainDeadline

theorem Agrees.same {t u : LockTable} (h : Agrees t) (s : Same t u) : Agrees u where
  on := s.on h.on
  wf := s.wf h.wf
  owned := by
    obtain ⟨h1, h2, h3, h4, h5, -⟩ := sets_parts s.sets
    have := h.owned
    simpa [Domain.slotsOwned, h1, h2, h3, h4, h5] using this
  agree := by
    obtain ⟨h1, h2, h3, h4, h5, h6, h7⟩ := sets_parts s.sets
    constructor
    · rw [h2]; exact h.agree.nodup
    · intro i hi
      rw [h1] at hi
      exact placesRecord_sets s.sets (placesRecord_core (s.core h.wf i) (h.agree.places i hi))
    · rw [h5]; exact h.agree.oneSlot
    · rw [h5, h6, h7]; exact h.agree.below
    · rw [h1]
      intro i j hi hj hij
      exact holdsAgree_core (s.core h.wf i) (s.core h.wf j) (h.agree.holds i j hi hj hij)
  marked := by
    intro i
    rw [s.mark h.wf i, h.marked i, (core_parts (s.core h.wf i)).1]

theorem core_of_eq {p q : Pool} (h : ∀ i, recordOf q i = recordOf p i) (i : SlotId) :
    (recordOf q i).core = (recordOf p i).core := by rw [h]

theorem directory_writeRecord {p : Pool} (hp : Pool.wf p = true) (i j : SlotId) (r : Record) :
    (poolGet (writeRecord p i r) j).directory = (poolGet p j).directory := by
  rw [poolGet_writeRecord hp]
  split
  · next h => subst h; rfl
  · rfl

/-- A record written reads clean, and no other slot reads worse (R166). -/
theorem clean_setRecord {t : LockTable} (w : Pool.wf t.pool = true) (i j : SlotId) (r : Record)
    (c : (poolGet t.pool j).health = .clean) : (poolGet (setRecord i r t).pool j).health = .clean := by
  simp only [setRecord, poolGet_writeRecord w]
  split
  · rfl
  · exact c

theorem clean_setRecord_same {t : LockTable} (w : Pool.wf t.pool = true) (i : SlotId) (r : Record) :
    (poolGet (setRecord i r t).pool i).health = .clean := by
  simp [setRecord, poolGet_writeRecord w]

/-- A record written that differs in nothing the agreement looks at. -/
theorem same_setRecord {i : SlotId} {r : Record} {t : LockTable} (h : r.core = (recordOf t.pool i).core) :
    Same t (setRecord i r t) where
  on := id
  sets := rfl
  wf := fun w => wf_setRecord i r t w
  core := by
    intro w j
    simp only [setRecord, recordOf_writeRecord w]
    split
    · next e => subst e; exact h
    · rfl
  mark := by
    intro w j
    simp only [setRecord, directory_writeRecord w]
  clean := fun w j c => clean_setRecord w i j r c

theorem same_report (e : DomainEnv) (k : EventKind) (a : Option AgentId) (i : Option SlotId) (x : Option AccessKind)
    (t : LockTable) : Same t (report e k a i x t) := Same.dom rfl

theorem same_tell (b : NoticeBody) (t : LockTable) : Same t (tell b t) := Same.dom rfl

theorem same_reportLive (a : AgentId) (c : LiveChange) (t : LockTable) : Same t (reportLive a c t) := Same.dom rfl

theorem same_returnResult (q : LockRequest) (r : Response) (c : Option LiveChange) (t : LockTable) :
    Same t (returnResult q r c t) := Same.dom rfl

theorem same_liveUp (a : AgentId) (t : LockTable) : Same t (liveUp a t) := Same.dom rfl

theorem same_liveDown (a : AgentId) (t : LockTable) : Same t (liveDown a t) := Same.dom rfl

theorem same_quarantine (t : LockTable) : Same t (quarantine t) := by
  simp only [quarantine]
  split
  · exact { Same.refl t with on := fun _ => by simp [tell], sets := rfl }
  · exact Same.refl t

theorem core_placeNotice (r : Record) (k : NoticeKind) : (placeNotice r k).2.core = r.core := by
  simp only [placeNotice]
  repeat' split
  all_goals rfl

theorem same_post (i : SlotId) (k : NoticeKind) (x : Option Token) (t : LockTable) : Same t (post i k x t) := by
  simp only [post]
  exact (same_setRecord (core_placeNotice _ k)).trans (same_tell _ _)

theorem same_withdraw (i : SlotId) (t : LockTable) : Same t (withdraw i t) := by
  simp only [withdraw]
  repeat' split
  all_goals first
    | exact Same.refl t
    | exact Same.trans (by exact same_setRecord rfl) (same_tell _ _)

theorem same_clearNotices (i : SlotId) (t : LockTable) : Same t (clearNotices i t) := by
  simp only [clearNotices]
  split
  · exact Same.trans (by exact same_setRecord rfl) (same_tell _ _)
  · exact Same.refl t

theorem same_reportRevocation (i : SlotId) (a : AgentId) (x : Option Bool) (t : LockTable) :
    Same t (reportRevocation i a x t) := by
  match x with
  | none => exact Same.refl t
  | some false => exact same_reportLive _ _ _
  | some true => exact (same_reportLive a .down t).trans (same_post _ _ _ _)

/-! ## Reads -/

/-- From `t` to `u` slots have only been read: every record is the one it was, and the state of the domain. -/
structure Reads (t u : LockTable) : Prop where
  same : Same t u
  record : Pool.wf t.pool = true → ∀ i, recordOf u.pool i = recordOf t.pool i
  state : u.dom.state = t.dom.state

theorem Reads.refl (t : LockTable) : Reads t t :=
  ⟨Same.refl t, fun _ _ => rfl, rfl⟩

theorem Reads.trans {t u v : LockTable} (h : Reads t u) (g : Reads u v) : Reads t v :=
  ⟨h.same.trans g.same, fun w i => (g.record (h.same.wf w) i).trans (h.record w i), g.state.trans h.state⟩

/-- A slot written with its record and its directory's marker kept. -/
theorem reads_put {i : SlotId} {x : Slot} {t : LockTable} (hr : x.record = recordOf t.pool i)
    (hd : x.directory.free = (poolGet t.pool i).directory.free)
    (hc : (poolGet t.pool i).health = .clean → x.health = .clean) : Reads t { t with pool := poolPut t.pool i x } := by
  have hrec : Pool.wf t.pool = true → ∀ j, recordOf (poolPut t.pool i x) j = recordOf t.pool j := by
    intro w j
    simp only [recordOf, poolGet_poolPut w]
    split
    · next e => subst e; exact hr
    · rfl
  refine ⟨⟨id, rfl, fun w => wf_poolPut w i x, fun w => core_of_eq (hrec w), ?_, ?_⟩, hrec, rfl⟩
  · intro w j
    simp only [poolGet_poolPut w]
    split
    · next e => subst e; exact hd
    · rfl
  · intro w j c
    simp only [poolGet_poolPut w]
    split
    · next e => subst e; exact hc c
    · exact c

theorem reads_report (e : DomainEnv) (k : EventKind) (a : Option AgentId) (i : Option SlotId) (x : Option AccessKind)
    (t : LockTable) : Reads t (report e k a i x t) :=
  ⟨same_report e k a i x t, fun _ _ => rfl, rfl⟩

theorem reads_probeRecord (e : DomainEnv) (i : SlotId) (t : LockTable) : Reads t (probeRecord e i t).2 := by
  simp only [probeRecord]
  split
  · exact Reads.refl t
  · exact Reads.trans (by exact reads_put rfl rfl fun _ => rfl) (reads_report ..)
  · exact reads_report ..

theorem reads_repairDirectory (e : DomainEnv) (i : SlotId) (t : LockTable) : Reads t (repairDirectory e i t) := by
  simp only [repairDirectory]
  split
  · exact Reads.refl t
  · exact Reads.trans (by exact reads_put rfl (by simp) id) (reads_report ..)

theorem reads_probe (e : DomainEnv) (i : SlotId) (t : LockTable) : Reads t (probe e i t).2 := by
  simp only [probe]
  split
  · exact reads_repairDirectory e i t
  · exact (reads_repairDirectory e i t).trans (reads_probeRecord e i _)

/-- A record that can be used reads clean afterwards (R166). -/
theorem clean_probeRecord (e : DomainEnv) {i : SlotId} {t : LockTable} (w : Pool.wf t.pool = true)
    (h : (probeRecord e i t).1 = true) : (poolGet (probeRecord e i t).2.pool i).health = .clean := by
  simp only [probeRecord] at h ⊢
  split at h
  · next hc => simp only [hc]
  · simp [report, poolGet_poolPut w]
  · exact absurd h (by simp)

/-- What the read of a record can do: it answers the record as it stands after the read, or it is lost. -/
theorem readRecord_cases (e : DomainEnv) (i : SlotId) {t : LockTable} (w : Pool.wf t.pool = true) :
    (∃ u, Reads t u ∧ (poolGet u.pool i).health = .clean ∧ readRecord e i t = .ok (recordOf u.pool i) u) ∨
      ∃ u, Same t u ∧ readRecord e i t = .lost u := by
  have h := reads_probeRecord e i t
  simp only [readRecord]
  split
  · next hu => exact .inl ⟨_, h, clean_probeRecord e w hu, rfl⟩
  · exact .inr ⟨_, h.same.trans (same_quarantine _), rfl⟩

/-- What the read of a slot can do: it finds the slot FREE, or its record as it stands after the read, or it is lost. -/
theorem readSlot_cases (e : DomainEnv) (i : SlotId) {t : LockTable} (w : Pool.wf t.pool = true) :
    (∃ u g, Reads t u ∧ (poolGet t.pool i).directory.free = true ∧ readSlot e i t = .ok (g, none) u) ∨
      (∃ u g, Reads t u ∧ (poolGet t.pool i).directory.free = false ∧ (poolGet u.pool i).health = .clean ∧
        readSlot e i t = .ok (g, some (recordOf u.pool i)) u) ∨
      ∃ u, Same t u ∧ readSlot e i t = .lost u := by
  have h := reads_probe e i t
  have w' : Pool.wf (repairDirectory e i t).pool = true := (reads_repairDirectory e i t).same.wf w
  simp only [readSlot, probe] at h ⊢
  cases hf : (poolGet t.pool i).directory.free with
  | true =>
    simp only [hf, if_true] at h ⊢
    exact .inl ⟨_, _, h, by simp, rfl⟩
  | false =>
    simp only [hf, Bool.false_eq_true, if_false] at h ⊢
    cases hu : (probeRecord e i (repairDirectory e i t)).1 with
    | true => simp only [if_true]; exact .inr (.inl ⟨_, _, h, by simp, clean_probeRecord e w' hu, rfl⟩)
    | false => simp only [Bool.false_eq_true, if_false]; exact .inr (.inr ⟨_, h.same.trans (same_quarantine _), rfl⟩)

/-- A slot whose record reads clean is not lost at a read (R167). -/
theorem readSlot_kept (e : DomainEnv) {i : SlotId} {t : LockTable} (w : Pool.wf t.pool = true)
    (c : (poolGet t.pool i).health = .clean) : ∃ u x, Reads t u ∧ readSlot e i t = .ok x u := by
  have h := reads_probe e i t
  have c' := (reads_repairDirectory e i t).same.clean w i c
  simp only [readSlot, probe] at h ⊢
  cases hf : (poolGet t.pool i).directory.free with
  | true =>
    simp only [hf, if_true] at h ⊢
    exact ⟨_, _, h, rfl⟩
  | false =>
    simp only [hf, Bool.false_eq_true, if_false] at h ⊢
    have hu : (probeRecord e i (repairDirectory e i t)).1 = true := by simp [probeRecord, c']
    simp only [hu, if_true]
    exact ⟨_, _, h, rfl⟩

/-- What the read of a list of slots can do: it answers their records as they stand after it, or it is lost. -/
theorem readAll_cases (e : DomainEnv) (l : List SlotId) {t : LockTable} (w : Pool.wf t.pool = true) :
    (∃ u, Reads t u ∧ readAll e l t = .ok (l.map fun i => (i, recordOf u.pool i)) u) ∨
      ∃ u, Same t u ∧ readAll e l t = .lost u := by
  induction l generalizing t with
  | nil => exact .inl ⟨t, Reads.refl t, rfl⟩
  | cons i l ih =>
    rcases readRecord_cases e i w with ⟨u, hu, -, hr⟩ | ⟨u, hu, hr⟩
    · rcases ih (hu.same.wf w) with ⟨v, hv, hl⟩ | ⟨v, hv, hl⟩
      · left
        refine ⟨v, hu.trans hv, ?_⟩
        simp [readAll, hr, hl, Ran.bind, hv.record (hu.same.wf w) i]
      · exact .inr ⟨v, hu.same.trans hv, by simp [readAll, hr, hl, Ran.bind]⟩
    · exact .inr ⟨u, hu, by simp [readAll, hr, Ran.bind]⟩

/-! ## A record changes its state -/

/-- From `t` to `u` nothing changes that the agreement looks at but at slot `i`, and tokens do not fall. -/
structure Off (i : SlotId) (t u : LockTable) : Prop where
  on : t.dom.state ≠ .disabled → u.dom.state ≠ .disabled
  banks : u.dom.banks = t.dom.banks
  wf : Pool.wf u.pool = true
  owned : u.dom.slotsOwned = true
  free : ∀ j, j ≠ i → (j ∈ u.dom.freeList ↔ j ∈ t.dom.freeList)
  waits : ∀ j, j ≠ i → (j ∈ u.dom.waitQueue ↔ j ∈ t.dom.waitQueue)
  occupies : ∀ j, j ≠ i → (j ∈ u.dom.occupancy ↔ j ∈ t.dom.occupancy)
  tokens : ∀ j, j ≠ i → ∀ k, ((k, j) ∈ u.dom.tokenMap ↔ (k, j) ∈ t.dom.tokenMap)
  core : ∀ j, j ≠ i → (recordOf u.pool j).core = (recordOf t.pool j).core
  mark : ∀ j, j ≠ i → (poolGet u.pool j).directory.free = (poolGet t.pool j).directory.free
  grows : u.dom.exhausted = false → t.dom.exhausted = false ∧ t.dom.tokenCounter ≤ u.dom.tokenCounter

theorem slotsOwned_sets {x y : Domain} (h : x.sets = y.sets) : x.slotsOwned = y.slotsOwned := by
  obtain ⟨h1, h2, h3, h4, h5, -⟩ := sets_parts h
  simp [Domain.slotsOwned, h1, h2, h3, h4, h5]

theorem Off.same {i : SlotId} {t u v : LockTable} (o : Off i t u) (s : Same u v) : Off i t v := by
  obtain ⟨h1, h2, h3, h4, h5, h6, h7⟩ := sets_parts s.sets
  constructor
  · exact fun n => s.on (o.on n)
  · rw [h1]; exact o.banks
  · exact s.wf o.wf
  · rw [slotsOwned_sets s.sets]; exact o.owned
  · rw [h2]; exact o.free
  · rw [h3]; exact o.waits
  · rw [h4]; exact o.occupies
  · rw [h5]; exact o.tokens
  · exact fun j hj => (s.core o.wf j).trans (o.core j hj)
  · exact fun j hj => (s.mark o.wf j).trans (o.mark j hj)
  · rw [h6, h7]; exact o.grows

theorem Off.refl {t : LockTable} (h : Agrees t) (i : SlotId) : Off i t t :=
  ⟨id, rfl, h.wf, h.owned, fun _ _ => Iff.rfl, fun _ _ => Iff.rfl, fun _ _ => Iff.rfl, fun _ _ _ => Iff.rfl, fun _ _ => rfl,
    fun _ _ => rfl, fun e => ⟨e, BitVec.le_refl _⟩⟩

/-- The record of the slot written. -/
theorem Off.setRecord {i : SlotId} {t u : LockTable} (o : Off i t u) (r : Record) : Off i t (setRecord i r u) where
  on := o.on
  banks := o.banks
  wf := wf_setRecord i r u o.wf
  owned := o.owned
  free := o.free
  waits := o.waits
  occupies := o.occupies
  tokens := o.tokens
  core := fun j hj => by
    rw [← o.core j hj]
    simp [Machine.setRecord, recordOf_writeRecord o.wf, hj]
  mark := fun j hj => by
    rw [← o.mark j hj]
    simp [Machine.setRecord, directory_writeRecord o.wf]
  grows := o.grows

@[simp] theorem recordOf_setRecord {t : LockTable} (w : Pool.wf t.pool = true) (i : SlotId) (r : Record) :
    recordOf (setRecord i r t).pool i = r := by
  simp [setRecord, recordOf_writeRecord w]

theorem mark_setRecord {t : LockTable} (w : Pool.wf t.pool = true) (i j : SlotId) (r : Record) :
    (poolGet (setRecord i r t).pool j).directory.free = (poolGet t.pool j).directory.free := by
  simp [setRecord, directory_writeRecord w]

theorem below_grows {a b c : Token} (h : a < b) (g : b ≤ c) : a < c := by
  simp only [BitVec.lt_def, BitVec.le_def] at *
  omega

/-- The one way in which the agreement goes from one state of a record to another: slot `i` gets a record and places in the
collections that agree, every other slot stays as it was, a token of the slot is its own, and the record's hold, if it has one,
agrees with the others'. -/
theorem Agrees.move {t u : LockTable} {i : SlotId} (h : Agrees t) (o : Off i t u) (hn : u.dom.freeList.Nodup)
    (hm : (poolGet u.pool i).directory.free = true ↔ (recordOf u.pool i).state = .free)
    (hi : inBanks t.dom.banks i = true → u.dom.placesRecord i (recordOf u.pool i))
    (hk : ∀ k, (k, i) ∈ u.dom.tokenMap → (k, i) ∈ t.dom.tokenMap ∨
      (∀ j, (k, j) ∉ t.dom.tokenMap) ∧ (u.dom.exhausted = false → k < u.dom.tokenCounter))
    (hh : ∀ j, j ≠ i → inBanks t.dom.banks j = true → holdsAgree (recordOf u.pool i) (recordOf t.pool j)) :
    Agrees u := by
  have sym : ∀ {r q : Record}, holdsAgree r q → holdsAgree q r := by
    intro r q k m n hm hn ho
    have := k n m hn hm (by simp only [overlap, Bool.and_eq_true] at ho ⊢; exact ⟨ho.2, ho.1⟩)
    exact ⟨this.2, this.1⟩
  have apart : ∀ k, (k, i) ∈ u.dom.tokenMap → ∀ j, j ≠ i → (k, j) ∉ t.dom.tokenMap := by
    intro k hki j hj hkj
    rcases hk k hki with g | ⟨g, _⟩
    · exact hj (h.agree.oneSlot k j i hkj g)
    · exact g j hkj
  refine ⟨o.on h.on, o.wf, o.owned, ⟨hn, ?_, ?_, ?_, ?_⟩, ?_⟩
  · intro j hj
    rw [o.banks] at hj
    by_cases e : j = i
    · subst e; exact hi hj
    · have p := placesRecord_core (o.core j e) (h.agree.places j hj)
      constructor
      · rw [o.free j e]; exact p.free
      · rw [o.waits j e]; exact p.waits
      · rw [o.occupies j e]; exact p.occupies
      · intro k; rw [o.tokens j e]; exact p.token k
      · exact p.named
      · exact p.waitDeadline
      · exact p.drainDeadline
  · intro k a b ha hb
    by_cases ea : a = i
    · by_cases eb : b = i
      · rw [ea, eb]
      · subst ea
        exact absurd ((o.tokens b eb k).mp hb) (apart k ha b eb)
    · by_cases eb : b = i
      · subst eb
        exact absurd ((o.tokens a ea k).mp ha) (apart k hb a ea)
      · exact h.agree.oneSlot k a b ((o.tokens a ea k).mp ha) ((o.tokens b eb k).mp hb)
  · rintro hx ⟨k, j⟩ he
    obtain ⟨gx, gc⟩ := o.grows hx
    by_cases e : j = i
    · subst e
      rcases hk k he with g | ⟨_, g⟩
      · exact below_grows (h.agree.below gx _ g) gc
      · exact g hx
    · exact below_grows (h.agree.below gx _ ((o.tokens j e k).mp he)) gc
  · intro a b ha hb hab
    rw [o.banks] at ha hb
    by_cases ea : a = i
    · subst ea
      exact holdsAgree_core rfl (o.core b (Ne.symm hab)) (hh b (Ne.symm hab) hb)
    · by_cases eb : b = i
      · subst eb
        exact sym (holdsAgree_core rfl (o.core a ea) (hh a ea ha))
      · exact holdsAgree_core (o.core a ea) (o.core b eb) (h.agree.holds a b ha hb hab)
  · intro j
    by_cases e : j = i
    · subst e; exact hm
    · rw [o.mark j e, (core_parts (o.core j e)).1]; exact h.marked j

/-! ## Sets -/

theorem mem_dropSlot {i j : SlotId} {l : List SlotId} : j ∈ dropSlot i l ↔ j ∈ l ∧ j ≠ i := by
  simp [dropSlot]

theorem mem_insertSlot {i j : SlotId} {l : List SlotId} : j ∈ insertSlot i l ↔ j = i ∨ j ∈ l := by
  induction l with
  | nil => simp [insertSlot]
  | cons a l ih =>
    simp only [insertSlot]
    split
    · simp
    · split
      · next h => subst h; simp
      · simp [ih]; tauto

theorem mem_dropToken {o : Option Token} {e : Token × SlotId} {m : List (Token × SlotId)} :
    e ∈ dropToken o m ↔ e ∈ m ∧ some e.1 ≠ o := by
  simp [dropToken]

/-- A hold that met no other hold of the occupancy set agrees with every other record of the domain. -/
theorem Agrees.clear {t : LockTable} (h : Agrees t) {i : SlotId} {mode : Mode} {first : Page} {count : Nat}
    (hc : ∀ j ∈ t.dom.occupancy, j ≠ i → conflicts mode first count (recordOf t.pool j) (recordOf t.pool j).hold = false)
    {r : Record} (hm : r.hold = some mode) (hf : r.first = first) (hk : r.count = count) :
    ∀ j, j ≠ i → inBanks t.dom.banks j = true → holdsAgree r (recordOf t.pool j) := by
  intro j hj hb m n hrm hrn ho
  have occ : j ∈ t.dom.occupancy := by
    rw [(h.agree.places j hb).occupies]
    cases hs : (recordOf t.pool j).state <;> simp [Record.hold, hs] at hrn ⊢
  have := hc j occ hj
  rw [hm] at hrm
  obtain rfl := Option.some.inj hrm
  rw [hf, hk] at ho
  simp only [conflicts, hrn, ho, Bool.true_and, Bool.or_eq_false_iff, beq_eq_false_iff_ne] at this
  constructor
  · cases mode <;> simp at this ⊢
  · cases n <;> simp at this ⊢

end Sys2Proof.Machine
end

