-- ==== Sys2Proof/Laws/Grants.lean ====
section
/-! SUPPORT. The agreement of records, collections and holds (`Agrees`) through changes at one slot, retirement, a grant and the
grant pass. -/

namespace Sys2Proof.Machine

set_option Elab.async false -- one proof at a time: the file fits a small number of threads

/-! ## Changes at one slot -/

/-- The slot written. -/
theorem Off.put {i : SlotId} {t u : LockTable} (o : Off i t u) (z : Slot) :
    Off i t { u with pool := poolPut u.pool i z } where
  on := o.on
  banks := o.banks
  wf := wf_poolPut o.wf i z
  owned := o.owned
  free := o.free
  waits := o.waits
  occupies := o.occupies
  tokens := o.tokens
  core := fun j hj => by rw [← o.core j hj]; simp [recordOf, poolGet_poolPut o.wf, hj]
  mark := fun j hj => by rw [← o.mark j hj]; simp [poolGet_poolPut o.wf, hj]
  grows := o.grows

/-- The slot's places in the collections changed, and no other's. -/
theorem Off.collect {i : SlotId} {t u : LockTable} (o : Off i t u) {x : Domain} (hb : x.banks = u.dom.banks)
    (hc : x.tokenCounter = u.dom.tokenCounter) (hx : x.exhausted = u.dom.exhausted) (ho : x.slotsOwned = true)
    (hf : ∀ j, j ≠ i → (j ∈ x.freeList ↔ j ∈ u.dom.freeList)) (hw : ∀ j, j ≠ i → (j ∈ x.waitQueue ↔ j ∈ u.dom.waitQueue))
    (hp : ∀ j, j ≠ i → (j ∈ x.occupancy ↔ j ∈ u.dom.occupancy))
    (hm : ∀ j, j ≠ i → ∀ k, ((k, j) ∈ x.tokenMap ↔ (k, j) ∈ u.dom.tokenMap)) (hs : x.state = u.dom.state := by rfl) :
    Off i t { u with dom := x } where
  on := fun n => by rw [show ({ u with dom := x } : LockTable).dom.state = u.dom.state from hs]; exact o.on n
  banks := hb.trans o.banks
  wf := o.wf
  owned := ho
  free := fun j hj => (hf j hj).trans (o.free j hj)
  waits := fun j hj => (hw j hj).trans (o.waits j hj)
  occupies := fun j hj => (hp j hj).trans (o.occupies j hj)
  tokens := fun j hj k => (hm j hj k).trans (o.tokens j hj k)
  core := o.core
  mark := o.mark
  grows := fun e => by
    have := o.grows (hx ▸ e)
    exact ⟨this.1, by rw [show ({ u with dom := x } : LockTable).dom.tokenCounter = u.dom.tokenCounter from hc]; exact this.2⟩

theorem owned_parts {x : Domain} (h : x.slotsOwned = true) :
    (∀ j ∈ x.freeList, inBanks x.banks j = true) ∧ (∀ j ∈ x.waitQueue, inBanks x.banks j = true) ∧
      (∀ j ∈ x.occupancy, inBanks x.banks j = true) ∧ ∀ p ∈ x.tokenMap, inBanks x.banks p.2 = true := by
  simpa [Domain.slotsOwned, and_assoc] using h

theorem owned_of {x : Domain} (hf : ∀ j ∈ x.freeList, inBanks x.banks j = true)
    (hw : ∀ j ∈ x.waitQueue, inBanks x.banks j = true) (hp : ∀ j ∈ x.occupancy, inBanks x.banks j = true)
    (hm : ∀ p ∈ x.tokenMap, inBanks x.banks p.2 = true) : x.slotsOwned = true := by
  simp only [Domain.slotsOwned, Bool.and_eq_true, List.all_eq_true]
  exact ⟨⟨⟨hf, hw⟩, hp⟩, hm⟩

/-- The slot out of the wait queue. -/
theorem Off.dropWait {i : SlotId} {t u : LockTable} (o : Off i t u) :
    Off i t { u with dom := { u.dom with waitQueue := dropSlot i u.dom.waitQueue } } := by
  obtain ⟨h1, h2, h3, h4⟩ := owned_parts o.owned
  refine o.collect rfl rfl rfl (owned_of h1 ?_ h3 h4) (fun _ _ => Iff.rfl) ?_ (fun _ _ => Iff.rfl) fun _ _ _ => Iff.rfl
  · exact fun j hj => h2 j (mem_dropSlot.mp hj).1
  · exact fun j hj => by simp [mem_dropSlot, hj]

/-- The slot at the tail of the wait queue. -/
theorem Off.addWait {i : SlotId} {t u : LockTable} (o : Off i t u) (hb : inBanks t.dom.banks i = true) :
    Off i t { u with dom := { u.dom with waitQueue := u.dom.waitQueue ++ [i] } } := by
  obtain ⟨h1, h2, h3, h4⟩ := owned_parts o.owned
  refine o.collect rfl rfl rfl (owned_of h1 ?_ h3 h4) (fun _ _ => Iff.rfl) ?_ (fun _ _ => Iff.rfl) fun _ _ _ => Iff.rfl
  · intro j hj
    rcases List.mem_append.mp hj with hj | hj
    · exact h2 j hj
    · rw [List.mem_singleton.mp hj]
      exact o.banks ▸ hb
  · exact fun j hj => by simp [hj]

/-- The slot out of the occupancy set. -/
theorem Off.dropOccupancy {i : SlotId} {t u : LockTable} (o : Off i t u) :
    Off i t { u with dom := { u.dom with occupancy := dropSlot i u.dom.occupancy } } := by
  obtain ⟨h1, h2, h3, h4⟩ := owned_parts o.owned
  refine o.collect rfl rfl rfl (owned_of h1 h2 ?_ h4) (fun _ _ => Iff.rfl) (fun _ _ => Iff.rfl) ?_ fun _ _ _ => Iff.rfl
  · exact fun j hj => h3 j (mem_dropSlot.mp hj).1
  · exact fun j hj => by simp [mem_dropSlot, hj]

/-- The slot in the occupancy set. -/
theorem Off.addOccupancy {i : SlotId} {t u : LockTable} (o : Off i t u) (hb : inBanks t.dom.banks i = true) :
    Off i t { u with dom := { u.dom with occupancy := insertSlot i u.dom.occupancy } } := by
  obtain ⟨h1, h2, h3, h4⟩ := owned_parts o.owned
  refine o.collect rfl rfl rfl (owned_of h1 h2 ?_ h4) (fun _ _ => Iff.rfl) (fun _ _ => Iff.rfl) ?_ fun _ _ _ => Iff.rfl
  · intro j hj
    rcases mem_insertSlot.mp hj with hj | hj
    · rw [hj]
      exact o.banks ▸ hb
    · exact h3 j hj
  · exact fun j hj => by simp [mem_insertSlot, hj]

/-- A token of the slot in the token map. -/
theorem Off.addToken {i : SlotId} {t u : LockTable} (o : Off i t u) (hb : inBanks t.dom.banks i = true) (k : Token) :
    Off i t { u with dom := { u.dom with tokenMap := u.dom.tokenMap ++ [(k, i)] } } := by
  obtain ⟨h1, h2, h3, h4⟩ := owned_parts o.owned
  refine o.collect rfl rfl rfl (owned_of h1 h2 h3 ?_) (fun _ _ => Iff.rfl) (fun _ _ => Iff.rfl) (fun _ _ => Iff.rfl) ?_
  · intro p hp
    rcases List.mem_append.mp hp with hp | hp
    · exact h4 p hp
    · rw [List.mem_singleton.mp hp]
      exact o.banks ▸ hb
  · exact fun j hj k' => by simp [hj]

/-- The tokens of the slot out of the token map, where no other slot has that token. -/
theorem Off.dropToken {i : SlotId} {t u : LockTable} (o : Off i t u) (k : Option Token)
    (hk : ∀ j, j ≠ i → ∀ x, (x, j) ∈ t.dom.tokenMap → some x ≠ k) :
    Off i t { u with dom := { u.dom with tokenMap := Machine.dropToken k u.dom.tokenMap } } := by
  obtain ⟨h1, h2, h3, h4⟩ := owned_parts o.owned
  refine o.collect rfl rfl rfl (owned_of h1 h2 h3 ?_) (fun _ _ => Iff.rfl) (fun _ _ => Iff.rfl) (fun _ _ => Iff.rfl) ?_
  · exact fun p hp => h4 p (mem_dropToken.mp hp).1
  · intro j hj x
    rw [mem_dropToken]
    exact ⟨fun h => h.1, fun h => ⟨h, hk j hj x ((o.tokens j hj x).mp h)⟩⟩

/-- The domain's other items changed. -/
theorem Off.dom {i : SlotId} {t u : LockTable} (o : Off i t u) {x : Domain} (h : x.sets = u.dom.sets)
    (hs : x.state = u.dom.state) : Off i t { u with dom := x } :=
  o.same (Same.dom h hs)

/-- A token of the record in slot `i` is no other slot's. -/
theorem Agrees.own_token {t : LockTable} (h : Agrees t) {i : SlotId} (hb : inBanks t.dom.banks i = true)
    (hs : (recordOf t.pool i).state = .held ∨ (recordOf t.pool i).state = .converting) :
    ∀ j, j ≠ i → ∀ x, (x, j) ∈ t.dom.tokenMap → some x ≠ (recordOf t.pool i).token := by
  intro j hj x hx e
  exact hj (h.agree.oneSlot x j i hx (((h.agree.places i hb).token x).mpr ⟨hs, e.symm⟩))

/-! ## Retirement -/

/-- The retirement of a slot that held a record, from a state in which nothing else has changed. -/
theorem agrees_retire (e : DomainEnv) {t u : LockTable} {i : SlotId} (h : Agrees t) (o : Off i t u)
    (hf : u.dom.freeList = t.dom.freeList) (hb : inBanks t.dom.banks i = true) (hs : (recordOf t.pool i).state ≠ .free)
    (c : (poolGet u.pool i).health = .clean) : ∃ v, retire e i u = .ok () v ∧ Agrees v ∧ v.dom.state = u.dom.state := by
  obtain ⟨w, x, hr, hq⟩ := readSlot_kept e o.wf c
  have ow := o.same hr.same
  have hfw : w.dom.freeList = t.dom.freeList := (sets_parts hr.same.sets).2.1.trans hf
  have hni : i ∉ t.dom.freeList := fun hm => hs ((h.agree.places i hb).free.mp hm)
  obtain ⟨h1, h2, h3, h4⟩ := owned_parts ow.owned
  have ov : Off i t
      { dom := { w.dom with
          waitQueue := dropSlot i w.dom.waitQueue
          occupancy := dropSlot i w.dom.occupancy
          tokenMap := w.dom.tokenMap.filter (fun p => p.2 != i)
          freeList := w.dom.freeList ++ [i] },
        pool := freeSlot w.pool i } := by
    refine (ow.put _).collect rfl rfl rfl (owned_of ?_ ?_ ?_ ?_) ?_ ?_ ?_ ?_
    · intro j hj
      rcases List.mem_append.mp hj with hj | hj
      · exact h1 j hj
      · rw [List.mem_singleton.mp hj]
        exact ow.banks ▸ hb
    · exact fun j hj => h2 j (mem_dropSlot.mp hj).1
    · exact fun j hj => h3 j (mem_dropSlot.mp hj).1
    · exact fun p hp => h4 p (List.mem_filter.mp hp).1
    · exact fun j hj => by simp [hj]
    · exact fun j hj => by simp [mem_dropSlot, hj]
    · exact fun j hj => by simp [mem_dropSlot, hj]
    · exact fun j hj k => by simp [hj]
  refine ⟨_, by simp only [retire, hq, Ran.bind], h.move ov ?_ ?_ ?_ ?_ ?_, hr.state⟩
  · show (w.dom.freeList ++ [i]).Nodup
    rw [hfw]
    exact List.nodup_append.mpr ⟨h.agree.nodup, by simp, fun a ha b hb' => by
      rw [List.mem_singleton.mp hb']; exact fun e => hni (e ▸ ha)⟩
  · simp [recordOf, poolGet_freeSlot ow.wf, Record.cleared, Slot.directory]
  · intro _
    have hc : recordOf (freeSlot w.pool i) i = .cleared := by simp [recordOf, poolGet_freeSlot ow.wf]
    rw [hc]
    constructor <;> simp [Record.cleared, mem_dropSlot]
  · intro k hk
    simp at hk
  · intro j _ _ m n hm
    simp [recordOf, poolGet_freeSlot ow.wf, Record.cleared, Record.hold] at hm

/-! ## Grants -/

/-- The next token taken (R21). -/
theorem Off.takeToken {i : SlotId} {t u : LockTable} (o : Off i t u) (e : DomainEnv) (a : AgentId) :
    Off i t (Machine.takeToken e a i u).2 := by
  simp only [Machine.takeToken]
  split
  · exact { o with grows := fun h => absurd h (by simp [report]) }
  · next hk =>
    refine { o with grows := fun h => ⟨(o.grows h).1, ?_⟩ }
    have := (o.grows h).2
    simp only [BitVec.le_def] at this ⊢
    have hk' : u.dom.tokenCounter.toNat ≠ 2 ^ 40 - 1 := fun e => hk (by
      apply BitVec.eq_of_toNat_eq; simpa [Config.lastToken] using e)
    have := u.dom.tokenCounter.isLt
    have h1 : (1 : Token).toNat = 1 := rfl
    simp only [BitVec.toNat_add, h1] at *
    omega

theorem takeToken_token (e : DomainEnv) (a : AgentId) (i : SlotId) (t : LockTable) :
    (Machine.takeToken e a i t).1 = t.dom.tokenCounter := by
  simp only [Machine.takeToken]
  split <;> rfl

/-- What taking a token leaves of a domain's collections. -/
theorem takeToken_sets (e : DomainEnv) (a : AgentId) (i : SlotId) (t : LockTable) :
    (Machine.takeToken e a i t).2.dom.freeList = t.dom.freeList ∧ (Machine.takeToken e a i t).2.dom.waitQueue = t.dom.waitQueue ∧
      (Machine.takeToken e a i t).2.dom.occupancy = t.dom.occupancy ∧ (Machine.takeToken e a i t).2.dom.tokenMap = t.dom.tokenMap ∧
      (Machine.takeToken e a i t).2.dom.banks = t.dom.banks ∧ (Machine.takeToken e a i t).2.dom.state = t.dom.state := by
  simp only [Machine.takeToken]
  split <;> exact ⟨rfl, rfl, rfl, rfl, rfl, rfl⟩

/-- The token taken lies below the counter while that still counts. -/
theorem takeToken_below (e : DomainEnv) (a : AgentId) (i : SlotId) (t : LockTable)
    (h : (Machine.takeToken e a i t).2.dom.exhausted = false) : t.dom.tokenCounter < (Machine.takeToken e a i t).2.dom.tokenCounter := by
  simp only [Machine.takeToken] at h ⊢
  split at h
  · exact absurd h (by simp [report])
  · next hk =>
    simp only [hk, if_false, BitVec.lt_def]
    have hk' : t.dom.tokenCounter.toNat ≠ 2 ^ 40 - 1 := fun e => hk (by
      apply BitVec.eq_of_toNat_eq; simpa [Config.lastToken] using e)
    have := t.dom.tokenCounter.isLt
    have h1 : (1 : Token).toNat = 1 := rfl
    simp only [BitVec.toNat_add, h1] at *
    omega

/-- The next token is no record's, while tokens are left (R21). -/
theorem Agrees.fresh {t : LockTable} (h : Agrees t) (hx : t.dom.exhausted = false) (j : SlotId) :
    (t.dom.tokenCounter, j) ∉ t.dom.tokenMap := by
  intro hm
  have := h.agree.below hx _ hm
  simp only [BitVec.lt_def] at this
  omega

/-- A record that has become HELD under a token of its own, in the occupancy set alone, its hold clear of the others'. -/
theorem agrees_granted {t u : LockTable} {i : SlotId} (h : Agrees t) (o : Off i t u) (k : Token)
    (hn : u.dom.freeList.Nodup) (hf : i ∉ u.dom.freeList) (hw : i ∉ u.dom.waitQueue) (hp : i ∈ u.dom.occupancy)
    (hd : (poolGet u.pool i).directory.free = false) (hs : (recordOf u.pool i).state = .held)
    (hk : (recordOf u.pool i).token = some k) (hwd : (recordOf u.pool i).waitDeadline = none)
    (hdd : (recordOf u.pool i).drainDeadline = none) (hm : ∀ x, (x, i) ∈ u.dom.tokenMap ↔ x = k)
    (fresh : ∀ j, (k, j) ∉ t.dom.tokenMap) (below : u.dom.exhausted = false → k < u.dom.tokenCounter)
    (clear : ∀ j, j ≠ i → inBanks t.dom.banks j = true → holdsAgree (recordOf u.pool i) (recordOf t.pool j)) : Agrees u := by
  refine h.move o hn (by simp [hd, hs]) ?_ ?_ clear
  · intro _
    constructor
    · simp [hs, hf]
    · simp [hs, hw]
    · simp [hs, hp]
    · intro x; rw [hm, hs, hk]; simp [eq_comm]
    · simp [hk]
    · simp [hwd]
    · simp [hdd, hs]
  · intro x hx
    rw [(hm x).mp hx]
    exact .inr ⟨fresh, below⟩

/-- A slot that holds a record is not FREE. -/
theorem Agrees.holding {t : LockTable} (h : Agrees t) {i : SlotId} (hs : (recordOf t.pool i).state ≠ .free) :
    (poolGet t.pool i).directory.free = false := by
  rw [← Bool.not_eq_true]
  exact fun e => hs ((h.marked i).mp e)

/-- The grant of a queued record whose claim meets no other hold (R43, R44). -/
theorem agrees_grantOne (e : DomainEnv) {t : LockTable} {i : SlotId} (h : Agrees t) (hb : inBanks t.dom.banks i = true)
    (hx : t.dom.exhausted = false) {m : Mode} (hc : (recordOf t.pool i).claim = some m)
    (hg : ∀ j ∈ t.dom.occupancy, j ≠ i → conflicts m (recordOf t.pool i).first (recordOf t.pool i).count (recordOf t.pool j)
      (recordOf t.pool j).hold = false) : Agrees (grantOne e i (recordOf t.pool i) t) := by
  have p := h.agree.places i hb
  generalize hr : recordOf t.pool i = r at hc hg p
  have hfree : r.state ≠ .free := by intro e; simp [Record.claim, e] at hc
  have hni : i ∉ t.dom.freeList := fun hm => hfree (p.free.mp hm)
  have hmark : (poolGet t.pool i).directory.free = false := h.holding (hr ▸ hfree)
  obtain ⟨s1, s2, s3, s4, s5, -⟩ := takeToken_sets e r.owner i t
  have hw : Pool.wf (takeToken e r.owner i t).2.pool = true := by rw [pool_takeToken]; exact h.wf
  have ho := (Off.refl h i).takeToken e r.owner
  have hk := takeToken_token e r.owner i t
  have hbelow := takeToken_below e r.owner i t
  have hdd : r.drainDeadline = none := by
    by_contra hd
    have := p.drainDeadline.mp hd
    simp [Record.claim, this] at hc
  simp only [grantOne]
  split
  · next hs =>
    have hm : m = .exclusive := by simpa [Record.claim, hs, eq_comm] using hc
    subst hm
    let r' : Record := { r with state := .held, mode := .exclusive, waitDeadline := none, token := some t.dom.tokenCounter }
    have oc : i ∈ t.dom.occupancy := p.occupies.mpr (by simp [hs])
    have o1 := ((ho.setRecord r').dropWait.dropToken r.token (hr ▸ h.own_token hb (by rw [hr]; exact .inr hs))).addToken hb
      t.dom.tokenCounter
    refine Agrees.same (agrees_granted h o1 t.dom.tokenCounter ?_ ?_ ?_ ?_ ?_ ?_ ?_ ?_ ?_ ?_ (h.fresh hx) ?_ ?_) ?_
    · show (takeToken e r.owner i t).2.dom.freeList.Nodup
      rw [s1]; exact h.agree.nodup
    · show i ∉ (takeToken e r.owner i t).2.dom.freeList
      rw [s1]; exact hni
    · show i ∉ dropSlot i _
      simp [mem_dropSlot]
    · show i ∈ (takeToken e r.owner i t).2.dom.occupancy
      rw [s3]; exact oc
    · show (poolGet (setRecord i r' _).pool i).directory.free = false
      rw [mark_setRecord hw, pool_takeToken]; exact hmark
    · show (recordOf (setRecord i r' _).pool i).state = _
      rw [recordOf_setRecord hw]
    · show (recordOf (setRecord i r' _).pool i).token = _
      rw [recordOf_setRecord hw]
    · show (recordOf (setRecord i r' _).pool i).waitDeadline = _
      rw [recordOf_setRecord hw]
    · show (recordOf (setRecord i r' _).pool i).drainDeadline = _
      rw [recordOf_setRecord hw]; exact hdd
    · intro x
      show (x, i) ∈ dropToken r.token (takeToken e r.owner i t).2.dom.tokenMap ++ [(t.dom.tokenCounter, i)] ↔ _
      rw [s4, List.mem_append, mem_dropToken, p.token]
      constructor
      · rintro (⟨⟨_, q⟩, n⟩ | q)
        · exact absurd q.symm n
        · simpa using q
      · intro q; right; simp [q]
    · exact hbelow
    · show ∀ j, j ≠ i → _ → holdsAgree (recordOf (setRecord i r' _).pool i) _
      rw [recordOf_setRecord hw]
      exact h.clear hg (by simp [r', Record.hold]) rfl rfl
    · simp only [grantConverting, hk]
      exact same_post _ _ _ _
  · next hs =>
    have hst : r.state = .waiting := by
      cases hq : r.state <;> simp [Record.claim, hq] at hc hs ⊢
    have hm : m = r.mode := by simpa [Record.claim, hst, eq_comm] using hc
    subst hm
    let r' : Record := { r with state := .held, waitDeadline := none, token := some t.dom.tokenCounter }
    have o1 := ((ho.setRecord r').dropWait.addOccupancy hb).addToken hb t.dom.tokenCounter
    refine Agrees.same (agrees_granted h o1 t.dom.tokenCounter ?_ ?_ ?_ ?_ ?_ ?_ ?_ ?_ ?_ ?_ (h.fresh hx) ?_ ?_) ?_
    · show (takeToken e r.owner i t).2.dom.freeList.Nodup
      rw [s1]; exact h.agree.nodup
    · show i ∉ (takeToken e r.owner i t).2.dom.freeList
      rw [s1]; exact hni
    · show i ∉ dropSlot i _
      simp [mem_dropSlot]
    · show i ∈ insertSlot i _
      simp [mem_insertSlot]
    · show (poolGet (setRecord i r' _).pool i).directory.free = false
      rw [mark_setRecord hw, pool_takeToken]; exact hmark
    · show (recordOf (setRecord i r' _).pool i).state = _
      rw [recordOf_setRecord hw]
    · show (recordOf (setRecord i r' _).pool i).token = _
      rw [recordOf_setRecord hw]
    · show (recordOf (setRecord i r' _).pool i).waitDeadline = _
      rw [recordOf_setRecord hw]
    · show (recordOf (setRecord i r' _).pool i).drainDeadline = _
      rw [recordOf_setRecord hw]; exact hdd
    · intro x
      show (x, i) ∈ (takeToken e r.owner i t).2.dom.tokenMap ++ [(t.dom.tokenCounter, i)] ↔ _
      rw [s4, List.mem_append, p.token]
      constructor
      · rintro (⟨q, -⟩ | q)
        · simp [hst] at q
        · simpa using q
      · intro q; right; simp [q]
    · exact hbelow
    · show ∀ j, j ≠ i → _ → holdsAgree (recordOf (setRecord i r' _).pool i) _
      rw [recordOf_setRecord hw]
      exact h.clear hg (by simp [r', Record.hold]) rfl rfl
    · simp only [grantWaiting, hk]
      exact same_post _ _ _ _

/-! ## The grant pass -/

/-- A claim that meets no hold of a list, that of slot `i` apart, conflicts with none of them. -/
theorem clear_of_meets {mode : Mode} {first : Page} {count : Nat} {p : Pool} {l : List SlotId} {i : SlotId}
    (h : meetsHold mode first count (otherHolds i (l.map fun j => (j, recordOf p j))) = false) :
    ∀ j ∈ l, j ≠ i → conflicts mode first count (recordOf p j) (recordOf p j).hold = false := by
  intro j hj hij
  simp only [meetsHold, List.any_eq_false, otherHolds, List.mem_filter, List.mem_map] at h
  have := h (j, recordOf p j) ⟨⟨j, hj, rfl⟩, by simpa using hij⟩
  simpa using this

/-- A claim that meets no hold of a list conflicts with none of them. -/
theorem clear_of_meetsAll {mode : Mode} {first : Page} {count : Nat} {p : Pool} {l : List SlotId}
    (h : meetsHold mode first count (l.map fun j => (j, recordOf p j)) = false) :
    ∀ j ∈ l, conflicts mode first count (recordOf p j) (recordOf p j).hold = false := by
  intro j hj
  simp only [meetsHold, List.any_eq_false, List.mem_map] at h
  have := h (j, recordOf p j) ⟨j, hj, rfl⟩
  simpa using this

theorem Agrees.reads {t u : LockTable} (h : Agrees t) (r : Reads t u) : Agrees u := h.same r.same

theorem banks_grantOne (e : DomainEnv) (i : SlotId) (r : Record) (t : LockTable) :
    (grantOne e i r t).dom.banks = t.dom.banks := by
  obtain ⟨-, -, -, -, s5, -⟩ := takeToken_sets e r.owner i t
  simp only [grantOne]
  split
  · exact s5
  · exact s5

theorem agrees_passFrom (e : DomainEnv) (l : List SlotId) (ahead : List (SlotId × Record)) {t : LockTable} (h : Agrees t)
    (hl : ∀ j ∈ l, inBanks t.dom.banks j = true) : Agrees (passFrom e l ahead t).table := by
  induction l generalizing ahead t with
  | nil => exact h
  | cons i l ih =>
    simp only [passFrom]
    rcases readRecord_cases e i h.wf with ⟨u, hu, -, hr⟩ | ⟨u, hu, hr⟩
    · have au := h.reads hu
      rcases readAll_cases e u.dom.occupancy au.wf with ⟨v, hv, ha⟩ | ⟨v, hv, ha⟩
      · have av := au.reads hv
        have bv : v.dom.banks = t.dom.banks := (sets_parts hv.same.sets).1.trans (sets_parts hu.same.sets).1
        have lv : ∀ j ∈ l, inBanks v.dom.banks j = true := fun j hj => bv ▸ hl j (List.mem_cons_of_mem _ hj)
        have rv : recordOf v.pool i = recordOf u.pool i := hv.record au.wf i
        have occ : v.dom.occupancy = u.dom.occupancy := (sets_parts hv.same.sets).2.2.2.1
        simp only [hr, ha, Ran.bind]
        split
        · next hg =>
          split
          · exact av
          · next hx =>
            rw [← rv] at hg ⊢
            simp only [grantable] at hg
            cases hc : (recordOf v.pool i).claim with
            | none => simp [hc] at hg
            | some m =>
              simp only [hc, Bool.and_eq_true, Bool.not_eq_true'] at hg
              refine ih _ (agrees_grantOne e av (bv ▸ hl i List.mem_cons_self) (by simpa using hx) hc ?_) ?_
              · rw [occ]; exact clear_of_meets hg.1
              · rw [banks_grantOne]; exact lv
        · exact ih _ av lv
      · simp only [hr, ha, Ran.bind]
        exact au.same hv
    · simp only [hr, Ran.bind]
      exact h.same hu

/-- The grant pass keeps the agreement (R41 to R48). -/
theorem agrees_grantPass (e : DomainEnv) {t : LockTable} (h : Agrees t) : Agrees (grantPass e t).table := by
  simp only [grantPass]
  split
  · exact agrees_passFrom e _ _ h (owned_parts h.owned).2.1
  · exact h

end Sys2Proof.Machine
end

