-- ==== Sys2Proof/Laws/Holds.lean ====
section
/-! SUPPORT. The agreement of records, collections and holds (`Agrees`) through the operations of the lock table on a held or queued
record: allocation, conversion, release, drain, reclaim, expiry. -/

namespace Sys2Proof.Machine

/-! ## The close completion -/

/-- A domain that has become DISABLED with every slot of its banks FREE (R6). -/
structure Closed (t : LockTable) : Prop where
  state : t.dom.state = .disabled
  wf : Pool.wf t.pool = true
  marked : ∀ i, (poolGet t.pool i).directory.free = true ↔ (recordOf t.pool i).state = .free
  empty : ∀ i, inBanks t.dom.banks i = true → (recordOf t.pool i).state = .free

/-- How an event ends for the agreement. -/
def Ended (t : LockTable) : Prop := Agrees t ∨ Closed t

theorem Closed.same {t u : LockTable} (h : Closed t) (s : Same t u) (hs : u.dom.state = .disabled) : Closed u where
  state := hs
  wf := s.wf h.wf
  marked := fun i => by rw [s.mark h.wf i, h.marked i, (core_parts (s.core h.wf i)).1]
  empty := fun i hi => by
    rw [(core_parts (s.core h.wf i)).1]
    exact h.empty i ((sets_parts s.sets).1 ▸ hi)

theorem length_slotsOfBanks (banks : BitVec 16) : (slotsOfBanks banks).length = slotCount banks := by
  simp only [slotsOfBanks, slotCount, List.length_flatMap]
  have h : ∀ l : List (Fin 16), (l.map fun b => (if banks.getLsbD b.val then slotsOfBank b else []).length).sum =
      256 * (l.filter fun b => banks.getLsbD b.val).length := by
    intro l
    induction l with
    | nil => rfl
    | cons b l ih =>
      simp only [List.map_cons, List.sum_cons, ih, List.filter_cons]
      split
      · simp [slotsOfBank]; omega
      · simp
  exact h _

/-- With no slot in use every slot of the banks is in the free list (R5, R19). -/
theorem Agrees.unused {t : LockTable} (h : Agrees t) (hu : t.dom.inUse = 0) :
    ∀ i, inBanks t.dom.banks i = true → (recordOf t.pool i).state = .free := by
  intro i hi
  rw [← (h.agree.places i hi).free]
  have hs : t.dom.freeList ⊆ slotsOfBanks t.dom.banks := fun j hj => (mem_slotsOfBanks _ j).mpr ((owned_parts h.owned).1 j hj)
  have hl : (slotsOfBanks t.dom.banks).length ≤ t.dom.freeList.length := by
    rw [length_slotsOfBanks]
    simp only [Domain.inUse] at hu
    omega
  have sp := (h.agree.nodup.subperm hs).perm_of_length_le hl
  exact sp.mem_iff.mpr ((mem_slotsOfBanks _ i).mpr hi)

theorem ended_completeClose {t : LockTable} (h : Agrees t) : Ended (completeClose t) := by
  simp only [completeClose]
  split
  · next hc => exact .inr ⟨rfl, h.wf, h.marked, h.unused hc.2⟩
  · exact .inl h

/-- The grant pass and close completion that end an event. -/
theorem ended_finish (e : DomainEnv) {t : LockTable} (h : Agrees t) :
    Ended ((grantPass e t).bind fun _ u => .ok () (completeClose u)).table := by
  have := agrees_grantPass e h
  cases hg : grantPass e t with
  | ok a u => rw [hg] at this; exact ended_completeClose this
  | lost u => rw [hg] at this; exact .inl this

/-! ## Allocation -/

/-- The slot filled as an allocation fills it. -/
def filled (i : SlotId) (r : Record) (g : Gen) (t : LockTable) : LockTable :=
  { dom := { t.dom with freeList := t.dom.freeList.tail },
    pool := poolPut t.pool i ({ poolGet t.pool i with record := r, health := .clean }.withDirectory ⟨g, false⟩) }

/-- What an allocation can do (R17, R37). -/
theorem allocate_cases (e : DomainEnv) (i : SlotId) (r : Record) {t : LockTable} (w : Pool.wf t.pool = true) :
    (∃ u g, Reads t u ∧ allocate e i r t = .ok () (liveUp r.owner (filled i r g u))) ∨
      ∃ u, Same t u ∧ allocate e i r t = .lost u := by
  have h := reads_repairDirectory e i t
  rcases readRecord_cases e i (h.same.wf w) with ⟨u, hu, -, hr⟩ | ⟨u, hu, hr⟩
  · left
    refine ⟨u, genOf (repairDirectory e i t).pool i, h.trans hu, ?_⟩
    simp only [allocate, hr, Ran.bind]
    rfl
  · right
    exact ⟨u, h.same.trans hu, by simp only [allocate, hr, Ran.bind]⟩

theorem recordOf_filled {i : SlotId} {r : Record} {g : Gen} {t : LockTable} (w : Pool.wf t.pool = true) :
    recordOf (filled i r g t).pool i = r := by
  simp [filled, recordOf, poolGet_poolPut w, Slot.withDirectory]

theorem mark_filled {i : SlotId} {r : Record} {g : Gen} {t : LockTable} (w : Pool.wf t.pool = true) :
    (poolGet (filled i r g t).pool i).directory.free = false := by
  simp [filled, poolGet_poolPut w]

/-- The head of the free list taken. -/
theorem off_filled {i : SlotId} {l : List SlotId} {r : Record} {g : Gen} {t : LockTable} (h : Agrees t)
    (hf : t.dom.freeList = i :: l) : Off i t (filled i r g t) := by
  obtain ⟨h1, h2, h3, h4⟩ := owned_parts h.owned
  refine ((Off.refl h i).put _).collect rfl rfl rfl (owned_of ?_ h2 h3 h4) ?_ (fun _ _ => Iff.rfl) (fun _ _ => Iff.rfl)
    fun _ _ _ => Iff.rfl
  · intro j hj
    exact h1 j (List.mem_of_mem_tail hj)
  · intro j hj
    show j ∈ t.dom.freeList.tail ↔ j ∈ t.dom.freeList
    rw [hf]
    simp [hj]

/-- The head of the free list holds no record, and is in no collection (R16, R18). -/
theorem Agrees.head {t : LockTable} (h : Agrees t) {i : SlotId} {l : List SlotId} (hf : t.dom.freeList = i :: l) :
    inBanks t.dom.banks i = true ∧ (recordOf t.pool i).state = .free ∧ i ∉ l ∧ l.Nodup := by
  have hb : inBanks t.dom.banks i = true := (owned_parts h.owned).1 i (by rw [hf]; exact List.mem_cons_self)
  have hn := h.agree.nodup
  rw [hf, List.nodup_cons] at hn
  exact ⟨hb, (h.agree.places i hb).free.mp (by rw [hf]; exact List.mem_cons_self), hn.1, hn.2⟩

/-- An ACQUIRE granted at once keeps the agreement (R32). -/
theorem agrees_grantAcquire (e : DomainEnv) (a : AgentId) (mode : Mode) (first : Page) (count : Nat) (cookie : BitVec 16)
    (code : WaitCode) {i : SlotId} {l : List SlotId} {t : LockTable} (h : Agrees t) (hf : t.dom.freeList = i :: l)
    (hx : t.dom.exhausted = false)
    (hg : ∀ j ∈ t.dom.occupancy, conflicts mode first count (recordOf t.pool j) (recordOf t.pool j).hold = false) :
    Agrees (grantAcquire e a mode first count cookie code i t).table := by
  rcases allocate_cases e i (freshRecord a mode first count cookie code .held none none) h.wf with ⟨u, g, hu, hq⟩ | ⟨u, hu, hq⟩
  · have au := h.reads hu
    obtain ⟨-, f2, -, f4, f5, f6, f7⟩ := sets_parts hu.same.sets
    have hf' : u.dom.freeList = i :: l := f2.trans hf
    have hx' : u.dom.exhausted = false := f7.trans hx
    obtain ⟨hb, hs, hni, hnd⟩ := au.head hf'
    have p := au.agree.places i hb
    let r := freshRecord a mode first count cookie code .held none none
    let v := liveUp r.owner (filled i r g u)
    have ov : Off i u v := (off_filled au hf').same (same_liveUp _ _)
    obtain ⟨s1, s2, s3, s4, s5, -⟩ := takeToken_sets e a i v
    have hk := takeToken_token e a i v
    have wv : Pool.wf v.pool = true := ov.wf
    have wt : Pool.wf (takeToken e a i v).2.pool = true := by rw [pool_takeToken]; exact wv
    have rv : recordOf (takeToken e a i v).2.pool i = r := by
      rw [pool_takeToken]
      exact recordOf_filled au.wf
    let r' : Record := { r with token := some u.dom.tokenCounter }
    have o1 := ((((ov.takeToken e a).addOccupancy hb).addToken hb u.dom.tokenCounter)).setRecord r'
    simp only [grantAcquire, hq, Ran.bind, Ran.table]
    refine Agrees.same (agrees_granted au o1 u.dom.tokenCounter ?_ ?_ ?_ ?_ ?_ ?_ ?_ ?_ ?_ ?_ (au.fresh hx') ?_ ?_) ?_
    · show (takeToken e a i v).2.dom.freeList.Nodup
      rw [s1]
      show u.dom.freeList.tail.Nodup
      rw [hf']; exact hnd
    · show i ∉ (takeToken e a i v).2.dom.freeList
      rw [s1]
      show i ∉ u.dom.freeList.tail
      rw [hf']; exact hni
    · show i ∉ (takeToken e a i v).2.dom.waitQueue
      rw [s2]
      show i ∉ u.dom.waitQueue
      rw [p.waits, hs]; simp
    · show i ∈ insertSlot i _
      simp [mem_insertSlot]
    · show (poolGet (setRecord i r' (takeToken e a i v).2).pool i).directory.free = false
      rw [mark_setRecord wt]
      show (poolGet (takeToken e a i v).2.pool i).directory.free = false
      rw [pool_takeToken]
      exact mark_filled au.wf
    · show (recordOf (setRecord i r' (takeToken e a i v).2).pool i).state = _
      rw [recordOf_setRecord wt]; rfl
    · show (recordOf (setRecord i r' (takeToken e a i v).2).pool i).token = _
      rw [recordOf_setRecord wt]
    · show (recordOf (setRecord i r' (takeToken e a i v).2).pool i).waitDeadline = _
      rw [recordOf_setRecord wt]; rfl
    · show (recordOf (setRecord i r' (takeToken e a i v).2).pool i).drainDeadline = _
      rw [recordOf_setRecord wt]; rfl
    · intro x
      show (x, i) ∈ (takeToken e a i v).2.dom.tokenMap ++ [(u.dom.tokenCounter, i)] ↔ _
      rw [s4, List.mem_append]
      show (x, i) ∈ u.dom.tokenMap ∨ _ ↔ _
      rw [p.token, hs]
      simp
    · exact takeToken_below e a i v
    · show ∀ j, j ≠ i → _ → holdsAgree (recordOf (setRecord i r' (takeToken e a i v).2).pool i) _
      rw [recordOf_setRecord wt]
      refine au.clear (mode := mode) (first := first) (count := count) ?_ rfl rfl rfl
      intro j hj _
      rw [hu.record h.wf j]
      exact hg j (f4 ▸ hj)
    · rw [rv]
      rw [show (takeToken e a i v).1 = u.dom.tokenCounter from hk]
      exact Same.refl _
  · simp only [grantAcquire, hq, Ran.bind, Ran.table]
    exact h.same hu

/-- An ACQUIRE queued keeps the agreement (R35). -/
theorem agrees_queueAcquire (e : DomainEnv) (a : AgentId) (mode : Mode) (first : Page) (count : Nat) (cookie : BitVec 16)
    (code : WaitCode) {i : SlotId} {l : List SlotId} {t : LockTable} (h : Agrees t) (hf : t.dom.freeList = i :: l) :
    Agrees (queueAcquire e a mode first count cookie code i t).table := by
  rcases allocate_cases e i (freshRecord a mode first count cookie code .waiting none (waitDeadlineOf e code)) h.wf with
    ⟨u, g, hu, hq⟩ | ⟨u, hu, hq⟩
  · have au := h.reads hu
    have hf' : u.dom.freeList = i :: l := (sets_parts hu.same.sets).2.1.trans hf
    obtain ⟨hb, hs, hni, hnd⟩ := au.head hf'
    have p := au.agree.places i hb
    let r := freshRecord a mode first count cookie code .waiting none (waitDeadlineOf e code)
    have o1 := (((off_filled (r := r) (g := g) au hf').same (same_liveUp r.owner _))).addWait hb
    have rv : recordOf (filled i r g u).pool i = r := recordOf_filled au.wf
    simp only [queueAcquire, hq, Ran.bind, Ran.table]
    refine au.move o1 ?_ ?_ ?_ ?_ ?_
    · show u.dom.freeList.tail.Nodup
      rw [hf']; exact hnd
    · show (poolGet (filled i r g u).pool i).directory.free = true ↔ (recordOf (filled i r g u).pool i).state = .free
      rw [mark_filled au.wf, rv]
      simp [r, freshRecord]
    · intro _
      show Domain.placesRecord _ i (recordOf (filled i r g u).pool i)
      rw [rv]
      constructor
      · show i ∈ u.dom.freeList.tail ↔ _
        rw [hf']; simp [hni, r, freshRecord]
      · show i ∈ u.dom.waitQueue ++ [i] ↔ _
        simp [r, freshRecord]
      · show i ∈ u.dom.occupancy ↔ _
        rw [p.occupies, hs]; simp [r, freshRecord]
      · intro k
        show (k, i) ∈ u.dom.tokenMap ↔ _
        rw [p.token, hs]; simp [r, freshRecord]
      · simp [r, freshRecord]
      · simp [r, freshRecord]
      · simp [r, freshRecord]
    · intro k hk
      exact .inl hk
    · intro j _ _
      show holdsAgree (recordOf (filled i r g u).pool i) _
      rw [rv]
      intro m n hm
      simp [r, freshRecord, Record.hold] at hm
  · simp only [queueAcquire, hq, Ran.bind, Ran.table]
    exact h.same hu

/-! ## Changes of a held record -/

/-- A record whose hold is gone, unchanged, or SHARED in place of another agrees with the others as before. -/
theorem Agrees.weaker {t : LockTable} (h : Agrees t) {i : SlotId} (hb : inBanks t.dom.banks i = true) {r : Record}
    (hf : r.first = (recordOf t.pool i).first) (hk : r.count = (recordOf t.pool i).count)
    (hh : r.hold = none ∨ (recordOf t.pool i).hold ≠ none ∧ (r.hold = some .shared ∨ r.hold = (recordOf t.pool i).hold)) :
    ∀ j, j ≠ i → inBanks t.dom.banks j = true → holdsAgree r (recordOf t.pool j) := by
  intro j hj hbj m n hm hn ho
  rw [hf, hk] at ho
  rcases hh with hh | ⟨h0, hh⟩
  · rw [hh] at hm; exact nomatch hm
  · cases hq : (recordOf t.pool i).hold with
    | none => exact absurd hq h0
    | some m0 =>
      obtain ⟨e1, e2⟩ := h.agree.holds i j hb hbj (Ne.symm hj) m0 n hq hn ho
      refine ⟨?_, e2⟩
      rcases hh with hh | hh
      · rw [hh] at hm; exact (Option.some.inj hm).symm
      · rw [hh, hq, e1] at hm; exact (Option.some.inj hm).symm

/-- The upgrade of a HELD SHARED record whose EXCLUSIVE claim meets no other hold (R56). -/
theorem agrees_upgradeNow (e : DomainEnv) {t : LockTable} {h : Handle} (ag : Agrees t)
    (hb : inBanks t.dom.banks h.slot = true) (hx : t.dom.exhausted = false) (hs : (recordOf t.pool h.slot).state = .held)
    (hg : ∀ j ∈ t.dom.occupancy, j ≠ h.slot → conflicts .exclusive (recordOf t.pool h.slot).first (recordOf t.pool h.slot).count
      (recordOf t.pool j) (recordOf t.pool j).hold = false) : Agrees (upgradeNow e h (recordOf t.pool h.slot) t).2 := by
  have p := ag.agree.places h.slot hb
  generalize hr : recordOf t.pool h.slot = r at hg p hs
  have hmark : (poolGet t.pool h.slot).directory.free = false := ag.holding (by rw [hr, hs]; simp)
  obtain ⟨s1, s2, s3, s4, s5, -⟩ := takeToken_sets e r.owner h.slot t
  have hw : Pool.wf (takeToken e r.owner h.slot t).2.pool = true := by rw [pool_takeToken]; exact ag.wf
  have hk := takeToken_token e r.owner h.slot t
  let r' : Record := { r with mode := .exclusive, token := some t.dom.tokenCounter }
  have o1 := ((((Off.refl ag h.slot).takeToken e r.owner).dropToken r.token
    (hr ▸ ag.own_token hb (by rw [hr]; exact .inl hs))).addToken hb t.dom.tokenCounter).setRecord r'
  refine Agrees.same (agrees_granted ag o1 t.dom.tokenCounter ?_ ?_ ?_ ?_ ?_ ?_ ?_ ?_ ?_ ?_ (ag.fresh hx) ?_ ?_) ?_
  · show (takeToken e r.owner h.slot t).2.dom.freeList.Nodup
    rw [s1]; exact ag.agree.nodup
  · show h.slot ∉ (takeToken e r.owner h.slot t).2.dom.freeList
    rw [s1, p.free, hs]; simp
  · show h.slot ∉ (takeToken e r.owner h.slot t).2.dom.waitQueue
    rw [s2, p.waits, hs]; simp
  · show h.slot ∈ (takeToken e r.owner h.slot t).2.dom.occupancy
    rw [s3, p.occupies]; exact .inl hs
  · show (poolGet (setRecord h.slot r' (takeToken e r.owner h.slot t).2).pool h.slot).directory.free = false
    rw [mark_setRecord hw, pool_takeToken]; exact hmark
  · show (recordOf (setRecord h.slot r' (takeToken e r.owner h.slot t).2).pool h.slot).state = _
    rw [recordOf_setRecord hw]; exact hs
  · show (recordOf (setRecord h.slot r' (takeToken e r.owner h.slot t).2).pool h.slot).token = _
    rw [recordOf_setRecord hw]
  · show (recordOf (setRecord h.slot r' (takeToken e r.owner h.slot t).2).pool h.slot).waitDeadline = _
    rw [recordOf_setRecord hw]
    by_contra hd
    rcases p.waitDeadline hd with q | q <;> simp [hs] at q
  · show (recordOf (setRecord h.slot r' (takeToken e r.owner h.slot t).2).pool h.slot).drainDeadline = _
    rw [recordOf_setRecord hw]
    by_contra hd
    have := p.drainDeadline.mp hd
    simp [hs] at this
  · intro x
    show (x, h.slot) ∈ dropToken r.token (takeToken e r.owner h.slot t).2.dom.tokenMap ++ [(t.dom.tokenCounter, h.slot)] ↔ _
    rw [s4, List.mem_append, mem_dropToken, p.token]
    constructor
    · rintro (⟨⟨_, q⟩, n⟩ | q)
      · exact absurd q.symm n
      · simpa using q
    · intro q; right; simp [q]
  · exact takeToken_below e r.owner h.slot t
  · show ∀ j, j ≠ h.slot → _ → holdsAgree (recordOf (setRecord h.slot r' (takeToken e r.owner h.slot t).2).pool h.slot) _
    rw [recordOf_setRecord hw]
    exact ag.clear hg (by simp [r', Record.hold, hs]) rfl rfl
  · simp only [upgradeNow, hk]
    exact Same.refl _

/-- A HELD record queued for its upgrade (R57). -/
theorem agrees_queueUpgrade (e : DomainEnv) (code : WaitCode) {t : LockTable} {h : Handle} (ag : Agrees t)
    (hb : inBanks t.dom.banks h.slot = true) (hs : (recordOf t.pool h.slot).state = .held) :
    Agrees (queueUpgrade e h code (recordOf t.pool h.slot) t) := by
  have p := ag.agree.places h.slot hb
  have hmark : (poolGet t.pool h.slot).directory.free = false := ag.holding (by rw [hs]; simp)
  let r' : Record := { recordOf t.pool h.slot with
    state := .converting, waitCode := code, waitDeadline := waitDeadlineOf e code }
  have o1 := ((Off.refl ag h.slot).addWait hb).setRecord r'
  have rv : recordOf (setRecord h.slot r' t).pool h.slot = r' := recordOf_setRecord ag.wf _ _
  refine ag.move o1 ag.agree.nodup ?_ ?_ (fun k hk => .inl hk) ?_
  · show (poolGet (setRecord h.slot r' t).pool h.slot).directory.free = true ↔ (recordOf (setRecord h.slot r' t).pool h.slot).state = .free
    rw [mark_setRecord ag.wf, hmark, rv]
    simp [r']
  · intro _
    show Domain.placesRecord _ h.slot (recordOf (setRecord h.slot r' t).pool h.slot)
    rw [rv]
    constructor
    · show h.slot ∈ t.dom.freeList ↔ _
      rw [p.free, hs]; simp [r']
    · show h.slot ∈ t.dom.waitQueue ++ [h.slot] ↔ _
      simp [r']
    · show h.slot ∈ t.dom.occupancy ↔ _
      rw [p.occupies, hs]; simp [r']
    · intro k
      show (k, h.slot) ∈ t.dom.tokenMap ↔ _
      rw [p.token, hs]; simp [r']
    · intro _
      exact p.named (.inl hs)
    · simp [r']
    · show (recordOf t.pool h.slot).drainDeadline ≠ none ↔ _
      rw [p.drainDeadline, hs]; simp [r']
  · show ∀ j, j ≠ h.slot → _ → holdsAgree (recordOf (setRecord h.slot r' t).pool h.slot) _
    rw [rv]
    exact ag.weaker hb rfl rfl (.inr ⟨by simp [Record.hold, hs], .inl (by simp [r', Record.hold])⟩)

/-- A HELD record made SHARED (R59). -/
theorem agrees_downgrade {t : LockTable} {i : SlotId} (ag : Agrees t) (hb : inBanks t.dom.banks i = true)
    (hs : (recordOf t.pool i).state = .held) : Agrees (setRecord i { recordOf t.pool i with mode := .shared } t) := by
  have p := ag.agree.places i hb
  have hmark : (poolGet t.pool i).directory.free = false := ag.holding (by rw [hs]; simp)
  let r' : Record := { recordOf t.pool i with mode := .shared }
  have rv : recordOf (setRecord i r' t).pool i = r' := recordOf_setRecord ag.wf _ _
  refine ag.move ((Off.refl ag i).setRecord r') ag.agree.nodup ?_ ?_ (fun k hk => .inl hk) ?_
  · rw [mark_setRecord ag.wf, hmark, rv]
    simp [r', hs]
  · intro _
    rw [rv]
    exact ⟨p.free, p.waits, p.occupies, p.token, p.named, p.waitDeadline, p.drainDeadline⟩
  · rw [rv]
    exact ag.weaker hb rfl rfl (.inr ⟨by simp [Record.hold, hs], .inl (by simp [r', Record.hold, hs])⟩)

/-! ## Release and draining -/

/-- The release of a HELD or CONVERTING record as far as DRAINING (R63, R66, R67, R72): `mid` is what stands between the record's
leaving the collections and its entry to DRAINING, and changes nothing the agreement looks at. -/
theorem agrees_drained (e : DomainEnv) {t v : LockTable} {i : SlotId} (ag : Agrees t) (hb : inBanks t.dom.banks i = true)
    (hs : (recordOf t.pool i).state = .held ∨ (recordOf t.pool i).state = .converting)
    (mid : Same (unhold i (recordOf t.pool i) t) v) :
    Agrees (enterDraining e i v) ∧ (recordOf (enterDraining e i v).pool i).state = .draining ∧
      (poolGet (enterDraining e i v).pool i).health = .clean ∧ (enterDraining e i v).dom.banks = t.dom.banks := by
  have p := ag.agree.places i hb
  generalize hr : recordOf t.pool i = r at hs mid p
  have hne : r.state ≠ .free := by rcases hs with q | q <;> simp [q]
  have hmark : (poolGet t.pool i).directory.free = false := ag.holding (hr ▸ hne)
  let r1 : Record := { r with waitDeadline := none, mode := if r.state = .converting then .shared else r.mode }
  have o0 : Off i t (unhold i r t) :=
    ((Off.refl ag i).dropWait.dropToken r.token (hr ▸ ag.own_token hb (by rw [hr]; exact hs))).setRecord r1
  have ov := o0.same mid
  have r1v : (recordOf v.pool i).core = r1.core := by
    rw [mid.core o0.wf i]
    show (recordOf (setRecord i r1 t).pool i).core = _
    rw [recordOf_setRecord ag.wf]
  obtain ⟨c1, c2, c3, c4, c5, c6, c7⟩ := core_parts r1v
  obtain ⟨m1, m2, m3, m4, m5, m6, m7⟩ := sets_parts mid.sets
  have mv : (poolGet v.pool i).directory.free = false := by
    rw [mid.mark o0.wf i]
    show (poolGet (setRecord i r1 t).pool i).directory.free = _
    rw [mark_setRecord ag.wf, hmark]
  let r2 : Record := { recordOf v.pool i with state := .draining, drainDeadline := some (e.now + drainTime v.dom) }
  have o2 : Off i t (enterDraining e i v) := ov.setRecord r2
  have rv : recordOf (enterDraining e i v).pool i = r2 := recordOf_setRecord ov.wf _ _
  have hmap : ∀ k, (k, i) ∉ v.dom.tokenMap := by
    intro k hk
    rw [m5] at hk
    have hk' : (k, i) ∈ dropToken r.token t.dom.tokenMap := hk
    rw [mem_dropToken, p.token] at hk'
    exact hk'.2 hk'.1.2.symm
  refine ⟨ag.move o2 ?_ ?_ ?_ ?_ ?_, by rw [rv], clean_setRecord_same ov.wf _ _, o2.banks⟩
  · show v.dom.freeList.Nodup
    rw [m2]; exact ag.agree.nodup
  · rw [rv]
    show (poolGet (setRecord i r2 v).pool i).directory.free = true ↔ _
    rw [mark_setRecord ov.wf, mv]
    simp [r2]
  · intro _
    rw [rv]
    constructor
    · show i ∈ v.dom.freeList ↔ _
      rw [m2]
      show i ∈ t.dom.freeList ↔ _
      rw [p.free]; simp [r2, hne]
    · show i ∈ v.dom.waitQueue ↔ _
      rw [m3]
      show i ∈ dropSlot i t.dom.waitQueue ↔ _
      simp [mem_dropSlot, r2]
    · show i ∈ v.dom.occupancy ↔ _
      rw [m4]
      show i ∈ t.dom.occupancy ↔ _
      rw [p.occupies]; rcases hs with q | q <;> simp [r2, q]
    · intro k
      show (k, i) ∈ v.dom.tokenMap ↔ _
      simp [hmap k, r2]
    · simp [r2]
    · show (recordOf v.pool i).waitDeadline ≠ none → _
      rw [c6]; simp [r1]
    · simp [r2]
  · intro k hk
    exact absurd hk (hmap k)
  · rw [rv]
    refine ag.weaker hb (by rw [hr]; exact c3) (by rw [hr]; exact c4) (.inr ?_)
    rw [hr]
    have hold2 : r2.hold = some r1.mode := by
      show some (recordOf v.pool i).mode = _
      rw [c2]
    rw [hold2]
    rcases hs with q | q
    · exact ⟨by simp [Record.hold, q], .inr (by simp [Record.hold, q, r1])⟩
    · exact ⟨by simp [Record.hold, q], .inl (by simp [q, r1])⟩

/-- The departure of a DRAINING record (R68). -/
theorem agrees_leaveDraining (e : DomainEnv) {t : LockTable} {i : SlotId} (ag : Agrees t) (hb : inBanks t.dom.banks i = true)
    (hs : (recordOf t.pool i).state = .draining) :
    ∃ v, leaveDraining e i t = .ok () v ∧ Agrees v := by
  have p := ag.agree.places i hb
  have hmark : (poolGet t.pool i).directory.free = false := ag.holding (by rw [hs]; simp)
  generalize hr : recordOf t.pool i = r at hs p
  have o1 : Off i t (setRecord i { r with drainDeadline := none }
      { t with dom := { t.dom with occupancy := dropSlot i t.dom.occupancy } }) :=
    (Off.refl ag i).dropOccupancy.setRecord _
  simp only [leaveDraining, hr]
  split
  · let r' : Record := { r with drainDeadline := none, state := .ended }
    have o2 := o1.setRecord r'
    have rv : recordOf (setRecord i r' (setRecord i { r with drainDeadline := none }
        { t with dom := { t.dom with occupancy := dropSlot i t.dom.occupancy } })).pool i = r' := recordOf_setRecord o1.wf _ _
    refine ⟨_, rfl, ag.move o2 ag.agree.nodup ?_ ?_ (fun k hk => .inl hk) ?_⟩
    · rw [rv, mark_setRecord o1.wf]
      show (poolGet (setRecord i { r with drainDeadline := none } t).pool i).directory.free = true ↔ _
      rw [mark_setRecord ag.wf, hmark]
      simp [r']
    · intro _
      rw [rv]
      constructor
      · show i ∈ t.dom.freeList ↔ _
        rw [p.free, hs]; simp [r']
      · show i ∈ t.dom.waitQueue ↔ _
        rw [p.waits, hs]; simp [r']
      · show i ∈ dropSlot i t.dom.occupancy ↔ _
        simp [mem_dropSlot, r']
      · intro k
        show (k, i) ∈ t.dom.tokenMap ↔ _
        rw [p.token, hs]; simp [r']
      · simp [r']
      · intro hd
        have := p.waitDeadline hd
        simp [hs] at this
      · simp [r']
    · rw [rv]
      exact ag.weaker hb (by rw [hr]) (by rw [hr]) (.inl (by simp [r', Record.hold]))
  · obtain ⟨v, hv, av, -⟩ := agrees_retire e ag o1 rfl hb (by rw [hr, hs]; simp) (clean_setRecord_same ag.wf _ _)
    exact ⟨v, hv, av⟩

/-- The end of a drain with what follows it (R68). -/
theorem ended_endDrain (e : DomainEnv) {t : LockTable} {i : SlotId} (ag : Agrees t) (hb : inBanks t.dom.banks i = true)
    (hs : (recordOf t.pool i).state = .draining) : Ended (endDrain e i t).table := by
  obtain ⟨v, hv, av⟩ := agrees_leaveDraining e ag hb hs
  simp only [endDrain, hv, Ran.bind]
  exact ended_finish e av

/-- The release of a HELD or CONVERTING record (R63, R66). -/
theorem ended_releaseHeld (e : DomainEnv) {t : LockTable} {i : SlotId} (revoked : Option Bool) (ag : Agrees t)
    (hb : inBanks t.dom.banks i = true)
    (hs : (recordOf t.pool i).state = .held ∨ (recordOf t.pool i).state = .converting) :
    Ended (releaseHeld e i (recordOf t.pool i) revoked t).table := by
  obtain ⟨a1, a2, a3, a4⟩ := agrees_drained e ag hb hs ((same_withdraw i _).trans
    ((same_liveDown (recordOf t.pool i).owner _).trans (same_reportRevocation i (recordOf t.pool i).owner revoked _)))
  simp only [releaseHeld]
  split
  · exact ended_endDrain e a1 (by rw [a4]; exact hb) a2
  · split
    · exact .inl (agrees_grantPass e a1)
    · exact .inl a1

/-- The cancel of a WAITING record (R62). -/
theorem ended_cancel (e : DomainEnv) {t : LockTable} {i : SlotId} (ag : Agrees t) (hb : inBanks t.dom.banks i = true)
    (hs : (recordOf t.pool i).state = .waiting) (c : (poolGet t.pool i).health = .clean) :
    Ended (cancel e i (recordOf t.pool i) t).table := by
  have o1 : Off i t (liveDown (recordOf t.pool i).owner
      { t with dom := { t.dom with waitQueue := dropSlot i t.dom.waitQueue } }) := (Off.refl ag i).dropWait.same (same_liveDown _ _)
  obtain ⟨v, hv, av, -⟩ := agrees_retire e ag o1 rfl hb (by rw [hs]; simp) c
  simp only [cancel, hv, Ran.bind]
  exact ended_finish e av

/-! ## Reclaim -/

/-- The visit of one record of a reclaimed agent (R72). -/
theorem agrees_reclaimVisit (e : DomainEnv) {t : LockTable} {i : SlotId} (ag : Agrees t) (hb : inBanks t.dom.banks i = true) :
    Agrees (reclaimVisit e i t).table := by
  rcases readRecord_cases e i ag.wf with ⟨u, hu, c, hr⟩ | ⟨u, hu, hr⟩
  · have au := ag.reads hu
    have hbu : inBanks u.dom.banks i = true := (sets_parts hu.same.sets).1 ▸ hb
    have drain (hs : (recordOf u.pool i).state = .held ∨ (recordOf u.pool i).state = .converting) : Agrees (Ran.table (
        let v := enterDraining e i (reportLive (recordOf u.pool i).owner .down (liveDown (recordOf u.pool i).owner
          (clearNotices i (unhold i (recordOf u.pool i) u))))
        if (recordOf u.pool i).reads = 0 ∧ (recordOf u.pool i).writes = 0 then leaveDraining e i v else .ok () v)) := by
      obtain ⟨a1, a2, a3, a4⟩ := agrees_drained e au hbu hs ((same_clearNotices i _).trans
        ((same_liveDown (recordOf u.pool i).owner _).trans (same_reportLive (recordOf u.pool i).owner .down _)))
      simp only
      split
      · obtain ⟨v, hv, av⟩ := agrees_leaveDraining e a1 (by rw [a4]; exact hbu) a2
        rw [hv]; exact av
      · exact a1
    simp only [reclaimVisit, hr, Ran.bind]
    split
    · next hs =>
      have o1 := (Off.refl au i).dropWait.same ((same_liveDown (recordOf u.pool i).owner _).trans
        (same_reportLive (recordOf u.pool i).owner .down _))
      obtain ⟨v, hv, av, -⟩ := agrees_retire e au o1 rfl hbu (by rw [hs]; simp) c
      rw [hv]; exact av
    · next hs => exact drain (.inl hs)
    · next hs => exact drain (.inr hs)
    · exact au.same (same_clearNotices i u)
    · next hs =>
      have sc := same_clearNotices i u
      obtain ⟨v, hv, av, -⟩ := agrees_retire e au ((Off.refl au i).same sc) (sets_parts sc.sets).2.1 hbu (by rw [hs]; simp)
        (sc.clean au.wf i c)
      rw [hv]; exact av
    · exact au
  · simp only [reclaimVisit, hr, Ran.bind]
    exact ag.same hu

theorem agrees_reclaimAll (e : DomainEnv) {l : List SlotId} {t : LockTable} (ag : Agrees t)
    (hl : ∀ j ∈ l, inBanks t.dom.banks j = true) (hs : t.dom.state ≠ .disabled) : Agrees (reclaimAll e l t).table := by
  induction l generalizing t with
  | nil => exact ag
  | cons i l ih =>
    have hb := hl i List.mem_cons_self
    have k := kept_reclaimVisit e hb hs
    have av := agrees_reclaimVisit e ag hb
    simp only [reclaimAll]
    cases hv : reclaimVisit e i t with
    | lost u => rw [hv] at av; exact av
    | ok x u =>
      rw [hv] at av k
      exact ih av (fun j hj => by rw [k.1.banks]; exact hl j (List.mem_cons_of_mem _ hj)) (by rw [k.2]; exact hs)

/-- A reclaim (R72, R73). -/
theorem ended_reclaimAgent (e : DomainEnv) (a : AgentId) {t : LockTable} (ag : Agrees t) (hs : t.dom.state ≠ .disabled) :
    Ended (reclaimAgent e a t).table := by
  have := agrees_reclaimAll e ag (List.all_eq_true.mp (all_slotsOwnedBy a t)) hs
  simp only [reclaimAgent]
  cases hv : reclaimAll e (slotsOwnedBy a t) t with
  | lost u => rw [hv] at this; exact .inl this
  | ok x u => rw [hv] at this; exact ended_finish e this

/-! ## Timers -/

/-- The expiry of a wait (R49, R50). -/
theorem agrees_waitExpire (e : DomainEnv) {t : LockTable} {i : SlotId} (ag : Agrees t) (hb : inBanks t.dom.banks i = true) :
    Agrees (waitExpire e i t).table := by
  rcases readRecord_cases e i ag.wf with ⟨u, hu, c, hr⟩ | ⟨u, hu, hr⟩
  · have au := ag.reads hu
    have hbu : inBanks u.dom.banks i = true := (sets_parts hu.same.sets).1 ▸ hb
    have p := au.agree.places i hbu
    simp only [waitExpire, hr, Ran.bind]
    split
    · next hs =>
      have hmark : (poolGet u.pool i).directory.free = false := au.holding (by rw [hs]; simp)
      let r' : Record := { recordOf u.pool i with state := .ended, waitDeadline := none, token := none }
      have rv : recordOf (setRecord i r' u).pool i = r' := recordOf_setRecord au.wf _ _
      refine agrees_grantPass e (Agrees.same (au.move ((Off.refl au i).dropWait.setRecord r') au.agree.nodup ?_ ?_
        (fun k hk => .inl hk) ?_) ((same_liveDown (recordOf u.pool i).owner _).trans
        ((same_reportLive (recordOf u.pool i).owner .down _).trans (same_post i .waitExpired none _))))
      · show (poolGet (setRecord i r' u).pool i).directory.free = true ↔ (recordOf (setRecord i r' u).pool i).state = .free
        rw [mark_setRecord au.wf, hmark, rv]
        simp [r']
      · intro _
        show Domain.placesRecord _ i (recordOf (setRecord i r' u).pool i)
        rw [rv]
        constructor
        · show i ∈ u.dom.freeList ↔ _
          rw [p.free, hs]; simp [r']
        · show i ∈ dropSlot i u.dom.waitQueue ↔ _
          simp [mem_dropSlot, r']
        · show i ∈ u.dom.occupancy ↔ _
          rw [p.occupies, hs]; simp [r']
        · intro k
          show (k, i) ∈ u.dom.tokenMap ↔ _
          rw [p.token, hs]; simp [r']
        · simp [r']
        · simp [r']
        · show (recordOf u.pool i).drainDeadline ≠ none ↔ _
          rw [p.drainDeadline, hs]; simp [r']
      · show ∀ j, j ≠ i → _ → holdsAgree (recordOf (setRecord i r' u).pool i) _
        rw [rv]
        exact au.weaker hbu rfl rfl (.inl (by simp [r', Record.hold]))
    · next hs =>
      have hmark : (poolGet u.pool i).directory.free = false := au.holding (by rw [hs]; simp)
      let r' : Record := { recordOf u.pool i with state := .held, mode := .shared, waitDeadline := none }
      have rv : recordOf (setRecord i r' u).pool i = r' := recordOf_setRecord au.wf _ _
      refine agrees_grantPass e (Agrees.same (au.move ((Off.refl au i).dropWait.setRecord r') au.agree.nodup ?_ ?_
        (fun k hk => .inl hk) ?_) (same_post i .upgradeExpired none _))
      · show (poolGet (setRecord i r' u).pool i).directory.free = true ↔ (recordOf (setRecord i r' u).pool i).state = .free
        rw [mark_setRecord au.wf, hmark, rv]
        simp [r']
      · intro _
        show Domain.placesRecord _ i (recordOf (setRecord i r' u).pool i)
        rw [rv]
        constructor
        · show i ∈ u.dom.freeList ↔ _
          rw [p.free, hs]; simp [r']
        · show i ∈ dropSlot i u.dom.waitQueue ↔ _
          simp [mem_dropSlot, r']
        · show i ∈ u.dom.occupancy ↔ _
          rw [p.occupies, hs]; simp [r']
        · intro k
          show (k, i) ∈ u.dom.tokenMap ↔ _
          rw [p.token, hs]; simp [r']
        · intro _
          exact p.named (.inr hs)
        · simp [r']
        · show (recordOf u.pool i).drainDeadline ≠ none ↔ _
          rw [p.drainDeadline, hs]; simp [r']
      · show ∀ j, j ≠ i → _ → holdsAgree (recordOf (setRecord i r' u).pool i) _
        rw [rv]
        exact au.weaker hbu rfl rfl (.inr ⟨by simp [Record.hold, hs], .inl (by simp [r', Record.hold])⟩)
    · exact au
    · exact au
    · exact au
    · exact au
  · simp only [waitExpire, hr, Ran.bind]
    exact ag.same hu

/-- A drain overrun (R69). -/
theorem ended_drainOverrun (e : DomainEnv) {t : LockTable} {i : SlotId} (ag : Agrees t) (hb : inBanks t.dom.banks i = true) :
    Ended (drainOverrun e i t).table := by
  rcases readRecord_cases e i ag.wf with ⟨u, hu, c, hr⟩ | ⟨u, hu, hr⟩
  · have au := ag.reads hu
    have hbu : inBanks u.dom.banks i = true := (sets_parts hu.same.sets).1 ▸ hb
    simp only [drainOverrun, hr, Ran.bind]
    split
    · next hs =>
      have sm : Same u (report e .drainOverrun (some (recordOf u.pool i).owner) (some i) none
          (setRecord i { recordOf u.pool i with reads := 0, writes := 0 } u)) :=
        Same.trans (by exact same_setRecord rfl) (same_report ..)
      refine ended_endDrain e (au.same sm) hbu ?_
      rw [(core_parts (sm.core au.wf i)).1]
      exact hs
    · exact .inl au
  · simp only [drainOverrun, hr, Ran.bind]
    exact .inl (ag.same hu)

end Sys2Proof.Machine
end

