-- ==== Sys2Proof/Laws/HoldsEvents.lean ====
section
/-! SUPPORT. The agreement of records, collections and holds through each event of a domain, from the taking of its item on. -/

namespace Sys2Proof.Machine

/-- What an event of a domain does to the agreement: where the domain serves it keeps it, or ends with the domain DISABLED and its
slots FREE; where it does not serve, nothing the agreement looks at changes. -/
structure Steps (t u : LockTable) : Prop where
  serves : t.dom.serves = true → Agrees t → Ended u
  idle : t.dom.serves = false → Pool.wf t.pool = true → Same t u

theorem Ended.andThen {t u : LockTable} (h : Ended t) (s : Same t u) (hs : u.dom.state = t.dom.state) : Ended u := by
  rcases h with h | h
  · exact .inl (h.same s)
  · exact .inr (h.same s (hs.trans h.state))

theorem Steps.same {t u : LockTable} (s : Same t u) : Steps t u :=
  ⟨fun _ h => .inl (h.same s), fun _ _ => s⟩

theorem Steps.after {t u v : LockTable} (s : Same t u) (hs : u.dom.state = t.dom.state) (k : Steps u v) : Steps t v := by
  have e : u.dom.serves = t.dom.serves := by simp [Domain.serves, hs]
  exact ⟨fun h a => k.serves (e.trans h) (a.same s), fun h w => s.trans (k.idle (e.trans h) (s.wf w))⟩

theorem Steps.andThen {t u v : LockTable} (k : Steps t u) (s : Same u v) (hs : v.dom.state = u.dom.state) : Steps t v :=
  ⟨fun h a => (k.serves h a).andThen s hs, fun h w => (k.idle h w).trans s⟩

/-! ## Reads that name a handle -/

theorem serves_of {x : Domain} {i : SlotId} (h : x.owns i = true) (g : x.unavailable = false) : x.serves = true := by
  simp only [Domain.owns, Domain.unavailable, Domain.serves] at *
  cases hs : x.state <;> simp [hs] at h g ⊢

/-- What the checks of a handle can do (R54, R65). -/
theorem currentRecord_cases (e : DomainEnv) (h : Handle) {t : LockTable} (w : Pool.wf t.pool = true) :
    (∃ u c, Same t u ∧ currentRecord e h t = .ok (.error c) u) ∨
      (∃ u, t.dom.serves = true ∧ inBanks t.dom.banks h.slot = true ∧ Reads t u ∧ (poolGet u.pool h.slot).health = .clean ∧
        currentRecord e h t = .ok (.ok (recordOf u.pool h.slot)) u) ∨
      ∃ u, Same t u ∧ currentRecord e h t = .lost u := by
  simp only [currentRecord]
  split
  · exact .inl ⟨t, _, Same.refl t, rfl⟩
  · next ho =>
    split
    · exact .inl ⟨t, _, Same.refl t, rfl⟩
    · next hu =>
      have ho' : t.dom.owns h.slot = true := by simpa using ho
      have hs := serves_of ho' (by simpa using hu)
      rcases readSlot_cases e h.slot w with ⟨u, g, hr, -, hq⟩ | ⟨u, g, hr, -, c, hq⟩ | ⟨u, hr, hq⟩
      · exact .inl ⟨u, _, hr.same, by rw [hq]; rfl⟩
      · by_cases hg : g = h.gen
        · exact .inr (.inl ⟨u, hs, (owns_inBanks ho').2, hr, c, by rw [hq]; simp [Ran.bind, hg]⟩)
        · exact .inl ⟨u, .staleHandle, hr.same, by rw [hq]; simp [Ran.bind, hg]⟩
      · exact .inr (.inr ⟨u, hr, by rw [hq]; rfl⟩)

theorem requestedRecord_cases (e : DomainEnv) (a : AgentId) (h : Handle) {t : LockTable} (w : Pool.wf t.pool = true) :
    (∃ u c, Same t u ∧ requestedRecord e a h t = .ok (.error c) u) ∨
      (∃ u, t.dom.serves = true ∧ inBanks t.dom.banks h.slot = true ∧ Reads t u ∧ (poolGet u.pool h.slot).health = .clean ∧
        requestedRecord e a h t = .ok (.ok (recordOf u.pool h.slot)) u) ∨
      ∃ u, Same t u ∧ requestedRecord e a h t = .lost u := by
  rcases currentRecord_cases e h w with ⟨u, c, s, hq⟩ | ⟨u, hs, hb, r, c, hq⟩ | ⟨u, s, hq⟩
  · exact .inl ⟨u, c, s, by simp [requestedRecord, hq, Ran.bind]⟩
  · by_cases ho : (recordOf u.pool h.slot).owner = a
    · exact .inr (.inl ⟨u, hs, hb, r, c, by simp [requestedRecord, hq, Ran.bind, ho]⟩)
    · exact .inl ⟨u, .notOwner, r.same, by simp [requestedRecord, hq, Ran.bind, ho]⟩
  · exact .inr (.inr ⟨u, s, by simp [requestedRecord, hq, Ran.bind]⟩)

theorem presentedRecord_cases (e : DomainEnv) (h : Handle) {t : LockTable} (w : Pool.wf t.pool = true) :
    (∃ u, Same t u ∧ presentedRecord e h t = .ok none u) ∨
      (∃ u, t.dom.serves = true ∧ inBanks t.dom.banks h.slot = true ∧ Reads t u ∧ (poolGet u.pool h.slot).health = .clean ∧
        presentedRecord e h t = .ok (some (recordOf u.pool h.slot)) u) ∨
      ∃ u, Same t u ∧ presentedRecord e h t = .lost u := by
  simp only [presentedRecord]
  split
  · next hc =>
    simp only [Bool.and_eq_true] at hc
    rcases readSlot_cases e h.slot w with ⟨u, g, hr, -, hq⟩ | ⟨u, g, hr, -, c, hq⟩ | ⟨u, hr, hq⟩
    · exact .inl ⟨u, hr.same, by rw [hq]; rfl⟩
    · by_cases hg : g = h.gen
      · exact .inr (.inl ⟨u, hc.1, (owns_inBanks hc.2).2, hr, c, by rw [hq]; simp [Ran.bind, hg]⟩)
      · exact .inl ⟨u, hr.same, by rw [hq]; simp [Ran.bind, hg]⟩
    · exact .inr (.inr ⟨u, hr, by rw [hq]; rfl⟩)
  · exact .inl ⟨t, Same.refl t, rfl⟩

/-! ## Requests -/

/-- The checks of R30 to R35. -/
theorem agrees_decideInDomain (e : DomainEnv) (a : AgentId) (mode : Mode) (first : Page) (count : Nat) (cookie : BitVec 16)
    (code : WaitCode) {t : LockTable} (h : Agrees t) : Agrees (decideInDomain e a mode first count cookie code t).table := by
  simp only [decideInDomain]
  rcases readAll_cases e t.dom.occupancy h.wf with ⟨u, hu, ha⟩ | ⟨u, hu, ha⟩
  · have au := h.reads hu
    simp only [ha, Ran.bind]
    split
    · exact au
    · split
      · exact au
      · next i l hf =>
        rcases readAll_cases e u.dom.waitQueue au.wf with ⟨v, hv, hb⟩ | ⟨v, hv, hb⟩
        · have av := au.reads hv
          have hf' : v.dom.freeList = i :: l := (sets_parts hv.same.sets).2.1.trans hf
          simp only [hb]
          split
          · next hg =>
            split
            · exact av
            · next hx =>
              simp only [Bool.and_eq_true, Bool.not_eq_true'] at hg
              refine agrees_grantAcquire e a mode first count cookie code av hf' (by simpa using hx) ?_
              intro j hj
              rw [hv.record au.wf j]
              refine clear_of_meetsAll hg.1 j ?_
              rw [← (sets_parts hu.same.sets).2.2.2.1, ← (sets_parts hv.same.sets).2.2.2.1]
              exact hj
          · split
            · exact av
            · exact agrees_queueAcquire e a mode first count cookie code av hf'
        · simp only [hb]
          exact au.same hv
  · simp only [ha, Ran.bind]
    exact h.same hu

theorem steps_decideAcquire (e : DomainEnv) (q : LockRequest) (mode : Mode) (first : Page) (count : Nat) (cookie : BitVec 16)
    (code : WaitCode) (t : LockTable) : Steps t (decideAcquire e q mode first count cookie code t).table := by
  simp only [decideAcquire]
  split
  · exact Steps.same (Same.refl t)
  · next hh =>
    split
    · exact Steps.same (Same.refl t)
    · split
      · exact Steps.same (Same.refl t)
      · next hu =>
        have hs : t.dom.serves = true := by
          have := holds_not_disabled (x := t.dom) (p := first) (by simpa using hh)
          simp only [Domain.unavailable, Domain.serves] at *
          cases hs : t.dom.state <;> simp [hs] at this hu ⊢
        repeat (split; · exact Steps.same (Same.refl t))
        exact ⟨fun _ h => .inl (agrees_decideInDomain e _ _ _ _ _ _ h), fun h => absurd hs (by simp [h])⟩

theorem steps_returnDecision (q : LockRequest) (live : Response → Option LiveChange) {t : LockTable} {r : Ran Response}
    (h : Steps t r.table) : Steps t (returnDecision q live r) := by
  cases r with
  | ok a u => exact h.andThen (same_returnResult ..) rfl
  | lost u => exact h.andThen (same_returnResult ..) rfl

theorem steps_decideRelease (e : DomainEnv) (q : LockRequest) (h : Handle) (t : LockTable) (w : Pool.wf t.pool = true) :
    Steps t (decideRelease e q h t) := by
  have released {u : LockTable} {r : Response} {x : Ran Unit} (hx : Ended x.table) : Ended (returnReleased q r x) := by
    cases x with
    | ok _ v => exact hx.andThen (same_returnResult ..) rfl
    | lost v => exact hx.andThen (same_returnResult ..) rfl
  rcases requestedRecord_cases e q.agent h w with ⟨u, c, s, hq⟩ | ⟨u, hs, hb, r, c, hq⟩ | ⟨u, s, hq⟩
  · simp only [decideRelease, hq]
    exact Steps.same (s.trans (same_returnResult ..))
  · refine ⟨fun _ ag => ?_, fun hn => absurd hs (by simp [hn])⟩
    have au := ag.reads r
    have hbu : inBanks u.dom.banks h.slot = true := (sets_parts r.same.sets).1 ▸ hb
    simp only [decideRelease, hq]
    split
    · exact .inl (au.same (same_returnResult ..))
    · exact .inl (au.same (same_returnResult ..))
    · next hst => exact released (u := u) (ended_cancel e au hbu hst c)
    · next hst => exact released (u := u) (ended_releaseHeld e none au hbu (.inl hst))
    · next hst => exact released (u := u) (ended_releaseHeld e none au hbu (.inr hst))
    · exact .inl (au.same (same_returnResult ..))
  · simp only [decideRelease, hq]
    exact Steps.same (s.trans (same_returnResult ..))

theorem steps_decideConvertUp (e : DomainEnv) (a : AgentId) (h : Handle) (code : WaitCode) (t : LockTable)
    (w : Pool.wf t.pool = true) : Steps t (decideConvertUp e a h code t).table := by
  rcases requestedRecord_cases e a h w with ⟨u, c, s, hq⟩ | ⟨u, hs, hb, r, c, hq⟩ | ⟨u, s, hq⟩
  · simp only [decideConvertUp, hq, Ran.bind]
    exact Steps.same s
  · refine ⟨fun _ ag => .inl ?_, fun hn => absurd hs (by simp [hn])⟩
    have au := ag.reads r
    have hbu : inBanks u.dom.banks h.slot = true := (sets_parts r.same.sets).1 ▸ hb
    simp only [decideConvertUp, hq, Ran.bind]
    split
    · exact au
    · next hst =>
      have hst' : (recordOf u.pool h.slot).state = .held := by
        by_contra hne
        exact hst (.inl hne)
      rcases readAll_cases e u.dom.waitQueue au.wf with ⟨v, hv, hl⟩ | ⟨v, hv, hl⟩
      · have av := au.reads hv
        simp only [hl]
        split
        · exact av
        · rcases readAll_cases e v.dom.occupancy av.wf with ⟨x, hx, hl'⟩ | ⟨x, hx, hl'⟩
          · have ax := av.reads hx
            have rx : recordOf x.pool h.slot = recordOf u.pool h.slot := (hx.record av.wf _).trans (hv.record au.wf _)
            have hbx : inBanks x.dom.banks h.slot = true :=
              ((sets_parts hx.same.sets).1.trans (sets_parts hv.same.sets).1) ▸ hbu
            simp only [hl']
            split
            · next hg =>
              split
              · exact ax
              · next hxh =>
                rw [← rx] at hg hst' ⊢
                refine agrees_upgradeNow e ax hbx (by simpa using hxh) hst' ?_
                rw [(sets_parts hx.same.sets).2.2.2.1]
                exact clear_of_meets (by simpa using hg)
            · split
              · exact ax
              · rw [← rx] at hst' ⊢
                exact agrees_queueUpgrade e code ax hbx hst'
          · simp only [hl']
            exact av.same hx
      · simp only [hl]
        exact au.same hv
  · simp only [decideConvertUp, hq, Ran.bind]
    exact Steps.same s

theorem steps_decideConvertDown (e : DomainEnv) (a : AgentId) (h : Handle) (t : LockTable) (w : Pool.wf t.pool = true) :
    Steps t (decideConvertDown e a h t).table := by
  rcases requestedRecord_cases e a h w with ⟨u, c, s, hq⟩ | ⟨u, hs, hb, r, c, hq⟩ | ⟨u, s, hq⟩
  · simp only [decideConvertDown, hq, Ran.bind]
    exact Steps.same s
  · refine ⟨fun _ ag => .inl ?_, fun hn => absurd hs (by simp [hn])⟩
    have au := ag.reads r
    have hbu : inBanks u.dom.banks h.slot = true := (sets_parts r.same.sets).1 ▸ hb
    simp only [decideConvertDown, hq, Ran.bind]
    split
    · exact au
    · next hst =>
      have hst' : (recordOf u.pool h.slot).state = .held := by
        by_contra hne
        exact hst (.inl hne)
      split
      · exact au
      · have := agrees_grantPass e (agrees_downgrade au hbu hst')
        cases hg : grantPass e (setRecord h.slot { recordOf u.pool h.slot with mode := .shared } u) with
        | ok x v => rw [hg] at this; exact this
        | lost v => rw [hg] at this; exact this
  · simp only [decideConvertDown, hq, Ran.bind]
    exact Steps.same s

theorem same_decideQuery (e : DomainEnv) (a : AgentId) (h : Handle) (t : LockTable) (w : Pool.wf t.pool = true) :
    Same t (decideQuery e a h t).table := by
  rcases requestedRecord_cases e a h w with ⟨u, c, s, hq⟩ | ⟨u, hs, hb, r, c, hq⟩ | ⟨u, s, hq⟩
  · simp only [decideQuery, hq, Ran.bind]; exact s
  · simp only [decideQuery, hq, Ran.bind]; exact r.same
  · simp only [decideQuery, hq, Ran.bind]; exact s

/-! ## Timers and reclaims -/

theorem steps_takeReclaim (e : DomainEnv) (a : AgentId) (k : Nat) (t : LockTable) : Steps t (takeReclaim e a k t) := by
  refine Steps.after (u := { t with dom := { t.dom with
    fromSession := t.dom.fromSession.tail, reclaimed := put t.dom.reclaimed a k } }) (Same.dom rfl) rfl ?_
  simp only [takeReclaim]
  split
  · next hs =>
    exact ⟨fun _ h => ended_reclaimAgent e a h (serves_not_disabled hs), fun hn => absurd hs (by simp [hn])⟩
  · exact Steps.same (Same.refl _)

/-! ## The notice unit's items -/

theorem same_takeClaim (e : DomainEnv) (a : AgentId) (h : Handle) (t : LockTable) (w : Pool.wf t.pool = true) :
    Same t (takeClaim e a h t) := by
  rcases presentedRecord_cases e h w with ⟨u, s, hq⟩ | ⟨u, hs, hb, r, c, hq⟩ | ⟨u, s, hq⟩
  · simp only [takeClaim, hq]; exact s.trans (same_tell _ _)
  · simp only [takeClaim, hq]
    split
    · split
      · exact r.same.trans (same_tell _ _)
      · exact r.same.trans (Same.trans (by exact same_setRecord rfl) (same_tell _ _))
    · exact r.same.trans (same_tell _ _)
  · simp only [takeClaim, hq]; exact s.trans (same_tell _ _)

theorem same_takeReversion (e : DomainEnv) (h : Handle) (t : LockTable) (w : Pool.wf t.pool = true) :
    Same t (takeReversion e h t) := by
  rcases presentedRecord_cases e h w with ⟨u, s, hq⟩ | ⟨u, hs, hb, r, c, hq⟩ | ⟨u, s, hq⟩
  · simp only [takeReversion, hq]; exact s
  · simp only [takeReversion, hq]
    split
    · exact r.same.trans (by exact same_setRecord rfl)
    · exact r.same
  · simp only [takeReversion, hq]; exact s

theorem core_promoteFollowUp (r : Record) : (promoteFollowUp r).core = r.core := by
  simp only [promoteFollowUp]
  split <;> rfl

theorem steps_takeAcknowledgement (e : DomainEnv) (a : AgentId) (h : Handle) (t : LockTable) (w : Pool.wf t.pool = true) :
    Steps t (takeAcknowledgement e a h t) := by
  rcases presentedRecord_cases e h w with ⟨u, s, hq⟩ | ⟨u, hs, hb, r, c, hq⟩ | ⟨u, s, hq⟩
  · simp only [takeAcknowledgement, hq]
    exact Steps.same (s.trans (same_tell _ _))
  · refine ⟨fun _ ag => ?_, fun hn => absurd hs (by simp [hn])⟩
    have au := ag.reads r
    have hbu : inBanks u.dom.banks h.slot = true := (sets_parts r.same.sets).1 ▸ hb
    have sp : Same u (setRecord h.slot (promoteFollowUp (recordOf u.pool h.slot)) u) :=
      same_setRecord (core_promoteFollowUp _)
    simp only [takeAcknowledgement, hq]
    split
    · split
      · split
        · exact .inl (au.same (sp.trans (same_tell _ _)))
        · split
          · next hst =>
            obtain ⟨v, hv, av, -⟩ := agrees_retire e au ((Off.refl au h.slot).same sp) (sets_parts sp.sets).2.1 hbu
              (by rw [hst]; simp) (sp.clean au.wf _ c)
            rw [hv]
            exact ended_completeClose (av.same (same_tell _ _))
          · exact .inl (au.same (sp.trans (same_tell _ _)))
      · exact .inl (au.same (same_tell _ _))
    · exact .inl (au.same (same_tell _ _))
  · simp only [takeAcknowledgement, hq]
    exact Steps.same (s.trans (same_tell _ _))

/-! ## CHECK and DONE -/

theorem core_withInFlight (r : Record) (k : AccessKind) (n : Nat) : (withInFlight r k n).core = r.core := by
  cases k <;> rfl

theorem same_checkRecord (c : Check) (i : SlotId) (t : LockTable) : Same t (checkRecord c i (recordOf t.pool i) t).2 := by
  simp only [checkRecord]
  repeat (split; · exact Same.refl t)
  exact same_setRecord (core_withInFlight _ _ _)

theorem same_decideCheck (e : DomainEnv) (p : PresentedCheck) (t : LockTable) (w : Pool.wf t.pool = true) :
    Same t (decideCheck e p t).2 := by
  simp only [decideCheck]
  repeat' split
  all_goals first
    | exact Same.refl t
    | skip
  · next i _ _ u hr =>
    rcases readRecord_cases e i w with ⟨v, hv, -, hq⟩ | ⟨v, hv, hq⟩
    · rw [hq] at hr; exact nomatch hr
    · rw [hq] at hr; cases hr; exact hv
  · next i _ _ r u hr =>
    rcases readRecord_cases e i w with ⟨v, hv, -, hq⟩ | ⟨v, hv, hq⟩
    · rw [hq] at hr; cases hr; exact hv.same.trans (same_checkRecord _ _ _)
    · rw [hq] at hr; exact nomatch hr

theorem same_takeCheck (e : DomainEnv) (p : PresentedCheck) (t : LockTable) (w : Pool.wf t.pool = true) :
    Same t (takeCheck e p t) :=
  (Same.dom (x := { t.dom with checks := t.dom.checks.tail }) rfl).trans
    ((same_decideCheck e p { t with dom := { t.dom with checks := t.dom.checks.tail } } w).trans (Same.dom rfl))

theorem steps_decideDone (e : DomainEnv) (k : Ticket) (t : LockTable) (w : Pool.wf t.pool = true) :
    Steps t (decideDone e k t).table := by
  simp only [decideDone]
  split
  · exact Steps.same (Same.refl t)
  · next ho =>
    simp only [Bool.or_eq_true, Bool.not_eq_true', not_or, Bool.not_eq_false] at ho
    have hs := serves_of ho.1 (by simpa using ho.2)
    have hb := (owns_inBanks ho.1).2
    refine ⟨fun _ ag => ?_, fun hn => absurd hs (by simp [hn])⟩
    rcases readSlot_cases e k.handle.slot w with ⟨u, g, hr, -, hq⟩ | ⟨u, g, hr, -, c, hq⟩ | ⟨u, hr, hq⟩
    · simp only [hq, Ran.bind]
      exact .inl ((ag.reads hr).same (same_report ..))
    · have au := ag.reads hr
      have hbu : inBanks u.dom.banks k.handle.slot = true := (sets_parts hr.same.sets).1 ▸ hb
      simp only [hq, Ran.bind]
      split
      · exact .inl (au.same (same_report ..))
      · have sw : Same u (setRecord k.handle.slot (withInFlight (recordOf u.pool k.handle.slot) k.kind
            (inFlight (recordOf u.pool k.handle.slot) k.kind - 1)) u) := same_setRecord (core_withInFlight _ _ _)
        split
        · next hd =>
          refine ended_endDrain e (au.same sw) hbu ?_
          rw [(core_parts (sw.core au.wf _)).1]
          exact hd.1
        · exact .inl (au.same sw)
    · simp only [hq, Ran.bind]
      exact .inl (ag.same hr)

/-! ## Management -/

theorem same_reportRevoke (e : DomainEnv) (t : LockTable) : Same t (reportRevoke e t) := Same.dom rfl

theorem steps_revoke (e : DomainEnv) (o : AgentId → Bool) (h : Handle) (t : LockTable) (w : Pool.wf t.pool = true) :
    Steps t (revoke e o h t).2 := by
  rcases currentRecord_cases e h w with ⟨u, c, s, hq⟩ | ⟨u, hs, hb, r, c, hq⟩ | ⟨u, s, hq⟩
  · simp only [revoke, hq]
    exact Steps.same (s.trans (same_reportRevoke e u))
  · refine ⟨fun _ ag => ?_, fun hn => absurd hs (by simp [hn])⟩
    have au := ag.reads r
    have hbu : inBanks u.dom.banks h.slot = true := (sets_parts r.same.sets).1 ▸ hb
    simp only [revoke, hq]
    split
    · next hst => exact ended_releaseHeld e _ au hbu (.inl hst)
    · next hst => exact ended_releaseHeld e _ au hbu (.inr hst)
    all_goals exact .inl (au.same (same_reportRevoke e u))
  · simp only [revoke, hq]
    exact Steps.same (s.trans (same_reportRevoke e u))

theorem ended_closedTable {t : LockTable} (h : Agrees t) : Ended (closedTable t) := by
  simp only [closedTable]
  split
  · next hc => exact .inr ⟨rfl, h.wf, h.marked, h.unused hc⟩
  · exact .inl (h.same { Same.refl t with on := fun _ => by simp, sets := rfl })

theorem same_examine (e : DomainEnv) (f : Option AgentId) (i : SlotId) (t : LockTable) : Same t (examine e f i t).2 := by
  have h := reads_probe e i t
  simp only [examine]
  split
  · next hp => rw [hp] at h; exact h.same
  · next hp =>
    rw [hp] at h
    split
    · exact h.same
    · exact h.same
  · next hp => rw [hp] at h; exact h.same.trans (same_quarantine _)

end Sys2Proof.Machine
end

