-- ==== Sys2Proof/Laws/Reads.lean ====
section
/-! SUPPORT. What the reads, the allocation, the retirement and the searches of a domain's event come to over slots whose copies agree:
one lemma for a clean read and one for an uncorrectable one. -/

namespace Sys2Proof.Machine

/-! ## Reads of a slot -/

theorem probeRecord_clean (e : DomainEnv) {i : SlotId} {t : LockTable} (h : (poolGet t.pool i).health = .clean) :
    probeRecord e i t = (true, t) := by
  simp [probeRecord, h]

theorem probeRecord_lost (e : DomainEnv) {i : SlotId} {t : LockTable} (h : (poolGet t.pool i).health = .manyBits) :
    probeRecord e i t = (false, report e .recordUncorrectable none (some i) none t) := by
  simp [probeRecord, h]

theorem repairDirectory_agrees (e : DomainEnv) {i : SlotId} {t : LockTable} (h : (poolGet t.pool i).agrees = true) :
    repairDirectory e i t = t := by
  simp [repairDirectory, h]

theorem readRecord_clean (e : DomainEnv) {i : SlotId} {t : LockTable} (h : (poolGet t.pool i).health = .clean) :
    readRecord e i t = .ok (recordOf t.pool i) t := by
  simp [readRecord, probeRecord_clean e h]

theorem readRecord_lost (e : DomainEnv) {i : SlotId} {t : LockTable} (h : (poolGet t.pool i).health = .manyBits) :
    readRecord e i t = .lost (quarantine (report e .recordUncorrectable none (some i) none t)) := by
  simp [readRecord, probeRecord_lost e h]

theorem readSlot_free (e : DomainEnv) {i : SlotId} {t : LockTable} (h : (poolGet t.pool i).agrees = true)
    (hf : (poolGet t.pool i).directory.free = true) : readSlot e i t = .ok (genOf t.pool i, none) t := by
  simp [readSlot, probe, repairDirectory_agrees e h, hf, genOf]

theorem readSlot_clean (e : DomainEnv) {i : SlotId} {t : LockTable} (h : (poolGet t.pool i).readsClean = true)
    (hf : (poolGet t.pool i).directory.free = false) :
    readSlot e i t = .ok (genOf t.pool i, some (recordOf t.pool i)) t := by
  simp only [Slot.readsClean, Bool.and_eq_true, beq_iff_eq] at h
  simp [readSlot, probe, repairDirectory_agrees e h.2, hf, genOf, probeRecord_clean e h.1]

theorem readSlot_lost (e : DomainEnv) {i : SlotId} {t : LockTable} (h : (poolGet t.pool i).agrees = true)
    (hf : (poolGet t.pool i).directory.free = false) (hh : (poolGet t.pool i).health = .manyBits) :
    readSlot e i t = .lost (quarantine (report e .recordUncorrectable none (some i) none t)) := by
  simp [readSlot, probe, repairDirectory_agrees e h, hf, probeRecord_lost e hh]

/-- A slot that reads clean, FREE or not, changes nothing when it is read. -/
theorem readSlot_readsClean (e : DomainEnv) {i : SlotId} {t : LockTable} (h : (poolGet t.pool i).readsClean = true) :
    ∃ x, readSlot e i t = .ok x t := by
  cases hf : (poolGet t.pool i).directory.free with
  | true => exact ⟨_, readSlot_free e (by simp only [Slot.readsClean, Bool.and_eq_true] at h; exact h.2) hf⟩
  | false => exact ⟨_, readSlot_clean e h hf⟩

theorem readAll_clean (e : DomainEnv) {l : List SlotId} {t : LockTable} (h : recordsClean t.pool l = true) :
    readAll e l t = .ok (l.map fun i => (i, recordOf t.pool i)) t := by
  induction l with
  | nil => rfl
  | cons i l ih =>
    simp only [recordsClean, List.all_cons, Bool.and_eq_true, beq_iff_eq] at h
    simp [readAll, readRecord_clean e h.1, Ran.bind, ih (by simpa [recordsClean] using h.2)]

/-! ## Searches (02 2.1) -/

theorem meetsHold_map (p : Pool) (mode : Mode) (first : Page) (count : Nat) (l : List SlotId) :
    meetsHold mode first count (l.map fun i => (i, recordOf p i)) = !noHoldMeets p mode first count l := by
  induction l with
  | nil => rfl
  | cons i l ih =>
    simp only [meetsHold, noHoldMeets, List.map_cons, List.any_cons, List.all_cons] at *
    rw [ih]; simp

theorem meetsClaim_map (p : Pool) (mode : Mode) (first : Page) (count : Nat) (l : List SlotId) :
    meetsClaim mode first count (l.map fun i => (i, recordOf p i)) = !noClaimMeets p mode first count l := by
  induction l with
  | nil => rfl
  | cons i l ih =>
    simp only [meetsClaim, noClaimMeets, List.map_cons, List.any_cons, List.all_cons] at *
    rw [ih]; simp

theorem otherHolds_map (p : Pool) (i : SlotId) (l : List SlotId) :
    otherHolds i (l.map fun j => (j, recordOf p j)) = (l.filter (fun j => j != i)).map fun j => (j, recordOf p j) := by
  simp [otherHolds, List.filter_map, Function.comp_def]

theorem selfConflict_map (p : Pool) (a : AgentId) (mode : Mode) (first : Page) (count : Nat) (l : List SlotId) :
    selfConflict a mode first count (l.map fun i => (i, recordOf p i)) = true ↔
      ∃ i ∈ l, (recordOf p i).owner = a ∧ conflicts mode first count (recordOf p i) (recordOf p i).hold = true := by
  simp [selfConflict, meetsHold]

/-! ## The grant pass, retirement and allocation -/

theorem grantPass_nothing (e : DomainEnv) {t : LockTable} (h : t.dom.waitQueue = []) : grantPass e t = .ok () t := by
  simp [grantPass, h, passFrom]

theorem completeClose_stays {t : LockTable} (h : t.dom.state ≠ .closing) : completeClose t = t := by
  simp [completeClose, h]

theorem retire_clean (e : DomainEnv) {i : SlotId} {t : LockTable} (h : (poolGet t.pool i).readsClean = true) :
    retire e i t = .ok ()
      { dom := { t.dom with
          waitQueue := dropSlot i t.dom.waitQueue
          occupancy := dropSlot i t.dom.occupancy
          tokenMap := t.dom.tokenMap.filter (fun p => p.2 != i)
          freeList := t.dom.freeList ++ [i] },
        pool := freeSlot t.pool i } := by
  obtain ⟨x, hx⟩ := readSlot_readsClean e h
  simp [retire, hx, Ran.bind]

theorem allocate_clean (e : DomainEnv) {i : SlotId} {t : LockTable} (r : Record)
    (h : (poolGet t.pool i).readsClean = true) :
    allocate e i r t = .ok () (liveUp r.owner
      { dom := { t.dom with freeList := t.dom.freeList.tail },
        pool := poolPut t.pool i
          ({ poolGet t.pool i with record := r, health := .clean }.withDirectory ⟨genOf t.pool i, false⟩) }) := by
  simp only [Slot.readsClean, Bool.and_eq_true, beq_iff_eq] at h
  simp [allocate, repairDirectory_agrees e h.2, readRecord_clean e h.1, Ran.bind]

/-- A freed slot is as a retirement leaves it (R14). -/
theorem poolGet_freeSlot_same {p : Pool} (hp : Pool.wf p = true) (i : SlotId) :
    poolGet (freeSlot p i) i = retired (genOf p i) := by
  rw [poolGet_freeSlot hp]; simp [retired]

theorem onlySlot_poolPut (p : Pool) (i : SlotId) (x : Slot) : onlySlot i p (poolPut p i x) :=
  fun _ h => poolGet_poolPut_ne p x h

theorem onlySlot_writeRecord (p : Pool) (i : SlotId) (r : Record) : onlySlot i p (writeRecord p i r) :=
  onlySlot_poolPut p i _

theorem onlySlot_freeSlot (p : Pool) (i : SlotId) : onlySlot i p (freeSlot p i) :=
  onlySlot_poolPut p i _

theorem onlySlot.trans {i : SlotId} {p q r : Pool} (h : onlySlot i p q) (g : onlySlot i q r) : onlySlot i p r :=
  fun j hj => (g j hj).trans (h j hj)

theorem readsClean_withRecord {x : Slot} (h : x.readsClean = true) (r : Record) :
    ({ x with record := r, health := .clean } : Slot).readsClean = true := by
  simp only [Slot.readsClean, Bool.and_eq_true, beq_iff_eq] at h ⊢
  exact ⟨trivial, h.2⟩

/-! ## The handle checks (R54) -/

theorem current_probe {x : Domain} {p : Pool} {h : Handle} (hc : current x p h) :
    (poolGet p h.slot).readsClean = true ∧ (poolGet p h.slot).directory.free = false ∧ genOf p h.slot = h.gen := by
  obtain ⟨_, _, hr, hd⟩ := hc
  exact ⟨hr, by rw [hd], by simp [genOf, hd]⟩

theorem currentRecord_current (e : DomainEnv) {h : Handle} {t : LockTable} (hc : current t.dom t.pool h) :
    currentRecord e h t = .ok (.ok (recordOf t.pool h.slot)) t := by
  obtain ⟨hr, hf, hg⟩ := current_probe hc
  have hu : t.dom.unavailable = false := by
    have := hc.2.1
    cases hs : t.dom.state <;> simp [Domain.serves, Domain.unavailable, hs] at this ⊢
  simp [currentRecord, hc.1, hu, readSlot_clean e hr hf, Ran.bind, hg]

theorem requestedRecord_current (e : DomainEnv) {a : AgentId} {h : Handle} {t : LockTable} (hc : current t.dom t.pool h)
    (ho : (recordOf t.pool h.slot).owner = a) :
    requestedRecord e a h t = .ok (.ok (recordOf t.pool h.slot)) t := by
  simp [requestedRecord, currentRecord_current e hc, Ran.bind, ho]

theorem presentedRecord_current (e : DomainEnv) {h : Handle} {t : LockTable} (hc : current t.dom t.pool h) :
    presentedRecord e h t = .ok (some (recordOf t.pool h.slot)) t := by
  obtain ⟨hr, hf, hg⟩ := current_probe hc
  simp [presentedRecord, hc.1, hc.2.1, readSlot_clean e hr hf, Ran.bind, hg]

/-! ## An event within the part -/

/-- An event of a domain that is not DISABLED after it, or was before it, leaves the management port as it was. -/
theorem withTable_putTable (s : State) (d : DomainId) (x : Domain) (p : Pool)
    (h : x.state ≠ .disabled ∨ (s.domain d).state = .disabled) :
    s.withTable d ⟨x, p⟩ = s.putTable d x p := by
  simp only [State.withTable, State.putTable]
  rw [if_neg (by rcases h with h | h <;> simp [h])]

/-- An event that leaves the pool as it was is an update of its domain alone. -/
theorem putTable_pool (s : State) (d : DomainId) (x : Domain) : s.putTable d x s.pool = s.setDomain d x := rfl

theorem find_domain {f : DomainId → Bool} {d : DomainId} (h : f d = true) (hk : ∀ k, k < d → f k = false) :
    (List.finRange 8).find? f = some d := by
  have key : ∀ l : List DomainId, l.Pairwise (· < ·) → d ∈ l → l.find? f = some d := by
    intro l
    induction l with
    | nil => simp
    | cons a l ih =>
      intro hp hm
      rw [List.pairwise_cons] at hp
      rcases List.mem_cons.mp hm with rfl | hm
      · simp [h]
      · rw [List.find?_cons, hk a (hp.1 d hm)]
        exact ih hp.2 hm
  exact key _ (by decide) (List.mem_finRange d)

/-- The domain of a page is the lowest that holds it (R2). -/
theorem holderOf_first {s : State} {p : Page} {d : DomainId} (h : (s.domain d).holds p = true)
    (hk : ∀ k, k < d → (s.domain k).holds p = false) : holderOf s p = some d :=
  find_domain h hk

theorem holderOf_none {s : State} {p : Page} (h : ∀ d, (s.domain d).holds p = false) : holderOf s p = none :=
  List.find?_eq_none.mpr fun d _ => by simpa [State.domain] using h d

/-- The owner of a bank is the lowest domain that owns it (R2). -/
theorem ownerOf_first {s : State} {i : SlotId} {d : DomainId} (h : (s.domain d).owns i = true)
    (hk : ∀ k, k < d → (s.domain k).owns i = false) : ownerOf s i = some d :=
  find_domain h hk

theorem ownerOf_none {s : State} {i : SlotId} (h : ∀ d, (s.domain d).owns i = false) : ownerOf s i = none :=
  List.find?_eq_none.mpr fun d _ => by simpa [State.domain] using h d

end Sys2Proof.Machine
end

