-- ==== Sys2Proof/Laws/Units.lean ====
section
/-! SUPPORT. One lemma per field for the updates that belong to one unit: the reads forgotten at a reclaim, the CHECKs withdrawn at
a warm restart of the gate unit. -/

namespace Sys2Proof.Machine

/-! ### forgetReads -/

@[simp] theorem forgetReads_time (n : AgentId) (s : State) : (forgetReads n s).time = s.time := rfl

@[simp] theorem forgetReads_management (n : AgentId) (s : State) : (forgetReads n s).management = s.management := rfl

@[simp] theorem forgetReads_fault (n : AgentId) (s : State) : (forgetReads n s).fault = s.fault := rfl

@[simp] theorem forgetReads_pool (n : AgentId) (s : State) : (forgetReads n s).pool = s.pool := rfl

@[simp] theorem forgetReads_domains (n : AgentId) (s : State) : (forgetReads n s).domains = s.domains := rfl

@[simp] theorem forgetReads_noDomain (n : AgentId) (s : State) : (forgetReads n s).noDomain = s.noDomain := rfl

@[simp] theorem forgetReads_session (n : AgentId) (s : State) : (forgetReads n s).session = s.session := rfl

@[simp] theorem forgetReads_gate (n : AgentId) (s : State) : (forgetReads n s).gate = s.gate := rfl

@[simp] theorem forgetReads_links (n : AgentId) (s : State) : (forgetReads n s).links = s.links := rfl

@[simp] theorem forgetReads_upsets (n : AgentId) (s : State) : (forgetReads n s).upsets = s.upsets := rfl

@[simp] theorem forgetReads_pending (n : AgentId) (s : State) : (forgetReads n s).pending = s.pending := rfl

@[simp] theorem forgetReads_domain (n : AgentId) (s : State) (d : DomainId) : (forgetReads n s).domain d = s.domain d := rfl

@[simp] theorem forgetReads_agent (n : AgentId) (s : State) (k : AgentId) : (forgetReads n s).agent k = s.agent k := rfl

@[simp] theorem forgetReads_link (n : AgentId) (s : State) (k : AgentId) : (forgetReads n s).link k = s.link k := rfl

@[simp] theorem forgetReads_noticeAgent (n : AgentId) (s : State) (k : AgentId) :
    (forgetReads n s).noticeAgent k = s.noticeAgent k := rfl

/-- What is left of the read for the post of domain `d` (R89). -/
@[simp] theorem forgetReads_reads (n : AgentId) (s : State) (d : DomainId) :
    look (forgetReads n s).notice.reads d = (look s.notice.reads d).forget n := by
  simp [forgetReads]

/-- A read of another agent's state stays, a read of this one's is made again. -/
theorem forget_cases (n : AgentId) (x : PostRead) :
    ((x = .asked n ∨ ∃ st, x = .answered n st) ∧ x.forget n = .idle) ∨
      (x ≠ .asked n ∧ (∀ st, x ≠ .answered n st) ∧ x.forget n = x) := by
  cases x with
  | idle => right; simp [PostRead.forget]
  | asked a => by_cases h : a = n <;> simp [PostRead.forget, h]
  | answered a st => by_cases h : a = n <;> simp [PostRead.forget, h]

/-! ### withdrawChecks -/

@[simp] theorem withdrawChecks_time (s : State) : (withdrawChecks s).time = s.time := rfl

@[simp] theorem withdrawChecks_management (s : State) : (withdrawChecks s).management = s.management := rfl

@[simp] theorem withdrawChecks_fault (s : State) : (withdrawChecks s).fault = s.fault := rfl

@[simp] theorem withdrawChecks_pool (s : State) : (withdrawChecks s).pool = s.pool := rfl

@[simp] theorem withdrawChecks_session (s : State) : (withdrawChecks s).session = s.session := rfl

@[simp] theorem withdrawChecks_notice (s : State) : (withdrawChecks s).notice = s.notice := rfl

@[simp] theorem withdrawChecks_gate (s : State) : (withdrawChecks s).gate = s.gate := rfl

@[simp] theorem withdrawChecks_links (s : State) : (withdrawChecks s).links = s.links := rfl

@[simp] theorem withdrawChecks_upsets (s : State) : (withdrawChecks s).upsets = s.upsets := rfl

@[simp] theorem withdrawChecks_pending (s : State) : (withdrawChecks s).pending = s.pending := rfl

@[simp] theorem withdrawChecks_domain (s : State) (d : DomainId) :
    (withdrawChecks s).domain d = { s.domain d with checks := [] } := by
  simp [withdrawChecks, State.domain]

@[simp] theorem withdrawChecks_noDomain (s : State) : (withdrawChecks s).noDomain = { s.noDomain with checks := [] } := rfl

end Sys2Proof.Machine
end

