-- ==== Sys2Proof/Tests/Slice0.lean ====
section
/-! SUPPORT. Tests, and the witnesses of the statements' hypotheses. `test_…` checks a command against the rule its comment names, by
hand calculation from the rule or from a sequence of chapter 11. `witness_…` shows states and operands that meet the hypotheses of one
clause of a statement together, and what the command then leaves in a field or two. -/

namespace Sys2Proof.Tests

set_option synthInstance.maxSize 1024
set_option Elab.async false

open Sys2Proof.Machine

/-! ## Helpers -/

/-- A view of the next state, where there is one. -/
def after {α : Type} (o : Host.Outcome State Fault Refusal) (f : State → α) : Option α :=
  match o with
  | .next t => some (f t)
  | .fault _ | .refused _ => none

/-- A slot of generation `g` that holds a record. -/
def slotOf (g : Gen) (r : Record) : Slot :=
  { copyA := ⟨g, false⟩, copyB := ⟨g, false⟩, copyC := ⟨g, false⟩, record := r, health := .clean }

/-- The same, its record unreadable. -/
def lostSlot (g : Gen) (r : Record) : Slot :=
  { slotOf g r with health := .manyBits }

/-- A record of agent `a` over pages `first` to `first + 3`, cookie C0DEh. -/
def recordIn (a : AgentId) (mode : Mode) (st : SlotState) (first : Page) (token : Option Token) : Record :=
  { Record.cleared with owner := a, mode := mode, state := st, first := first, count := 4, token := token, cookie := 0xC0DE }

/-- Domain 0 of most tests: ENABLED, pages 0 to FFh, bank 0. -/
def dom0 : Domain :=
  { Domain.reset with state := .enabled, limit := 0xFF, banks := 1, freeList := [4, 5] }

/-- The part with domain 0 and the pool given. -/
def withDom (x : Domain) (p : Pool) : State :=
  { State.reset with domains := put State.reset.domains 0 x, pool := p }

/-- The part with agent 0 given. -/
def withAgent (a : Agent) : State :=
  State.reset.setAgent 0 a

/-- An ONLINE agent of quota 2 with a lease of class 3 until 500. -/
def online : Agent :=
  { Agent.reset with state := .online, quota := 2, epoch := 1, leaseClass := some 3, leaseDeadline := some 500 }

/-- The part with link 0 given. -/
def withLink (p : LinkPort) : State :=
  State.reset.setLink 0 p

/-- What the notice unit holds for agent 0, given. -/
def withNotice (a : NoticeAgent) : State :=
  State.reset.setNotice 0 a

/-- A command in progress. -/
def inHand (s : State) (c : Command) (arg : Word) (dest : Option DomainId) : State :=
  { s with management := { s.management with command := some (.handed c arg dest) } }

/-- A warm restart in progress that no unit has taken. -/
def restarting (s : State) : State :=
  { s with management := { s.management with command := some (.restarting allDue) } }

/-! ## Well-formedness: what each check refuses -/

theorem test_wellFormed_dataLength :
    Instr.wellFormed (.dataReceived 0 0 0 []) = false ∧ Instr.wellFormed (.dataReceived 0 0 0 [0, 0, 0, 0, 0, 0, 0, 0]) = false ∧
      Instr.wellFormed (.dataReceived 0 0 0 [0]) = true ∧ Instr.wellFormed (.dataReceived 0 0 0 [0, 0, 0, 0, 0, 0, 0]) = true := by
  decide

theorem test_wellFormed_discard :
    Instr.wellFormed (.gateWordDiscard 0x10000000) = false ∧ Instr.wellFormed (.gateWordDiscard 0x2FFFFFFF) = false ∧
      Instr.wellFormed (.gateWordDiscard 0x0FFFFFFF) = true ∧ Instr.wellFormed (.gateWordDiscard 0x30000000) = true := by
  decide

theorem test_wellFormed_unknownCode :
    Instr.wellFormed (.unknownCommand 0x01) = false ∧ Instr.wellFormed (.unknownCommand 0x0C) = false ∧
      Instr.wellFormed (.unknownCommand 0x00) = true ∧ Instr.wellFormed (.unknownCommand 0x0D) = true := by
  decide

/-- The table gives no row bits, so no word spells a command (log 27). -/
theorem test_noWordSpellsACommand : decodeTableWord 8 0x0B = none := by decide

/-! ## The block and its queue -/

theorem witness_StepTakesTheFrontCommand :
    ({ State.reset with pending := [.start, .timeCountAdvance] } : State).pending = .start :: [.timeCountAdvance] ∧
      after (step { State.reset with pending := [.start, .timeCountAdvance] }) (fun t => (t.management.mode, t.pending)) =
        some (.active, [.timeCountAdvance]) ∧
      State.reset.pending = [] ∧ after (step State.reset) State.time = some 0 := by
  decide

/-- The part becomes ACTIVE by START, by the write of 0Bh, and SETUP again by the write of 0Ch (R178, R179). -/
theorem witness_WhatMovesTheTimeAndTheMode :
    State.reset.management.mode = .setup ∧ State.reset.upsets = [] ∧
      after (exec .start State.reset) (fun t => t.management.mode) = some .active ∧
      after (exec (.registerWrite 0x0005 0xFFFFFF0B) State.reset) (fun t => t.management.mode) = some .active ∧
      after (exec (.unknownCommand 0x0B) State.reset) (fun t => t.management.mode) = some .active ∧
      (let s := State.reset.setManagement { State.reset.management with mode := .active }
       s.management.mode = .active ∧
        after (exec (.registerWrite 0x0005 0x0C) s) (fun t => t.management.mode) = some .setup ∧
        after (exec .warmRestart s) (fun t => t.management.mode) = some .setup) := by
  decide

/-- Each kind of storage error, of one millisecond; the next millisecond's stay due. -/
theorem witness_WhatMovesTheTimeAndTheMode_strikes :
    let us : List Upset := [⟨5, .recordBit⟩, ⟨6, .recordBit⟩, ⟨7, .recordBits⟩, ⟨8, .copyA ⟨1, false⟩⟩, ⟨9, .copyB ⟨2, false⟩⟩,
      ⟨10, .copyC ⟨3, false⟩⟩]
    let s : State := { State.reset with upsets := [us, [⟨4, .recordBit⟩]], pool := [(6, { Slot.reset with health := .oneBit })] }
    s.upsets = us :: [[⟨4, .recordBit⟩]] ∧ Pool.wf s.pool = true ∧ (∀ u ∈ us, u.slot ≠ 4) ∧
      us = [⟨5, .recordBit⟩] ++ ⟨6, .recordBit⟩ :: us.drop 2 ∧ (∀ v ∈ [⟨5, .recordBit⟩] ++ us.drop 2, v.slot ≠ (6 : SlotId)) ∧
      after (exec .timeCountAdvance s) (fun t => (t.time, t.upsets, poolGet t.pool 4)) =
        some (1, [[⟨4, .recordBit⟩]], Slot.reset) ∧
      after (exec .timeCountAdvance s) (fun t => [5, 6, 7, 8].map fun i => (poolGet t.pool i).health) =
        some [.oneBit, .manyBits, .manyBits, .clean] ∧
      after (exec .timeCountAdvance s) (fun t => (poolGet t.pool 8, (poolGet t.pool 9).copyB, (poolGet t.pool 10).copyC)) =
        some ({ Slot.reset with copyA := ⟨1, false⟩ }, ⟨2, false⟩, ⟨3, false⟩) := by
  decide

theorem test_timeCount_wraps :
    after (exec .timeCountAdvance { State.reset with time := 0xFFFFFFFF }) State.time = some 0 := by decide

/-- A storage error strikes at an advance of the time count (log 5). -/
theorem test_timeCount_upset :
    after (exec .timeCountAdvance { State.reset with upsets := [[⟨7, .recordBits⟩]] })
      (fun t => ((poolGet t.pool 7).health, t.upsets)) = some (.manyBits, []) := by decide

/-! ## Cold reset -/

theorem test_coldReset :
    after (exec .coldReset { withDom dom0 [(4, slotOf 3 (recordIn 1 .shared .held 0 (some 9)))] with time := 77 })
      (fun t => (t.time, t.pool, (t.domain 0).state, (t.domain 0).drainLimit, (t.domain 0).tokenCounter)) =
      some (0, [], .disabled, 100, 1) := by decide

/-- A CHECK amid which the cold reset falls loses its words taken; a DONE held on GD_IN stays presented, and GD_IN_READY is asserted
for either kind (R116, R163, log 17). -/
theorem test_coldReset_gate :
    after (exec .coldReset (State.reset.setGate { GateUnit.reset with
        words := [0x13800103], port := [.done .null], doneQueue := List.replicate 16 .null }))
      (fun t => (t.gate.words, t.gate.port, t.gate.ready (.done .null), t.gate.ready (.check ⟨0, .read, 0, 0, 0, 0⟩),
        t.gate.readyFor (doneWord .null))) = some ([], [.done .null], true, true, true) := by
  decide +kernel

theorem test_coldReset_classes :
    after (exec .coldReset State.reset) (fun t => (look t.management.leases 7, look t.management.waits 5)) =
      some (3000, 10000) := by decide

/-! ## Registers -/

theorem witness_DomainConfigurationWrites_disabled :
    (State.reset.domain 7).state = .disabled ∧
      after (exec (.registerWrite 0x0170 0xFFFFFFFF) State.reset) (fun t => (t.domain 7).base) = some 0xFFFFFFFF ∧
      after (exec (.registerWrite 0x0171 5) State.reset) (fun t => (t.domain 7).limit) = some 5 ∧
      after (exec (.registerWrite 0x0172 0x18000) State.reset) (fun t => (t.domain 7).banks) = some 0x8000 ∧
      after (exec (.registerWrite 0x0173 0x10001) State.reset) (fun t => ((t.domain 7).policy, (t.domain 7).drainLimit)) =
        some (.writeGuarded, 1) ∧
      after (exec (.registerWrite 0x0173 0x10000) State.reset)
        (fun t => ((t.domain 7).policy, (t.domain 7).drainLimit, (t.domain 7).reports.length)) =
        some (.writeGuarded, 100, 1) := by
  decide

theorem witness_DomainConfigurationWrites_other :
    ((withDom dom0 []).domain 0).state ≠ .disabled ∧
      after (exec (.registerWrite 0x0101 9) (withDom dom0 [])) (fun t => ((t.domain 0).limit, (t.domain 0).reports.length)) =
        some (0xFF, 1) ∧
      after (exec (.registerWrite 0x0103 9) (withDom dom0 []))
        (fun t => ((t.domain 0).drainLimit, (t.domain 0).reports.map Report.kind)) =
        some (100, [.commandRefused, .commandRefused]) := by
  decide

theorem witness_RegisterWrites_agent :
    after (exec (.registerWrite 0x0279 4096) State.reset) (fun t => (t.agent 15).quota) = some 4096 ∧
      after (exec (.registerWrite 0x0201 4097) State.reset) (fun t => ((t.agent 0).quota, t.session.reports.length)) =
        some (0, 1) ∧
      after (exec (.registerWrite 0x0201 1) (withAgent { Agent.reset with live := 1 })) (fun t => (t.agent 0).quota) = some 0 ∧
      after (exec (.registerWrite 0x0202 8) State.reset) (fun t => (t.agent 0).bound) = some 7 ∧
      after (exec (.registerWrite 0x0202 0) State.reset) (fun t => (t.agent 0).bound) = some 0 ∧
      after (exec (.registerWrite 0x0202 0) (withAgent online)) (fun t => (t.agent 0).bound) = some 7 := by
  decide

theorem witness_RegisterWrites_port :
    after (exec (.registerWrite 0x0008 255) State.reset) (fun t => t.management.watchdogPeriod) = some 255 ∧
      after (exec (.registerWrite 0x0008 256) State.reset) (fun t => t.management.watchdogPeriod) = some 10 ∧
      after (exec (.registerWrite 0x0017 65535) State.reset) (fun t => look t.management.leases 7) = some 65535 ∧
      after (exec (.registerWrite 0x0010 0) State.reset) (fun t => (look t.management.leases 0, t.management.reports.length)) =
        some (10, 1) ∧
      after (exec (.registerWrite 0x001D 1) State.reset) (fun t => look t.management.waits 5) = some 1 ∧
      after (exec (.registerWrite 0x0018 65536) State.reset) (fun t => look t.management.waits 0) = some 10 := by
  decide

/-- The first and last address of every run of addresses whose writes are ignored. -/
theorem witness_RegisterWrites_ignored :
    [0x0000, 0x0003, 0x0006, 0x0007, 0x0009, 0x000F, 0x001E, 0x001F, 0x0023, 0x00FF, 0x0104, 0x017F, 0x0180, 0x01FF, 0x0200,
      0x0203, 0x027F, 0x0280, 0xFFFF].all (fun a : BitVec 16 =>
        (after (exec (.registerWrite a 0x0B) State.reset)
          (fun t => (t.management.mode, t.management.reports, t.session.reports, (t.domain 7).reports))) ==
          some (.setup, [], [], [])) = true := by
  decide

/-- The fault unit with the sticky bit of LINK_RETRAIN set (R171). -/
theorem test_pin :
    after (exec (.interruptEnablesWrite 0x40) { State.reset with fault := { FaultUnit.reset with sticky := 0x40 } })
        State.faultAsserted = some true ∧
      after (exec (.interruptEnablesWrite 0x80) { State.reset with fault := { FaultUnit.reset with sticky := 0x40 } })
        State.faultAsserted = some false := by
  decide

/-- The bits of a transaction: an instruction byte, an address, 32 bits. -/
def spiBits (op : BitVec 8) (a : BitVec 16) (v : Word) : List Bool :=
  bitsOf op ++ bitsOf a ++ bitsOf v

/-- A write of 33, and a read of it, bit by bit; what the port makes of too few bits, of another byte, and under reset (R175). -/
theorem test_spi :
    spiEvents true (spiBits 0x5A 0x0010 0x21) = [writeEvent 0x0010 0x21] ∧
      spiEvents true (spiBits 0x5A 0x0010 0x21 ++ [true]) = [writeEvent 0x0010 0x21] ∧
      spiEvents true ((spiBits 0x5A 0x0010 0x21).take 55) = [] ∧
      spiEvents true ((spiBits 0xA5 0x0010 0).take 24) = readEvent 0x0010 ∧
      spiEvents true (spiBits 0xA4 0x0010 0x21) = [] ∧ spiEvents false (spiBits 0x5A 0x0010 0x21) = [] := by
  decide

/-- The period of lease class 7 after cold reset, 3000 = BB8h, as a read puts it on SDO (R175). -/
theorem test_spiOut :
    let bits := spiBits 0xA5 0x0017 0 ++ [true]
    (List.range 57).map (spiOut State.reset true bits) =
        List.replicate 24 none ++ (bitsOf (0xBB8 : Word)).map some ++ [some false] ∧
      (List.range 12).map (spiOut State.reset true (spiBits 0x00 0 0)) =
        List.replicate 8 none ++ List.replicate 4 (some false) ∧
      spiOut State.reset false bits 30 = none := by
  decide

/-- One report of a kind, waiting in the session unit. -/
def reported (k : EventKind) (f : FaultUnit) : State :=
  { State.reset with fault := f, session := { State.reset.session with reports := [⟨k, none, some 2, none, none, 7⟩] } }

theorem witness_ReportsAreTaken :
    reportsOf (reported .linkProtocol .reset) .session = ⟨.linkProtocol, none, some 2, none, none, 7⟩ :: [] ∧
      after (exec (.faultReport .session) (reported .linkProtocol .reset)) (fun t => (t.fault.sticky, t.fault.capture)) =
        some (0x20, none) ∧
      after (exec (.faultReport .session) (reported .linkProtocol { FaultUnit.reset with notes := true }))
        (fun t => (t.fault.capture.map Report.kind, t.fault.missed)) = some (some .linkProtocol, false) ∧
      after (exec (.faultReport .session) (reported .drainOverrun .reset))
        (fun t => (t.fault.sticky, t.fault.capture.map Report.kind, t.fault.missed)) = some (4, some .drainOverrun, false) ∧
      (let full := { FaultUnit.reset with capture := some ⟨.drainOverrun, none, none, none, none, 1⟩ }
       (reported .tokensExhausted full).fault.capture = some ⟨.drainOverrun, none, none, none, none, 1⟩ ∧
        after (exec (.faultReport .session) (reported .tokensExhausted full))
          (fun t => (t.fault.capture.map Report.kind, t.fault.missed)) = some (some .drainOverrun, true) ∧
        after (exec (.faultReport .session) (reported .agentLapsed full)) (fun t => t.fault.missed) = some false) := by
  decide

theorem test_stickyBits :
    after (exec (.stickyBitsWrite 0x21) { State.reset with fault := { FaultUnit.reset with sticky := 0x1FF } })
      (fun t => t.fault.sticky) = some 0x1DE := by decide

theorem test_report_ofNothing : after (exec (.faultReport (.link 3)) State.reset) (fun t => t.fault.sticky) = some 0 := by decide

/-- Both orders of a capture clear and a report (the table of R173). -/
theorem witness_CaptureClear :
    (let s := reported .drainOverrun { FaultUnit.reset with
      capture := some ⟨.tokensExhausted, none, none, none, none, 1⟩, missed := true }
     reportsOf s .session = ⟨.drainOverrun, none, some 2, none, none, 7⟩ :: [] ∧ EventKind.drainOverrun.isFault = true ∧
      (after (exec (.faultReport .session) s) (fun t => after (exec .captureClear t) (fun u =>
        (u.fault.capture, u.fault.missed, u.fault.sticky)))) = some (some (none, false, 4)) ∧
      (after (exec .captureClear s) (fun t => after (exec (.faultReport .session) t) (fun u =>
        (u.fault.capture.map Report.kind, u.fault.missed, u.fault.sticky)))) = some (some (some .drainOverrun, false, 4))) ∧
      State.reset.fault.capture = none ∧ State.reset.fault.missed = false := by
  decide

/-- Token 0123456789h: low word 23456789h, then the latched 01h in the high register of any domain (R176). -/
theorem test_tokenCounterLowRead :
    after (exec (.tokenCounterLowRead 0) (withDom { dom0 with tokenCounter := 0x0123456789 } []))
      (fun t => (t.management.readData, readRegister t 0x0178)) = some (0x23456789, 0x01) := by decide

/-! ## Commands of the management port -/

theorem witness_CommandsAreHandedOverAndAnswered_handed :
    (Instr.enableDomain .issue, Command.enableDomain) ∈
        [(Instr.enableDomain .issue, Command.enableDomain), (.closeDomain .issue, .closeDomain)] ∧
      State.reset.management.command = none ∧
      after (exec (.evictAgent .issue) (State.reset.setManagement { State.reset.management with argument := 0x00800000 }))
        (fun t => t.management.command) = some (some (.handed .evictAgent 0x00800000 none)) ∧
      (inHand State.reset .walkNext 0 none).management.command ≠ none ∧
      after (exec (.evictAgent .issue) (inHand State.reset .walkNext 0 none))
        (fun t => (t.management.command, t.management.reports.map Report.agent)) =
        some (some (.handed .walkNext 0 none), [some 0]) := by
  decide

theorem witness_CommandsAreHandedOverAndAnswered_answered :
    (let s := State.reset.setManagement { State.reset.management with command := some (.answered .walkNext .walkEnd) }
     s.management.command = some (.answered .walkNext .walkEnd) ∧
      after (exec .commandAnswer s) (fun t => (t.management.status, t.management.lastCode, t.management.command)) =
        some (some .walkEnd, 0x0A, none)) ∧
    (restarting State.reset).management.command = some (.restarting allDue) ∧ look allDue.domains 7 = true ∧
    after (exec .commandAnswer (restarting State.reset)) (fun t => t.management.command) = some (some (.restarting allDue)) ∧
    (let due : RestartDue := ⟨Vector.replicate 8 false, false, false, false, Vector.replicate 16 false⟩
     let s := State.reset.setManagement { State.reset.management with command := some (.restarting due) }
     (∀ d, look due.domains d = false) ∧ (∀ n, look due.links n = false) ∧
      after (exec .commandAnswer s) (fun t => (t.management.status, t.management.lastCode, t.management.command)) =
        some (some .done, 0x0C, none)) ∧
    (let due : RestartDue := ⟨Vector.replicate 8 false, false, false, false, put (Vector.replicate 16 false) 15 true⟩
     let s := State.reset.setManagement { State.reset.management with command := some (.restarting due) }
     look due.links 15 = true ∧ after (exec .commandAnswer s) (fun t => t.management.command.isSome) = some true) := by
  decide

theorem witness_StartWarmRestartAndUnknownCodes :
    State.reset.management.command = none ∧ State.reset.management.mode = .setup ∧
      after (exec .start State.reset) (fun t => (t.management.status, t.management.lastCode)) = some (some .done, 0x0B) ∧
      (let s := State.reset.setManagement { State.reset.management with mode := .active, cursor := .walking 3 none none }
       s.management.command = none ∧ s.management.mode = .active ∧
        after (exec .start s) (fun t => (t.management.status, t.management.reports.length)) =
          some (some (.refused .wrongState), 1) ∧
        after (exec .warmRestart s) (fun t => (t.management.mode, t.management.cursor, t.management.command)) =
          some (.setup, .ended, some (.restarting allDue))) ∧
      unknownCodeOk 0x00 = true ∧ unknownCodeOk 0x0D = true ∧ unknownCodeOk 0xFF = true ∧
      after (exec (.unknownCommand 0xFF) State.reset) (fun t => (t.management.status, t.management.lastCode)) =
        some (some (.refused .unknownCommand), 0xFF) ∧
      (let s := inHand State.reset .walkNext 0 none
       s.management.command ≠ none ∧
        after (exec .start s) (fun t => (t.management.mode, t.management.status, t.management.reports.length)) =
          some (.setup, none, 1) ∧
        after (exec .warmRestart s) (fun t => (t.management.command, t.management.reports.length)) =
          some (some (.handed .walkNext 0 none), 1) ∧
        after (exec (.unknownCommand 0x0D) s) (fun t => (t.management.status, t.management.reports.length)) = some (none, 1)) := by
  decide

/-! ## ENABLE_DOMAIN, CLOSE_DOMAIN, SCRUB_DOMAIN, SCRUB_VISIT -/

/-- Domains 0 and 1 given. -/
def withDoms (x y : Domain) : State :=
  { State.reset with domains := put (put State.reset.domains 0 x) 1 y }

/-- A DISABLED domain configured with pages 100h to 1FFh and bank 1. -/
def set1 : Domain :=
  { Domain.reset with base := 0x100, limit := 0x1FF, banks := 2 }

/-- ENABLE_DOMAIN of domain 1 beside domain 0. -/
def enabling (y : Domain) : State :=
  inHand (withDoms dom0 y) .enableDomain 0x00100000 (some 1)

/-- What is left of the command, the state of domain 1 and its reports. -/
def decided (t : State) : Option Running × DomainState × Nat :=
  (t.management.command, (t.domain 1).state, (t.domain 1).reports.length)

theorem witness_EnableDomainDecision_refused :
    (enabling dom0).management.command = some (.handed .enableDomain 0x00100000 (some 1)) ∧ argDomain 0x00100000 = 1 ∧
      ((enabling dom0).domain 1).state ≠ .disabled ∧
      after (exec (.enableDomain .decide) (enabling dom0)) decided =
        some (some (.answered .enableDomain (.refused .wrongState)), .enabled, 1) ∧
      after (exec (.enableDomain .decide) (enabling { set1 with banks := 0 })) decided =
        some (some (.answered .enableDomain (.refused .bankSetEmpty)), .disabled, 1) ∧
      ({ set1 with limit := 0xFF } : Domain).limit < set1.base ∧
      after (exec (.enableDomain .decide) (enabling { set1 with limit := 0xFF })) decided =
        some (some (.answered .enableDomain (.refused .windowOrder)), .disabled, 1) := by
  decide

/-- Page FFh is the last of domain 0 and the first of the other. -/
theorem witness_EnableDomainDecision_overlap :
    meetsAnother (enabling { set1 with base := 0xFF, limit := 0xFF }) 1 sharesPage ∧
      ({ set1 with base := 0xFF, limit := 0xFF } : Domain).base ≤ ({ set1 with base := 0xFF, limit := 0xFF } : Domain).limit ∧
      after (exec (.enableDomain .decide) (enabling { set1 with base := 0xFF, limit := 0xFF })) decided =
        some (some (.answered .enableDomain (.refused .windowOverlap)), .disabled, 1) :=
  ⟨⟨0, by decide, by decide, 0xFF, by decide⟩, by decide, by decide⟩

theorem noPageShared : ¬ sharesPage set1 dom0 := by
  rintro ⟨p, h1, _, _, h4⟩
  simp only [set1, dom0, BitVec.le_def] at h1 h4
  simp at h1 h4
  omega

/-- Beside domain 0, which is ENABLED, only domain 1 may be other than DISABLED. -/
theorem otherIs0 (y : Domain) {k : DomainId} (hk : k ≠ 1) (hs : ((withDoms dom0 y).domain k).state ≠ .disabled) : k = 0 := by
  fin_cases k
  · rfl
  · exact absurd rfl hk
  all_goals exact absurd rfl hs

/-- A domain 1 of pages 100h to 1FFh shares none with another domain. -/
theorem noPageMeets (y : Domain) (hb : y.base = set1.base) (hl : y.limit = set1.limit) :
    ¬ meetsAnother (withDoms dom0 y) 1 sharesPage := by
  rintro ⟨k, hk, hs, p, h1, h2, h3, h4⟩
  have h1 : y.base ≤ p := h1
  have h2 : p ≤ y.limit := h2
  rw [hb] at h1
  rw [hl] at h2
  obtain rfl := otherIs0 y hk hs
  exact noPageShared ⟨p, h1, h2, h3, h4⟩

/-- A domain 1 of bank 1 shares none with another domain. -/
theorem noBankMeets : ¬ meetsAnother (withDoms dom0 set1) 1 sharesBank := by
  rintro ⟨k, hk, hs, h⟩
  obtain rfl := otherIs0 set1 hk hs
  obtain ⟨b, h1, h2⟩ := h
  revert h1 h2; revert b; decide

/-- Bank 0 is in both bank sets. -/
theorem witness_EnableDomainDecision_bank :
    ¬ meetsAnother (enabling { set1 with banks := 3 }) 1 sharesPage ∧
      meetsAnother (enabling { set1 with banks := 3 }) 1 sharesBank ∧
      after (exec (.enableDomain .decide) (enabling { set1 with banks := 3 })) decided =
        some (some (.answered .enableDomain (.refused .bankInUse)), .disabled, 1) :=
  ⟨noPageMeets _ rfl rfl, ⟨0, by decide, by decide, 0, by decide⟩, by decide⟩

theorem witness_EnableDomainDecision_enabled :
    ¬ meetsAnother (enabling set1) 1 sharesPage ∧ ¬ meetsAnother (enabling set1) 1 sharesBank ∧
      after (exec (.enableDomain .decide) (enabling set1)) decided = some (some (.answered .enableDomain .done), .enabled, 0) ∧
      after (exec (.enableDomain .decide) (enabling set1)) (fun t => (t.domain 1).freeList.head?) = some (some 256) :=
  ⟨noPageMeets _ rfl rfl, noBankMeets, by decide, by decide⟩

/-- Domain 0 commanded, of one bank, with the free list given. -/
def closing0 (st : DomainState) (free : List SlotId) : State :=
  inHand (withDom { dom0 with state := st, freeList := free } []) .closeDomain 0 (some 0)

theorem witness_CloseDomainDecision :
    ((closing0 .enabled [4]).domain 0).freeList.length < slotCount ((closing0 .enabled [4]).domain 0).banks ∧
      after (exec (.closeDomain .decide) (closing0 .enabled [4])) (fun t => (t.management.command, (t.domain 0).state)) =
        some (some (.answered .closeDomain .done), .closing) ∧
      (closing0 .quarantined []).management.command = some (.handed .closeDomain 0 (some 0)) ∧
      after (exec (.closeDomain .decide) (closing0 .quarantined [])) (fun t => (t.management.command, (t.domain 0).state)) =
        some (some (.answered .closeDomain (.refused .wrongState)), .quarantined) := by
  decide

/-- With all 256 slots in the free list the domain is DISABLED at once, and its walk ENDED (R6). -/
theorem witness_CloseDomainDecision_atOnce :
    (let s := closing0 .enabled (slotsOfBanks 1)
     slotCount (s.domain 0).banks ≤ (s.domain 0).freeList.length) ∧
    after (exec (.closeDomain .decide)
      ((closing0 .enabled (slotsOfBanks 1)).setManagement
        { (closing0 .enabled (slotsOfBanks 1)).management with cursor := .walking 0 none none }))
      (fun t => ((t.domain 0).state, (t.domain 0).freeList, t.management.cursor)) = some (.disabled, [], .ended) := by
  decide +kernel

/-- SCRUB_DOMAIN of domain 1 beside domain 0. -/
def scrubbing1 (y : Domain) : State :=
  inHand (withDoms dom0 y) .scrubDomain 0x00100000 (some 1)

theorem witness_ScrubDomainDecision :
    (scrubbing1 { set1 with state := .quarantined, waitQueue := [300] }).management.command =
        some (.handed .scrubDomain 0x00100000 (some 1)) ∧
      after (exec (.scrubDomain .decide) (scrubbing1 { set1 with state := .quarantined, waitQueue := [300] }))
        (fun t => (decided t, (t.domain 1).scrubPos, (t.domain 1).waitQueue)) =
        some ((some (.answered .scrubDomain .done), .scrubbing, 0), some 256, []) := by
  decide

theorem witness_ScrubDomainDecision_disabled :
    (scrubbing1 { set1 with banks := 0 }).management.command = some (.handed .scrubDomain 0x00100000 (some 1)) ∧
      after (exec (.scrubDomain .decide) (scrubbing1 { set1 with banks := 0 })) decided =
        some (some (.answered .scrubDomain (.refused .bankSetEmpty)), .disabled, 1) ∧
      after (exec (.scrubDomain .decide) (scrubbing1 { set1 with base := 0xFF })) decided =
        some (some (.answered .scrubDomain (.refused .windowOverlap)), .disabled, 1) ∧
      after (exec (.scrubDomain .decide) (scrubbing1 { set1 with banks := 3 })) decided =
        some (some (.answered .scrubDomain (.refused .bankInUse)), .disabled, 1) ∧
      after (exec (.scrubDomain .decide) (scrubbing1 set1)) decided =
        some (some (.answered .scrubDomain .done), .scrubbing, 0) ∧
      after (exec (.scrubDomain .decide) (scrubbing1 { set1 with state := .scrubbing })) decided =
        some (some (.answered .scrubDomain (.refused .wrongState)), .scrubbing, 1) := by
  decide

/-- The premises of the clauses of `ScrubDomainDecision` on overlap, on a bank in use, and on neither. -/
theorem witness_ScrubDomainDecision_meets :
    meetsAnother (scrubbing1 { set1 with base := 0xFF }) 1 sharesPage ∧
      ¬ meetsAnother (scrubbing1 { set1 with banks := 3 }) 1 sharesPage ∧
      meetsAnother (scrubbing1 { set1 with banks := 3 }) 1 sharesBank ∧
      ¬ meetsAnother (scrubbing1 set1) 1 sharesPage ∧ ¬ meetsAnother (scrubbing1 set1) 1 sharesBank :=
  ⟨⟨0, by decide, by decide, 0xFF, by decide⟩, noPageMeets _ rfl rfl, ⟨0, by decide, by decide, 0, by decide⟩,
    noPageMeets _ rfl rfl, noBankMeets⟩

/-- A visit of slot 255, the last of bank 0, and of slot 254 before it. -/
def visiting (i : SlotId) (x : Slot) : State :=
  withDom { dom0 with state := .scrubbing, scrubPos := some i } [(i, x)]

theorem witness_ScrubVisit :
    (let s := visiting 254 (slotOf 3 (recordIn 2 .shared .held 0 (some 9)))
     Pool.wf s.pool = true ∧ (s.domain 0).state = .scrubbing ∧ (s.domain 0).scrubPos = some 254 ∧
      (poolGet s.pool 254).agrees = true ∧ (poolGet s.pool 254).directory.free = false ∧
      after (exec (.scrubVisit 0) s) (fun t => ((poolGet t.pool 254).directory, (t.domain 0).scrubPos, (t.domain 0).toNotice)) =
        some (⟨4, true⟩, some 255, [⟨0, .scrubRemove ⟨254, 3⟩⟩])) ∧
    (let s := visiting 255 (lostSlot 255 (recordIn 2 .shared .held 0 (some 9)))
     (poolGet s.pool 255).health = .manyBits ∧ (poolGet s.pool 255).agrees = true ∧
      after (exec (.scrubVisit 0) s) (fun t => ((poolGet t.pool 255).directory, (t.domain 0).state, (t.domain 0).scrubPos,
        (t.domain 0).reports.map Report.kind)) = some (⟨0, true⟩, .disabled, none, [.recordUncorrectable])) ∧
    (let s := visiting 255 { Slot.reset with copyA := ⟨9, true⟩, copyB := ⟨9, true⟩, copyC := ⟨9, true⟩ }
     (poolGet s.pool 255).directory.free = true ∧
      after (exec (.scrubVisit 0) s) (fun t => ((poolGet t.pool 255).directory, (t.domain 0).toNotice)) =
        some (⟨9, true⟩, [])) := by
  decide +kernel

/-- A visit's slot, reports (kind, agent) and messages, of a slot 254 whose third directory copy may differ. -/
def visited (z : Slot) (differs : Bool) : Option (Slot × List (EventKind × Option AgentId) × List NoticeBody) :=
  let z := if differs then { z with copyC := ⟨77, !z.copyC.free⟩ } else z
  after (exec (.scrubVisit 0) (visiting 254 z)) (fun t => (poolGet t.pool 254,
    (t.domain 0).reports.map (fun r => (r.kind, r.agent)), (t.domain 0).toNotice.map DomainNotice.body))

/-- Copies that differ and records of each health, of a slot with a record (R165, R166) and of a FREE one, whose struck store stays
(log 8). -/
theorem witness_ScrubVisit_reads :
    let z := slotOf 3 (recordIn 2 .shared .held 0 (some 9))
    let bit (z : Slot) : Slot := { z with health := .oneBit }
    let bits (z : Slot) : Slot := { z with health := .manyBits }
    let gone (l : List (EventKind × Option AgentId)) : Option (Slot × List (EventKind × Option AgentId) × List NoticeBody) :=
      some (retired 3, l, [.scrubRemove ⟨254, 3⟩])
    [visited z true, visited (bit z) false, visited (bit z) true, visited (bits z) true] =
        [gone [(.recordCorrected, some 2)], gone [(.recordCorrected, some 2)],
          gone [(.recordCorrected, some 2), (.recordCorrected, some 2)], gone [(.recordCorrected, none), (.recordUncorrectable, none)]] ∧
      [visited (retired 2) true, visited (bits (retired 2)) false, visited (bit (retired 2)) true] =
        [some (retired 2, [(.recordCorrected, none)], []), some (bits (retired 2), [], []),
          some (bit (retired 2), [(.recordCorrected, none)], [])] := by
  decide +kernel

/-! ## Agent commands -/

/-- A command of agent 0 in hand. -/
def ofAgent (c : Command) (a : Agent) : State :=
  inHand (withAgent a) c 0 none

/-- What is left of the command, the agent's state and lease, what domain 7 and the notice unit have been handed. -/
def agentView (t : State) : Option Running × AgentState × Option LeaseClass × Nat × Nat × List ConditionItem :=
  (t.management.command, (t.agent 0).state, (t.agent 0).leaseClass, (t.domain 7).fromSession.length,
    (t.noticeAgent 0).reclaims.length, t.notice.conditions)

theorem witness_AgentCommandDecisions_enable :
    (ofAgent .enableAgent .reset).management.command = some (.handed .enableAgent 0 none) ∧
      after (exec (.enableAgent .decide) (ofAgent .enableAgent .reset)) agentView =
        some (some (.answered .enableAgent .done), .offline, none, 0, 0, []) ∧
      after (exec (.enableAgent .decide) (ofAgent .enableAgent online)) agentView =
        some (some (.answered .enableAgent (.refused .wrongState)), .online, some 3, 0, 0, []) := by
  decide

theorem witness_AgentCommandDecisions_evict :
    (ofAgent .evictAgent online).management.command = some (.handed .evictAgent 0 none) ∧
      after (exec (.evictAgent .decide) (ofAgent .evictAgent online)) agentView =
        some (some (.answered .evictAgent .done), .offline, none, 1, 1, [.post 0 .evicted 0]) ∧
      after (exec (.evictAgent .decide) (ofAgent .evictAgent { Agent.reset with state := .offline })) agentView =
        some (some (.answered .evictAgent (.refused .wrongState)), .offline, none, 0, 0, []) := by
  decide

theorem witness_AgentCommandDecisions_disable :
    (ofAgent .disableAgent online).management.command = some (.handed .disableAgent 0 none) ∧
      after (exec (.disableAgent .decide) (ofAgent .disableAgent online)) agentView =
        some (some (.answered .disableAgent .done), .disabled, none, 1, 1, [.post 0 .evicted 0]) ∧
      after (exec (.disableAgent .decide) (ofAgent .disableAgent { Agent.reset with state := .lapsed })) agentView =
        some (some (.answered .disableAgent .done), .disabled, none, 1, 1, []) ∧
      after (exec (.disableAgent .decide) (ofAgent .disableAgent .reset)) agentView =
        some (some (.answered .disableAgent .done), .disabled, none, 0, 0, []) := by
  decide

/-! ## REVOKE_RECORD -/

/-- REVOKE_RECORD of the record in slot 4, generation 3, of domain 0; its owner is agent 0, in the state given. -/
def revoking (x : Domain) (z : Slot) (st : AgentState) : State :=
  (inHand (withDom x [(4, z)]) .revokeRecord 0x403 (some 0)).setAgent 0 { online with state := st }

/-- A HELD record with a write in flight. -/
def busyHeld : Record :=
  { recordIn 0 .exclusive .held 0x10 (some 9) with writes := 1 }

theorem witness_RevokeRecordDecision_refused :
    (let s := inHand (withDom dom0 []) .revokeRecord 0x10000 none
     s.management.command = some (.handed .revokeRecord 0x10000 none) ∧
      after (exec (.revokeRecord .decide) s) (fun t => (t.management.command, t.management.reports.length)) =
        some (some (.answered .revokeRecord (.refused .staleHandle)), 1)) ∧
    (let s := revoking { dom0 with banks := 2 } (slotOf 3 busyHeld) .online
     (s.domain 0).owns (handleField 0x403).slot = false ∧
      after (exec (.revokeRecord .decide) s) (fun t => t.management.command) =
        some (some (.answered .revokeRecord (.refused .staleHandle)))) ∧
    (let s := revoking { dom0 with state := .scrubbing } (slotOf 3 busyHeld) .online
     (s.domain 0).owns 4 = true ∧ (s.domain 0).state = .scrubbing ∧
      after (exec (.revokeRecord .decide) s) (fun t => t.management.command) =
        some (some (.answered .revokeRecord (.refused .wrongState)))) ∧
    (let s := revoking dom0 { slotOf 3 busyHeld with copyA := ⟨3, true⟩, copyB := ⟨3, true⟩, copyC := ⟨3, true⟩ } .online
     (poolGet s.pool 4).agrees = true ∧ (poolGet s.pool 4).directory.free = true ∧
      after (exec (.revokeRecord .decide) s) (fun t => t.management.command) =
        some (some (.answered .revokeRecord (.refused .staleHandle)))) ∧
    (let s := revoking dom0 (lostSlot 3 busyHeld) .online
     (poolGet s.pool 4).health = .manyBits ∧ (poolGet s.pool 4).directory.free = false ∧
      after (exec (.revokeRecord .decide) s) (fun t => (t.management.command, (t.domain 0).state)) =
        some (some (.answered .revokeRecord (.refused .wrongState)), .quarantined)) ∧
    (let s := revoking dom0 (slotOf 2 busyHeld) .online
     (poolGet s.pool 4).directory.gen ≠ (handleField 0x403).gen ∧ (poolGet s.pool 4).health = .clean ∧
      after (exec (.revokeRecord .decide) s) (fun t => t.management.command) =
        some (some (.answered .revokeRecord (.refused .staleHandle)))) ∧
    (let s := revoking dom0 (slotOf 3 (recordIn 0 .shared .waiting 0 none)) .online
     (poolGet s.pool 4).directory.gen = (handleField 0x403).gen ∧ (poolGet s.pool 4).record.state ≠ .held ∧
      (poolGet s.pool 4).record.state ≠ .converting ∧
      after (exec (.revokeRecord .decide) s) (fun t => (t.management.command, (t.domain 0).reports.map Report.kind)) =
        some (some (.answered .revokeRecord (.refused .notHeld)), [.commandRefused])) := by
  decide

theorem witness_RevokeRecordDecision_done :
    (let s := revoking { dom0 with tokenMap := [(9, 4)], occupancy := [4], live := put (Vector.replicate 16 0) 0 1 }
        (slotOf 3 busyHeld) .online
     s.management.command = some (.handed .revokeRecord 0x403 (some 0)) ∧ (s.domain 0).owns 4 = true ∧
      (s.domain 0).state = .enabled ∧ (poolGet s.pool 4).agrees = true ∧ (poolGet s.pool 4).directory = ⟨3, false⟩ ∧
      (poolGet s.pool 4).health = .clean ∧ (poolGet s.pool 4).record.state = .held ∧
      0 < (poolGet s.pool 4).record.reads + (poolGet s.pool 4).record.writes ∧ (poolGet s.pool 4).record.front = none ∧
      (poolGet s.pool 4).record.followUp = none ∧ Pool.wf s.pool = true ∧ (s.agent 0).state = .online ∧
      after (exec (.revokeRecord .decide) s) (fun t => ((recordOf t.pool 4).state, (recordOf t.pool 4).front,
        (recordOf t.pool 4).drainDeadline, (t.domain 0).tokenMap, look (t.domain 0).live 0, (t.domain 0).toSession,
        (t.domain 0).toNotice)) =
        some (.draining, some ⟨.revoked, false⟩, some 1000, [], 0, [.live 0 .down 0],
          [⟨0, .post 0 ⟨4, 3⟩ .newFront ⟨.revoked, 0xC0DE, none⟩ 0⟩])) ∧
    (let s := revoking dom0 (slotOf 3 busyHeld) .lapsed
     (s.agent 0).state ≠ .online ∧
      after (exec (.revokeRecord .decide) s) (fun t => ((recordOf t.pool 4).state, (recordOf t.pool 4).front,
        (t.domain 0).toNotice)) = some (.draining, none, [])) := by
  decide

/-- What a revocation leaves of slot 4 and of domain 0: queues, token map, owner's live count, notices handed over. -/
def revoked (x : Domain) (r : Record) (st : AgentState) :
    Option (Slot × (List SlotId × List SlotId × List SlotId × List (Token × SlotId)) × Nat × List NoticeBody) :=
  after (exec (.revokeRecord .decide) (revoking { x with live := put x.live 0 1 } (slotOf 3 r) st)) (fun t =>
    (poolGet t.pool 4, ((t.domain 0).freeList, (t.domain 0).waitQueue, (t.domain 0).occupancy, (t.domain 0).tokenMap),
      look (t.domain 0).live 0, (t.domain 0).toNotice.map DomainNotice.body))

/-- A HELD record whose GRANTED is unsent, with an access in flight: the GRANTED is withdrawn and REVOKED is a new front (R64, R102). -/
theorem witness_RevokeRecordDecision_withdraws :
    let r := { busyHeld with front := some ⟨.granted, false⟩ }
    r.keptFront = none ∧ r.keptFollowUp = none ∧ placeRevoked none none = (.newFront, some ⟨.revoked, false⟩, none) ∧
      revoked { dom0 with tokenMap := [(9, 4)], occupancy := [4] } r .online =
        some (slotOf 3 { busyHeld with state := .draining, drainDeadline := some 1000, front := some ⟨.revoked, false⟩ },
          ([4, 5], [], [4], []), 0, [.withdrawFront 0 ⟨4, 3⟩, .post 0 ⟨4, 3⟩ .newFront ⟨.revoked, 0xC0DE, none⟩ 0]) := by
  decide +kernel

/-- A CONVERTING record with a read in flight leaves the wait queue SHARED; idle with a GRANTED sent, it is ENDED with REVOKED as a
follow-up (R63, R68, R102). -/
theorem witness_RevokeRecordDecision_converting :
    let x := { dom0 with tokenMap := [(9, 4)], occupancy := [4], waitQueue := [4] }
    let r := { recordIn 0 .shared .converting 0x10 (some 9) with waitDeadline := some 77 }
    let idle := { r with front := some ⟨.granted, true⟩ }
    let drained := { r with state := .draining, waitDeadline := none, drainDeadline := some 1000, reads := 2 }
    dropSlot 4 x.waitQueue = [] ∧ idle.keptFront = some ⟨.granted, true⟩ ∧
      revoked x { r with reads := 2 } .online =
        some (slotOf 3 { drained with front := some ⟨.revoked, false⟩ }, ([4, 5], [], [4], []), 0,
          [.post 0 ⟨4, 3⟩ .newFront ⟨.revoked, 0xC0DE, none⟩ 0]) ∧
      revoked x idle .online =
        some (slotOf 3 { idle with state := .ended, waitDeadline := none, followUp := some .revoked },
          ([4, 5], [], [], []), 0, [.post 0 ⟨4, 3⟩ .followUp ⟨.revoked, 0xC0DE, none⟩ 0]) := by
  decide +kernel

/-- An idle record of a LAPSED owner retires; in a CLOSING domain whose other slots are all FREE that disables it (R6, R65). -/
theorem witness_RevokeRecordDecision_retires :
    revoked { dom0 with tokenMap := [(9, 4)], occupancy := [4], freeList := [5] } (recordIn 0 .shared .held 0x10 (some 9)) .lapsed =
        some (retired 3, ([5, 4], [], [], []), 0, []) ∧
      after (exec (.revokeRecord .decide) (revoking { dom0 with
          state := .closing, tokenMap := [(9, 4)], occupancy := [4], freeList := (slotsOfBanks 1).filter (· != 4) }
          (slotOf 3 (recordIn 0 .shared .held 0x10 (some 9))) .lapsed))
        (fun t => ((t.domain 0).state, (t.domain 0).freeList, (t.domain 0).banks)) = some (.disabled, [], 1) := by
  decide +kernel

/-! ## RESET_LINK and the walk -/

/-- An ACTIVE port with one frame in its retry buffer. -/
def active : LinkPort :=
  { LinkPort.reset with
    state := .active, txSeq := 1, retry := [⟨0, .response 1 .left⟩], replayDeadline := some 1, watchdog := some 10
    resetPending := false }

/-- A port in an attempt. -/
def aligning (a : Attempt) : LinkPort :=
  { LinkPort.reset with state := .aligning, attempt := some a }

theorem witness_LinkResets :
    (let s := inHand (withLink active) .resetLink 0 none
     s.management.command = some (.handed .resetLink 0 none) ∧ argAgent 0 = 0 ∧ (s.link 0).state = .active ∧
      after (exec (.resetLink .decide) s) (fun t => (t.management.command, (t.link 0).state, (t.link 0).retry,
        (t.link 0).resetPending, (t.link 0).resetNumber, (t.link 0).resetNotice, (t.link 0).noticeResets)) =
        some (some (.answered .resetLink .done), .aligning, [], true, 1, some 1, 1)) ∧
    (let s := restarting (withLink (aligning ⟨16, true, true, none, 9⟩))
     s.management.command = some (.restarting allDue) ∧ look allDue.links 0 = true ∧
      after (exec (.linkPortWarmRestart 0) s) (fun t => ((t.link 0).attempt, t.management.command)) =
        some (some ⟨16, true, false, none, 9⟩, some (.restarting { allDue with links := put allDue.links 0 false }))) ∧
    (let s := restarting State.reset
     (s.link 15).state = .down ∧
      after (exec (.linkPortWarmRestart 15) s) (fun t => ((t.link 15).state, (t.link 15).resetNumber)) = some (.down, 1)) := by
  decide

theorem witness_WalkStart :
    (let s := inHand (withDom dom0 []) .walkStart 0xF8000000 (some 0)
     s.management.command = some (.handed .walkStart 0xF8000000 (some 0)) ∧
      (s.domain (argDomain 0xF8000000)).state ≠ .disabled ∧
      after (exec (.walkStart .decide) s) (fun t => t.management.cursor) = some (.walking 0 (some 15) none)) ∧
    (let s := inHand (withDom dom0 []) .walkStart 0x00700000 (some 7)
     (s.domain (argDomain 0x00700000)).state = .disabled ∧
      after (exec (.walkStart .decide) s) (fun t => (t.management.cursor, t.management.command, (t.domain 7).reports.length)) =
        some (.none, some (.answered .walkStart (.refused .wrongState)), 1)) := by
  decide

/-- The part with a walk of domain 0 at a position. -/
def walking (x : Domain) (p : Pool) (f : Option AgentId) (pos : Option SlotId) (c : Option Running) : State :=
  let s := withDom x p
  { s with management := { s.management with cursor := .walking 0 f pos, command := c } }

theorem witness_WalkSearch_begins :
    (let s := inHand State.reset .walkNext 0 none
     s.management.command = some (.handed .walkNext 0 none) ∧ s.management.cursor = .none ∧
      after (exec (.walkNext .decide) s) (fun t => (t.management.command, t.management.reports.length)) =
        some (some (.answered .walkNext (.refused .noWalk)), 1)) ∧
    (let s := inHand (State.reset.setManagement { State.reset.management with cursor := .ended }) .walkNext 0 none
     s.management.cursor = .ended ∧ after (exec (.walkNext .decide) s) (fun t => (t.management.command, t.management.reports)) =
        some (some (.answered .walkNext .walkEnd), [])) ∧
    (let s := walking dom0 [] none (some 255) (some (.handed .walkNext 0 none))
     nextSlot (s.domain 0).banks (some 255) = none ∧
      after (exec (.walkNext .decide) s) (fun t => (t.management.command, t.management.cursor)) =
        some (some (.answered .walkNext .walkEnd), .ended)) ∧
    (let s := walking dom0 [] none (some 254) (some (.handed .walkNext 0 none))
     nextSlot (s.domain 0).banks (some 254) = some 255 ∧
      after (exec (.walkNext .decide) s) (fun t => t.management.command) = some (some .searching)) := by
  decide +kernel

/-- What is left of the search: the command, the cursor, the snapshot's record and position. -/
def searchView (t : State) : Option Running × Cursor × Bool × Option AgentId × Nat :=
  (t.management.command, t.management.cursor, t.management.snapshot.unreadable, t.management.snapshot.record.map Record.owner,
    t.management.snapshot.position)

theorem witness_WalkSearch_examines :
    (let s := walking { dom0 with waitQueue := [5, 4] } [(4, slotOf 3 (recordIn 2 .shared .waiting 0 none))] none (some 3)
        (some .searching)
     s.management.command = some .searching ∧ s.management.cursor = .walking 0 none (some 3) ∧
      nextSlot (s.domain 0).banks (some 3) = some 4 ∧ (poolGet s.pool 4).agrees = true ∧
      (poolGet s.pool 4).directory.free = false ∧ (poolGet s.pool 4).health = .clean ∧
      after (exec .walkExamination s) searchView =
        some (some (.answered .walkNext .done), .walking 0 none (some 4), false, some 2, 2)) ∧
    (let s := walking dom0 [(4, slotOf 3 (recordIn 2 .shared .held 0 none))] (some 1) (some 3) (some .searching)
     (poolGet s.pool 4).record.owner ≠ 1 ∧
      after (exec .walkExamination s) searchView = some (some .searching, .walking 0 (some 1) (some 4), false, none, 0)) ∧
    (let s := walking dom0 [] none (some 254) (some .searching)
     nextSlot (s.domain 0).banks (some 254) = some 255 ∧ nextSlot (s.domain 0).banks (some 255) = none ∧
      (poolGet s.pool 255).directory.free = true ∧
      after (exec .walkExamination s) searchView = some (some (.answered .walkNext .walkEnd), .ended, false, none, 0)) ∧
    (let s := walking { dom0 with state := .closing } [(4, lostSlot 3 (recordIn 2 .shared .held 0 none))] (some 1) (some 3)
        (some .searching)
     (poolGet s.pool 4).health = .manyBits ∧ (poolGet s.pool 4).directory.free = false ∧
      after (exec .walkExamination s) (fun t => (searchView t, (t.domain 0).state, (t.domain 0).reports.map Report.kind)) =
        some ((some (.answered .walkNext .done), .walking 0 (some 1) (some 4), true, none, 0), .quarantined,
          [.recordUncorrectable])) := by
  decide +kernel

/-! ## Warm restart, unit by unit -/

/-- Domain 0 with a record in slot 4, as a warm restart finds it. -/
def beforeRestart (st : DomainState) : State :=
  restarting (withDom { dom0 with state := st, occupancy := [4], fromSession := [.reclaim 0 1] }
    [(4, lostSlot 255 (recordIn 2 .shared .held 0 (some 9)))])

theorem witness_LockTableWarmRestart :
    (beforeRestart .enabled).management.command = some (.restarting allDue) ∧ look allDue.domains 0 = true ∧
      Pool.wf (beforeRestart .enabled).pool = true ∧
      after (exec (.lockTableWarmRestart 0) (beforeRestart .enabled)) (fun t => ((t.domain 0).state, (t.domain 0).occupancy,
        (t.domain 0).freeList.length, (t.domain 0).fromSession)) = some (.enabled, [], 256, []) ∧
      after (exec (.lockTableWarmRestart 0) (beforeRestart .quarantined)) (fun t => ((t.domain 0).state,
        (t.domain 0).freeList, (poolGet t.pool 4).directory, (poolGet t.pool 255).directory)) =
        some (.disabled, [], ⟨0, true⟩, ⟨1, true⟩) ∧
      after (exec (.lockTableWarmRestart 0) (beforeRestart .disabled)) (fun t => ((t.domain 0).state, (t.domain 0).occupancy,
        genOf t.pool 4)) = some (.disabled, [4], 255) := by
  decide +kernel

theorem witness_SessionAndGateWarmRestart :
    (let s := restarting (withAgent { online with live := 2, tags := put (Vector.replicate 8 false) 3 true })
     s.management.command = some (.restarting allDue) ∧ allDue.session = true ∧
      after (exec .sessionWarmRestart s) (fun t => ((t.agent 0).state, (t.agent 0).live, look (t.agent 0).tags 3,
        (t.agent 0).epoch, (t.agent 1).state)) = some (.offline, 0, false, 1, .disabled)) ∧
    (let s := restarting (State.reset.setGate { GateUnit.reset with
       verdictQueue := [⟨0, ⟨0, .read, 0, 0, 0, 0⟩, none⟩], doneQueue := [.null] })
     allDue.gate = true ∧ s.gate.port = [] ∧
      after (exec .gateWarmRestart s) (fun t => (t.gate.doneQueue, t.gate.verdictQueue.map Place.verdict)) =
        some ([], [some (.refused .notReady)])) ∧
    (let c : Check := ⟨0, .read, 0, 0, 0, 0⟩
     let s := restarting ((withDom { dom0 with checks := [⟨0, c, .online, 0⟩] } []).setGate { GateUnit.reset with
       verdictQueue := [⟨0, c, none⟩] })
     after (exec .gateWarmRestart s) (fun t => ((t.domain 0).checks, t.gate.verdictQueue.map Place.verdict)) =
       some ([], [some (.refused .notReady)])) ∧
    (let s := State.reset.setGate { GateUnit.reset with
       answers := [(0, .online, 1)], verdictQueue := [⟨0, ⟨0, .read, 0, 0, 0, 0⟩, some (.refused .notReady)⟩] }
     s.gate.answers = (0, .online, 1) :: [] ∧ (∀ p ∈ s.gate.verdictQueue, p.verdict ≠ none) ∧
      after (exec .checkPresent s) (fun t => (t.gate.answers, (t.domain 0).checks, t.noDomain.checks)) = some ([], [], [])) ∧
    (let s := restarting (State.reset.setGate { GateUnit.reset with
       port := [.done .null], doneQueue := List.replicate 16 (.ticket ⟨.read, ⟨0, 0⟩⟩) })
     s.gate.port = .done .null :: [] ∧
      after (exec .gateWarmRestart s) (fun t => (t.gate.doneQueue, t.gate.port)) = some ([.null], [])) ∧
    (let s := (withDom { dom0 with verdicts := [(0, .admitUntracked)] } []).setGate { GateUnit.reset with
       verdictQueue := [⟨0, ⟨0, .read, 0, 0, 0, 0⟩, some (.refused .notReady)⟩] }
     (s.domain 0).verdicts = (0, .admitUntracked) :: [] ∧ (∀ p ∈ s.gate.verdictQueue, p.verdict ≠ none) ∧
      after (exec (.verdictPlace (some 0)) s) (fun t => (t.gate.verdictQueue.map Place.verdict, (t.domain 0).verdicts)) =
        some ([some (.refused .notReady)], [])) := by
  decide

theorem witness_NoticeWarmRestart :
    (let s := restarting (withNotice { NoticeAgent.reset with
       queue := [⟨⟨4, 3⟩, ⟨.granted, 0, some 9⟩, none, true⟩], marker := .recordSent ⟨4, 3⟩, reclaims := [0] })
     s.management.command = some (.restarting allDue) ∧ allDue.notice = true ∧
      after (exec .noticeWarmRestart s) (fun t => ((t.noticeAgent 0).queue, (t.noticeAgent 0).marker,
        (t.noticeAgent 0).reclaims, (t.noticeAgent 0).reclaimed)) = some ([], .ready, [], 1)) := by
  decide

/-! ## The session unit: arrivals and acknowledgements -/

/-- A LEAVE with tag 5 (08 8.9: type 1, kind 2, tag in bits 23:21). -/
def leaveWord : Word := 0x12A00000

/-- Link 0 with the receive queue given, agent 0 as given. -/
def receiving (q : List Received) (a : Agent) : State :=
  (withLink { LinkPort.reset with rxQueue := q }).setAgent 0 a

theorem witness_ArrivalsResetNoticesAndAcknowledgements_arrivals :
    (let s := receiving [⟨[leaveWord], 0, some true⟩, ⟨[leaveWord], 0, none⟩] { online with tags := Vector.replicate 8 false }
     (s.link 0).resetNotice = none ∧ isRequest [leaveWord] = true ∧ requestTag [leaveWord] = 5 ∧
      look (s.agent 0).tags (requestTag [leaveWord]) = false ∧
      after (exec (.requestArrival 0) s) (fun t => (look (t.agent 0).tags 5, (t.link 0).rxQueue.map Received.mark)) =
        some (true, [some true, some true])) ∧
    (let s := receiving [⟨[leaveWord], 0, none⟩] { online with tags := Vector.replicate 8 true }
     look (s.agent 0).tags (requestTag [leaveWord]) = true ∧
      after (exec (.requestArrival 0) s) (fun t => ((t.link 0).rxQueue.map Received.mark)) = some [some false]) ∧
    (let s := (withLink { LinkPort.reset with rxQueue := [⟨[leaveWord], 0, none⟩], resetNotice := some 7 }).setAgent 0
       { online with tags := Vector.replicate 8 true }
     (s.link 0).resetNotice = some 7 ∧
      after (exec (.requestArrival 0) s) (fun t => ((t.link 0).rxQueue.map Received.mark)) = some [none] ∧
      after (exec (.resetNotice 0) s) (fun t => (look (t.agent 0).tags 5, (t.agent 0).lastReset, (t.link 0).resetNotice)) =
        some (false, 7, none)) := by
  decide

/-- NOTICE_ACK of slot FFFh, generation FFh, is 500FFFFFh; SESSION_ACK is 60000000h (08 8.9). -/
theorem witness_ArrivalsResetNoticesAndAcknowledgements_acks :
    (let s := receiving [⟨[0x500FFFFF], 0, none⟩] online
     (s.link 0).rxQueue = ⟨[0x500FFFFF], 0, none⟩ :: [] ∧ (s.agent 0).inProcess = none ∧ isRequest [0x500FFFFF] = false ∧
      messageType [0x500FFFFF] = 5 ∧ (s.agent 0).state = .online ∧ (s.agent 0).leaseClass = some 3 ∧
      after (exec (.acknowledgementTake 0) s) (fun t => ((t.noticeAgent 0).acks, (t.agent 0).leaseDeadline)) =
        some ([.notice ⟨4095, 255⟩ 0], some 1000)) ∧
    (let s := receiving [⟨[0x60000000], 0, none⟩] { Agent.reset with state := .lapsed }
     messageType [0x60000000] = 6 ∧ (s.agent 0).state ≠ .online ∧
      after (exec (.acknowledgementTake 0) s) (fun t => ((t.noticeAgent 0).acks, (t.agent 0).leaseDeadline)) =
        some ([.session 0], none)) ∧
    (let s := receiving [⟨[0x70000000], 0, none⟩] online
     messageType [0x70000000] ≠ 5 ∧ messageType [0x70000000] ≠ 6 ∧
      after (exec (.messageDiscard 0) s) (fun t => (t.session.reports.map Report.kind, (t.link 0).rxQueue,
        (t.agent 0).leaseDeadline)) = some ([.linkProtocol], [], some 500)) ∧
    (let s := receiving [⟨[0x60000000, 0], 0, none⟩] online
     isRequest [0x60000000, 0] = false ∧ [(0x60000000 : Word), 0].length ≠ 1 ∧
      after (exec (.messageDiscard 0) s) (fun t => t.session.reports.map Report.kind) = some [.linkProtocol]) := by
  decide

/-! ## The front-end checks -/

/-- A REQUEST at the head of link 0 whose arrival has been taken, in ACTIVE. -/
def taking (ws : List Word) (holder : Bool) (a : Agent) : State :=
  let s := receiving [⟨ws, 0, some holder⟩] { a with tags := Vector.replicate 8 true }
  { s with management := { s.management with mode := .active } }

/-- The response, the tag table's entry 5 and the number of reports. -/
def frontView (t : State) : List QueuedResponse × Bool × Nat :=
  ((t.link 0).responses, look (t.agent 0).tags 5, t.session.reports.length)

/-- ACQUIRE with tag 5 is 13A..., of one word too short: malformed, whatever the tag and the session (R154). -/
theorem witness_FrontEndRefusals_malformed :
    parseRequest [0x13A80000] = none ∧ isRequest [0x13A80000] = true ∧ requestKind [0x13A80000] = 3 ∧
      ((taking [0x13A80000] false .reset).link 0).responses.length < 8 ∧
      after (exec (.requestTake 0) (taking [0x13A80000] false .reset)) frontView = some ([⟨5, .refused .badRequest, 0⟩], true, 0) ∧
      after (exec (.requestTake 0) (taking [0x13A80000] true .reset)) frontView =
        some ([⟨5, .refused .badRequest, 0⟩], false, 0) := by
  decide

theorem witness_FrontEndRefusals_clash :
    parseRequest [leaveWord] = some .leave ∧ requestKind [leaveWord] = 2 ∧
      after (exec (.leave 0) (taking [leaveWord] false online)) frontView = some ([⟨5, .refused .tagInUse, 0⟩], true, 1) := by
  decide

theorem witness_FrontEndRefusals_session :
    (receiving [⟨[leaveWord], 0, some true⟩] online).management.mode = .setup ∧
      after (exec (.leave 0) (receiving [⟨[leaveWord], 0, some true⟩] online)) frontView =
        some ([⟨5, .refused .notReady, 0⟩], false, 0) ∧
      (taking [0x11A00003] true .reset).management.mode = .active ∧ requestKind [0x11A00003] = 1 ∧
      after (exec (.join 0) (taking [0x11A00003] true .reset)) frontView = some ([⟨5, .refused .agentDisabled, 0⟩], false, 0) ∧
      requestKind [0x16A00000] = 6 ∧
      after (exec (.renew 0) (taking [0x16A00000] true { Agent.reset with state := .offline })) frontView =
        some ([⟨5, .refused .notJoined, 0⟩], false, 0) ∧
      parseRequest [0x14A00000] = some (.lock (.release ⟨0, 0⟩)) ∧
      after (exec (.requestTake 0) (taking [0x14A00000] true { Agent.reset with state := .lapsed })) frontView =
        some ([⟨5, .refused .sessionLapsed, 0⟩], false, 0) := by
  decide

/-! ## JOIN, LEAVE, RENEW, lock requests -/

/-- JOIN of class 3 with tag 5 from OFFLINE with bound 2: class 2, 500 ms; the next epoch (R80 to R84). -/
theorem witness_SessionsOpenRenewAndEnd_join :
    parseRequest [0x11A00003] = some (.join 3) ∧
      ((taking [0x11A00003] true { Agent.reset with state := .offline, bound := 2, quota := 4096 }).agent 0).state ≠ .disabled ∧
      after (exec (.join 0) (taking [0x11A00003] true { Agent.reset with state := .offline, bound := 2, quota := 4096 }))
        (fun t => ((t.agent 0).state, (t.agent 0).leaseClass, (t.agent 0).leaseDeadline, (t.link 0).responses,
          (t.domain 0).fromSession)) =
        some (.online, some 2, some 500, [⟨5, .joined 1 500 4096, 0⟩], []) := by
  decide

/-- JOIN from ONLINE sends a reclaim first; the epoch after FFFFFFFFh is 1 (R80, R81). -/
theorem witness_SessionsOpenRenewAndEnd_joinAgain :
    ((taking [0x11A00003] true { online with epoch := 0xFFFFFFFF }).agent 0).state = .online ∧
      after (exec (.join 0) (taking [0x11A00003] true { online with epoch := 0xFFFFFFFF }))
        (fun t => ((t.agent 0).epoch, (t.domain 7).fromSession, (t.noticeAgent 0).reclaims, t.notice.conditions)) =
        some (1, [.reclaim 0 1], [0], [.empty 0 0]) := by
  decide

theorem witness_SessionsOpenRenewAndEnd_leaveAndRenew :
    (taking [leaveWord] true online).management.mode = .active ∧ ((taking [leaveWord] true online).agent 0).state = .online ∧
      after (exec (.leave 0) (taking [leaveWord] true online))
        (fun t => ((t.agent 0).state, (t.agent 0).leaseDeadline, (t.link 0).responses, (t.domain 3).fromSession)) =
        some (.offline, none, [⟨5, .left, 0⟩], [.reclaim 0 1]) ∧
      parseRequest [0x16A00000] = some .renew ∧
      after (exec (.renew 0) (taking [0x16A00000] true online))
        (fun t => ((t.agent 0).leaseDeadline, (t.link 0).responses)) = some (some 1000, [⟨5, .renewed 1000, 0⟩]) := by
  decide

/-- An ACQUIRE of pages FFh to 102h, EXCLUSIVE, tag 5, cookie C0DEh, wait code 7. -/
def acquireWords : List Word := [0x13B0C0DE, 0xFF, 0x70000004]

/-- The same state with domain 0 ENABLED. -/
def lockTaking (ws : List Word) : State :=
  (taking ws true online).setDomain 0 dom0

theorem witness_LockRequestsAreHandedOn :
    parseRequest acquireWords = some (.lock (.acquire .exclusive 0xFF 4 0xC0DE 7)) ∧
      ((lockTaking acquireWords).domain 0).holds 0xFF = true ∧ ((lockTaking acquireWords).agent 0).leaseClass = some 3 ∧
      after (exec (.requestTake 0) (lockTaking acquireWords)) (fun t => ((t.domain 0).fromSession,
        (t.agent 0).inProcess, (t.agent 0).leaseDeadline)) =
        some ([.request ⟨0, 2, 0, 0, 0, .acquire .exclusive 0xFF 4 0xC0DE 7⟩], some ⟨5, true, 0, none⟩, some 1000) ∧
      (∀ d, ((taking acquireWords true online).domain d).holds 0xFF = false) ∧
      after (exec (.requestTake 0) (taking acquireWords true online)) (fun t => t.noDomain.requests.length) = some 1 := by
  decide

/-- CONVERT UP with wait code 7 of slot 255, generation 1, and a RELEASE of slot 256, which no domain owns. -/
theorem witness_LockRequestsAreHandedOn_handles :
    parseRequest [0x15AB8000, 0xFF01] = some (.lock (.convertUp ⟨255, 1⟩ 7)) ∧
      ((lockTaking [0x15AB8000, 0xFF01]).domain 0).owns 255 = true ∧
      after (exec (.requestTake 0) (lockTaking [0x15AB8000, 0xFF01])) (fun t => (t.domain 0).fromSession) =
        some [.request ⟨0, 2, 0, 0, 0, .convertUp ⟨255, 1⟩ 7⟩] ∧
      parseRequest [0x14A10001] = some (.lock (.release ⟨256, 1⟩)) ∧
      (∀ d, ((lockTaking [0x14A10001]).domain d).owns 256 = false) ∧
      after (exec (.requestTake 0) (lockTaking [0x14A10001])) (fun t => ((t.link 0).responses, (t.agent 0).inProcess)) =
        some ([⟨5, .refused .staleHandle, 0⟩], none) := by
  decide

/-! ## Results, live reports, leases, reads -/

/-- A result of domain 0 for agent 0, whose request of tag 5 is in process; `k` responses are queued. -/
def resulting (c : Option LiveChange) (stamp : BitVec 8) (era k : Nat) : State :=
  let s := (withDom { dom0 with toSession := [.result 0 stamp (.refused .conflict) c era] } []).setAgent 0
    { online with live := 1, tags := Vector.replicate 8 true, inProcess := some ⟨5, true, 0, none⟩ }
  let s := s.setLink 0 { LinkPort.reset with responses := List.replicate k ⟨0, .left, 0⟩ }
  { s with session := { s.session with era := 1 } }

/-- Live count, request in process, tag, number of responses. -/
def resultView (t : State) : Nat × Option InProcess × Bool × Nat :=
  ((t.agent 0).live, (t.agent 0).inProcess, look (t.agent 0).tags 5, (t.link 0).responses.length)

theorem witness_ResultsAndLiveReports_results :
    ((resulting (some .up) 0 1 7).domain 0).toSession = .result 0 0 (.refused .conflict) (some .up) 1 :: [] ∧
      ((resulting (some .up) 0 1 7).agent 0).inProcess = some ⟨5, true, 0, none⟩ ∧
      (resulting (some .up) 0 1 7).session.era = 1 ∧
      after (exec (.resultTake (some 0)) (resulting (some .up) 0 1 7)) resultView = some (2, none, false, 8) ∧
      after (exec (.resultTake (some 0)) (resulting (some .down) 0 1 8)) resultView =
        some (0, some ⟨5, true, 0, some (.refused .conflict)⟩, true, 8) ∧
      after (exec (.resultTake (some 0)) (resulting none 3 1 7)) resultView = some (1, none, true, 7) ∧
      after (exec (.resultTake (some 0)) (resulting (some .up) 0 0 7)) resultView =
        some (1, some ⟨5, true, 0, none⟩, true, 7) := by
  decide

theorem witness_ResultsAndLiveReports_handoff :
    (let s := (withLink { LinkPort.reset with responses := List.replicate 7 ⟨0, .left, 0⟩ }).setAgent 0
       { online with inProcess := some ⟨5, true, 0, some .left⟩, tags := Vector.replicate 8 true }
     (s.agent 0).inProcess = some ⟨5, true, (s.agent 0).lastReset, some .left⟩ ∧ (s.link 0).responses.length < 8 ∧
      after (exec (.responseHandoff 0) s) resultView = some (0, none, false, 8)) := by
  decide

theorem witness_ResultsAndLiveReports_live :
    (let s := (withDom { dom0 with toSession := [.live 0 .down 0] } []).setAgent 0 { Agent.reset with live := 1 }
     (s.domain 0).toSession = .live 0 .down 0 :: [] ∧ s.session.era ≤ 0 ∧
      after (exec (.liveReport 0) s) (fun t => ((t.agent 0).live, (t.domain 0).toSession)) = some (0, [])) ∧
    (let s := (withDom { dom0 with toSession := [.lost 0 3 0] } []).setAgent 0 { Agent.reset with live := 4 }
     (s.domain 0).toSession = .lost 0 3 0 :: [] ∧
      after (exec (.liveReport 0) s) (fun t => ((t.agent 0).live, t.notice.conditions)) =
        some (1, [.post 0 (.lost 0) 0])) := by
  decide

/-- The lease until 500: expired at 500, and 2^31 - 1 ms later; not at 499, nor 2^31 ms before its deadline (R88). -/
theorem witness_LeaseExpiryAndReads_expiry :
    ((withAgent online).agent 0).state = .online ∧ ((withAgent online).agent 0).leaseDeadline = some 500 ∧
      after (exec (.leaseExpiry 0) { withAgent online with time := 500 }) (fun t => ((t.agent 0).state, (t.agent 0).epoch,
        (t.domain 7).fromSession, t.notice.conditions, t.session.reports.map Report.kind)) =
        some (.lapsed, 1, [.reclaim 0 1], [.post 0 .lapsed 0], [.agentLapsed]) ∧
      (500 : Time) + BitVec.ofNat 32 (2 ^ 31 - 1) = 0x800001F3 ∧
      after (exec (.leaseExpiry 0) { withAgent online with time := 0x800001F3 }) (fun t => (t.agent 0).state) = some .lapsed ∧
      (500 : Time) = 499 + BitVec.ofNat 32 1 ∧
      after (exec (.leaseExpiry 0) { withAgent online with time := 499 }) (fun t => (t.agent 0).state) = some .online ∧
      (500 : Time) = 0x800001F4 + BitVec.ofNat 32 (2 ^ 31) ∧
      after (exec (.leaseExpiry 0) { withAgent online with time := 0x800001F4 }) (fun t => (t.agent 0).state) = some .online := by
  decide

theorem witness_LeaseExpiryAndReads_reads :
    (let s := (withAgent online).setGate { GateUnit.reset with reads := [(4, 0)] }
     s.gate.reads = (4, 0) :: [] ∧ after (exec (.agentStateRead .gate) s) (fun t => (t.gate.answers, t.gate.reads)) =
        some ([(4, .online, 1)], [])) ∧
    (let s := withAgent online
     let u : State := { s with notice := { s.notice with reads := put s.notice.reads 7 (.asked 0) } }
     look u.notice.reads 7 = .asked 0 ∧
      after (exec (.agentStateRead (.post 7)) u) (fun t => look t.notice.reads 7) = some (.answered 0 .online)) := by
  decide

/-! ## Lock requests at a domain -/

/-- Domain 0 as given with a lock request of agent 1 at its front; quota 2, `live` records. -/
def asking (x : Domain) (p : Pool) (live : Nat) (b : LockBody) : State :=
  withDom { x with fromSession := [.request ⟨1, 2, live, 3, 0, b⟩] } p

/-- An ACQUIRE. -/
def acquireOf (mode : Mode) (first : Page) (count : Nat) (code : WaitCode) : LockBody :=
  .acquire mode first count 0xC0DE code

/-- What domain 0 has handed the session unit and the notice unit. -/
def told (t : State) : List DomainReport × List DomainNotice :=
  ((t.domain 0).toSession, (t.domain 0).toNotice)

/-- The result alone, to the request of `asking`. -/
def only (r : Response) (c : Option LiveChange) : Option (List DomainReport × List DomainNotice) :=
  some ([.result 1 3 r c 0], [])

theorem witness_AcquireRefusedBeforeItsSearches :
    ((asking dom0 [] 0 (acquireOf .shared 0x100 1 0)).domain 0).fromSession =
        .request ⟨1, 2, 0, 3, 0, acquireOf .shared 0x100 1 0⟩ :: [] ∧
      dom0.holds 0x100 = false ∧ dom0.holds 0xFF = true ∧
      after (exec (.acquire (some 0)) (asking dom0 [] 0 (acquireOf .shared 0x100 1 0))) told = only (.refused .noDomain) none ∧
      dom0.limit.toNat < lastPage 0xFF 2 ∧
      after (exec (.acquire (some 0)) (asking dom0 [] 0 (acquireOf .shared 0xFF 2 0))) told = only (.refused .spanInvalid) none ∧
      lastPage 0xFF 1 ≤ dom0.limit.toNat ∧
      after (exec (.acquire (some 0)) (asking { dom0 with state := .quarantined } [] 0 (acquireOf .shared 0xFF 1 0))) told =
        only (.refused .domainUnavailable) none ∧
      after (exec (.acquire (some 0)) (asking { dom0 with state := .scrubbing } [] 0 (acquireOf .shared 0xFF 1 0))) told =
        only (.refused .domainUnavailable) none ∧
      after (exec (.acquire (some 0)) (asking { dom0 with state := .closing } [] 0 (acquireOf .shared 0xFF 1 0))) told =
        only (.refused .domainClosing) none ∧
      after (exec (.acquire (some 0)) (asking dom0 [] 2 (acquireOf .shared 0xFF 1 0))) told =
        only (.refused .quotaExceeded) none := by
  decide

theorem witness_AcquireRefusedBeforeItsSearches_noDomain :
    (let s : State := { State.reset with noDomain := { NoDomain.reset with
      requests := [⟨1, 2, 0, 3, 0, acquireOf .shared 0x100 1 0⟩] } }
     s.noDomain.requests = ⟨1, 2, 0, 3, 0, acquireOf .shared 0x100 1 0⟩ :: [] ∧
      after (exec (.acquire none) s) (fun t => (t.noDomain.requests, t.noDomain.toSession)) =
        some ([], [.result 1 3 (.refused .noDomain) none 0])) := by
  decide

/-- Slot 6 holds a SHARED record of agent 1, slot 7 one of agent 2, both of pages 10h to 13h. -/
def shared67 : Pool :=
  [(6, slotOf 1 (recordIn 1 .shared .held 0x10 (some 8))), (7, slotOf 1 (recordIn 2 .shared .held 0x10 (some 9)))]

theorem witness_AcquireRefusedByItsSearches :
    (let s := asking { dom0 with occupancy := [6, 7] } shared67 1 (acquireOf .exclusive 0x13 1 0)
     recordsClean s.pool (s.domain 0).occupancy = true ∧ recordsClean s.pool (s.domain 0).waitQueue = true ∧
      6 ∈ (s.domain 0).occupancy ∧ (recordOf s.pool 6).owner = 1 ∧
      conflicts .exclusive 0x13 1 (recordOf s.pool 6) (recordOf s.pool 6).hold = true ∧
      after (exec (.acquire (some 0)) s) told = only (.refused .selfConflict) none) ∧
    (let s := asking { dom0 with occupancy := [6, 7], freeList := [] } shared67 1 (acquireOf .shared 0x13 1 0)
     (s.domain 0).occupancy.any (fun i => conflicts .shared 0x13 1 (recordOf s.pool i) (recordOf s.pool i).hold) = false ∧
      after (exec (.acquire (some 0)) s) told = only (.refused .poolEmpty) none) ∧
    (let s := asking { dom0 with occupancy := [6, 7], exhausted := true } shared67 1 (acquireOf .shared 0x13 1 7)
     noHoldMeets s.pool .shared 0x13 1 (s.domain 0).occupancy = true ∧
      noClaimMeets s.pool .shared 0x13 1 (s.domain 0).waitQueue = true ∧
      after (exec (.acquire (some 0)) s) told = only (.refused .tokensExhausted) none) ∧
    (let s := asking { dom0 with occupancy := [7], exhausted := true } shared67 1 (acquireOf .exclusive 0x13 1 0)
     noHoldMeets s.pool .exclusive 0x13 1 (s.domain 0).occupancy = false ∧
      (s.domain 0).occupancy.any (fun i => (recordOf s.pool i).owner == 1) = false ∧
      after (exec (.acquire (some 0)) s) told = only (.refused .conflict) none) := by
  decide +kernel

/-- What an ACQUIRE leaves of domain 0 in slot 4: free list, wait queue, occupancy set, token map, counter, exhausted, live count;
the slot's state, token and deadline; how many reports. -/
def acquired (t : State) : (List SlotId × List SlotId × List SlotId × List (Token × SlotId) × Token × Bool × Nat) ×
    (SlotState × Option Token × Option Time) × Nat :=
  (((t.domain 0).freeList, (t.domain 0).waitQueue, (t.domain 0).occupancy, (t.domain 0).tokenMap, (t.domain 0).tokenCounter,
      (t.domain 0).exhausted, look (t.domain 0).live 1),
    ((recordOf t.pool 4).state, (recordOf t.pool 4).token, (recordOf t.pool 4).waitDeadline), (t.domain 0).reports.length)

theorem witness_AcquireGrantedOrQueued_granted :
    let s := asking dom0 [] 1 (acquireOf .exclusive 0xFC 4 0)
    dom0.holds 0xFC = true ∧ lastPage 0xFC 4 ≤ dom0.limit.toNat ∧ dom0.freeList = 4 :: [5] ∧
      (poolGet s.pool 4).readsClean = true ∧ Pool.wf s.pool = true ∧
      noHoldMeets s.pool .exclusive 0xFC 4 (s.domain 0).occupancy = true ∧
      after (exec (.acquire (some 0)) s) told = only (.granted ⟨4, 0⟩ 1) (some .up) ∧
      after (exec (.acquire (some 0)) s) acquired = some (([5], [], [4], [(1, 4)], 2, false, 1), (.held, some 1, none), 0) := by
  decide +kernel

theorem witness_AcquireGrantedOrQueued_lastToken :
    after (exec (.acquire (some 0))
        (asking { dom0 with tokenCounter := BitVec.allOnes 40 } [] 1 (acquireOf .exclusive 0xFC 4 0))) acquired =
      some (([5], [], [4], [(0xFFFFFFFFFF, 4)], 0xFFFFFFFFFF, true, 1), (.held, some 0xFFFFFFFFFF, none), 1) := by
  decide +kernel

/-- Wait codes 1, 6 and 7, at time FFFFFFFFh; the domain's tokens are exhausted. -/
theorem witness_AcquireGrantedOrQueued_queued :
    let s (code : WaitCode) : State := { asking { dom0 with occupancy := [7], exhausted := true } shared67 1
      (acquireOf .exclusive 0x13 1 code) with time := 0xFFFFFFFF }
    noHoldMeets (s 1).pool .exclusive 0x13 1 ((s 1).domain 0).occupancy = false ∧
      ((s 1).domain 0).occupancy.any (fun i => (recordOf (s 1).pool i).owner == 1) = false ∧
      after (exec (.acquire (some 0)) (s 1)) told = only (.queued ⟨4, 0⟩) (some .up) ∧
      after (exec (.acquire (some 0)) (s 1)) acquired = some (([5], [4], [7], [], 1, true, 1), (.waiting, none, some 9), 0) ∧
      after (exec (.acquire (some 0)) (s 6)) (fun t => (acquired t).2.1) = some (.waiting, none, some 9999) ∧
      after (exec (.acquire (some 0)) (s 7)) (fun t => (acquired t).2.1) = some (.waiting, none, none) := by
  decide +kernel

/-- The four requests that carry a handle, here of slot 255 and generation 3. -/
def handled : List LockBody :=
  [.release ⟨255, 3⟩, .convertUp ⟨255, 3⟩ 7, .convertDown ⟨255, 3⟩, .query ⟨255, 3⟩]

/-- Every one of them is refused with the result given, and nothing else is handed out. -/
def allRefused (x : Domain) (z : Slot) (c : ResultRefusal) : Bool :=
  handled.all fun b => after (exec (lockCommand 0 b) (asking x [(255, z)] 1 b)) (fun t => (told t, t.pool)) ==
    some (([.result 1 3 (.refused c) none 0], []), [(255, z)])

theorem witness_HandleChecks :
    (∀ b ∈ handled, b.handle? = some ⟨255, 3⟩) ∧
      ({ dom0 with banks := 0xFFFE } : Domain).owns 255 = false ∧ dom0.owns 255 = true ∧
      allRefused { dom0 with banks := 0xFFFE } (slotOf 3 (recordIn 1 .shared .held 0 (some 9))) .staleHandle = true ∧
      allRefused { dom0 with state := .quarantined } (slotOf 3 (recordIn 1 .shared .held 0 (some 9))) .domainUnavailable = true ∧
      allRefused { dom0 with state := .scrubbing } (slotOf 3 (recordIn 1 .shared .held 0 (some 9))) .domainUnavailable = true ∧
      (retired 2).agrees = true ∧ (retired 2).directory = ⟨3, true⟩ ∧
      allRefused dom0 (retired 2) .staleHandle = true ∧
      allRefused { dom0 with state := .closing } (retired 2) .staleHandle = true ∧
      (slotOf 4 (recordIn 1 .shared .held 0 (some 9))).directory = ⟨4, false⟩ ∧
      allRefused dom0 (slotOf 4 (recordIn 1 .shared .held 0 (some 9))) .staleHandle = true ∧
      (slotOf 3 (recordIn 2 .shared .held 0 (some 9))).directory = ⟨3, false⟩ ∧
      allRefused dom0 (slotOf 3 (recordIn 2 .shared .held 0 (some 9))) .notOwner = true := by
  decide

theorem witness_HandleChecks_lost :
    (lostSlot 3 (recordIn 1 .shared .held 0 (some 9))).agrees = true ∧
      (lostSlot 3 (recordIn 1 .shared .held 0 (some 9))).directory.free = false ∧
      (handled.all fun b => after (exec (lockCommand 0 b) (asking { dom0 with live := put dom0.live 1 1 }
        [(255, lostSlot 3 (recordIn 1 .shared .held 0 (some 9)))] 1 b)) (fun t => ((t.domain 0).state, (t.domain 0).toSession)) ==
        some (.quarantined, [.lost 1 1 0, .result 1 3 (.refused .domainUnavailable) none 0])) = true := by
  decide

/-- A slot whose third copy of its directory entry disagrees. -/
def unlike (z : Slot) : Slot :=
  { z with copyC := ⟨77, !z.copyC.free⟩ }

/-- Every request that names the handle ends with the result, the reports and the slot given. -/
def allCorrected (z : Slot) (c : ResultRefusal) (l : List (EventKind × Option AgentId)) (z' : Slot) : Bool :=
  handled.all fun b => after (exec (lockCommand 0 b) (asking dom0 [(255, z)] 1 b)) (fun t => ((t.domain 0).toSession,
      (t.domain 0).reports.map (fun r => (r.kind, r.agent)), poolGet t.pool 255)) ==
    some ([.result 1 3 (.refused c) none 0], l, z')

/-- One bit of a record, and copies that disagree, at both refusals (R165, R166). -/
theorem witness_HandleChecks_corrected :
    let other := slotOf 3 (recordIn 2 .shared .held 0 (some 9))
    let later := slotOf 4 (recordIn 1 .shared .held 0 (some 9))
    let bit (z : Slot) : Slot := { z with health := .oneBit }
    (unlike other).agrees = false ∧ (unlike other).directory = ⟨3, false⟩ ∧ (unlike (retired 2)).agrees = false ∧
      (unlike (retired 2)).directory = ⟨3, true⟩ ∧
      allCorrected (unlike (retired 2)) .staleHandle [(.recordCorrected, none)] (retired 2) = true ∧
      allCorrected (unlike other) .notOwner [(.recordCorrected, some 2)] other = true ∧
      allCorrected (bit other) .notOwner [(.recordCorrected, some 2)] other = true ∧
      allCorrected (bit later) .staleHandle [(.recordCorrected, some 1)] later = true ∧
      allCorrected (unlike (bit later)) .staleHandle [(.recordCorrected, some 1), (.recordCorrected, some 1)] later = true := by
  decide +kernel

theorem witness_HandleChecks_lostAndUnlike :
    let z := lostSlot 3 (recordIn 1 .shared .held 0 (some 9))
    (unlike z).agrees = false ∧ (unlike z).directory.free = false ∧ (unlike z).health = .manyBits ∧
      (handled.all fun b => after (exec (lockCommand 0 b) (asking dom0 [(255, unlike z)] 1 b)) (fun t => ((t.domain 0).state,
          (t.domain 0).reports.map (fun r => (r.kind, r.agent)), poolGet t.pool 255)) ==
        some (.quarantined, [(.recordCorrected, none), (.recordUncorrectable, none)], z)) = true := by
  decide +kernel

/-- Allocation corrects the cleared record of the slot it takes, and names no agent (log 29). -/
theorem test_allocationCorrects :
    after (exec (.acquire (some 0)) (asking dom0 [(4, { Slot.reset with health := .oneBit })] 1 (acquireOf .shared 0x10 4 0)))
      (fun t => ((t.domain 0).reports.map (fun r => (r.kind, r.agent, r.slot)), (poolGet t.pool 4).health)) =
      some ([(.recordCorrected, none, some 4)], .clean) := by
  decide +kernel

/-- The slots of domain 0, the live count of agent 1, the record's state and the messages handed out. -/
def slotsView (t : State) : (List SlotId × List SlotId × List SlotId × List (Token × SlotId)) × Nat × Slot × List DomainReport :=
  (((t.domain 0).freeList, (t.domain 0).waitQueue, (t.domain 0).occupancy, (t.domain 0).tokenMap), look (t.domain 0).live 1,
    poolGet t.pool 255, (t.domain 0).toSession)

/-- A request for the record of agent 1 in slot 255, generation 255, beside a domain of one live record. -/
def asking255 (x : Domain) (r : Record) (b : LockBody) : State :=
  asking { x with live := put x.live 1 1 } [(255, slotOf 255 r)] 1 b

theorem witness_ReleaseByState_already :
    ((asking255 dom0 (recordIn 1 .shared .draining 0 (some 9)) (.release ⟨255, 255⟩)).domain 0).fromSession =
        .request ⟨1, 2, 1, 3, 0, .release ⟨255, 255⟩⟩ :: [] ∧
      current ((asking255 dom0 (recordIn 1 .shared .draining 0 (some 9)) (.release ⟨255, 255⟩)).domain 0)
        [(255, slotOf 255 (recordIn 1 .shared .draining 0 (some 9)))] ⟨255, 255⟩ ∧
      Pool.wf [(255, slotOf 255 (recordIn 1 .shared .draining 0 (some 9)))] = true ∧
      after (exec (.release 0) (asking255 dom0 (recordIn 1 .shared .draining 0 (some 9)) (.release ⟨255, 255⟩))) told =
        only (.refused .alreadyReleased) none ∧
      after (exec (.release 0) (asking255 { dom0 with state := .closing } (recordIn 1 .shared .ended 0 none)
        (.release ⟨255, 255⟩))) told = only (.refused .alreadyReleased) none := by
  unfold current
  decide

theorem witness_ReleaseByState :
    (let x := { dom0 with waitQueue := [255] }
     dropSlot 255 x.waitQueue = [] ∧
      after (exec (.release 0) (asking255 x (recordIn 1 .exclusive .waiting 0 none) (.release ⟨255, 255⟩))) slotsView =
        some (([4, 5, 255], [], [], []), 0, retired 255, [.result 1 3 (.cancelled ⟨255, 255⟩) (some .down) 0])) ∧
    (let x := { dom0 with occupancy := [255], tokenMap := [(9, 255)] }
     let r := { recordIn 1 .exclusive .held 0 (some 9) with writes := 1 }
     r.front = none ∧ r.followUp = none ∧ 0 < r.reads + r.writes ∧
      after (exec (.release 0) (asking255 x r (.release ⟨255, 255⟩))) slotsView =
        some (([4, 5], [], [255], []), 0, slotOf 255 { r with state := .draining, drainDeadline := some 1000 },
          [.result 1 3 (.released ⟨255, 255⟩) (some .down) 0])) ∧
    (let x := { dom0 with occupancy := [255], tokenMap := [(9, 255)], waitQueue := [255] }
     let r := { recordIn 1 .shared .converting 0 (some 9) with reads := 63, waitDeadline := some 77 }
     dropSlot 255 x.waitQueue = [] ∧
      after (exec (.release 0) (asking255 x r (.release ⟨255, 255⟩))) slotsView =
        some (([4, 5], [], [255], []), 0,
          slotOf 255 { r with state := .draining, waitDeadline := none, drainDeadline := some 1000 },
          [.result 1 3 (.released ⟨255, 255⟩) (some .down) 0])) ∧
    (let x := { dom0 with occupancy := [255], tokenMap := [(9, 255)] }
     let r := recordIn 1 .exclusive .held 0 (some 9)
     r.reads = 0 ∧ r.writes = 0 ∧
      after (exec (.release 0) (asking255 x r (.release ⟨255, 255⟩))) slotsView =
        some (([4, 5, 255], [], [], []), 0, retired 255, [.result 1 3 (.released ⟨255, 255⟩) (some .down) 0])) := by
  decide

/-- Three equal copies of generation 255. -/
theorem copies255 : majority ⟨255, false⟩ ⟨255, false⟩ ⟨255, false⟩ = ⟨255, false⟩ := by decide

/-- The request of `asking255` is at the front, and its handle is current. -/
theorem asking255_current (x : Domain) (r : Record) (b : LockBody) (h : x.owns 255 = true) (h' : x.serves = true) :
    ((asking255 x r b).domain 0).fromSession = .request ⟨1, 2, 1, 3, 0, b⟩ :: [] ∧
      current ((asking255 x r b).domain 0) (asking255 x r b).pool ⟨255, 255⟩ ∧
      (recordOf (asking255 x r b).pool 255) = r :=
  ⟨rfl, ⟨h, h', rfl, copies255⟩, rfl⟩

/-- Domain 0 with the record of slot 255 in its occupancy set and token map. -/
def held255 : Domain :=
  { dom0 with occupancy := [255], tokenMap := [(9, 255)], tokenCounter := 10 }

/-- What a RELEASE of a HELD record of agent 1 in slot 255 with the notices given leaves: the slot, the collections, what the notice
unit is handed. -/
def released (reads : Nat) (f : Option Front) (k : Option NoticeKind) :
    Option (Slot × (List SlotId × List SlotId × List (Token × SlotId)) × List DomainNotice) :=
  after (exec (.release 0) (asking255 { dom0 with occupancy := [255], tokenMap := [(9, 255)] }
      { recordIn 1 .shared .held 0 (some 9) with reads := reads, front := f, followUp := k } (.release ⟨255, 255⟩)))
    (fun t => (poolGet t.pool 255, ((t.domain 0).freeList, (t.domain 0).occupancy, (t.domain 0).tokenMap), (t.domain 0).toNotice))

/-- An unsent GRANTED goes with its follow-up; behind a GRANTED sent only an UPGRADED follow-up goes; REVOKED stays (R64). -/
theorem witness_ReleaseByState_withdraws :
    let r := recordIn 1 .shared .held 0 (some 9)
    let drained := { r with state := .draining, drainDeadline := some 1000, reads := 1 }
    let ended := { r with state := .ended, front := some ⟨.granted, true⟩ }
    [released 0 (some ⟨.granted, false⟩) none, released 1 (some ⟨.upgradeExpired, false⟩) (some .upgraded),
        released 0 (some ⟨.granted, true⟩) (some .upgraded), released 0 (some ⟨.granted, true⟩) none,
        released 1 (some ⟨.revoked, false⟩) none] =
      [some (retired 255, ([4, 5, 255], [], []), [⟨0, .withdrawFront 1 ⟨255, 255⟩⟩]),
        some (slotOf 255 drained, ([4, 5], [255], []), [⟨0, .withdrawFront 1 ⟨255, 255⟩⟩]),
        some (slotOf 255 ended, ([4, 5], [], []), [⟨0, .withdrawFollowUp 1 ⟨255, 255⟩⟩]),
        some (slotOf 255 ended, ([4, 5], [], []), []),
        some (slotOf 255 { drained with front := some ⟨.revoked, false⟩ }, ([4, 5], [255], []), [])] := by
  decide +kernel

/-- Domain 0 CLOSING, every slot but 255 in its free list. -/
def lastUsed : Domain :=
  { dom0 with state := .closing, freeList := (slotsOfBanks 1).filter (· != 255), occupancy := [255], tokenMap := [(9, 255)] }

/-- The last retirement of a CLOSING domain disables it: at RELEASE, DRAIN_OVERRUN, DONE and an acknowledgement (R6). -/
theorem test_lastRetirementCloses :
    let closed (t : State) : DomainState × List SlotId := ((t.domain 0).state, (t.domain 0).freeList)
    let draining := { recordIn 1 .shared .draining 0 (some 9) with reads := 1, drainDeadline := some 1000 }
    after (exec (.release 0) (asking255 lastUsed (recordIn 1 .shared .held 0 (some 9)) (.release ⟨255, 255⟩))) closed =
        some (.disabled, []) ∧
      after (exec (.drainOverrun 255) { asking255 lastUsed draining (.query ⟨255, 255⟩) with time := 1000 }) closed =
        some (.disabled, []) ∧
      after (exec (.done 0) (withDom { lastUsed with dones := [⟨.read, ⟨255, 255⟩⟩] } [(255, slotOf 255 draining)])) closed =
        some (.disabled, []) ∧
      after (exec (.presentedAcknowledgement (some 0)) (withDom { lastUsed with fromNotice := [.acknowledge 1 ⟨255, 255⟩] }
        [(255, slotOf 255 { recordIn 1 .shared .ended 0 (some 9) with front := some ⟨.revoked, true⟩ })])) closed =
        some (.disabled, []) := by
  decide +kernel

theorem witness_ConvertUp_refused :
    (let r := recordIn 1 .exclusive .held 0x10 (some 9)
     ¬ (r.state = .held ∧ r.mode = .shared) ∧
      after (exec (.convertUp 0) (asking255 held255 r (.convertUp ⟨255, 255⟩ 0))) told = only (.refused .wrongMode) none) ∧
    (let r := recordIn 1 .shared .held 0x10 (some 9)
     after (exec (.convertUp 0) (asking255 { held255 with exhausted := true } r (.convertUp ⟨255, 255⟩ 7))) told =
        only (.refused .tokensExhausted) none ∧
      noHoldMeets [(255, slotOf 255 r)] .exclusive r.first r.count ([255].filter (fun i => i != 255)) = true) := by
  decide

/-- CONVERT UP of agent 1's SHARED record in slot 255 beside agent 2's record in slot 7, both of pages 10h to 13h. -/
def upBeside (x : Domain) (other : Record) (code : WaitCode) : State :=
  asking { x with live := put x.live 1 1 } [(7, slotOf 1 other), (255, slotOf 255 (recordIn 1 .shared .held 0x10 (some 9)))] 1
    (.convertUp ⟨255, 255⟩ code)

theorem witness_ConvertUp_granted :
    after (exec (.convertUp 0) (asking255 held255 (recordIn 1 .shared .held 0x10 (some 9)) (.convertUp ⟨255, 255⟩ 0)))
        slotsView = some (([4, 5], [], [255], [(10, 255)]), 1, slotOf 255 (recordIn 1 .exclusive .held 0x10 (some 10)),
          [.result 1 3 (.converted ⟨255, 255⟩ 10) none 0]) := by
  decide +kernel

theorem witness_ConvertUp_beside :
    (let s := upBeside { held255 with waitQueue := [7] } (recordIn 2 .exclusive .waiting 0x13 none) 0
     overlap 0x10 4 (recordOf s.pool 7).first (recordOf s.pool 7).count = true ∧
      recordsClean s.pool (s.domain 0).waitQueue = true ∧ recordsClean s.pool (s.domain 0).occupancy = true ∧
      after (exec (.convertUp 0) s) told = only (.refused .upgradeConflict) none) ∧
    (let s := upBeside { held255 with occupancy := [7, 255] } (recordIn 2 .shared .held 0x13 (some 8)) 0
     noHoldMeets s.pool .exclusive 0x10 4 ((s.domain 0).occupancy.filter (fun i => i != 255)) = false ∧
      after (exec (.convertUp 0) s) told = only (.refused .conflict) none) := by
  decide +kernel

/-- Wait codes 6 and 7. -/
theorem witness_ConvertUp_queued :
    after (exec (.convertUp 0) (upBeside { held255 with occupancy := [7, 255] } (recordIn 2 .shared .held 0x13 (some 8)) 6))
        slotsView = some (([4, 5], [255], [7, 255], [(9, 255)]), 1,
          slotOf 255 { recordIn 1 .shared .converting 0x10 (some 9) with waitCode := 6, waitDeadline := some 10000 },
          [.result 1 3 (.queued ⟨255, 255⟩) none 0]) ∧
      after (exec (.convertUp 0) (upBeside { held255 with occupancy := [7, 255] } (recordIn 2 .shared .held 0x13 (some 8)) 7))
        (fun t => poolGet t.pool 255) = some (slotOf 255 { recordIn 1 .shared .converting 0x10 (some 9) with waitCode := 7 }) := by
  decide +kernel

theorem witness_ConvertDownAndQuery_down :
    (let r := recordIn 1 .shared .held 0x10 (some 9)
     ¬ (r.state = .held ∧ r.mode = .exclusive) ∧
      after (exec (.convertDown 0) (asking255 held255 r (.convertDown ⟨255, 255⟩))) told = only (.refused .wrongMode) none) ∧
    (let r := { recordIn 1 .exclusive .held 0x10 (some 9) with writes := 1 }
     0 < r.writes ∧
      after (exec (.convertDown 0) (asking255 held255 r (.convertDown ⟨255, 255⟩))) told =
        only (.refused .writesInFlight) none) ∧
    (let r := { recordIn 1 .exclusive .held 0x10 (some 9) with reads := 63 }
     r.writes = 0 ∧ r.token = some 9 ∧
      after (exec (.convertDown 0) (asking255 held255 r (.convertDown ⟨255, 255⟩))) slotsView =
        some (([4, 5], [], [255], [(9, 255)]), 1, slotOf 255 { r with mode := .shared },
          [.result 1 3 (.converted ⟨255, 255⟩ 9) none 0])) := by
  decide +kernel

/-- Agent 2 waits SHARED in slot 7 for the range; the conversion down grants it (R42, R43, 11). -/
theorem witness_ConvertDownAndQuery_grants :
    let s := asking { held255 with waitQueue := [7] } [(7, slotOf 1 (recordIn 2 .shared .waiting 0x10 none)),
      (255, slotOf 255 (recordIn 1 .exclusive .held 0x10 (some 9)))] 1 (.convertDown ⟨255, 255⟩)
    (s.domain 0).waitQueue = [7] ∧ (poolGet s.pool 7).health = .clean ∧ recordsClean s.pool (s.domain 0).occupancy = true ∧
      noHoldMeets s.pool .shared 0x10 4 ((s.domain 0).occupancy.filter (fun i => i != 255 && i != 7)) = true ∧
      after (exec (.convertDown 0) s) (fun t => ((t.domain 0).waitQueue, (t.domain 0).occupancy, (t.domain 0).tokenMap,
        (recordOf t.pool 7).token, (t.domain 0).toNotice)) = some ([], [7, 255], [(9, 255), (10, 7)], some 10,
          [⟨0, .post 2 ⟨7, 1⟩ .newFront ⟨.granted, 0xC0DE, some 10⟩ 0⟩]) := by
  decide +kernel

/-- Agent 2 upgrades its record in slot 7, pages 20h to 23h; the conversion down of slot 255 grants it (R44). -/
theorem witness_ConvertDownAndQuery_upgrades :
    let s := asking { held255 with waitQueue := [7], occupancy := [7, 255], tokenMap := [(9, 255), (3, 7)] }
      [(7, slotOf 1 (recordIn 2 .shared .converting 0x20 (some 3))), (255, slotOf 255 (recordIn 1 .exclusive .held 0x10 (some 9)))]
      1 (.convertDown ⟨255, 255⟩)
    (s.domain 0).waitQueue = [7] ∧ recordsClean s.pool (s.domain 0).occupancy = true ∧ overlap 0x20 4 0x10 4 = false ∧
      noHoldMeets s.pool .exclusive 0x20 4 ((s.domain 0).occupancy.filter (fun i => i != 255 && i != 7)) = true ∧
      (s.domain 0).exhausted = false ∧
      after (exec (.convertDown 0) s) (fun t => ((t.domain 0).waitQueue, (t.domain 0).occupancy, (t.domain 0).tokenMap,
        (recordOf t.pool 7).mode, (recordOf t.pool 7).state, (t.domain 0).toNotice)) = some ([], [7, 255], [(9, 255), (10, 7)],
          .exclusive, .held, [⟨0, .post 2 ⟨7, 1⟩ .newFront ⟨.upgraded, 0xC0DE, some 10⟩ 0⟩]) := by
  decide +kernel

/-- Agent 3 waits SHARED in slot 8 behind agent 2, which waits EXCLUSIVE in slot 7 for pages that slot 255 holds: neither is
granted, though slot 8 meets no hold (R42, R45). -/
theorem witness_ConvertDownAndQuery_heldBack :
    let s := asking { held255 with waitQueue := [7, 8] } [(7, slotOf 1 (recordIn 2 .exclusive .waiting 0x12 none)),
      (8, slotOf 1 (recordIn 3 .shared .waiting 0x14 none)), (255, slotOf 255 (recordIn 1 .exclusive .held 0x10 (some 9)))] 1
      (.convertDown ⟨255, 255⟩)
    (s.domain 0).waitQueue = [7, 8] ∧ recordsClean s.pool [7, 8] = true ∧ 255 ∈ (s.domain 0).occupancy ∧
      overlap 0x12 4 0x10 4 = true ∧ overlap 0x14 4 0x12 4 = true ∧ overlap 0x14 4 0x10 4 = false ∧
      after (exec (.convertDown 0) s) (fun t => ((t.domain 0).waitQueue, (recordOf t.pool 7).state, (recordOf t.pool 8).state,
        (recordOf t.pool 255).mode, (t.domain 0).toNotice)) = some ([7, 8], .waiting, .waiting, .shared, []) := by
  decide +kernel

/-- With the exhausted indicator set the pass stops at a record that it could grant (R46). -/
theorem witness_ConvertDownAndQuery_exhausted :
    let s := asking { held255 with waitQueue := [7, 8], exhausted := true } [(7, slotOf 1 (recordIn 2 .shared .waiting 0x10 none)),
      (8, slotOf 1 (recordIn 3 .shared .waiting 0x40 none)), (255, slotOf 255 (recordIn 1 .exclusive .held 0x10 (some 9)))] 1
      (.convertDown ⟨255, 255⟩)
    (s.domain 0).waitQueue = 7 :: [8] ∧ (poolGet s.pool 7).health = .clean ∧
      noHoldMeets s.pool .shared 0x10 4 ((s.domain 0).occupancy.filter (fun i => i != 255 && i != 7)) = true ∧
      after (exec (.convertDown 0) s) (fun t => ((t.domain 0).waitQueue, (recordOf t.pool 7).state, (t.domain 0).tokenMap)) =
        some ([7, 8], .waiting, [(9, 255)]) := by
  decide +kernel

theorem witness_ConvertDownAndQuery_query :
    (let r := { recordIn 1 .shared .converting 0x10 (some 9) with reads := 2, writes := 1, waitCode := 6 }
     after (exec (.query 0) (asking255 { held255 with waitQueue := [7, 255] } r (.query ⟨255, 255⟩))) told =
        only (.status ⟨⟨255, 255⟩, .converting, .shared, some 9, 2, 1, 2, 0x10, 4, 6, 0xC0DE⟩) none) ∧
    (let r := recordIn 1 .shared .held 0x10 (some 9)
     after (exec (.query 0) (asking255 held255 r (.query ⟨255, 255⟩))) told =
        only (.status ⟨⟨255, 255⟩, .held, .shared, some 9, 0, 0, 0, 0x10, 4, 0, 0xC0DE⟩) none) := by
  decide +kernel

/-! ## Other events of a domain -/

/-- A time of 1000 in domain 0 with a record in slot 255. -/
def timed (x : Domain) (r : Record) : State :=
  { withDom { x with live := put x.live 1 1 } [(255, slotOf 255 r)] with time := 1000 }

/-- A record of agent 1 whose wait ends at a time. -/
def waitingTo (st : SlotState) (t : Time) : Record :=
  { recordIn 1 .shared st 0x10 (if st = .waiting then none else some 9) with waitDeadline := some t, waitCode := 3 }

theorem witness_TimersOfRecords_wait :
    (let s := timed { dom0 with waitQueue := [255] } (waitingTo .waiting 1000)
     ownerOf s 255 = some 0 ∧ (s.domain 0).state = .enabled ∧ (poolGet s.pool 255).readsClean = true ∧
      (poolGet s.pool 255).directory.free = false ∧ Pool.wf s.pool = true ∧ dropSlot 255 (s.domain 0).waitQueue = [] ∧
      dueAt s.time (recordOf s.pool 255).waitDeadline = true ∧
      after (exec (.waitExpiry 255) s) slotsView = some (([4, 5], [], [], []), 0,
        slotOf 255 { recordIn 1 .shared .ended 0x10 none with waitCode := 3, front := some ⟨.waitExpired, false⟩ },
        [.live 1 .down 0])) ∧
    (let s := timed { held255 with waitQueue := [255] } (waitingTo .converting 1000)
     after (exec (.waitExpiry 255) s) slotsView = some (([4, 5], [], [255], [(9, 255)]), 1,
        slotOf 255 { recordIn 1 .shared .held 0x10 (some 9) with waitCode := 3, front := some ⟨.upgradeExpired, false⟩ }, [])) := by
  decide +kernel

theorem witness_TimersOfRecords_notDue :
    (let s := timed { dom0 with waitQueue := [255] } (waitingTo .waiting 1001)
     dueAt s.time (recordOf s.pool 255).waitDeadline = false ∧
      after (exec (.waitExpiry 255) s) (fun t => (recordOf t.pool 255).state) = some .waiting) ∧
    (let s := timed { dom0 with waitQueue := [255], state := .quarantined } (waitingTo .waiting 1000)
     ownerOf s 255 = some 0 ∧ (s.domain 0).serves = false ∧
      after (exec (.waitExpiry 255) s) (fun t => (recordOf t.pool 255).state) = some .waiting) ∧
    (let s := timed held255 { recordIn 1 .shared .draining 0x10 (some 9) with drainDeadline := some 1001 }
     dueAt s.time (recordOf s.pool 255).drainDeadline = false ∧
      after (exec (.drainOverrun 255) s) (fun t => (recordOf t.pool 255).state) = some .draining) ∧
    dueAt ((5 : Time) + BitVec.ofNat 32 (2 ^ 31 - 1)) (some 5) = true ∧
    dueAt 5 (some ((5 : Time) + BitVec.ofNat 32 (2 ^ 31))) = false ∧ dueAt 5 (some 6) = false := by
  decide +kernel

theorem witness_TimersOfRecords_drain :
    (let r := { recordIn 1 .shared .draining 0x10 (some 9) with drainDeadline := some 1000, reads := 63, writes := 1 }
     let s := timed { held255 with tokenMap := [] } r
     dueAt s.time r.drainDeadline = true ∧ r.front = none ∧
      after (exec (.drainOverrun 255) s) slotsView = some (([4, 5, 255], [], [], []), 1, retired 255, []) ∧
      after (exec (.drainOverrun 255) s) (fun t => (t.domain 0).reports) =
        some [⟨.drainOverrun, some 0, some 1, some 255, none, 1000⟩]) ∧
    (let r := { recordIn 1 .shared .draining 0x10 (some 9) with
       drainDeadline := some 1000, reads := 63, writes := 1, front := some ⟨.revoked, true⟩ }
     let s := timed { held255 with tokenMap := [] } r
     r.front ≠ none ∧ (s.domain 0).waitQueue = [] ∧
      after (exec (.drainOverrun 255) s) slotsView = some (([4, 5], [], [], []), 1,
        slotOf 255 { recordIn 1 .shared .ended 0x10 (some 9) with front := some ⟨.revoked, true⟩ }, [])) := by
  decide +kernel

/-- A DONE at the front of domain 0, for the record in slot 255. -/
def doing (x : Domain) (z : Slot) (k : Ticket) : State :=
  withDom { x with dones := [k] } [(255, z)]

theorem witness_DoneFreesAnAccess_ignored :
    (let s := doing { held255 with banks := 0x8000 } (slotOf 3 (recordIn 1 .shared .held 0 (some 9))) ⟨.read, ⟨255, 4⟩⟩
     (s.domain 0).dones = ⟨.read, ⟨255, 4⟩⟩ :: [] ∧ (s.domain 0).owns 255 = false ∧
      after (exec (.done 0) s) (fun t => ((t.domain 0).dones, (t.domain 0).reports)) = some ([], [])) ∧
    (let s := doing { held255 with state := .quarantined } (slotOf 3 (recordIn 1 .shared .held 0 (some 9))) ⟨.read, ⟨255, 3⟩⟩
     (s.domain 0).owns 255 = true ∧
      after (exec (.done 0) s) (fun t => ((t.domain 0).dones, (t.domain 0).reports)) = some ([], [])) ∧
    (let s := doing { held255 with state := .scrubbing } (slotOf 3 (recordIn 1 .shared .held 0 (some 9))) ⟨.read, ⟨255, 3⟩⟩
     after (exec (.done 0) s) (fun t => ((t.domain 0).dones, (t.domain 0).reports)) = some ([], [])) := by
  decide +kernel

theorem witness_DoneFreesAnAccess_stray :
    (let s := doing held255 (retired 2) ⟨.read, ⟨255, 3⟩⟩
     (poolGet s.pool 255).readsClean = true ∧ (poolGet s.pool 255).directory.free = true ∧
      after (exec (.done 0) s) (fun t => (t.domain 0).reports) = some [⟨.strayDone, some 0, none, some 255, some .read, 0⟩]) ∧
    (let s := doing held255 (slotOf 3 { recordIn 1 .shared .held 0 (some 9) with writes := 1 }) ⟨.write, ⟨255, 4⟩⟩
     genOf s.pool 255 ≠ 4 ∧
      after (exec (.done 0) s) (fun t => (t.domain 0).reports) = some [⟨.strayDone, some 0, none, some 255, some .write, 0⟩]) ∧
    (let s := doing held255 (slotOf 3 { recordIn 1 .shared .held 0 (some 9) with writes := 1 }) ⟨.read, ⟨255, 3⟩⟩
     inFlight (recordOf s.pool 255) .read = 0 ∧
      after (exec (.done 0) s) (fun t => (t.domain 0).reports) = some [⟨.strayDone, some 0, none, some 255, some .read, 0⟩]) := by
  decide +kernel

theorem witness_DoneFreesAnAccess :
    (let r := { recordIn 1 .exclusive .held 0 (some 9) with writes := 1 }
     let s := doing held255 (slotOf 255 r) ⟨.write, ⟨255, 255⟩⟩
     0 < inFlight r .write ∧ ¬ (r.state = .draining ∧ r.reads + r.writes = 1) ∧
      after (exec (.done 0) s) slotsView =
        some (([4, 5], [], [255], [(9, 255)]), 0, slotOf 255 (recordIn 1 .exclusive .held 0 (some 9)), [])) ∧
    (let r := { recordIn 1 .exclusive .draining 0 (some 9) with reads := 1, drainDeadline := some 50 }
     let s := doing { held255 with tokenMap := [] } (slotOf 255 r) ⟨.read, ⟨255, 255⟩⟩
     r.reads + r.writes = 1 ∧ r.front = none ∧ dropSlot 255 (s.domain 0).waitQueue = [] ∧
      after (exec (.done 0) s) slotsView = some (([4, 5, 255], [], [], []), 0, retired 255, [])) := by
  decide +kernel

/-- A DONE that takes the last access of a DRAINING record with REVOKED pending leaves it ENDED (R68). -/
theorem witness_DoneFreesAnAccess_ended :
    let r := { recordIn 1 .exclusive .draining 0 (some 9) with reads := 1, drainDeadline := some 50, front := some ⟨.revoked, true⟩ }
    let s := doing { held255 with tokenMap := [] } (slotOf 255 r) ⟨.read, ⟨255, 255⟩⟩
    r.front ≠ none ∧ (s.domain 0).waitQueue = [] ∧
      after (exec (.done 0) s) slotsView = some (([4, 5], [], [], []), 0,
        slotOf 255 { r with state := .ended, drainDeadline := none, reads := 0 }, []) := by
  decide +kernel

/-- A reclaim of agent 1 at the front of domain 0, whose slots hold a HELD record of agent 1 with an access in flight, an idle
one, and one of agent 2. -/
def reclaiming (st : DomainState) : State :=
  withDom { dom0 with state := st, fromSession := [.reclaim 1 7], occupancy := [6, 7, 8], live := put dom0.live 1 2 }
    [(6, slotOf 1 { recordIn 1 .shared .held 0 (some 5) with reads := 1 }), (7, slotOf 1 (recordIn 2 .shared .held 0 (some 6))),
      (8, slotOf 1 { recordIn 1 .shared .held 0 (some 7) with front := some ⟨.granted, false⟩ })]

/-- Every slot of `reclaiming` reads clean. -/
theorem reclaiming_clean (st : DomainState) (i : SlotId) : (poolGet (reclaiming st).pool i).readsClean = true := by
  show (poolGet (reclaiming .enabled).pool i).readsClean = true
  simp only [reclaiming, withDom, poolGet]
  split
  · rfl
  · split
    · rfl
    · split <;> rfl

/-- Every slot of `reclaiming` that is not FREE holds a record with a state. -/
theorem reclaiming_held (st : DomainState) (i : SlotId) (h : (poolGet (reclaiming st).pool i).directory.free = false) :
    (recordOf (reclaiming st).pool i).state ≠ .free := by
  revert h
  show (poolGet (reclaiming .enabled).pool i).directory.free = false → (recordOf (reclaiming .enabled).pool i).state ≠ .free
  simp only [reclaiming, withDom, recordOf, poolGet]
  split
  · exact fun _ => by decide
  · split
    · exact fun _ => by decide
    · split
      · exact fun _ => by decide
      · exact fun h => absurd h (by decide)

theorem witness_ReclaimTakesEveryRecord :
    ((reclaiming .quarantined).domain 0).fromSession = .reclaim 1 7 :: [] ∧
      ((reclaiming .quarantined).domain 0).serves = false ∧
      after (exec (.reclaim 0) (reclaiming .quarantined)) (fun t => (look (t.domain 0).reclaimed 1, (t.domain 0).fromSession,
        (recordOf t.pool 8).state)) = some (7, [], .held) ∧
      ((reclaiming .enabled).domain 0).serves = true ∧ Pool.wf (reclaiming .enabled).pool = true ∧
      after (exec (.reclaim 0) (reclaiming .enabled)) (fun t => ((recordOf t.pool 6).state, (poolGet t.pool 8).directory,
        (recordOf t.pool 7).state, (t.domain 0).occupancy, (t.domain 0).toNotice)) =
        some (.draining, ⟨2, true⟩, .held, [6, 7], [⟨0, .clear 1 ⟨8, 1⟩⟩]) := by
  decide +kernel

/-- Domain 0 with a reclaim of agent 1 at its front: of agent 1 a WAITING record in slot 5, a CONVERTING one in slot 6 with an access
in flight, an ENDED one in slot 8 with REVOKED; agent 2 waits in slot 7 for the pages of slot 6, and holds others in slot 9. -/
def reclaimed1 : State :=
  { withDom { dom0 with
      freeList := [], fromSession := [.reclaim 1 7], waitQueue := [5, 6, 7], occupancy := [6, 9], tokenMap := [(5, 6), (8, 9)]
      tokenCounter := 10, live := put (put dom0.live 1 2) 2 2 }
    [(5, slotOf 1 { recordIn 1 .exclusive .waiting 0x20 none with waitDeadline := some 9 }),
      (6, slotOf 1 { recordIn 1 .shared .converting 0x10 (some 5) with reads := 1, waitDeadline := some 9, front := some ⟨.granted, true⟩ }),
      (7, slotOf 1 (recordIn 2 .shared .waiting 0x10 none)),
      (8, slotOf 1 { recordIn 1 .shared .ended 0x10 none with front := some ⟨.revoked, true⟩ }),
      (9, slotOf 1 (recordIn 2 .shared .held 0x40 (some 8)))] with time := 1000 }

/-- The slots of agent 1's records there. -/
theorem reclaimed1_found (i : SlotId) :
    i ∈ [(5 : SlotId), 6, 8] ↔ inBanks (reclaimed1.domain 0).banks i = true ∧
      (poolGet reclaimed1.pool i).directory.free = false ∧ (recordOf reclaimed1.pool i).owner = 1 := by
  by_cases h : i ∈ [(5 : SlotId), 6, 7, 8, 9]
  · fin_cases h <;> decide
  · have : poolGet reclaimed1.pool i = .reset := by
      simp only [List.mem_cons, List.not_mem_nil, or_false, not_or] at h
      obtain ⟨h5, h6, h7, h8, h9⟩ := h
      simp [reclaimed1, withDom, poolGet, Ne.symm h5, Ne.symm h6, Ne.symm h7, Ne.symm h8, Ne.symm h9]
    rw [this]
    refine ⟨fun hm => absurd ?_ h, fun hm => nomatch hm.2.1⟩
    simp only [List.mem_cons, List.not_mem_nil, or_false] at hm ⊢
    exact hm.elim .inl fun h => .inr (h.elim .inl fun h => .inr (.inr (.inl h)))

/-- They read clean, stand where R18 places them, and no token names two slots. -/
theorem reclaimed1_placed :
    (∀ i ∈ [(5 : SlotId), 6, 8], (poolGet reclaimed1.pool i).readsClean = true ∧ (recordOf reclaimed1.pool i).state ≠ .free ∧
      (reclaimed1.domain 0).placesRecord i (recordOf reclaimed1.pool i)) ∧
    ∀ t i j, (t, i) ∈ (reclaimed1.domain 0).tokenMap → (t, j) ∈ (reclaimed1.domain 0).tokenMap → i = j := by
  have hm : (reclaimed1.domain 0).tokenMap = [(5, 6), (8, 9)] := rfl
  refine ⟨fun i hi => ?_, fun t i j hi hj => ?_⟩
  · simp only [List.mem_cons, List.not_mem_nil, or_false] at hi
    rcases hi with rfl | rfl | rfl
    all_goals
      refine ⟨by decide, by decide, ⟨by decide, by decide, by decide, ?_, by decide, by decide, by decide⟩⟩
      intro k
      rw [hm]
      constructor
      · intro h
        simp only [List.mem_cons, Prod.mk.injEq, List.not_mem_nil, or_false] at h
        rcases h with ⟨rfl, h⟩ | ⟨rfl, h⟩ <;> first | exact absurd h (by decide) | exact ⟨by decide, by decide⟩
      · rintro ⟨h, h'⟩
        first
          | exact absurd h (by decide)
          | (cases h'; decide)
  · rw [hm] at hi hj
    simp only [List.mem_cons, Prod.mk.injEq, List.not_mem_nil, or_false] at hi hj
    rcases hi with ⟨rfl, rfl⟩ | ⟨rfl, rfl⟩ <;> rcases hj with ⟨h, rfl⟩ | ⟨h, rfl⟩ <;>
      first | rfl | exact absurd h (by decide)

/-- Slots 5 and 8 retire, slot 6 drains SHARED, and the grant pass grants agent 2's record (R72, R73). -/
theorem witness_ReclaimTakesEveryRecord_visits :
    (reclaimed1.domain 0).fromSession = .reclaim 1 7 :: [] ∧ (reclaimed1.domain 0).serves = true ∧
      [(5 : SlotId), 6, 8].Pairwise (· < ·) ∧ Pool.wf reclaimed1.pool = true ∧
      after (exec (.reclaim 0) reclaimed1) (fun t => ((t.domain 0).freeList, (t.domain 0).waitQueue, (t.domain 0).occupancy,
        (t.domain 0).tokenMap, look (t.domain 0).live 1, (t.domain 0).toSession, (t.domain 0).toNotice.map DomainNotice.body)) =
        some ([5, 8], [], [6, 7, 9], [(8, 9), (10, 7)], 0, [.live 1 .down 0, .live 1 .down 0],
          [.clear 1 ⟨6, 1⟩, .clear 1 ⟨8, 1⟩, .post 2 ⟨7, 1⟩ .newFront ⟨.granted, 0xC0DE, some 10⟩ 0]) ∧
      after (exec (.reclaim 0) reclaimed1) (fun t => [5, 6, 8].map (poolGet t.pool)) =
        some [retired 1, slotOf 1 { recordIn 1 .shared .draining 0x10 (some 5) with reads := 1, drainDeadline := some 2000 },
          retired 1] := by
  decide +kernel

/-- An item of the notice unit at the front of domain 0, for the record in slot 255. -/
def presenting (x : Domain) (z : Slot) (b : NoticeAsk) : State :=
  withDom { x with fromNotice := [b] } [(255, z)]

/-- A record of agent 1 with notice fields. -/
def noting (st : SlotState) (f : Option Front) (k : Option NoticeKind) : Record :=
  { recordIn 1 .shared st 0 (some 9) with front := f, followUp := k }

/-- Slot 255 and the answer. -/
def presented (t : State) : Slot × List NoticeBody × List SlotId :=
  (poolGet t.pool 255, (t.domain 0).toNotice.map DomainNotice.body, (t.domain 0).freeList)

theorem presenting_current (x : Domain) (r : Record) (b : NoticeAsk) (h : x.owns 255 = true) (h' : x.serves = true) :
    ((presenting x (slotOf 255 r) b).domain 0).fromNotice = b :: [] ∧
      current { ((presenting x (slotOf 255 r) b).domain 0) with fromNotice := [] } (presenting x (slotOf 255 r) b).pool ⟨255, 255⟩ :=
  ⟨rfl, h, h', rfl, copies255⟩

theorem witness_ClaimsAcknowledgementsAndReversions_claims :
    after (exec (.claim (some 0)) (presenting held255 (slotOf 255 (noting .held (some ⟨.granted, false⟩) none))
        (.claim 1 ⟨255, 255⟩))) presented =
      some (slotOf 255 (noting .held (some ⟨.granted, true⟩) none), [.answer 1 ⟨255, 255⟩ true], [4, 5]) ∧
    after (exec (.claim (some 0)) (presenting held255 (slotOf 255 (noting .held (some ⟨.granted, true⟩) none))
        (.claim 1 ⟨255, 255⟩))) presented =
      some (slotOf 255 (noting .held (some ⟨.granted, true⟩) none), [.answer 1 ⟨255, 255⟩ false], [4, 5]) ∧
    after (exec (.claim (some 0)) (presenting held255 (retired 254) (.claim 1 ⟨255, 255⟩))) presented =
      some (retired 254, [.answer 1 ⟨255, 255⟩ false], [4, 5]) ∧
    ({ held255 with banks := 0x8000 } : Domain).owns 255 = false ∧
    after (exec (.claim (some 0)) (presenting { held255 with banks := 0x8000 }
        (slotOf 255 (noting .held (some ⟨.granted, false⟩) none)) (.claim 1 ⟨255, 255⟩))) presented =
      some (slotOf 255 (noting .held (some ⟨.granted, false⟩) none), [.answer 1 ⟨255, 255⟩ false], [4, 5]) ∧
    ({ held255 with state := .scrubbing } : Domain).serves = false ∧
    after (exec (.claim (some 0)) (presenting { held255 with state := .scrubbing }
        (slotOf 255 (noting .held (some ⟨.granted, false⟩) none)) (.claim 1 ⟨255, 255⟩))) presented =
      some (slotOf 255 (noting .held (some ⟨.granted, false⟩) none), [.answer 1 ⟨255, 255⟩ false], [4, 5]) := by
  decide +kernel

/-- An acknowledgement presented for the record. -/
def acknowledged (x : Domain) (z : Slot) : Option (Slot × List NoticeBody × List SlotId) :=
  after (exec (.presentedAcknowledgement (some 0)) (presenting x z (.acknowledge 1 ⟨255, 255⟩))) presented

theorem witness_ClaimsAcknowledgementsAndReversions_acks :
    acknowledged held255 (slotOf 255 (noting .held (some ⟨.granted, true⟩) (some .revoked))) =
      some (slotOf 255 (noting .held (some ⟨.revoked, false⟩) none), [.outcome 1 ⟨255, 255⟩ .promoted], [4, 5]) ∧
    acknowledged held255 (slotOf 255 (noting .held (some ⟨.granted, true⟩) none)) =
      some (slotOf 255 (noting .held none none), [.outcome 1 ⟨255, 255⟩ .removed], [4, 5]) ∧
    acknowledged { held255 with occupancy := [] } (slotOf 255 (noting .ended (some ⟨.revoked, true⟩) none)) =
      some (retired 255, [.outcome 1 ⟨255, 255⟩ .removed], [4, 5, 255]) ∧
    acknowledged held255 (slotOf 255 (noting .held (some ⟨.granted, false⟩) none)) =
      some (slotOf 255 (noting .held (some ⟨.granted, false⟩) none), [.outcome 1 ⟨255, 255⟩ .notTaken], [4, 5]) ∧
    acknowledged held255 (slotOf 254 (noting .held (some ⟨.granted, true⟩) none)) =
      some (slotOf 254 (noting .held (some ⟨.granted, true⟩) none), [.outcome 1 ⟨255, 255⟩ .notTaken], [4, 5]) := by
  decide +kernel

theorem witness_ClaimsAcknowledgementsAndReversions_reversions :
    after (exec (.reversion (some 0)) (presenting held255 (slotOf 255 (noting .held (some ⟨.granted, true⟩) none))
        (.revert ⟨255, 255⟩))) presented = some (slotOf 255 (noting .held (some ⟨.granted, false⟩) none), [], [4, 5]) ∧
    after (exec (.reversion (some 0)) (presenting held255 (slotOf 255 (noting .held (some ⟨.granted, false⟩) none))
        (.revert ⟨255, 255⟩))) presented = some (slotOf 255 (noting .held (some ⟨.granted, false⟩) none), [], [4, 5]) ∧
    after (exec (.reversion (some 0)) (presenting held255 (slotOf 255 (noting .held none none)) (.revert ⟨255, 255⟩))) presented =
      some (slotOf 255 (noting .held none none), [], [4, 5]) ∧
    after (exec (.reversion (some 0)) (presenting held255 (slotOf 3 (noting .held (some ⟨.granted, true⟩) none))
        (.revert ⟨255, 255⟩))) presented = some (slotOf 3 (noting .held (some ⟨.granted, true⟩) none), [], [4, 5]) := by
  decide +kernel

/-- The items that resolved to no domain. -/
theorem witness_ClaimsAcknowledgementsAndReversions_noDomain :
    let s (b : NoticeAsk) : State := { State.reset with noDomain := { NoDomain.reset with asks := [b] } }
    (s (.revert ⟨0, 0⟩)).noDomain.asks = .revert ⟨0, 0⟩ :: [] ∧
      after (exec (.claim none) (s (.claim 2 ⟨0, 0⟩))) (fun t => (t.noDomain.asks, t.noDomain.toNotice)) =
        some ([], [⟨0, .answer 2 ⟨0, 0⟩ false⟩]) ∧
      after (exec (.presentedAcknowledgement none) (s (.acknowledge 2 ⟨0, 0⟩))) (fun t => (t.noDomain.asks, t.noDomain.toNotice)) =
        some ([], [⟨0, .outcome 2 ⟨0, 0⟩ .notTaken⟩]) ∧
      after (exec (.reversion none) (s (.revert ⟨0, 0⟩))) (fun t => (t.noDomain.asks, t.noDomain.toNotice)) =
        some ([], []) := by
  decide

/-- Domain 0 with two live records of agent 1 and one of agent 3, and an unreadable record in slot 255; the messages waiting. -/
def unreadable (x : Domain) (r : Record) : State :=
  { withDom { x with live := put (put x.live 1 2) 3 1 } [(255, lostSlot 255 r)] with time := 1000 }

/-- The state, the live counts, the live reports, the notice unit's items and the reports of domain 0; the slot. -/
def lossView (t : State) : DomainState × List DomainReport × List NoticeBody × List Report × Slot :=
  ((t.domain 0).state, (t.domain 0).toSession, (t.domain 0).toNotice.map DomainNotice.body, (t.domain 0).reports, poolGet t.pool 255)

/-- QUARANTINED, the subtractions in rising agent number, the loss and what is behind it, one report; the record as it stood. -/
def lossLeaves (r : Record) (behind : List NoticeBody) :
    Option (DomainState × List DomainReport × List NoticeBody × List Report × Slot) :=
  some (.quarantined, [.lost 1 2 0, .lost 3 1 0], .loss 1 :: behind, [⟨.recordUncorrectable, some 0, none, some 255, none, 1000⟩],
    lostSlot 255 r)

/-- The uncorrectable read at an expiry, a DONE, a reclaim, a claim, an acknowledgement and a reversion (R7, R168). -/
theorem witness_UncorrectableReads :
    let w := waitingTo .waiting 1000
    let k := { recordIn 1 .shared .draining 0x10 (some 9) with drainDeadline := some 1000, reads := 1 }
    (lostSlot 255 w).agrees = true ∧ (lostSlot 255 w).directory.free = false ∧
      after (exec (.waitExpiry 255) (unreadable { dom0 with waitQueue := [255] } w)) lossView = lossLeaves w [] ∧
      after (exec (.drainOverrun 255) (unreadable held255 k)) lossView = lossLeaves k [] ∧
      after (exec (.done 0) (unreadable { held255 with dones := [⟨.read, ⟨255, 255⟩⟩] } k)) lossView = lossLeaves k [] ∧
      after (exec (.reclaim 0) (unreadable { held255 with fromSession := [.reclaim 1 4] } k)) lossView = lossLeaves k [] ∧
      after (exec (.claim (some 0)) (unreadable { held255 with fromNotice := [.claim 1 ⟨255, 255⟩] } k)) lossView =
        lossLeaves k [.answer 1 ⟨255, 255⟩ false] ∧
      after (exec (.presentedAcknowledgement (some 0)) (unreadable { held255 with fromNotice := [.acknowledge 1 ⟨255, 255⟩] } k))
        lossView = lossLeaves k [.outcome 1 ⟨255, 255⟩ .notTaken] ∧
      after (exec (.reversion (some 0)) (unreadable { held255 with fromNotice := [.revert ⟨255, 255⟩] } k)) lossView =
        lossLeaves k [] := by
  decide +kernel

/-- The slots of agent 1's records in the state above. -/
theorem witness_UncorrectableReads_found (r : Record) (h : r.owner = 1) (i : SlotId) :
    i ∈ [(255 : SlotId)] ↔ inBanks 1 i = true ∧
      (poolGet [(255, lostSlot 255 r)] i).directory.free = false ∧ (recordOf [(255, lostSlot 255 r)] i).owner = 1 := by
  by_cases e : i = 255
  · subst e
    exact ⟨fun _ => ⟨by decide, rfl, h⟩, fun _ => List.mem_singleton.mpr rfl⟩
  · have : poolGet [(255, lostSlot 255 r)] i = .reset := by simp [poolGet, Ne.symm e]
    rw [this]
    exact ⟨fun hm => absurd (List.mem_singleton.mp hm) e, fun hm => nomatch hm.2.1⟩

/-- A CHECK of agent 1, epoch 5, presented to domain 0 for verdict place 2, in the session state given, current epoch 5. -/
def checking (x : Domain) (p : Pool) (st : AgentState) (k : AccessKind) (token : Token) (extra : BitVec 8) (first : Page) : State :=
  withDom { x with checks := [⟨2, ⟨1, k, token, extra, 5, first⟩, st, 5⟩] } p

/-- The verdict. -/
def verdicts (s : State) : Option (List (Nat × Verdict)) :=
  after (exec (.check (some 0)) s) (fun t => (t.domain 0).verdicts)

theorem witness_CheckDecision_before :
    ((checking dom0 [] .online .read 0 0 0x100).domain 0).checks = ⟨2, ⟨1, .read, 0, 0, 5, 0x100⟩, .online, 5⟩ :: [] ∧
      verdicts (checking dom0 [] .online .read 0 0 0x100) = some [(2, .refused .noDomain)] ∧
      verdicts (checking dom0 [] .online .read 0 1 0xFF) = some [(2, .refused .noDomain)] ∧
      verdicts (checking { dom0 with state := .quarantined } [] .online .read 0 0 0xFF) =
        some [(2, .refused .domainUnavailable)] ∧
      verdicts (checking { dom0 with state := .scrubbing } [] .online .read 0 0 0xFF) =
        some [(2, .refused .domainUnavailable)] ∧
      verdicts (checking { dom0 with policy := .writeGuarded } [] .offline .read 0 255 0) = some [(2, .admitUntracked)] ∧
      verdicts (checking { dom0 with policy := .writeGuarded } [] .online .write 0 255 0) = some [(2, .refused .token)] ∧
      verdicts (checking { dom0 with state := .closing } [] .online .read 0 255 0) = some [(2, .refused .token)] ∧
      verdicts (checking dom0 [] .lapsed .read 9 255 0) = some [(2, .refused .agent)] ∧
      verdicts (withDom { dom0 with checks := [⟨2, ⟨1, .read, 9, 0, 4, 0⟩, .online, 5⟩] } []) = some [(2, .refused .epoch)] ∧
      verdicts (checking dom0 [] .online .read 9 255 0) = some [(2, .refused .token)] := by
  decide +kernel

/-- A CHECK of token 9, mapped to the record given in slot 255; pages 1 to 4 are the record's. -/
def checking255 (r : Record) (k : AccessKind) (extra : BitVec 8) (first : Page) : State :=
  checking held255 [(255, slotOf 255 r)] .online k 9 extra first

theorem witness_CheckDecision_record :
    held255.tokenMap = [] ++ (9, 255) :: [] ∧
      verdicts (checking255 (recordIn 2 .shared .held 1 (some 9)) .read 0 1) = some [(2, .refused .owner)] ∧
      verdicts (checking255 (recordIn 1 .shared .held 1 (some 9)) .write 0 1) = some [(2, .refused .mode)] ∧
      verdicts (checking255 (recordIn 1 .shared .held 1 (some 9)) .read 0 0) = some [(2, .refused .cover)] ∧
      verdicts (checking255 (recordIn 1 .shared .held 1 (some 9)) .read 4 1) = some [(2, .refused .cover)] ∧
      verdicts (checking255 { recordIn 1 .shared .held 1 (some 9) with reads := 63 } .read 3 1) =
        some [(2, .refused .countFull)] ∧
      verdicts (checking255 { recordIn 1 .shared .held 1 (some 9) with reads := 62 } .read 3 1) =
        some [(2, .admitted ⟨.read, ⟨255, 255⟩⟩)] ∧
      after (exec (.check (some 0)) (checking255 { recordIn 1 .exclusive .held 1 (some 9) with reads := 63 } .write 0 4))
        (fun t => ((recordOf t.pool 255).reads, (recordOf t.pool 255).writes, (t.domain 0).verdicts)) =
        some (63, 1, [(2, .admitted ⟨.write, ⟨255, 255⟩⟩)]) ∧
      after (exec (.check (some 0)) (checking held255 [(255, lostSlot 255 (recordIn 1 .shared .held 1 (some 9)))] .online .read 9 0 1))
        (fun t => ((t.domain 0).state, (t.domain 0).verdicts)) = some (.quarantined, [(2, .refused .domainUnavailable)]) := by
  decide +kernel

theorem witness_CheckDecision_noDomain :
    let s : State := { State.reset with noDomain := { NoDomain.reset with checks := [⟨2, ⟨1, .read, 0, 0, 5, 0⟩, .online, 5⟩] } }
    s.noDomain.checks = ⟨2, ⟨1, .read, 0, 0, 5, 0⟩, .online, 5⟩ :: [] ∧
      after (exec (.check none) s) (fun t => (t.noDomain.checks, t.noDomain.verdicts)) =
        some ([], [(2, .refused .noDomain)]) := by
  decide

/-! ## The notice unit -/

/-- Domain 0 with a message for the notice unit, which holds the entry given for agent 1. -/
def noticing (b : NoticeBody) (a : NoticeAgent) : State :=
  (withDom { dom0 with toNotice := [⟨0, b⟩] } []).setNotice 1 a

/-- An entry of slot `i`, generation 3, with a GRANTED front of token 9. -/
def entryOf (i : SlotId) (k : Option NoticeItem) (frozen : Bool) : Entry :=
  ⟨⟨i, 3⟩, ⟨.granted, 0xC0DE, some 9⟩, k, frozen⟩

/-- A REVOKED notice. -/
def revokedItem : NoticeItem :=
  ⟨.revoked, 0xC0DE, none⟩

/-- A queue and a marker of agent 1. -/
def queued (q : List Entry) (m : Marker) : NoticeAgent :=
  { NoticeAgent.reset with queue := q, marker := m }

/-- Queue, marker, mark and conditions of agent 1; what domain 0 has been presented; link 1's notice place. -/
def noticeView (t : State) : (List Entry × Marker × Option Retracted × Conditions) × List NoticeAsk × Option NoticeMsg :=
  (((t.noticeAgent 1).queue, (t.noticeAgent 1).marker, (t.noticeAgent 1).retracted, (t.noticeAgent 1).conditions),
    (t.domain 0).fromNotice, (t.link 1).notice)

/-- The same, as the result of a command. -/
def noticed (c : Instr) (s : State) :
    Option ((List Entry × Marker × Option Retracted × Conditions) × List NoticeAsk × Option NoticeMsg) :=
  after (exec c s) noticeView

theorem witness_DeliveryBegins :
    (let s := noticing (.loss 0) { queued [entryOf 4 none false] .ready with conditions := ⟨true, false, 0x80⟩ }
     (s.noticeAgent 1).marker = .ready ∧ (s.noticeAgent 1).conditions ≠ .none ∧
      noticeView (beginDelivery s 1) = (([entryOf 4 none false], .sessionSent ⟨true, false, 0x80⟩, none, ⟨true, false, 0x80⟩), [],
        some (.session ⟨true, false, 0x80⟩))) ∧
    (let s := noticing (.loss 0) (queued [entryOf 5 none true, entryOf 4 none false] .ready)
     (s.noticeAgent 1).queue = [entryOf 5 none true] ++ entryOf 4 none false :: [] ∧ ownerOf s 4 = some 0 ∧
      noticeView (beginDelivery s 1) = ((([entryOf 5 none true, entryOf 4 none false], .claiming ⟨4, 3⟩, none, .none)),
        [.claim 1 ⟨4, 3⟩], none)) ∧
    (let s := noticing (.loss 0) (queued [entryOf 256 none false] .ready)
     ownerOf s 256 = none ∧ (beginDelivery s 1).noDomain.asks = [.claim 1 ⟨256, 3⟩]) ∧
    (let s := noticing (.loss 0) (queued [entryOf 5 none true] .ready)
     (∀ e ∈ (s.noticeAgent 1).queue, e.frozen = true) ∧ (noticeView (beginDelivery s 1)).1.2.1 = .ready) ∧
    (let s := noticing (.loss 0) (queued [entryOf 4 none false] (.acking ⟨4, 3⟩))
     (s.noticeAgent 1).marker ≠ .ready ∧ (noticeView (beginDelivery s 1)).1.2.1 = .acking ⟨4, 3⟩) := by
  decide +kernel

/-- A post of the record in slot 4 made after reclaim 1 of agent 1, of which the notice unit has taken `k`. -/
def posting (p : Placing) (q : List Entry) (rd : PostRead) (k : Nat) : State :=
  let s := noticing (.post 1 ⟨4, 3⟩ p revokedItem 1) { queued q .ready with reclaimed := k }
  { s with notice := { s.notice with reads := put s.notice.reads 0 rd } }

theorem witness_NoticePosts_waits :
    (let s := posting .newFront [] .idle 0
     (s.domain 0).toNotice = ⟨0, .post 1 ⟨4, 3⟩ .newFront revokedItem 1⟩ :: [] ∧ s.notice.era ≤ 0 ∧
      (s.noticeAgent 1).reclaimed < 1 ∧
      after (exec (.noticePost 0) s) (fun t => (look t.notice.reads 0, (t.domain 0).toNotice.length)) = some (.idle, 1)) ∧
    (let s := posting .newFront [] .idle 1
     1 ≤ (s.noticeAgent 1).reclaimed ∧ look s.notice.reads 0 = .idle ∧
      after (exec (.noticePost 0) s) (fun t => (look t.notice.reads 0, (t.domain 0).toNotice.length)) = some (.asked 1, 1)) ∧
    (let s := posting .newFront [] (.answered 1 .lapsed) 1
     after (exec (.noticePost 0) s) (fun t => (look t.notice.reads 0, (t.domain 0).toNotice.length,
        (t.noticeAgent 1).queue)) = some (.idle, 0, [])) ∧
    (let s := posting .newFront [] (.answered 1 .online) 1
     let u : State := { s with notice := { s.notice with era := 1 } }
     0 < u.notice.era ∧ after (exec (.noticePost 0) u) (fun t => (look t.notice.reads 0, (t.domain 0).toNotice.length,
        (t.noticeAgent 1).queue)) = some (.idle, 0, [])) := by
  decide +kernel

/-- What an applied post leaves of agent 1's queue. -/
def posted (p : Placing) (q : List Entry) : Option (List Entry) :=
  after (exec (.noticePost 0) (posting p q (.answered 1 .online) 1)) (fun t => (t.noticeAgent 1).queue)

theorem witness_NoticePosts_applied :
    posted .newFront [entryOf 5 none false] =
        some [entryOf 5 none false, { entryOf 4 none false with front := revokedItem }] ∧
      posted .replaceFront [entryOf 4 none true, entryOf 5 none false] =
        some [{ entryOf 4 none true with front := revokedItem }, entryOf 5 none false] ∧
      posted .followUp [entryOf 4 none false, entryOf 5 none false] =
        some [entryOf 4 (some revokedItem) false, entryOf 5 none false] ∧
      posted .followUp [entryOf 5 none false] = some [entryOf 5 none false] := by
  decide +kernel

theorem witness_NoticeRemovals :
    (let s := noticing (.withdrawFront 1 ⟨4, 3⟩) (queued [entryOf 4 (some revokedItem) false, entryOf 5 none false] .ready)
     (s.domain 0).toNotice = ⟨0, .withdrawFront 1 ⟨4, 3⟩⟩ :: [] ∧ s.notice.era ≤ 0 ∧
      after (exec (.withdrawFront 0) s) (fun t => (t.noticeAgent 1).queue) = some [entryOf 5 none false]) ∧
    (let s := noticing (.withdrawFollowUp 1 ⟨4, 3⟩) (queued [entryOf 4 (some revokedItem) false, entryOf 5 none false] .ready)
     after (exec (.withdrawFollowUp 0) s) (fun t => (t.noticeAgent 1).queue) = some [entryOf 4 none false, entryOf 5 none false]) ∧
    (let s := noticing (.clear 1 ⟨4, 3⟩) (queued [entryOf 4 none false] (.claiming ⟨4, 3⟩))
     noticed (.clear 0) s = some (([], .ready, none, .none), [], none)) ∧
    (let s := noticing (.clear 1 ⟨4, 3⟩) (queued [entryOf 4 none false, entryOf 5 none false] (.recordSent ⟨4, 3⟩))
     noticed (.clear 0) s = some (([entryOf 5 none false], .claiming ⟨5, 3⟩, some (.handle ⟨4, 3⟩), .none),
        [.claim 1 ⟨5, 3⟩], none)) ∧
    (let s := noticing (.clear 1 ⟨4, 3⟩) (queued [entryOf 4 none false] (.acking ⟨4, 3⟩))
     noticed (.clear 0) s = some (([], .ready, some (.handle ⟨4, 3⟩), .none), [], none)) ∧
    (let s := noticing (.clear 1 ⟨4, 3⟩) (queued [entryOf 4 none false] (.recordSent ⟨4, 4⟩))
     noticed (.clear 0) s = some (([], .recordSent ⟨4, 4⟩, none, .none), [], none)) ∧
    (let s := noticing (.scrubRemove ⟨4, 3⟩) (queued [entryOf 5 none false, entryOf 4 none true] .ready)
     noticed (.scrubRemove 0) s = some (([entryOf 5 none false], .ready, none, .none), [], none)) := by
  decide +kernel

/-- A CLEAR of a handle that the marker claims and no queue holds: READY, and the next entry is claimed (log 38). -/
theorem test_clearWithoutEntry :
    noticed (.clear 0) (noticing (.clear 1 ⟨4, 3⟩) (queued [entryOf 5 none false] (.claiming ⟨4, 3⟩))) =
      some (([entryOf 5 none false], .claiming ⟨5, 3⟩, none, .none), [.claim 1 ⟨5, 3⟩], none) := by
  decide +kernel

/-- A session item for agent 1. -/
def conditioning (c : ConditionItem) (a : NoticeAgent) : State :=
  let s := State.reset.setNotice 1 a
  { s with notice := { s.notice with conditions := [c] } }

/-- An acknowledgement at the front of agent 1's. -/
def acking (b : AckItem) (a : NoticeAgent) : State :=
  (withDom dom0 []).setNotice 1 { a with acks := [b] }

theorem witness_SessionConditions :
    (let s := conditioning (.post 1 (.lost 7) 0)
       { queued [] (.sessionSent ⟨true, false, 0x81⟩) with conditions := ⟨true, false, 0x81⟩ }
     s.notice.conditions = .post 1 (.lost 7) 0 :: [] ∧ s.notice.era ≤ 0 ∧
      noticed .sessionConditionPost s = some (([], .sessionSent ⟨true, false, 0x01⟩, none, ⟨true, false, 0x81⟩), [], none)) ∧
    (let s := conditioning (.post 1 (.lost 0) 0) (queued [] .ready)
     noticed .sessionConditionPost s = some (([], .sessionSent ⟨false, false, 1⟩, none, ⟨false, false, 1⟩), [],
        some (.session ⟨false, false, 1⟩))) ∧
    (let s := conditioning (.empty 1 0) { queued [] (.sessionSent ⟨true, false, 0⟩) with conditions := ⟨true, false, 0⟩ }
     noticed .sessionSetEmpty s = some (([], .ready, some .session, .none), [], none)) ∧
    (let s := conditioning (.empty 1 0) { queued [] (.claiming ⟨4, 3⟩) with conditions := ⟨true, false, 0⟩ }
     noticed .sessionSetEmpty s = some (([], .claiming ⟨4, 3⟩, none, .none), [], none)) ∧
    (let s := acking (.session 0) { queued [] (.sessionSent ⟨true, false, 1⟩) with conditions := ⟨true, true, 1⟩ }
     (s.noticeAgent 1).acks = .session 0 :: [] ∧
      noticed (.sessionAck 1) s = some (([], .sessionSent ⟨false, true, 0⟩, none, ⟨false, true, 0⟩), [],
        some (.session ⟨false, true, 0⟩))) ∧
    (let s := acking (.session 0) { queued [] .ready with retracted := some .session }
     noticed (.sessionAck 1) s = some (([], .ready, none, .none), [], none)) ∧
    (let s := acking (.session 0) { queued [] .ready with retracted := some (.handle ⟨4, 3⟩) }
     after (exec (.sessionAck 1) s) (fun t => ((t.noticeAgent 1).retracted, t.notice.reports)) =
        some (some (.handle ⟨4, 3⟩), [⟨.linkProtocol, none, some 1, none, none, 0⟩])) := by
  decide +kernel

theorem witness_AnswersOutcomesAndAcknowledgements_answers :
    (let s := noticing (.answer 1 ⟨4, 3⟩ true) (queued [entryOf 4 none false] (.claiming ⟨4, 3⟩))
     (s.domain 0).toNotice = ⟨0, .answer 1 ⟨4, 3⟩ true⟩ :: [] ∧
      (s.noticeAgent 1).queue = [] ++ entryOf 4 none false :: [] ∧
      noticed (.claimAnswer (some 0)) s = some (([entryOf 4 none false], .recordSent ⟨4, 3⟩, none, .none), [],
        some (.record ⟨4, 3⟩ ⟨.granted, 0xC0DE, some 9⟩))) ∧
    (let s := noticing (.answer 1 ⟨4, 3⟩ false) (queued [entryOf 4 none false] (.claiming ⟨4, 3⟩))
     noticed (.claimAnswer (some 0)) s = some (([entryOf 4 none false], .claiming ⟨4, 3⟩, none, .none), [.claim 1 ⟨4, 3⟩], none)) ∧
    (let s := noticing (.answer 1 ⟨4, 3⟩ true) (queued [] .ready)
     (s.noticeAgent 1).marker ≠ .claiming ⟨4, 3⟩ ∧
      noticed (.claimAnswer (some 0)) s = some (([], .ready, none, .none), [], none)) ∧
    (let s := noticing (.answer 1 ⟨4, 3⟩ true)
       { queued [entryOf 5 none false] (.claiming ⟨4, 3⟩) with conditions := ⟨false, true, 0⟩ }
     (∀ e ∈ (s.noticeAgent 1).queue, e.handle ≠ ⟨4, 3⟩) ∧
      noticed (.claimAnswer (some 0)) s = some (([entryOf 5 none false], .sessionSent ⟨false, true, 0⟩, none, ⟨false, true, 0⟩), [],
        some (.session ⟨false, true, 0⟩))) := by
  decide +kernel

theorem witness_AnswersOutcomesAndAcknowledgements_outcomes :
    (let s := noticing (.outcome 1 ⟨4, 3⟩ .promoted)
       (queued [entryOf 4 (some revokedItem) false, entryOf 5 none true] (.acking ⟨4, 3⟩))
     (s.noticeAgent 1).queue = [] ++ entryOf 4 (some revokedItem) false :: [entryOf 5 none true] ∧
      noticed (.acknowledgementOutcome (some 0)) s = some ((([entryOf 5 none true, { entryOf 4 none false with front := revokedItem }],
        .claiming ⟨4, 3⟩, none, .none)), [.claim 1 ⟨4, 3⟩], none)) ∧
    (let s := noticing (.outcome 1 ⟨4, 3⟩ .removed) (queued [entryOf 4 none false] (.acking ⟨4, 3⟩))
     noticed (.acknowledgementOutcome (some 0)) s = some (([], .ready, none, .none), [], none)) ∧
    (let s := noticing (.outcome 1 ⟨4, 3⟩ .notTaken) (queued [entryOf 4 none true] (.acking ⟨4, 3⟩))
     noticed (.acknowledgementOutcome (some 0)) s = some (([entryOf 4 none true], .ready, none, .none), [], none)) ∧
    (let s := noticing (.outcome 1 ⟨4, 3⟩ .promoted) (queued [entryOf 4 none false, entryOf 5 none false] (.acking ⟨4, 3⟩))
     (entryOf 4 none false).followUp = none ∧
      noticed (.acknowledgementOutcome (some 0)) s = some (([entryOf 4 none false, entryOf 5 none false], .claiming ⟨4, 3⟩, none,
        .none), [.claim 1 ⟨4, 3⟩], none)) := by
  decide +kernel

theorem witness_AnswersOutcomesAndAcknowledgements_acks :
    (let s := acking (.notice ⟨4, 3⟩ 0) (queued [entryOf 4 none false] (.recordSent ⟨4, 3⟩))
     (s.noticeAgent 1).acks = .notice ⟨4, 3⟩ 0 :: [] ∧ ownerOf s 4 = some 0 ∧
      noticed (.noticeAck 1) s = some (([entryOf 4 none false], .acking ⟨4, 3⟩, none, .none), [.acknowledge 1 ⟨4, 3⟩], none)) ∧
    (let s := acking (.notice ⟨4, 3⟩ 0) { queued [] (.acking ⟨4, 3⟩) with retracted := some (.handle ⟨4, 3⟩) }
     after (exec (.noticeAck 1) s) (fun t => ((t.noticeAgent 1).retracted, t.notice.reports)) =
        some (some (.handle ⟨4, 3⟩), [])) ∧
    (let s := acking (.notice ⟨4, 3⟩ 0) { queued [] .ready with retracted := some (.handle ⟨4, 3⟩) }
     after (exec (.noticeAck 1) s) (fun t => ((t.noticeAgent 1).retracted, t.notice.reports)) = some (none, [])) ∧
    (let s := acking (.notice ⟨4, 3⟩ 0) { queued [] (.acking ⟨4, 3⟩) with retracted := some (.handle ⟨4, 4⟩) }
     after (exec (.noticeAck 1) s) (fun t => ((t.noticeAgent 1).marker, t.notice.reports)) =
        some (.acking ⟨4, 3⟩, [⟨.linkProtocol, none, some 1, none, none, 0⟩])) := by
  decide +kernel

/-- A reclaim at the front of agent 1's. -/
def losing (m : Marker) : State :=
  (withDom dom0 []).setNotice 1 { queued [entryOf 4 none false] m with reclaims := [0], conditions := ⟨false, true, 0⟩ }

theorem witness_ReclaimLossAndLinkReset_reclaim :
    ((losing .ready).noticeAgent 1).reclaims = 0 :: [] ∧
      noticed (.noticeReclaim 1) (losing (.recordSent ⟨4, 3⟩)) = some (([], .sessionSent ⟨false, true, 0⟩,
        some (.handle ⟨4, 3⟩), ⟨false, true, 0⟩), [], some (.session ⟨false, true, 0⟩)) ∧
      noticed (.noticeReclaim 1) (losing (.acking ⟨4, 3⟩)) = some (([], .sessionSent ⟨false, true, 0⟩,
        some (.handle ⟨4, 3⟩), ⟨false, true, 0⟩), [], some (.session ⟨false, true, 0⟩)) ∧
      noticed (.noticeReclaim 1) (losing (.claiming ⟨4, 3⟩)) = some (([], .sessionSent ⟨false, true, 0⟩, none,
        ⟨false, true, 0⟩), [], some (.session ⟨false, true, 0⟩)) ∧
      noticed (.noticeReclaim 1) (losing (.sessionSent ⟨false, true, 0⟩)) = some (([], .sessionSent ⟨false, true, 0⟩, none,
        ⟨false, true, 0⟩), [], none) := by
  decide +kernel

/-- A reclaim of agent 1 forgets what was read, and asked, of agent 1, and of no other (R89, log 13). -/
theorem witness_ReclaimLossAndLinkReset_reads :
    let s := losing .ready
    let reads := put (put (put (put s.notice.reads 0 (.answered 1 .online)) 1 (.asked 1)) 2 (.answered 2 .online)) 3 (.asked 2)
    let u : State := { s with notice := { s.notice with reads := reads } }
    look u.notice.reads 0 = .answered 1 .online ∧ look u.notice.reads 1 = .asked 1 ∧
      after (exec (.noticeReclaim 1) u) (fun t => t.notice.reads.toList) =
        some [.idle, .idle, .answered 2 .online, .asked 2, .idle, .idle, .idle, .idle] := by
  decide +kernel

/-- Loss of bank 0: entries of slot 255 freeze, of slot 256 do not. -/
theorem witness_ReclaimLossAndLinkReset_loss :
    (let s := noticing (.loss 1) (queued [entryOf 255 none false, entryOf 256 none false] (.recordSent ⟨256, 3⟩))
     inBanks 1 256 = false ∧ inBanks 1 255 = true ∧ (s.domain 0).toNotice = ⟨0, .loss 1⟩ :: [] ∧
      noticed (.domainLoss 0) s = some (([entryOf 255 none true, entryOf 256 none false], .recordSent ⟨256, 3⟩, none, .none), [],
        none)) ∧
    (let s := noticing (.loss 1) (queued [entryOf 255 none false, entryOf 4 none false] (.acking ⟨255, 3⟩))
     noticed (.domainLoss 0) s = some (([entryOf 255 none true, entryOf 4 none true], .ready, some (.handle ⟨255, 3⟩), .none), [],
        none)) := by
  decide +kernel

/-- Loss of bank 0 with agents 1 and 2 concerned: a marker that claims an entry is READY without a retracted mark, one that names a
notice sent is READY with it; entries of other banks come next, both claims at the domain in rising agent number (R106, R113). -/
theorem witness_ReclaimLossAndLinkReset_deliveries :
    let s := ((withDoms { dom0 with toNotice := [⟨0, .loss 1⟩] } set1).setDomain 1 { set1 with state := .enabled }).setNotice 2
      (queued [entryOf 255 none false, entryOf 300 none false] (.claiming ⟨255, 3⟩))
    let s := s.setNotice 1 (queued [entryOf 4 none false, entryOf 256 none false] (.recordSent ⟨4, 3⟩))
    (s.domain 0).toNotice = ⟨0, .loss 1⟩ :: [] ∧ [(1 : AgentId), 2].Pairwise (· < ·) ∧
      after (exec (.domainLoss 0) s) (fun t => ((t.noticeAgent 1).marker, (t.noticeAgent 1).retracted,
        (t.noticeAgent 1).queue.map Entry.frozen)) = some (.claiming ⟨256, 3⟩, some (.handle ⟨4, 3⟩), [true, false]) ∧
      after (exec (.domainLoss 0) s) (fun t => ((t.noticeAgent 2).marker, (t.noticeAgent 2).retracted,
        (t.noticeAgent 2).queue.map Entry.frozen)) = some (.claiming ⟨300, 3⟩, none, [true, false]) ∧
      after (exec (.domainLoss 0) s) (fun t => (t.domain 1).fromNotice) =
        some [.claim 1 ⟨256, 3⟩, .claim 2 ⟨300, 3⟩] := by
  decide +kernel

/-- A marker's handle, where it has one. -/
def markerHandle : Marker → Option Handle
  | .claiming h | .recordSent h | .acking h => some h
  | .ready | .sessionSent _ => none

/-- Where no agent but 1 has a marker with a handle, the agents concerned are agent 1 or none. -/
theorem domainLoss_concerned (m : Marker) (hit : List AgentId)
    (h1 : 1 ∈ hit ↔ (markerHandle m).any (fun h => inBanks 1 h.slot) = true) (h2 : ∀ n, n ≠ 1 → n ∉ hit) (n : AgentId) :
    n ∈ hit ↔ ∃ h, (((noticing (.loss 1) (queued [] m)).noticeAgent n).marker = .claiming h ∨
      ((noticing (.loss 1) (queued [] m)).noticeAgent n).marker = .recordSent h ∨
      ((noticing (.loss 1) (queued [] m)).noticeAgent n).marker = .acking h) ∧ inBanks 1 h.slot = true := by
  by_cases hn : n = 1
  · subst hn
    rw [h1]
    have e : ((noticing (.loss 1) (queued [] m)).noticeAgent 1).marker = m := rfl
    rw [e]
    cases m <;> simp [markerHandle]
  · have e : ((noticing (.loss 1) (queued [] m)).noticeAgent n).marker = .ready := by
      fin_cases n <;> first | exact absurd rfl hn | rfl
    rw [e]
    refine ⟨fun h => absurd h (h2 n hn), ?_⟩
    rintro ⟨h, h', _⟩
    simp at h'

/-- The premises of the clause on a loss, with agent 1 concerned in CLAIMING, RECORD_SENT and ACKING, and with none. -/
theorem witness_ReclaimLossAndLinkReset_concerned (n : AgentId) :
    let hitBy (m : Marker) : Prop := ∃ h, (((noticing (.loss 1) (queued [] m)).noticeAgent n).marker = .claiming h ∨
      ((noticing (.loss 1) (queued [] m)).noticeAgent n).marker = .recordSent h ∨
      ((noticing (.loss 1) (queued [] m)).noticeAgent n).marker = .acking h) ∧ inBanks 1 h.slot = true
    (n ∈ [(1 : AgentId)] ↔ hitBy (.claiming ⟨255, 3⟩)) ∧ (n ∈ [(1 : AgentId)] ↔ hitBy (.recordSent ⟨0, 3⟩)) ∧
      (n ∈ [(1 : AgentId)] ↔ hitBy (.acking ⟨4, 3⟩)) ∧ (n ∈ ([] : List AgentId) ↔ hitBy (.recordSent ⟨256, 3⟩)) := by
  have one : ∀ k : AgentId, k ≠ 1 → k ∉ [(1 : AgentId)] := fun k hk hm => hk (List.mem_singleton.mp hm)
  exact ⟨domainLoss_concerned _ _ (by decide) one n, domainLoss_concerned _ _ (by decide) one n,
    domainLoss_concerned _ _ (by decide) one n, domainLoss_concerned _ _ (by decide) (by simp) n⟩

/-- A link reset of link 1. -/
def linkResetting (m : Marker) (c : Conditions) : State :=
  ((withDom dom0 []).setNotice 1 { queued [entryOf 4 none false] m with conditions := c }).setLink 1
    { LinkPort.reset with noticeResets := 1 }

theorem witness_ReclaimLossAndLinkReset_linkReset :
    0 < ((linkResetting .ready .none).link 1).noticeResets ∧ ownerOf (linkResetting .ready .none) 4 = some 0 ∧
      noticed (.noticeLinkReset 1) (linkResetting (.recordSent ⟨4, 3⟩) .none) = some (([entryOf 4 none false],
        .claiming ⟨4, 3⟩, some (.handle ⟨4, 3⟩), .none), [.revert ⟨4, 3⟩, .claim 1 ⟨4, 3⟩], none) ∧
      noticed (.noticeLinkReset 1) (linkResetting (.sessionSent ⟨true, false, 0⟩) ⟨true, true, 0⟩) =
        some (([entryOf 4 none false], .sessionSent ⟨true, true, 0⟩, some .session, ⟨true, true, 0⟩), [],
          some (.session ⟨true, true, 0⟩)) ∧
      noticed (.noticeLinkReset 1) (linkResetting (.acking ⟨4, 3⟩) .none) =
        some (([entryOf 4 none false], .acking ⟨4, 3⟩, none, .none), [], none) := by
  decide +kernel

/-- A warm restart that link 0 has taken and the session unit and the notice unit have not; the link's reset number is 1. -/
def restartedLink : State :=
  let s := withDom { dom0 with toSession := [.result 0 0 (.refused .conflict) none 0] } []
  let s := s.setAgent 0 { online with tags := Vector.replicate 8 true, inProcess := some ⟨5, true, 0, none⟩ }
  let s := (s.setLink 0 { LinkPort.reset with resetNumber := 1 }).setNotice 0 { queued [] .ready with conditions := ⟨true, false, 0⟩ }
  s.setManagement { s.management with command := some (.restarting { allDue with links := put allDue.links 0 false }) }

/-- A response and a notice of before the restart are discarded by the link that has taken it; a response to a request accepted under
the link's new reset number is queued, and so are both before the link takes the restart (R150, R179, log 10). -/
theorem test_lateResponsesAndNotices :
    let before := (restartedLink.setManagement { restartedLink.management with command := some (.restarting allDue) })
    let since := (restartedLink.setAgent 0 { restartedLink.agent 0 with lastReset := 1, inProcess := some ⟨5, true, 1, none⟩ }).setDomain
      0 { dom0 with toSession := [.result 0 1 (.refused .conflict) none 0] }
    after (exec (.resultTake (some 0)) restartedLink) (fun t => ((t.link 0).responses, (t.agent 0).inProcess)) = some ([], none) ∧
      restartedLink.responsesWith 0 ⟨5, .refused .conflict, 0⟩ = [] ∧
      after (exec (.resultTake (some 0)) since) (fun t => (t.link 0).responses) = some [⟨5, .refused .conflict, 1⟩] ∧
      after (exec (.resultTake (some 0)) before) (fun t => (t.link 0).responses) = some [⟨5, .refused .conflict, 0⟩] ∧
      ((beginDelivery restartedLink 0).link 0).notice = none ∧
      restartedLink.noticeWith 0 (.session ⟨true, false, 0⟩) = none ∧
      ((beginDelivery before 0).link 0).notice = some (.session ⟨true, false, 0⟩) := by
  decide +kernel

/-! ## The gate unit -/

/-- The gate unit given. -/
def gated (g : GateUnit) : State :=
  (withDom dom0 []).setGate g

/-- A CHECK of agent 2 for pages `first` to `first`. -/
def checkOf (first : Page) : Check :=
  ⟨2, .read, 9, 0, 5, first⟩

/-- The lengths of the CHECK queue, the DONE queue and the port. -/
def gateLengths (t : State) : Nat × Nat × Nat :=
  (t.gate.checkQueue.length, t.gate.doneQueue.length, t.gate.port.length)

theorem witness_TheWayThroughTheGate_accepts :
    let g := GateUnit.reset
    let full := List.replicate 16 (checkOf 0)
    after (exec (.checkAccept (checkOf 0)) (gated { g with checkQueue := List.replicate 15 (checkOf 0) })) gateLengths =
        some (16, 0, 0) ∧
      after (exec (.checkAccept (checkOf 0)) (gated { g with checkQueue := full })) gateLengths = some (16, 0, 1) ∧
      after (exec (.doneAccept .null) (gated { g with doneQueue := List.replicate 15 .null })) gateLengths = some (0, 16, 0) ∧
      after (exec (.doneAccept .null) (gated { g with doneQueue := List.replicate 16 .null })) gateLengths = some (0, 16, 1) ∧
      after (exec (.doneAccept .null) (gated { g with checkQueue := full, port := [.check (checkOf 1)] })) gateLengths =
        some (16, 0, 2) ∧
      after (exec (.gateWordDiscard 0x00000000) State.reset) gateLengths = some (0, 0, 0) := by
  decide +kernel

/-- The queues of a gate unit that has taken a CHECK. -/
def placesView (t : State) : Nat × List Place × List (Nat × AgentId) × Nat :=
  (t.gate.checkQueue.length, t.gate.verdictQueue, t.gate.reads, t.gate.nextPlace)

theorem witness_TheWayThroughTheGate_checks :
    (let s := gated { GateUnit.reset with checkQueue := [checkOf 0xFF], nextPlace := 3 }
     s.gate.port = [] ∧ s.gate.checkQueue = checkOf 0xFF :: [] ∧ s.management.mode = .setup ∧
      after (exec .checkTake s) placesView = some (0, [⟨3, checkOf 0xFF, some (.refused .notReady)⟩], [], 4) ∧
      after (exec .checkTake { s with management := { s.management with mode := .active } }) placesView =
        some (0, [⟨3, checkOf 0xFF, none⟩], [(3, 2)], 4)) ∧
    (let s := gated { GateUnit.reset with checkQueue := [checkOf 0xFF], verdictQueue := List.replicate 16 ⟨0, checkOf 0, none⟩ }
     16 ≤ s.gate.verdictQueue.length ∧ after (exec .checkTake s) (fun t => t.gate.checkQueue.length) = some 1) ∧
    (let s := gated { GateUnit.reset with verdictQueue := [⟨3, checkOf 0xFF, none⟩], answers := [(3, .online, 5)] }
     s.gate.verdictQueue = [] ++ ⟨3, checkOf 0xFF, none⟩ :: [] ∧ holderOf s 0xFF = some 0 ∧
      after (exec .checkPresent s) (fun t => ((t.domain 0).checks, t.gate.answers)) =
        some ([⟨3, checkOf 0xFF, .online, 5⟩], [])) ∧
    (let s := gated { GateUnit.reset with verdictQueue := [⟨3, checkOf 0x100, none⟩], answers := [(3, .online, 5)] }
     holderOf s 0x100 = none ∧
      after (exec .checkPresent s) (fun t => (t.noDomain.checks, t.gate.answers)) = some ([⟨3, checkOf 0x100, .online, 5⟩], [])) := by
  decide +kernel

theorem witness_TheWayThroughTheGate_verdictsAndDones :
    (let s := (withDom { dom0 with verdicts := [(3, .admitUntracked)] } []).setGate { GateUnit.reset with
       verdictQueue := [⟨2, checkOf 0, none⟩, ⟨3, checkOf 1, none⟩] }
     s.gate.verdictQueue = [⟨2, checkOf 0, none⟩] ++ ⟨3, checkOf 1, none⟩ :: [] ∧ (s.domain 0).verdicts = (3, .admitUntracked) :: [] ∧
      after (exec (.verdictPlace (some 0)) s) (fun t => (t.gate.verdictQueue.map Place.verdict, (t.domain 0).verdicts)) =
        some ([none, some .admitUntracked], [])) ∧
    (let s := gated { GateUnit.reset with verdictQueue := [⟨2, checkOf 0, some .admitUntracked⟩, ⟨3, checkOf 1, none⟩] }
     after (exec .verdictAccept s) (fun t => (t.gate.verdictQueue, t.gate.lastVerdict)) =
        some ([⟨3, checkOf 1, none⟩], some .admitUntracked)) ∧
    (let s := gated { GateUnit.reset with verdictQueue := [⟨3, checkOf 1, none⟩, ⟨4, checkOf 0, some .admitUntracked⟩] }
     after (exec .verdictAccept s) (fun t => (t.gate.verdictQueue.length, t.gate.lastVerdict)) = some (2, none)) ∧
    (let s := gated { GateUnit.reset with doneQueue := [.null, .null] }
     after (exec .doneDispatch s) (fun t => (t.gate.doneQueue, (t.domain 0).dones)) = some ([.null], [])) ∧
    (let s := gated { GateUnit.reset with doneQueue := [.ticket ⟨.write, ⟨255, 3⟩⟩] }
     ownerOf s 255 = some 0 ∧
      after (exec .doneDispatch s) (fun t => (t.gate.doneQueue, (t.domain 0).dones)) = some ([], [⟨.write, ⟨255, 3⟩⟩])) ∧
    (let s := gated { GateUnit.reset with doneQueue := [.ticket ⟨.write, ⟨256, 3⟩⟩] }
     ownerOf s 256 = none ∧
      after (exec .doneDispatch s) (fun t => (t.gate.doneQueue, (t.domain 0).dones)) = some ([], [])) := by
  decide +kernel

/-- Messages behind one that waits for a place, whichever kinds they are; a verdict that came without a domain. -/
theorem witness_TheWayThroughTheGate_behind :
    let fullC := { GateUnit.reset with checkQueue := List.replicate 16 (checkOf 0), port := [.check (checkOf 1)] }
    let fullD := { GateUnit.reset with doneQueue := List.replicate 16 .null, port := [.done .null] }
    fullC.ready (.check (checkOf 1)) = false ∧ fullD.ready (.done .null) = false ∧ fullD.ready (.check (checkOf 1)) = true ∧
      after (exec (.checkAccept (checkOf 2)) (gated fullC)) (fun t => t.gate.port) = some [.check (checkOf 1), .check (checkOf 2)] ∧
      after (exec (.checkAccept (checkOf 2)) (gated fullD)) (fun t => t.gate.port) = some [.done .null, .check (checkOf 2)] ∧
      after (exec (.doneAccept .null) (gated fullD)) (fun t => t.gate.port) = some [.done .null, .done .null] ∧
      (let s : State := { gated { GateUnit.reset with verdictQueue := [⟨2, checkOf 0, none⟩, ⟨3, checkOf 1, none⟩] } with
         noDomain := { NoDomain.reset with verdicts := [(3, .refused .noDomain)] } }
       s.gate.verdictQueue = [⟨2, checkOf 0, none⟩] ++ ⟨3, checkOf 1, none⟩ :: [] ∧
        after (exec (.verdictPlace none) s) (fun t => (t.gate.verdictQueue.map Place.verdict, t.noDomain.verdicts)) =
          some ([none, some (.refused .noDomain)], [])) := by
  decide +kernel

/-! ## Encodings -/

/-- The check code of R161 is the code whose value over the nine bytes of "123456789" is published as 29B1h. -/
theorem test_checkCode :
    crcOf (bitsOf (0x313233343536373839 : BitVec 72)) = 0x29B1 := by decide +kernel

/-- An IDLE with its check code: sixteen zeros from FFFFh leave 1D0Fh (08 8.9, the code's published value). -/
theorem test_idleWord : Frame.idle.lineWords = [0x200001D0F] := by decide +kernel

/-- A CHECK written out from 08 8.9: type 1, agent 3, WRITE, token 0100000009h, 4 pages from 10h, epoch 5; two DONEs. -/
theorem test_gateWords :
    gateEvents [] [0x13800103, 0x00000005, 0x00000009, 0x00000010] =
        [.checkAccept ⟨3, .write, 0x0100000009, 3, 5, 0x10⟩] ∧
      gateEvents [] [0x20810203] = [.doneAccept (.ticket ⟨.write, ⟨258, 3⟩⟩)] ∧
      gateEvents [] [0x20FFFFFF] = [.doneAccept .null] := by
  decide +kernel

/-- A DATA frame of one word: 5 as sequence number, 63 as acknowledgement number; the words arrive one by one. -/
theorem witness_WordsOnThePinsRoundTrip :
    discardTypeOk 0x00000000 = true ∧ discardTypeOk 0xFFFFFFFF = true ∧ discardTypeOk 0x30000000 = true ∧
      gateEvents [] [(0xFFFFFFFF : Word)] = [.gateWordDiscard 0xFFFFFFFF] ∧
      lineEvents 15 [] (dataFrameWords 5 63 [0x12A00000]) = [.dataReceived 15 5 63 [0x12A00000]] ∧
      ((List.replicate 7 (0xFFFFFFFF : Word)).length ≤ 7) ∧
      lineEvents 15 [] (dataFrameWords 63 0 (List.replicate 7 0xFFFFFFFF)) =
        [.dataReceived 15 63 0 (List.replicate 7 0xFFFFFFFF)] := by
  decide +kernel

/-- The first word of a CHECK waits at a full CHECK queue; a DONE's passes meanwhile (R116). -/
theorem witness_WordsOnThePinsRoundTrip_ready :
    let c : Check := ⟨3, .write, 0x0100000009, 3, 5, 0x10⟩
    let room := gated { GateUnit.reset with checkQueue := List.replicate 15 (checkOf 0) }
    let full := gated { GateUnit.reset with checkQueue := List.replicate 16 (checkOf 0) }
    let fullD := gated { GateUnit.reset with doneQueue := List.replicate 16 .null }
    room.gate.words = [] ∧ room.gate.port = [] ∧ room.gate.checkQueue.length < 16 ∧ 16 ≤ full.gate.checkQueue.length ∧
      ((checkWords c).foldl (fun u w => u.presentWord w) room).pending = [.checkAccept c] ∧
      (((checkWords c).take 3).foldl (fun u w => u.presentWord w) room).gate.words = (checkWords c).take 3 ∧
      (full.presentWord (checkHead c)).gate.words = [] ∧
      (full.presentWord (doneWord .null)).pending = [.doneAccept .null] ∧ (fullD.presentWord (doneWord .null)).pending = [] := by
  decide +kernel

/-- A bit changed in a frame makes it corrupt; a word of header 00 is a corrupt word (R160, R161). -/
theorem test_corruptFrames :
    lineEvents 2 [] [0x200001D0E] = [.corruptFrame 2] ∧ lineEvents 2 [] [0x000001D0F] = [.corruptWord 2] ∧
      lineEvents 2 [] [0x100001D0F] = [.corruptFrame 2] := by
  decide +kernel

/-- The words of a STATUS of a queued record, written out from 08 8.9. -/
theorem test_statusWords :
    messageWords (.response 5 (.status ⟨⟨255, 3⟩, .converting, .shared, some 0x0100000009, 2, 1, 2, 0x10, 4, 6, 0xC0DE⟩)) =
      [0x209A0000, 0x0010FF03, 0x00000009, 0x68408002, 0x10, 0x60000004, 0xC0DE] := by
  decide +kernel

theorem test_verdictWords :
    verdictWord (.admitted ⟨.write, ⟨258, 3⟩⟩) = 0x01A10203 ∧ verdictWord .admitUntracked = 0x02600000 ∧
      verdictWord (.refused .countFull) = 0x19000000 := by
  decide +kernel

/-! ## The link ports -/

/-- Link 0 at time 1000 with the port given. -/
def porting (p : LinkPort) : State :=
  { withLink p with time := 1000 }

/-- The port after a command. -/
def ported (c : Instr) (p : LinkPort) : Option LinkPort :=
  after (exec c (porting p)) (fun t => t.link 0)

/-- State, attempt, corrupt word count, last frame and the kinds of the reports. -/
def portView (p : LinkPort) : LinkState × Option Attempt × Nat × Option Frame × List EventKind :=
  (p.state, p.attempt, p.corruptWords, p.lastFrame, p.reports.map Report.kind)

theorem witness_SignalsAndAttempts_signals :
    LinkPort.reset.state = .down ∧
      (ported (.signalDetect 0) .reset).map portView = some (.aligning, some ⟨0, false, false, none, 1010⟩, 0, none, []) ∧
      ported (.lossOfSignalDetect 0) .reset = some .reset ∧ ported (.idleReceived 0) .reset = some .reset ∧
      ported (.corruptWord 0) .reset = some .reset ∧ ported (.corruptFrame 0) .reset = some .reset ∧
      ported (.signalDetect 0) active = some active ∧
      (ported (.lossOfSignalDetect 0) active).map portView = some (.down, none, 0, none, [.linkRetrain]) ∧
      (ported (.lossOfSignalDetect 0) active).map LinkPort.retry = some active.retry ∧
      (ported (.lossOfSignalDetect 0) (aligning ⟨3, false, false, none, 1010⟩)).map portView = some (.down, none, 0, none, []) := by
  decide +kernel

/-- The attempt and the last frame after a command in ALIGNING. -/
def attempted (c : Instr) (a : Attempt) (corrupt : Nat) : Option (Option Attempt × Nat × Option Frame) :=
  (ported c { aligning a with corruptWords := corrupt }).map (fun p => (p.attempt, p.corruptWords, p.lastFrame))

theorem witness_SignalsAndAttempts_attempts :
    attempted (.idleReceived 0) ⟨14, false, false, none, 1010⟩ 7 = some (some ⟨15, false, false, none, 1010⟩, 0, none) ∧
      attempted (.idleReceived 0) ⟨15, false, false, none, 1010⟩ 0 =
        some (some ⟨16, true, true, none, 1010⟩, 0, some (.resync 0 true)) ∧
      attempted (.idleReceived 0) ⟨15, true, true, none, 1010⟩ 0 = some (some ⟨16, true, true, none, 1010⟩, 0, none) ∧
      attempted (.corruptFrame 0) ⟨15, false, false, none, 1010⟩ 7 = some (some ⟨0, false, false, none, 1010⟩, 0, none) ∧
      attempted (.ackReceived 0 63) ⟨15, false, false, none, 1010⟩ 7 = some (some ⟨0, false, false, none, 1010⟩, 0, none) ∧
      attempted (.nakReceived 0 63) ⟨15, false, false, none, 1010⟩ 7 = some (some ⟨0, false, false, none, 1010⟩, 0, none) ∧
      attempted (.dataReceived 0 0 0 [leaveWord]) ⟨15, false, false, none, 1010⟩ 7 =
        some (some ⟨0, false, false, none, 1010⟩, 0, none) ∧
      attempted (.corruptWord 0) ⟨15, false, false, none, 999⟩ 6 = some (some ⟨0, false, false, none, 999⟩, 7, none) ∧
      attempted (.corruptWord 0) ⟨15, true, true, none, 1001⟩ 7 = some (some ⟨0, false, false, none, 1010⟩, 0, none) ∧
      attempted (.alignmentAttemptExpiry 0) ⟨15, true, true, none, 1000⟩ 7 =
        some (some ⟨0, false, false, none, 1010⟩, 7, none) ∧
      attempted (.alignmentAttemptExpiry 0) ⟨15, true, true, none, 1001⟩ 7 = some (some ⟨15, true, true, none, 1001⟩, 7, none) := by
  decide +kernel

/-- Nothing received in DOWN has an effect; a RESYNC before the attempt is aligned and has sent its own is recorded, the last of two
kept, and leaves the count of IDLEs (R133, R136). -/
theorem witness_SignalsAndAttempts_received :
    [Instr.ackReceived 0 63, .nakReceived 0 0, .resyncReceived 0 0 true, .dataReceived 0 0 63 [leaveWord],
        .dataReceived 0 1 1 []].all (fun c => ported c { LinkPort.reset with corruptWords := 3 } ==
          some { LinkPort.reset with corruptWords := 3 }) = true ∧
      attempted (.resyncReceived 0 63 true) ⟨7, false, false, none, 1010⟩ 7 =
        some (some ⟨7, false, false, some (63, true), 1010⟩, 0, none) ∧
      attempted (.resyncReceived 0 5 false) ⟨0, false, false, some (63, true), 1010⟩ 0 =
        some (some ⟨0, false, false, some (5, false), 1010⟩, 0, none) ∧
      attempted (.resyncReceived 0 5 true) ⟨16, true, false, none, 1010⟩ 0 =
        some (some ⟨16, true, false, some (5, true), 1010⟩, 0, none) := by
  decide +kernel

/-- An attempt of the port of 7.10: 22, 23 and 24 in the retry buffer, expectation 40, no reset pending. -/
def outage (a : Attempt) : LinkPort :=
  { aligning a with
    retry := [⟨22, .response 1 .left⟩, ⟨23, .response 2 .left⟩, ⟨24, .response 3 .left⟩], oldest := 22, txSeq := 25, rxExpect := 40
    resetPending := false }

/-- State, the sequence numbers of the retry buffer, oldest, transmit sequence, expectation, replay position. -/
def windowView (p : LinkPort) : LinkState × List Seq × Seq × Seq × Seq × Option Seq :=
  (p.state, p.retry.map RetryEntry.seq, p.oldest, p.txSeq, p.rxExpect, p.replayPos)

/-- The outage of 7.10, row by row of its table. -/
theorem test_outage :
    (ported (.resyncReceived 0 23 false) (outage ⟨16, true, true, none, 1010⟩)).map windowView =
        some (.active, [23, 24], 23, 25, 40, some 23) ∧
      ((ported (.resyncReceived 0 23 false) (outage ⟨16, true, true, none, 1010⟩)).bind (ported (.ackReceived 0 24))).map windowView =
        some (.active, [], 25, 25, 40, none) := by
  decide +kernel

theorem witness_AttemptsComplete :
    (outage ⟨16, true, true, none, 1010⟩).state = .aligning ∧
      (ported (.aligningResyncSend 0) (outage ⟨16, true, false, none, 1010⟩)).map portView =
        some (.aligning, some ⟨16, true, true, none, 1010⟩, 0, some (.resync 40 false), []) ∧
      (ported (.resyncReceived 0 0 false) (aligning ⟨16, true, true, none, 1010⟩)).map portView =
        some (.aligning, some ⟨16, true, true, some (0, false), 1010⟩, 0, none, []) ∧
      (ported (.resyncReceived 0 22 true) (outage ⟨16, true, true, none, 1010⟩)).map (fun p => (portView p, p.resetNumber)) =
        some ((.aligning, some ⟨16, true, false, some (22, true), 1010⟩, 0, none, []), 1) ∧
      (ported (.resyncReceived 0 26 false) (outage ⟨16, true, true, none, 1010⟩)).map (fun p => (portView p, windowView p)) =
        some ((.aligning, some ⟨0, false, false, none, 1010⟩, 0, none, [.linkProtocol]), (.aligning, [], 0, 0, 0, none)) ∧
      (outage ⟨16, true, false, none, 1010⟩).resetPending = false := by
  decide +kernel

theorem witness_AttemptsComplete_active :
    (ported (.resyncReceived 0 25 false) (outage ⟨16, true, true, none, 1010⟩)).map windowView =
        some (.active, [], 25, 25, 40, none) ∧
      (ported (.resyncReceived 0 22 false) (outage ⟨16, true, true, none, 1010⟩)).map windowView =
        some (.active, [22, 23, 24], 22, 25, 40, some 22) ∧
      (ported (.aligningResyncSend 0) (outage ⟨16, true, false, some (23, false), 1010⟩)).map windowView =
        some (.active, [23, 24], 23, 25, 40, some 23) ∧
      (ported (.aligningResyncSend 0) (outage ⟨16, true, false, some (21, false), 1010⟩)).map (fun p => p.resetNumber) = some 1 ∧
      (ported (.resyncReceived 0 0 true) (aligning ⟨16, true, true, none, 1010⟩)).map windowView =
        some (.active, [], 0, 0, 0, none) := by
  decide +kernel

/-- The sixteenth IDLE with a peer RESYNC recorded completes the attempt (R134, R136). -/
theorem witness_AttemptsComplete_idle :
    (ported (.idleReceived 0) (outage ⟨15, false, false, some (23, false), 1010⟩)).map windowView =
        some (.active, [23, 24], 23, 25, 40, some 23) ∧
      (ported (.idleReceived 0) (outage ⟨15, false, false, some (23, false), 1010⟩)).map LinkPort.lastFrame =
        some (some (.resync 40 false)) ∧
      (ported (.idleReceived 0) (outage ⟨15, false, false, some (22, true), 1010⟩)).map LinkPort.resetNumber = some 1 ∧
      (ported (.idleReceived 0) (aligning ⟨15, false, false, some (0, false), 1010⟩)).map portView =
        some (.aligning, some ⟨16, true, true, some (0, false), 1010⟩, 0, some (.resync 0 true), []) ∧
      (ported (.idleReceived 0) (outage ⟨15, false, false, some (26, false), 1010⟩)).map portView =
        some (.aligning, some ⟨0, false, false, none, 1010⟩, 0, some (.resync 40 false), [.linkProtocol]) := by
  decide +kernel

/-- The port of 7.10 in ACTIVE, every count and mark given. -/
def busy (corrupt replays : Nat) (nakSent : Bool) : LinkPort :=
  { outage ⟨0, false, false, none, 0⟩ with
    state := .active, attempt := none, watchdog := some 1004, replayDeadline := some 1001, corruptWords := corrupt
    replayCount := replays, nakSent := nakSent }

theorem witness_AnActivePortReceives_words :
    (busy 7 0 false).state = .active ∧
      (ported (.idleReceived 0) (busy 7 0 false)).map (fun p => (p.watchdog, p.corruptWords)) = some (some 1010, 0) ∧
      (ported (.corruptWord 0) (busy 6 0 false)).map portView = some (.active, none, 7, none, []) ∧
      (ported (.corruptWord 0) (busy 7 0 false)).map portView =
        some (.aligning, some ⟨0, false, false, none, 1010⟩, 8, none, [.linkRetrain]) ∧
      (ported (.corruptFrame 0) (busy 7 0 false)).map (fun p => (p.corruptWords, p.nakOwed, p.nakSent)) = some (0, true, true) ∧
      (ported (.resyncReceived 0 63 true) (busy 7 0 false)).map portView =
        some (.aligning, some ⟨0, false, false, some (63, true), 1010⟩, 0, none, []) := by
  decide +kernel

theorem witness_AnActivePortReceives_acks :
    (ported (.ackReceived 0 22) (busy 0 4 false)).map (fun p => (windowView p, p.replayCount, p.replayDeadline)) =
        some ((.active, [23, 24], 23, 25, 40, none), 0, some 1001) ∧
      (ported (.ackReceived 0 24) (busy 0 4 false)).map (fun p => (windowView p, p.replayCount, p.replayDeadline)) =
        some ((.active, [], 25, 25, 40, none), 0, none) ∧
      (ported (.ackReceived 0 25) (busy 0 4 false)).map (fun p => (windowView p, p.replayCount)) =
        some ((.active, [22, 23, 24], 22, 25, 40, none), 4) ∧
      (ported (.ackReceived 0 21) (busy 0 4 false)).map LinkPort.oldest = some 22 ∧
      (24 - (22 : Seq)).toNat < (25 - (22 : Seq)).toNat := by
  decide +kernel

theorem witness_AnActivePortReceives_naks :
    (ported (.nakReceived 0 26) (busy 0 0 false)).map (fun p => (windowView p, p.resetNumber, p.reports.map Report.kind)) =
        some ((.aligning, [], 0, 0, 0, none), 1, [.linkProtocol]) ∧
      (ported (.nakReceived 0 25) (busy 0 4 false)).map windowView = some (.active, [], 25, 25, 40, none) ∧
      (ported (.nakReceived 0 24) (busy 0 4 false)).map (fun p => (windowView p, p.replayCount)) =
        some ((.active, [24], 24, 25, 40, some 24), 1) ∧
      (ported (.nakReceived 0 22) (busy 0 3 false)).map (fun p => (windowView p, p.replayCount)) =
        some ((.active, [22, 23, 24], 22, 25, 40, some 22), 4) ∧
      (ported (.nakReceived 0 22) (busy 0 4 false)).map (fun p => (windowView p, p.reports.map Report.kind)) =
        some ((.aligning, [22, 23, 24], 22, 25, 40, none), [.linkRetrain]) := by
  decide +kernel

/-- Expectation, accepted messages, ACK owed, NAK owed, NAK sent after a DATA frame that acknowledges 21. -/
def dataView (seq : Seq) (p : LinkPort) : Option (Seq × List Received × Bool × Bool × Bool) :=
  (ported (.dataReceived 0 seq 21 [leaveWord]) p).map (fun q => (q.rxExpect, q.rxQueue, q.ackOwed, q.nakOwed, q.nakSent))

theorem witness_AnActivePortReceives_data :
    dataLengthOk [leaveWord] = true ∧
      dataView 40 { busy 0 0 true with resetNumber := 4 } = some (41, [⟨[leaveWord], 4, none⟩], true, false, false) ∧
      (dataView 40 { busy 0 0 false with rxQueue := List.replicate 15 ⟨[leaveWord], 0, none⟩ }).map
        (fun v => (v.1, v.2.1.length)) = some (41, 16) ∧
      (dataView 40 { busy 0 0 false with rxQueue := List.replicate 16 ⟨[leaveWord], 0, none⟩ }).map
        (fun v => (v.1, v.2.1.length, v.2.2)) = some (40, 16, false, false, false) ∧
      dataView 41 (busy 0 0 false) = some (40, [], false, true, true) ∧
      dataView 7 (busy 0 0 false) = some (40, [], false, true, true) ∧
      dataView 7 (busy 0 0 true) = some (40, [], false, false, true) ∧
      dataView 8 (busy 0 0 false) = some (40, [], true, false, false) ∧
      dataView 39 (busy 0 0 false) = some (40, [], true, false, false) := by
  decide +kernel

/-- A DATA frame that acknowledges 22 frees that entry, one that acknowledges 25 none. -/
theorem witness_AnActivePortReceives_dataAcks :
    (ported (.dataReceived 0 40 22 [leaveWord]) (busy 3 4 false)).map (fun p => (windowView p, p.replayCount, p.corruptWords)) =
        some ((.active, [23, 24], 23, 25, 41, none), 0, 0) ∧
      (ported (.dataReceived 0 39 25 [leaveWord]) (busy 3 4 false)).map (fun p => (windowView p, p.replayCount, p.ackOwed)) =
        some ((.active, [22, 23, 24], 22, 25, 40, none), 4, true) ∧
      (40 - (40 : Seq)).toNat = 0 ∧ (41 - (40 : Seq)).toNat = 1 ∧ (7 - (40 : Seq)).toNat = 31 ∧ (8 - (40 : Seq)).toNat = 32 ∧
      (39 - (40 : Seq)).toNat = 63 := by
  decide +kernel

/-- A DATA frame of no words or of eight is corrupt (R137, R160). -/
theorem test_dataLength :
    (ported (.dataReceived 0 40 21 []) (busy 0 0 false)).map LinkPort.nakOwed = some true ∧
      (ported (.dataReceived 0 40 21 (List.replicate 8 0)) (busy 0 0 false)).map LinkPort.rxExpect = some 40 := by
  decide +kernel

theorem witness_AnActivePortExpiresAndSends_expires :
    (ported (.watchdogExpiry 0) { busy 0 0 false with watchdog := some 1000 }).map portView =
        some (.aligning, some ⟨0, false, false, none, 1010⟩, 0, none, [.linkRetrain]) ∧
      (ported (.watchdogExpiry 0) { busy 0 0 false with watchdog := some 1001 }).map portView = some (.active, none, 0, none, []) ∧
      (ported (.replayDeadlineExpiry 0) (busy 0 3 false)).map LinkPort.replayPos = some none ∧
      (ported (.replayDeadlineExpiry 0) { busy 0 3 false with replayDeadline := some 1000 }).map
        (fun p => (p.replayPos, p.replayCount, p.replayDeadline)) = some (some 22, 4, some 1001) ∧
      (ported (.replayDeadlineExpiry 0) { busy 0 4 false with replayDeadline := some 1000 }).map portView =
        some (.aligning, some ⟨0, false, false, none, 1010⟩, 0, none, [.linkRetrain]) := by
  decide +kernel

/-- The frame sent, and the port's window after it. -/
def sent (p : LinkPort) : Option (Option Frame × Seq × List Seq × Option Seq) :=
  (ported (.frameSend 0) p).map (fun q => (q.lastFrame, q.txSeq, q.retry.map RetryEntry.seq, q.replayPos))

theorem witness_AnActivePortExpiresAndSends_sends :
    (ported (.frameSend 0) { busy 0 0 true with nakOwed := true, replayPos := some 24 }).map
        (fun p => (p.lastFrame, p.nakOwed)) = some (some (.nak 40), false) ∧
      sent { busy 0 0 false with replayPos := some 22 } =
        some (some (.data 22 39 (.response 1 .left)), 25, [22, 23, 24], some 23) ∧
      sent { busy 0 0 false with replayPos := some 24 } =
        some (some (.data 24 39 (.response 3 .left)), 25, [22, 23, 24], none) ∧
      sent { busy 0 0 false with responses := [⟨5, .left, 0⟩], notice := some (.session ⟨true, false, 0⟩) } =
        some (some (.data 25 39 (.response 5 .left)), 26, [22, 23, 24, 25], none) ∧
      sent { busy 0 0 false with notice := some (.session ⟨true, false, 0⟩) } =
        some (some (.data 25 39 (.notice (.session ⟨true, false, 0⟩))), 26, [22, 23, 24, 25], none) ∧
      sent { busy 0 0 false with ackOwed := true } = some (some (.ack 39), 25, [22, 23, 24], none) ∧
      sent (busy 0 0 false) = some (some .idle, 25, [22, 23, 24], none) ∧
      (ported (.frameSend 0) { busy 0 0 false with
        retry := List.replicate 16 ⟨22, .response 1 .left⟩, responses := [⟨5, .left, 0⟩], ackOwed := true }).map
        (fun p => (p.lastFrame, p.responses.length)) = some (some (.ack 39), 1) ∧
      (ported (.frameSend 0) { busy 0 0 false with retry := [], oldest := 25, replayDeadline := none, responses := [⟨5, .left, 0⟩] }).map
        LinkPort.replayDeadline = some (some 1001) ∧
      (ported (.frameSend 0) (outage ⟨0, false, false, none, 0⟩)).map LinkPort.lastFrame = some (some .idle) ∧
      (ported (.frameSend 0) .reset).map LinkPort.lastFrame = some none := by
  decide +kernel

/-! ## Invariants -/

/-- The premises of the invariants hold at reset, and a step leads on from there. -/
theorem witness_EveryStepKeepsTheUnitsInForm :
    step { State.reset with pending := [.start] } = exec .start { State.reset with pending := [] } ∧
      Pool.wf State.reset.pool = true ∧ State.reset.agentsOk ∧ State.reset.gate.bounded = true ∧ State.reset.linksOk :=
  ⟨rfl, by decide, by unfold State.agentsOk; decide, by decide, by unfold State.linksOk; decide⟩

theorem witness_EveryStepKeepsDomainsApart :
    (withDom dom0 []).domainsApart ∧ (withDom dom0 []).collectionsOwned ∧
      after (step { withDom dom0 [] with pending := [.closeDomain .decide] }) (fun t => t.pending) = some [] := by
  refine ⟨?_, ?_, by decide⟩
  · unfold State.domainsApart
    decide
  · unfold State.collectionsOwned
    decide

/-- Domain 0 with bank 0, a HELD EXCLUSIVE record in slot 0, the other 255 slots FREE. -/
def agreeing0 : Domain :=
  { dom0 with freeList := (slotsOfBanks 1).filter (· != 0), occupancy := [0], tokenMap := [(9, 0)], tokenCounter := 10 }

/-- The part with that domain, a step due and a storage error due in it. -/
def agreeing : State :=
  { withDom agreeing0 [(0, slotOf 3 (recordIn 1 .exclusive .held 0 (some 9)))] with
    pending := [.timeCountAdvance], upsets := [[⟨0, .recordBit⟩]] }

theorem agreeing_record (i : SlotId) (h : i ≠ 0) : poolGet agreeing.pool i = .reset := by
  simp [agreeing, withDom, poolGet, Ne.symm h]

theorem agreeing_domain (d : DomainId) : agreeing.domain d = if d = 0 then agreeing0 else .reset := by
  simp only [State.domain, agreeing, withDom, look, put, State.reset, Vector.getElem_set, Vector.getElem_replicate]
  by_cases h : d = 0
  · simp [h]
  · have : ¬ (0 : Nat) = d.val := fun e => h (Fin.ext e.symm)
    simp [h, this]

theorem agreeing_other (d : DomainId) (h : d ≠ 0) : (agreeing.domain d).state = .disabled := by
  rw [agreeing_domain, if_neg h]; rfl

theorem agreeing_zero : agreeing.domain 0 = agreeing0 := by
  rw [agreeing_domain, if_pos rfl]

theorem agreeing_cleared (i : SlotId) (h : i ≠ 0) : recordOf agreeing.pool i = .cleared := by
  rw [recordOf, agreeing_record i h]; rfl

theorem agreeing_places (i : SlotId) (hi : inBanks 1 i = true) : agreeing0.placesRecord i (recordOf agreeing.pool i) := by
  have hm := (mem_slotsOfBanks 1 i).mpr hi
  by_cases e : i = 0
  · subst e
    have hr : recordOf agreeing.pool 0 = recordIn 1 .exclusive .held 0 (some 9) := rfl
    rw [hr]
    constructor <;> simp [agreeing0, dom0, Domain.reset, recordIn, Record.cleared, eq_comm]
  · rw [agreeing_cleared i e]
    constructor <;> simp [agreeing0, dom0, Domain.reset, Record.cleared, e]
    exact hm

theorem agreeing_owned : agreeing.collectionsOwned := by
  intro d
  by_cases h : d = 0
  · subst h
    rw [agreeing_zero]
    refine ⟨?_, fun h => nomatch h⟩
    simp only [Domain.slotsOwned, agreeing0, dom0, Bool.and_eq_true, List.all_eq_true]
    refine ⟨⟨⟨fun i hi => (mem_slotsOfBanks _ i).mp (List.mem_filter.mp hi).1, fun i hi => nomatch hi⟩, ?_⟩, ?_⟩ <;>
      · intro i hi
        rw [List.mem_singleton] at hi
        subst hi
        decide
  · rw [agreeing_domain, if_neg h]
    decide

/-- The records of a state agree with its collections where it has a record and a domain in service. -/
theorem witness_EveryStepKeepsDomainsApart_records :
    agreeing.recordsAgree ∧ agreeing.copiesSpared ∧ Pool.wf agreeing.pool = true ∧ agreeing.domainsApart ∧ agreeing.collectionsOwned ∧
      after (step agreeing) (fun t => (t.time, (poolGet t.pool 0).health)) = some (1, .oneBit) := by
  refine ⟨⟨?_, ?_, ?_, ?_, ?_⟩, by unfold State.copiesSpared; decide, by decide, ?_, agreeing_owned, by decide +kernel⟩
  · intro d hd _
    by_cases h : d = 0
    · subst h
      rw [agreeing_zero]
      refine ⟨by simp only [agreeing0]; exact (nodup_slotsOfBanks _).filter _, agreeing_places, ?_, ?_, ?_⟩
      · intro k i j hi hj
        simp only [agreeing0, List.mem_singleton, Prod.mk.injEq] at hi hj
        rw [hi.2, hj.2]
      · intro _ e he
        simp only [agreeing0, List.mem_singleton] at he
        subst he
        decide
      · intro i j _ _ hij m n hm hn _
        by_cases e : i = 0
        · rw [agreeing_cleared j (e ▸ Ne.symm hij)] at hn
          exact nomatch hn
        · rw [agreeing_cleared i e] at hm
          exact nomatch hm
    · exact absurd (agreeing_other d h) hd
  · intro d j hs
    by_cases h : d = 0
    · subst h; rw [agreeing_zero] at hs; exact nomatch hs
    · rw [agreeing_other d h] at hs; exact nomatch hs
  · intro d i hs
    by_cases h : d = 0
    · subst h; rw [agreeing_zero] at hs; exact nomatch hs
    · rw [agreeing_other d h] at hs; exact nomatch hs
  · intro i hi
    by_cases e : i = 0
    · subst e
      exact absurd (agreeing_zero ▸ hi 0) (by decide)
    · rw [agreeing_cleared i e]; rfl
  · intro i
    by_cases e : i = 0
    · subst e; decide
    · rw [agreeing_cleared i e, agreeing_record i e]; decide
  · intro a b hab ha hb
    by_cases h : a = 0
    · exact absurd (agreeing_other b (h ▸ Ne.symm hab)) hb
    · exact absurd (agreeing_other a h) ha

theorem witness_WhatServiceKeeps :
    ((withAgent online).setDomain 0 dom0).collectionsOwned ∧
      (((withAgent online).setDomain 0 dom0).domain 0).state ≠ .disabled ∧
      (((withAgent online).setDomain 0 dom0).agent 0).state ≠ .disabled ∧
      after (exec .start ((withAgent online).setDomain 0 dom0)) (fun t => ((t.domain 0).configuration, (t.agent 0).quota)) =
        some (dom0.configuration, 2) := by
  refine ⟨?_, by decide, by decide, by decide⟩
  unfold State.collectionsOwned
  decide

theorem witness_EventsStayInTheirUnit :
    ((reclaiming .enabled).domain 0).slotsOwned = true ∧ ((reclaiming .enabled).domain 0).scrubPos = none ∧
      ((visiting 255 (slotOf 3 (recordIn 1 .shared .held 0 (some 9)))).domain 0).scrubPos = some 255 ∧
      inBanks ((visiting 255 (slotOf 3 (recordIn 1 .shared .held 0 (some 9)))).domain 0).banks 255 = true ∧
      (after (exec (.reclaim 0) (reclaiming .enabled)) (fun _ => true)) = some true ∧
      ownerOf (timed { dom0 with waitQueue := [255] } (waitingTo .waiting 1000)) 255 = some 0 ∧
      (after (exec (.frameSend 0) (porting (busy 0 0 false))) (fun t => t.time)) = some 1000 := by
  decide +kernel

end Sys2Proof.Tests
end

section
/-! The lock table and the record pool after COLD_RESET (R13, R165). -/

namespace Sys2Proof.Machine

@[simp] theorem reset_domain (d : DomainId) : State.reset.domain d = .reset := look_replicate Domain.reset d

/-- COLD_RESET lists no slot, so each reads as `Slot.reset`. -/
@[simp] theorem poolGet_reset (i : SlotId) : poolGet State.reset.pool i = .reset := rfl

@[simp] theorem reset_live (a : AgentId) : look Domain.reset.live a = 0 := look_replicate 0 a

/-- The three copies of R165 agree after a cold reset, so their majority is the entry each of them holds. -/
@[simp] theorem reset_directory : Slot.reset.directory = ⟨0, true⟩ := majority_same ⟨0, true⟩

/-- All that COLD_RESET keeps: the messages on GD_IN (log 17), the commands (log 1) and the storage errors to come (log 5). -/
theorem exec_coldReset (s : State) : exec .coldReset s = .next { State.reset with
    gate := { GateUnit.reset with port := s.gate.port }
    pending := s.pending
    upsets := s.upsets } := rfl

/-- What COLD_RESET keeps lies outside the lock table: every domain and every slot is in its reset state. -/
theorem exec_coldReset_lockTable (s : State) : ∃ t, exec .coldReset s = .next t ∧
    (∀ d, t.domain d = .reset) ∧ ∀ i, poolGet t.pool i = .reset :=
  ⟨_, exec_coldReset s, reset_domain, poolGet_reset⟩

/-- Settles O4: each item of R13 is read off the reset values of a domain and of a slot. -/
theorem coldResetOfTheLockTable : Obligations.ColdResetOfTheLockTable := by
  intro s
  obtain ⟨t, hexec, hdomain, hslot⟩ := exec_coldReset_lockTable s
  refine ⟨t, hexec, fun d => ?_, fun i => ?_⟩
  · rw [hdomain d]
    exact ⟨rfl, rfl, rfl, rfl, rfl, rfl, rfl, rfl, rfl, rfl, reset_live, rfl, rfl⟩
  · rw [hslot i, reset_directory]

end Sys2Proof.Machine
end

section
/-! A domain's answer to a lock request that changes nothing else (R26), and an ACQUIRE's checks before its searches (R2, R27 to
R29). -/

namespace Sys2Proof.Machine

/-! ### Taking a request and returning its result -/

@[simp] theorem popSession_state (t : LockTable) : (popSession t).dom.state = t.dom.state := rfl

@[simp] theorem popSession_limit (t : LockTable) : (popSession t).dom.limit = t.dom.limit := rfl

@[simp] theorem popSession_holds (t : LockTable) (p : Page) : (popSession t).dom.holds p = t.dom.holds p := rfl

/-- Returning a result for the request at the head of the session unit's items is the domain's answer, and the walk of the domain
goes on: the state of the domain stays (R6). -/
theorem withTable_returnResult_popSession {s : State} {d : DomainId} {i : SessionItem} {rest : List SessionItem}
    (hhead : (s.domain d).fromSession = i :: rest) (q : LockRequest) (r : Response) (c : Option LiveChange) :
    s.withTable d (returnResult q r c (popSession (s.table d))) = s.setDomain d ((s.domain d).answered rest q r c) := by
  have hdom : returnResult q r c (popSession (s.table d)) = ⟨(s.domain d).answered rest q r c, s.pool⟩ := by
    simp [returnResult, popSession, State.table, Domain.answered, hhead]
  have hstate : ((s.domain d).answered rest q r c).state ≠ .disabled ∨ (s.domain d).state = .disabled :=
    (Decidable.em ((s.domain d).state = .disabled)).symm
  rw [hdom, withTable_putTable s d _ _ hstate, putTable_pool]

/-! ### The checks of an ACQUIRE, in their order -/

section Checks

variable {e : DomainEnv} {q : LockRequest} {mode : Mode} {first : Page} {count : Nat} {cookie : BitVec 16} {code : WaitCode}
  {t : LockTable}

theorem decideAcquire_noDomain (hpage : t.dom.holds first = false) :
    decideAcquire e q mode first count cookie code t = .ok (.refused .noDomain) t := by
  simp [decideAcquire, hpage]

theorem decideAcquire_spanInvalid (hpage : t.dom.holds first = true) (hspan : t.dom.limit.toNat < lastPage first count) :
    decideAcquire e q mode first count cookie code t = .ok (.refused .spanInvalid) t := by
  simp [decideAcquire, hpage, hspan]

/-- Past the checks of the range, the state and the quota decide (R28, R29). -/
theorem decideAcquire_inWindow (hpage : t.dom.holds first = true) (hspan : lastPage first count ≤ t.dom.limit.toNat) :
    decideAcquire e q mode first count cookie code t =
      if t.dom.unavailable then .ok (.refused .domainUnavailable) t
      else if t.dom.state = .closing then .ok (.refused .domainClosing) t
      else if q.quota ≤ q.live then .ok (.refused .quotaExceeded) t
      else decideInDomain e q.agent mode first count cookie code t := by
  simp [decideAcquire, hpage, Nat.not_lt.mpr hspan]

theorem decideAcquire_domainUnavailable (hpage : t.dom.holds first = true) (hspan : lastPage first count ≤ t.dom.limit.toNat)
    (hstate : t.dom.state = .quarantined ∨ t.dom.state = .scrubbing) :
    decideAcquire e q mode first count cookie code t = .ok (.refused .domainUnavailable) t := by
  have hunavailable : t.dom.unavailable = true := by simpa [Domain.unavailable] using hstate
  rw [decideAcquire_inWindow hpage hspan, if_pos hunavailable]

theorem decideAcquire_domainClosing (hpage : t.dom.holds first = true) (hspan : lastPage first count ≤ t.dom.limit.toNat)
    (hstate : t.dom.state = .closing) :
    decideAcquire e q mode first count cookie code t = .ok (.refused .domainClosing) t := by
  simp [decideAcquire_inWindow hpage hspan, Domain.unavailable, hstate]

theorem decideAcquire_quotaExceeded (hpage : t.dom.holds first = true) (hspan : lastPage first count ≤ t.dom.limit.toNat)
    (hstate : t.dom.state = .enabled) (hquota : q.quota ≤ q.live) :
    decideAcquire e q mode first count cookie code t = .ok (.refused .quotaExceeded) t := by
  simp [decideAcquire_inWindow hpage hspan, Domain.unavailable, hstate, hquota]

end Checks

/-! ### The command -/

theorem exec_acquire (dest : Option DomainId) (s : State) : exec (.acquire dest) s = execAcquire dest s := rfl

/-- An ACQUIRE that resolved to no domain is answered without one (R2). -/
theorem exec_acquire_none {s : State} {q : LockRequest} {rest : List LockRequest} (hhead : s.noDomain.requests = q :: rest) :
    exec (.acquire none) s = .next { s with noDomain := { s.noDomain with
      requests := rest, toSession := s.noDomain.toSession ++ [.result q.agent q.stamp (.refused .noDomain) none q.era] } } := by
  simp only [exec_acquire, execAcquire, hhead]

section Request

variable {s : State} {d : DomainId} {q : LockRequest} {rest : List SessionItem} {mode : Mode} {first : Page} {count : Nat}
  {cookie : BitVec 16} {code : WaitCode}

/-- The domain at whose head an ACQUIRE stands decides it (R26). -/
theorem exec_acquire_request (hhead : (s.domain d).fromSession = .request q :: rest)
    (hbody : q.body = .acquire mode first count cookie code) :
    exec (.acquire (some d)) s = .next (s.withTable d (returnDecision q acquireReport
      (decideAcquire (envOf s d) q mode first count cookie code (popSession (s.table d))))) := by
  obtain ⟨a, quota, live, stamp, era, body⟩ := q
  subst hbody
  simp only [exec_acquire, execAcquire, hhead]

/-- An ACQUIRE refused with the lock table as it stood changes nothing but the result handed back. -/
theorem exec_acquire_refused {c : ResultRefusal} (hhead : (s.domain d).fromSession = .request q :: rest)
    (hbody : q.body = .acquire mode first count cookie code)
    (hrefused : decideAcquire (envOf s d) q mode first count cookie code (popSession (s.table d)) =
      .ok (.refused c) (popSession (s.table d))) :
    exec (.acquire (some d)) s = .next (s.setDomain d ((s.domain d).answered rest q (.refused c) none)) := by
  rw [exec_acquire_request hhead hbody, hrefused]
  exact congrArg _ (withTable_returnResult_popSession hhead q (.refused c) none)

end Request

/-- Settles O32: each clause is one check of `decideAcquire`, met after the checks before it have passed. -/
theorem acquireRefusedBeforeItsSearches : Obligations.AcquireRefusedBeforeItsSearches := by
  refine ⟨fun s d q rest mode first count cookie code hhead hbody => ⟨?noDomain, ?spanInvalid, fun hpage hspan => ⟨?unavailable,
    ?closing, ?quota⟩⟩, fun s q rest hhead => exec_acquire_none hhead⟩
  case noDomain =>
    exact fun hpage => exec_acquire_refused hhead hbody (decideAcquire_noDomain hpage)
  case spanInvalid =>
    exact fun hpage hspan => exec_acquire_refused hhead hbody (decideAcquire_spanInvalid hpage hspan)
  case unavailable =>
    exact fun hstate => exec_acquire_refused hhead hbody (decideAcquire_domainUnavailable hpage hspan hstate)
  case closing =>
    exact fun hstate => exec_acquire_refused hhead hbody (decideAcquire_domainClosing hpage hspan hstate)
  case quota =>
    exact fun hstate hquota => exec_acquire_refused hhead hbody (decideAcquire_quotaExceeded hpage hspan hstate hquota)

end Sys2Proof.Machine
end

section
/-! Session conditions and SESSION_ACK at the notice unit (R105, R111). -/

namespace Sys2Proof.Machine

/-! ### The agent's entry after each event -/

/-- A condition added is the union with the set of that condition alone. -/
theorem Conditions.add_eq_union (x : Conditions) (c : Condition) : x.add c =
    ⟨x.lapsed || (Conditions.none.add c).lapsed, x.evicted || (Conditions.none.add c).evicted,
      x.lost ||| (Conditions.none.add c).lost⟩ := by
  cases c <;> simp [Conditions.add, Conditions.none]

section Entry

variable {a : NoticeAgent}

theorem addCondition_sessionSent {y : Conditions} (hmarker : a.marker = .sessionSent y) (c : Condition) : addCondition a c =
    { a with conditions := a.conditions.add c, marker := .sessionSent (y.minus (Conditions.none.add c)) } := by
  simp [addCondition, hmarker]

/-- Only a SESSION_NOTICE in delivery holds conditions to take the posted one out of. -/
theorem addCondition_of_not_sessionSent (hmarker : ∀ y, a.marker ≠ .sessionSent y) (c : Condition) :
    addCondition a c = { a with conditions := a.conditions.add c } := by
  cases hm : a.marker with
  | sessionSent y => exact absurd hm (hmarker y)
  | ready | claiming h | recordSent h | acking h => simp [addCondition, hm]

theorem emptyConditions_sessionSent {y : Conditions} (hmarker : a.marker = .sessionSent y) : emptyConditions a =
    { a with conditions := .none, marker := .ready, retracted := some .session } := by
  simp [emptyConditions, hmarker]

theorem emptyConditions_of_not_sessionSent (hmarker : ∀ y, a.marker ≠ .sessionSent y) :
    emptyConditions a = { a with conditions := .none } := by
  cases hm : a.marker with
  | sessionSent y => exact absurd hm (hmarker y)
  | ready | claiming h | recordSent h | acking h => simp [emptyConditions, hm]

end Entry

/-! ### The items of the session unit (R105) -/

theorem exec_sessionConditionPost {s : State} {n : AgentId} {c : Condition} {era : Nat} {rest : List ConditionItem}
    (hhead : s.notice.conditions = .post n c era :: rest) (hera : s.notice.era ≤ era) :
    exec .sessionConditionPost s = .next (beginDelivery (State.setNotice
      { s with notice := { s.notice with conditions := rest } } n (addCondition (s.noticeAgent n) c)) n) := by
  change execSessionConditionPost s = _
  simp [execSessionConditionPost, hhead, Nat.not_lt.mpr hera, State.noticeAgent]

theorem exec_sessionSetEmpty {s : State} {n : AgentId} {era : Nat} {rest : List ConditionItem}
    (hhead : s.notice.conditions = .empty n era :: rest) (hera : s.notice.era ≤ era) :
    exec .sessionSetEmpty s = .next (beginDelivery (State.setNotice
      { s with notice := { s.notice with conditions := rest } } n (emptyConditions (s.noticeAgent n))) n) := by
  change execSessionSetEmpty s = _
  simp [execSessionSetEmpty, hhead, Nat.not_lt.mpr hera, State.noticeAgent]

/-! ### The acknowledgement (R111) -/

@[simp] theorem setNotice_setNotice (s : State) (n : AgentId) (x y : NoticeAgent) :
    (s.setNotice n x).setNotice n y = s.setNotice n y := by
  simp [State.setNotice]

theorem exec_sessionAck {s : State} {n : AgentId} {era : Nat} {rest : List AckItem}
    (hhead : (s.noticeAgent n).acks = .session era :: rest) (hera : s.notice.era ≤ era) :
    exec (.sessionAck n) s = .next (takeSessionAck (s.setNotice n { s.noticeAgent n with acks := rest }) n) := by
  change execSessionAck n s = _
  simp [execSessionAck, hhead, Nat.not_lt.mpr hera]

section Ack

variable {s : State} {n : AgentId}

theorem takeSessionAck_sessionSent {y : Conditions} (hmarker : (s.noticeAgent n).marker = .sessionSent y) :
    takeSessionAck s n = beginDelivery (s.setNotice n { s.noticeAgent n with
      conditions := (s.noticeAgent n).conditions.minus y, marker := .ready }) n := by
  simp [takeSessionAck, hmarker]

/-- With no SESSION_NOTICE in delivery the retracted mark decides, whatever else is in delivery. -/
theorem takeSessionAck_of_not_sessionSent (hmarker : ∀ y, (s.noticeAgent n).marker ≠ .sessionSent y) :
    takeSessionAck s n = if (s.noticeAgent n).retracted = some .session
      then s.setNotice n { s.noticeAgent n with retracted := none } else reportNotice s .linkProtocol n := by
  cases hm : (s.noticeAgent n).marker with
  | sessionSent y => exact absurd hm (hmarker y)
  | ready | claiming h | recordSent h | acking h => simp only [takeSessionAck, hm]

end Ack

/-- Settles O47: each command is the event it takes on the agent's entry, told apart by whether a SESSION_NOTICE is in delivery
and, for an acknowledgement that meets none, by the retracted mark. -/
theorem sessionConditions : Obligations.SessionConditions := by
  refine ⟨fun s n c era rest hhead hera => ⟨?postSent, ?postNotSent⟩,
    fun s n era rest hhead hera => ⟨?emptySent, ?emptyNotSent⟩,
    fun s n era rest hhead hera => ⟨?ackSent, ?ackRetracted, ?ackUnexpected⟩⟩
  case postSent =>
    intro y hmarker
    rw [exec_sessionConditionPost hhead hera, addCondition_sessionSent hmarker, Conditions.add_eq_union]
    rfl
  case postNotSent =>
    intro hmarker
    rw [exec_sessionConditionPost hhead hera, addCondition_of_not_sessionSent hmarker, Conditions.add_eq_union]
  case emptySent =>
    intro y hmarker
    rw [exec_sessionSetEmpty hhead hera, emptyConditions_sessionSent hmarker]
  case emptyNotSent =>
    intro hmarker
    rw [exec_sessionSetEmpty hhead hera, emptyConditions_of_not_sessionSent hmarker]
  case ackSent =>
    intro y hmarker
    rw [exec_sessionAck hhead hera, takeSessionAck_sessionSent (by simpa using hmarker)]
    simp [Conditions.minus]
  case ackRetracted =>
    intro hmarker hretracted
    rw [exec_sessionAck hhead hera, takeSessionAck_of_not_sessionSent (by simpa using hmarker), if_pos (by simpa using hretracted)]
    simp
  case ackUnexpected =>
    intro hmarker hretracted
    rw [exec_sessionAck hhead hera, takeSessionAck_of_not_sessionSent (by simpa using hmarker), if_neg (by simpa using hretracted)]

end Sys2Proof.Machine
end

section
/-! The fault unit's registers, its FAULT_N pin and the capture clear bit (R171, R173). -/

namespace Sys2Proof.Machine

/-! ### Kinds and their bits (10 10.2) -/

theorem EventKind.number_lt (k : EventKind) : k.number < 9 := by
  cases k <;> decide

/-- Every bit of registers 0020h and 0021h belongs to a kind. -/
theorem EventKind.exists_number_eq {i : Nat} (hi : i < 9) : ∃ k : EventKind, k.number = i :=
  match i, hi with
  | 0, _ => ⟨.recordCorrected, rfl⟩
  | 1, _ => ⟨.recordUncorrectable, rfl⟩
  | 2, _ => ⟨.drainOverrun, rfl⟩
  | 3, _ => ⟨.tokensExhausted, rfl⟩
  | 4, _ => ⟨.strayDone, rfl⟩
  | 5, _ => ⟨.linkProtocol, rfl⟩
  | 6, _ => ⟨.linkRetrain, rfl⟩
  | 7, _ => ⟨.agentLapsed, rfl⟩
  | 8, _ => ⟨.commandRefused, rfl⟩

/-- A set of kinds is not empty where some kind's bit is set. -/
theorem ne_zero_iff_exists_kind (x : BitVec 9) : x ≠ 0 ↔ ∃ k : EventKind, x.getLsbD k.number = true := by
  constructor
  · intro hx
    by_contra hnone
    refine hx (BitVec.eq_of_getLsbD_eq fun i hi => ?_)
    obtain ⟨k, rfl⟩ := EventKind.exists_number_eq hi
    simpa using fun hk => hnone ⟨k, hk⟩
  · rintro ⟨k, hk⟩ rfl
    simp at hk

@[simp] theorem EventKind.getLsbD_mask_self (k : EventKind) : k.mask.getLsbD k.number = true := by
  rw [EventKind.mask, BitVec.getLsbD_ofNat, Nat.testBit_two_pow_self, decide_eq_true k.number_lt, Bool.and_self]

/-! ### FAULT_N -/

theorem FaultUnit.pinAsserted_iff (f : FaultUnit) : f.pinAsserted = true ↔
    ∃ k : EventKind, f.sticky.getLsbD k.number = true ∧ f.enables.getLsbD k.number = true := by
  calc f.pinAsserted = true
    _ ↔ f.sticky &&& f.enables ≠ 0 := bne_iff_ne
    _ ↔ ∃ k : EventKind, (f.sticky &&& f.enables).getLsbD k.number = true := ne_zero_iff_exists_kind _
    _ ↔ _ := by simp only [BitVec.getLsbD_and, Bool.and_eq_true]

/-! ### The capture record (R172, R173) -/

theorem FaultUnit.clearCapture_of_empty {f : FaultUnit} (hcapture : f.capture = none) (hmissed : f.missed = false) :
    f.clearCapture = f := by
  rw [FaultUnit.clearCapture, ← hcapture, ← hmissed]

theorem FaultUnit.getLsbD_sticky_take (f : FaultUnit) (r : Report) :
    (f.take r).sticky.getLsbD r.kind.number = true := by
  simp [FaultUnit.take]

/-- A FAULT-class report fills a record just cleared, so it is not missed. -/
theorem FaultUnit.take_clearCapture_of_isFault (f : FaultUnit) {r : Report} (hfault : r.kind.isFault = true) :
    (f.clearCapture.take r).capture = some r ∧ (f.clearCapture.take r).missed = false := by
  simp [FaultUnit.clearCapture, FaultUnit.take, captureAfter, hfault]

/-- One write of register 0022h stores capture notes and, where bit 1 is 1, clears the capture. -/
theorem writeCaptureControl_eq (f : FaultUnit) (v : Word) : writeCaptureControl f v =
    { f with
      notes := v.getLsbD 0
      capture := if v.getLsbD 1 then none else f.capture
      missed := if v.getLsbD 1 then false else f.missed } := by
  unfold writeCaptureControl
  split <;> rfl

/-- A flag is read at its own bit alone. -/
theorem getLsbD_place_bit_of_ne (b : Bool) {i lo : Nat} (hne : i ≠ lo) : (place (bit b) lo).getLsbD i = false := by
  rcases Nat.lt_or_gt_of_ne hne with hlt | hgt
  · simp [place, hlt]
  · have hoffset : i - lo ≠ 0 := by omega
    cases b <;> simp [place, bit, BitVec.getLsbD_one, hoffset]

/-- The capture clear bit has no place among the flags of the register's read. -/
theorem getLsbD_captureControl_clear (f : FaultUnit) : (captureControl f).getLsbD 1 = false := by
  simp (disch := decide) only [captureControl, BitVec.getLsbD_or, getLsbD_place_bit_of_ne, Bool.or_self]

/-! ### The commands -/

theorem exec_interruptEnablesWrite (s : State) (v : Word) :
    exec (.interruptEnablesWrite v) s = .next (s.setFault (s.fault.setEnables v)) := rfl

theorem exec_captureClear (s : State) : exec .captureClear s = .next (s.setFault s.fault.clearCapture) := rfl

theorem exec_faultReport {s : State} {src : Source} {r : Report} {rest : List Report} (hhead : reportsOf s src = r :: rest) :
    exec (.faultReport src) s = .next ((withReports s src rest).setFault (s.fault.take r)) := by
  have hexec : exec (.faultReport src) s = execFaultReport src s := rfl
  simp only [hexec, execFaultReport, hhead]

/-- The reports that wait do not stand in the fault unit. -/
@[simp] theorem reportsOf_setFault (s : State) (f : FaultUnit) (src : Source) : reportsOf (s.setFault f) src = reportsOf s src := by
  cases src <;> rfl

theorem exec_registerWrite_enables (s : State) (v : Word) :
    exec (.registerWrite 0x0021 v) s = .next (s.setFault (s.fault.setEnables v)) := rfl

theorem exec_registerWrite_captureControl (s : State) (v : Word) :
    exec (.registerWrite 0x0022 v) s = .next (s.setFault (writeCaptureControl s.fault v)) := rfl

theorem readRegister_captureControl (s : State) : readRegister s 0x0022 = captureControl s.fault := rfl

/-- Settles O8: the pin follows `FaultUnit.pinAsserted_iff`, and after a cold reset no sticky bit is set. -/
theorem interruptEnablesAndThePin : Obligations.InterruptEnablesAndThePin :=
  ⟨fun s v => ⟨exec_interruptEnablesWrite s v, exec_registerWrite_enables s v⟩, fun s => s.fault.pinAsserted_iff, rfl⟩

/-- Settles O10: the two orders of a clear and a report are the fault unit's `take` and `clearCapture` in either order. -/
theorem captureClear : Obligations.CaptureClear := by
  refine ⟨exec_captureClear, ?emptyRecord, ?reportThenClear, ?clearThenReport, ?register,
    fun s => getLsbD_captureControl_clear s.fault⟩
  case emptyRecord =>
    intro s hcapture hmissed
    rw [exec_captureClear, FaultUnit.clearCapture_of_empty hcapture hmissed]
    rfl
  case reportThenClear =>
    intro s t u src r rest hhead _ hreport hclear
    rw [exec_faultReport hhead] at hreport
    cases hreport
    cases hclear
    exact ⟨rfl, rfl, s.fault.getLsbD_sticky_take r⟩
  case clearThenReport =>
    intro s t u src r rest hhead hfault hclear hreport
    cases hclear
    rw [exec_faultReport ((reportsOf_setFault s _ src).trans hhead)] at hreport
    cases hreport
    obtain ⟨hcapture, hmissed⟩ := s.fault.take_clearCapture_of_isFault hfault
    exact ⟨hcapture, hmissed, s.fault.clearCapture.getLsbD_sticky_take r⟩
  case register =>
    intro s v
    rw [exec_registerWrite_captureControl, writeCaptureControl_eq]
    rfl

end Sys2Proof.Machine
end

section
/-! What a command does to the units of the part besides the lock table (`Outside`), and to the lock table where it only hands
items over (`LockStays`): two preorders, one lemma per update of the state, then one per shared operation. -/

set_option Elab.async false

namespace Sys2Proof.Machine

/-! ### The relations -/

/-- What an agent's entry keeps at every event but its JOIN and a register write: its form, quota, bound and epoch. -/
structure AgentStays (a b : Agent) : Prop where
  ok : a.ok = true → b.ok = true
  quota : b.quota = a.quota
  bound : b.bound = a.bound
  epoch : b.epoch = a.epoch

theorem AgentStays.refl (a : Agent) : AgentStays a a := ⟨id, rfl, rfl, rfl⟩

theorem AgentStays.trans {a b c : Agent} (h : AgentStays a b) (g : AgentStays b c) : AgentStays a c :=
  ⟨g.ok ∘ h.ok, g.quota.trans h.quota, g.bound.trans h.bound, g.epoch.trans h.epoch⟩

/-- The form of a link port, with the size of its response queue (07 7.1, R147). -/
def LinkPort.sound (p : LinkPort) : Prop :=
  p.ok = true ∧ p.responses.length ≤ Config.responsePlaces

/-- A domain without the queues of what it has been handed and has yet to hand over. -/
def Domain.body (x : Domain) : Domain :=
  { x with
    reclaimed := Vector.replicate 16 0, fromSession := [], fromNotice := [], checks := [], dones := [], toSession := []
    toNotice := [], verdicts := [], reports := [] }

/-- What a domain is asked for besides its queues is a function of its body. -/
theorem eq_of_body {α : Type} (f : Domain → α) {x y : Domain} (h : x.body = y.body) (hf : ∀ z : Domain, f z.body = f z := by
    exact fun _ => rfl) : f x = f y :=
  (hf x).symm.trans ((congrArg f h).trans (hf y))

/-- What stays outside the lock table: time count, part mode and the waiting commands; the form of every agent, of the gate and of
every link. -/
structure Outside (s t : State) : Prop where
  time : t.time = s.time
  mode : t.management.mode = s.management.mode
  pending : t.pending = s.pending
  agent : ∀ n, AgentStays (s.agent n) (t.agent n)
  gate : s.gate.bounded = true → t.gate.bounded = true
  link : ∀ n, (s.link n).sound → (t.link n).sound

/-- The lock table stays, but for the queues between its domains and other units. -/
structure LockStays (s t : State) : Prop where
  pool : t.pool = s.pool
  body : ∀ d, (t.domain d).body = (s.domain d).body

/-- A command that does its work outside the lock table. -/
structure Quiet (s t : State) : Prop where
  outside : Outside s t
  lock : LockStays s t

theorem Outside.trans {s t u : State} (h : Outside s t) (g : Outside t u) : Outside s u :=
  ⟨g.time.trans h.time, g.mode.trans h.mode, g.pending.trans h.pending, fun n => (h.agent n).trans (g.agent n),
    g.gate ∘ h.gate, fun n => g.link n ∘ h.link n⟩

theorem LockStays.trans {s t u : State} (h : LockStays s t) (g : LockStays t u) : LockStays s u :=
  ⟨g.pool.trans h.pool, fun d => (g.body d).trans (h.body d)⟩

theorem Quiet.trans {s t u : State} (h : Quiet s t) (g : Quiet t u) : Quiet s u :=
  ⟨h.outside.trans g.outside, h.lock.trans g.lock⟩

theorem Outside.of_units {s t : State} (ht : t.time = s.time) (hm : t.management.mode = s.management.mode)
    (hp : t.pending = s.pending) (ha : t.session.agents = s.session.agents) (hg : t.gate = s.gate) (hl : t.links = s.links) :
    Outside s t := by
  refine ⟨ht, hm, hp, fun n => ?_, fun h => hg ▸ h, fun n => ?_⟩
  · rw [State.agent, State.agent, ha]
    exact AgentStays.refl _
  · rw [State.link, State.link, hl]
    exact id

theorem LockStays.of_same {s t : State} (hp : t.pool = s.pool) (hd : t.domains = s.domains) : LockStays s t :=
  ⟨hp, fun d => by rw [State.domain, State.domain, hd]⟩

theorem Quiet.refl (s : State) : Quiet s s :=
  ⟨.of_units rfl rfl rfl rfl rfl rfl, .of_same rfl rfl⟩

/-! ### One unit replaced -/

section Updates

variable {s : State}

theorem quiet_setAgent {n : AgentId} {x : Agent} (h : AgentStays (s.agent n) x) : Quiet s (s.setAgent n x) := by
  refine ⟨⟨rfl, rfl, rfl, fun k => ?_, id, fun k => id⟩, .of_same rfl rfl⟩
  by_cases hk : k = n
  · subst hk
    rw [setAgent_agent_same]
    exact h
  · rw [setAgent_agent_ne s x hk]
    exact AgentStays.refl _

theorem quiet_setLink {n : AgentId} {p : LinkPort} (h : (s.link n).sound → p.sound) : Quiet s (s.setLink n p) := by
  refine ⟨⟨rfl, rfl, rfl, fun k => AgentStays.refl _, id, fun k => ?_⟩, .of_same rfl rfl⟩
  by_cases hk : k = n
  · subst hk
    rw [setLink_link_same]
    exact h
  · rw [setLink_link_ne s p hk]
    exact id

theorem quiet_setDomain {d : DomainId} {x : Domain} (h : x.body = (s.domain d).body := by rfl) : Quiet s (s.setDomain d x) := by
  refine ⟨.of_units rfl rfl rfl rfl rfl rfl, rfl, fun k => ?_⟩
  by_cases hk : k = d
  · subst hk
    rw [setDomain_domain_same, h]
  · rw [setDomain_domain_ne s x hk]

theorem quiet_mapDomains {f : Domain → Domain} (h : ∀ x, (f x).body = x.body) :
    Quiet s { s with domains := mapTable f s.domains } :=
  ⟨.of_units rfl rfl rfl rfl rfl rfl, rfl, fun d => (congrArg Domain.body (look_mapTable f s.domains d)).trans (h _)⟩

theorem quiet_notice (x : NoticeUnit) : Quiet s { s with notice := x } :=
  ⟨.of_units rfl rfl rfl rfl rfl rfl, .of_same rfl rfl⟩

theorem quiet_setNotice (n : AgentId) (x : NoticeAgent) : Quiet s (s.setNotice n x) := quiet_notice _

theorem quiet_noDomain (x : NoDomain) : Quiet s { s with noDomain := x } :=
  ⟨.of_units rfl rfl rfl rfl rfl rfl, .of_same rfl rfl⟩

theorem quiet_setGate {x : GateUnit} (h : s.gate.bounded = true → x.bounded = true) : Quiet s (s.setGate x) :=
  ⟨⟨rfl, rfl, rfl, fun _ => AgentStays.refl _, h, fun _ => id⟩, .of_same rfl rfl⟩

theorem quiet_setFault (x : FaultUnit) : Quiet s (s.setFault x) :=
  ⟨.of_units rfl rfl rfl rfl rfl rfl, .of_same rfl rfl⟩

theorem quiet_setManagement {x : Management} (h : x.mode = s.management.mode := by rfl) : Quiet s (s.setManagement x) :=
  ⟨.of_units rfl h rfl rfl rfl rfl, .of_same rfl rfl⟩

/-! ### Reports, answers -/

theorem quiet_reportManagement (k : EventKind) (d : Option DomainId) (a : Option AgentId) :
    Quiet s (reportManagement s k d a) := quiet_setManagement

theorem quiet_sessionReports (l : List Report) : Quiet s { s with session := { s.session with reports := l } } :=
  ⟨.of_units rfl rfl rfl rfl rfl rfl, .of_same rfl rfl⟩

theorem quiet_reportSession (k : EventKind) (a : AgentId) : Quiet s (reportSession s k a) := quiet_sessionReports _

theorem quiet_reportNotice (k : EventKind) (a : AgentId) : Quiet s (reportNotice s k a) := quiet_notice _

theorem quiet_reportDomain (k : EventKind) (d : DomainId) : Quiet s (reportDomain s k d) := quiet_setDomain

theorem quiet_answer (c : Command) (a : Answer) : Quiet s (answer s c a) := quiet_setManagement

theorem quiet_refuseBusy (c : Command) : Quiet s (refuseBusy s c) := quiet_reportManagement ..

theorem quiet_refuseByDomain (c : Command) (d : DomainId) (r : Reason) : Quiet s (refuseByDomain s c d r) :=
  (quiet_reportDomain ..).trans (quiet_answer ..)

theorem quiet_refuseBySession (c : Command) (n : AgentId) (r : Reason) : Quiet s (refuseBySession s c n r) :=
  (quiet_reportSession ..).trans (quiet_answer ..)

theorem quiet_restartTaken (due : RestartDue) : Quiet s (restartTaken s due) := quiet_setManagement

theorem quiet_issueCommand (c : Command) : Quiet s (issueCommand s c) := by
  simp only [issueCommand]
  split
  · exact quiet_refuseBusy c
  · exact quiet_setManagement

/-! ### What the session unit hands over -/

theorem quiet_handDomain (d : DomainId) (x : SessionItem) : Quiet s (handDomain s d x) := quiet_setDomain

theorem quiet_postCondition (a : AgentId) (c : Condition) : Quiet s (postCondition s a c) := quiet_notice _

/-- Only the fields of the entry that `AgentStays` names matter to it. -/
theorem agentStays_of_eq {a b : Agent} (hs : b.state = a.state) (hq : b.quota = a.quota) (hb : b.bound = a.bound)
    (he : b.epoch = a.epoch) (hc : b.leaseClass = a.leaseClass) (hd : b.leaseDeadline = a.leaseDeadline) : AgentStays a b :=
  ⟨by unfold Agent.ok; rw [hs, hq, he, hc, hd]; exact id, hq, hb, he⟩

theorem quiet_setAgent_of_eq {n : AgentId} {x : Agent} (hs : x.state = (s.agent n).state := by rfl)
    (hq : x.quota = (s.agent n).quota := by rfl) (hb : x.bound = (s.agent n).bound := by rfl)
    (he : x.epoch = (s.agent n).epoch := by rfl) (hc : x.leaseClass = (s.agent n).leaseClass := by rfl)
    (hd : x.leaseDeadline = (s.agent n).leaseDeadline := by rfl) : Quiet s (s.setAgent n x) :=
  quiet_setAgent (agentStays_of_eq hs hq hb he hc hd)

theorem quiet_sendReclaim (n : AgentId) : Quiet s (sendReclaim s n) := by
  have hagent : Quiet s (s.setAgent n { s.agent n with reclaims := (s.agent n).reclaims + 1 }) :=
    quiet_setAgent_of_eq
  have hdomains := quiet_mapDomains (s := s.setAgent n { s.agent n with reclaims := (s.agent n).reclaims + 1 })
    (f := fun d => d.handed (.reclaim n ((s.agent n).reclaims + 1))) fun _ => rfl
  simp only [sendReclaim]
  exact hagent.trans (hdomains.trans (quiet_setNotice ..))

/-- An entry out of ONLINE, its lease absent. -/
theorem agentStays_ended {a : Agent} {st : AgentState} (h : st ≠ .online) :
    AgentStays a { a with state := st, leaseClass := none, leaseDeadline := none } := by
  refine ⟨fun hok => ?_, rfl, rfl, rfl⟩
  have hq : a.quota ≤ Config.maxQuota := by simp [Agent.ok] at hok; exact hok.2
  simp [Agent.ok, h, hq]

theorem quiet_endSession (n : AgentId) {st : AgentState} (h : st ≠ .online) : Quiet s (endSession s n st) :=
  quiet_setAgent (agentStays_ended h)

theorem quiet_renewLease (n : AgentId) : Quiet s (renewLease s n) := by
  simp only [renewLease]
  split
  case h_1 hst hc =>
    refine quiet_setAgent ⟨fun hok => ?_, rfl, rfl, rfl⟩
    simp only [Agent.ok, hst, hc, Bool.and_eq_true] at hok ⊢
    obtain ⟨⟨⟨hclass, _⟩, hepoch⟩, hquota⟩ := hok
    exact ⟨⟨⟨hclass, rfl⟩, hepoch⟩, hquota⟩
  case h_2 => exact Quiet.refl s

end Updates

end Sys2Proof.Machine
end

section
/-! The commands that do their work outside the lock table, unit by unit: each ends in a state, and that is `Quiet`. -/

set_option Elab.async false

namespace Sys2Proof.Machine

/-- The command goes on to a state of which `P` holds. -/
def Goes (r : Host.Outcome State Fault Refusal) (P : State → Prop) : Prop :=
  ∃ t, r = .next t ∧ P t

theorem Goes.next {t : State} {P : State → Prop} (h : P t) : Goes (.next t) P := ⟨t, rfl, h⟩

theorem Goes.stay (s : State) : Goes (.next s) (Quiet s) := Goes.next (Quiet.refl s)

theorem Goes.mono {r : Host.Outcome State Fault Refusal} {P Q : State → Prop} (h : Goes r P) (g : ∀ t, P t → Q t) :
    Goes r Q :=
  let ⟨t, ht, hp⟩ := h
  ⟨t, ht, g t hp⟩

theorem Goes.after {s t : State} {r : Host.Outcome State Fault Refusal} (h : Quiet s t) (g : Goes r (Quiet t)) :
    Goes r (Quiet s) :=
  g.mono fun _ => h.trans

/-- The queues of a link, what is handed to other units and the notice place do not matter to the form of its port, but for the
sizes of the queues. -/
theorem LinkPort.sound_queues (p : LinkPort) {rx : List Received} {rs : List QueuedResponse} {m : Option NoticeMsg}
    {k : Option (BitVec 8)} {j : Nat} {l : List Report} (hrx : rx.length ≤ p.rxQueue.length)
    (hrs : p.responses.length ≤ Config.responsePlaces → rs.length ≤ Config.responsePlaces) (h : p.sound) :
    ({ p with rxQueue := rx, responses := rs, notice := m, resetNotice := k, noticeResets := j, reports := l } :
      LinkPort).sound := by
  obtain ⟨hok, hlen⟩ := h
  refine ⟨?_, hrs hlen⟩
  simp only [LinkPort.ok, LinkPort.sizesOk, Bool.and_eq_true, decide_eq_true_eq] at hok ⊢
  obtain ⟨hform, ⟨⟨hretry, hreceived⟩, hreplays⟩, hcorrupt⟩ := hok
  exact ⟨hform, ⟨⟨hretry, hrx.trans hreceived⟩, hreplays⟩, hcorrupt⟩

section Session

variable {s : State} {n : AgentId}

theorem length_markArrival (tags : Vector Bool 8) (l : List Received) : (markArrival tags l).2.length = l.length := by
  induction l generalizing tags with
  | nil => rfl
  | cons x rest ih =>
    simp only [markArrival]
    split
    · split <;> rfl
    · simp [ih]

theorem goes_requestArrival : Goes (execRequestArrival n s) (Quiet s) := by
  simp only [execRequestArrival]
  split
  · exact Goes.stay s
  · exact Goes.next ((quiet_setAgent_of_eq).trans
      (quiet_setLink ((s.link n).sound_queues (length_markArrival ..).le id)))

theorem quiet_handResponse (p : InProcess) (r : Response) : Quiet s (handResponse s n p r) := by
  simp only [handResponse]
  split
  · exact quiet_setAgent_of_eq
  · split
    case isTrue hroom =>
      refine (quiet_setAgent_of_eq).trans
        (quiet_setLink ((s.link n).sound_queues le_rfl fun _ => ?_))
      split <;> simp <;> omega
    case isFalse => exact quiet_setAgent_of_eq

theorem goes_responseHandoff : Goes (execResponseHandoff n s) (Quiet s) := by
  unfold execResponseHandoff
  split
  · exact Goes.next (quiet_handResponse ..)
  · exact Goes.stay s

theorem quiet_dropMessage : Quiet s (dropMessage s n) :=
  quiet_setLink ((s.link n).sound_queues (by simp) id)

theorem quiet_refuseAtFront (x : Received) (c : ResultRefusal) : Quiet s (refuseAtFront s n x c) := by
  simp only [refuseAtFront]
  split
  · exact (quiet_reportSession ..).trans (quiet_handResponse ..)
  · exact quiet_handResponse ..

theorem goes_leave : Goes (execLeave n s) (Quiet s) := by
  simp only [execLeave]
  split
  · exact Goes.stay s
  · split
    · refine Goes.after (quiet_dropMessage (n := n)) ?_
      split
      · exact Goes.next (quiet_refuseAtFront ..)
      · exact Goes.next ((quiet_sendReclaim n).trans ((quiet_endSession n (by decide)).trans (quiet_handResponse ..)))
    · exact Goes.stay s

theorem goes_renew : Goes (execRenew n s) (Quiet s) := by
  simp only [execRenew]
  split
  · exact Goes.stay s
  · split
    · refine Goes.after (quiet_dropMessage (n := n)) ?_
      split
      · exact Goes.next (quiet_refuseAtFront ..)
      · exact Goes.next ((quiet_renewLease n).trans (quiet_handResponse ..))
    · exact Goes.stay s

theorem quiet_putInProcess (x : Received) : Quiet s (putInProcess s n x) :=
  quiet_setAgent_of_eq

theorem quiet_handLock (x : Received) (b : LockBody) : Quiet s (handLock s n x b) := by
  cases b with
  | acquire mode first count cookie code =>
    simp only [handLock]
    split
    · exact (quiet_putInProcess x).trans (quiet_handDomain ..)
    · exact (quiet_putInProcess x).trans (quiet_noDomain _)
  | release h | convertUp h code | convertDown h | query h =>
    simp only [handLock]
    split
    · exact (quiet_putInProcess x).trans (quiet_handDomain ..)
    · exact quiet_handResponse ..

theorem goes_requestTake : Goes (execRequestTake n s) (Quiet s) := by
  simp only [execRequestTake]
  split
  · exact Goes.stay s
  · split
    · refine Goes.after (quiet_dropMessage (n := n)) ?_
      split
      · exact Goes.next (quiet_refuseAtFront ..)
      · exact Goes.next ((quiet_renewLease n).trans (quiet_handLock ..))
      · exact Goes.stay _
    · exact Goes.stay s

theorem goes_acknowledgementTake : Goes (execAcknowledgementTake n s) (Quiet s) := by
  simp only [execAcknowledgementTake]
  split
  · exact Goes.stay s
  · split
    · exact Goes.next ((quiet_dropMessage.trans (quiet_renewLease n)).trans (quiet_setNotice ..))
    · exact Goes.stay s

theorem goes_messageDiscard : Goes (execMessageDiscard n s) (Quiet s) := by
  simp only [execMessageDiscard]
  split
  · exact Goes.stay s
  · split
    · exact Goes.next (quiet_dropMessage.trans (quiet_reportSession ..))
    · exact Goes.stay s

theorem quiet_applyLive (c : LiveChange) : Quiet s (applyLive s n c) :=
  quiet_setAgent_of_eq

theorem quiet_takeResult (stamp : BitVec 8) (r : Response) (c : Option LiveChange) (era : Nat) :
    Quiet s (takeResult s n stamp r c era) := by
  have happlied : Quiet s (applyAttached s n c) := by
    cases c with
    | none => exact Quiet.refl s
    | some c => exact quiet_applyLive c
  simp only [takeResult]
  split
  · exact Quiet.refl s
  · split
    · exact happlied.trans (quiet_handResponse ..)
    · exact happlied

theorem goes_resultTake (src : Option DomainId) : Goes (execResultTake src s) (Quiet s) := by
  unfold execResultTake
  split
  · split
    · exact Goes.next ((quiet_setDomain).trans (quiet_takeResult ..))
    · exact Goes.stay s
  · split
    · exact Goes.next ((quiet_noDomain _).trans (quiet_takeResult ..))
    · exact Goes.stay s

theorem goes_liveReport (d : DomainId) : Goes (execLiveReport d s) (Quiet s) := by
  simp only [execLiveReport]
  split
  · refine Goes.next ?_
    split
    · exact quiet_setDomain
    · exact Quiet.trans quiet_setDomain (quiet_applyLive _)
  · refine Goes.next ?_
    split
    · exact quiet_setDomain
    · exact Quiet.trans quiet_setDomain ((quiet_applyLive _).trans (quiet_postCondition ..))
  · exact Goes.stay s

theorem goes_leaseExpiry : Goes (execLeaseExpiry n s) (Quiet s) := by
  unfold execLeaseExpiry
  split
  · exact Goes.next ((((quiet_endSession n (by decide)).trans (quiet_sendReclaim n)).trans (quiet_postCondition ..)).trans
      (quiet_reportSession ..))
  · exact Goes.stay s

theorem goes_resetNotice : Goes (execResetNotice n s) (Quiet s) := by
  unfold execResetNotice
  split
  · exact Goes.next ((quiet_setAgent_of_eq).trans
      (quiet_setLink ((s.link n).sound_queues le_rfl id)))
  · exact Goes.stay s

theorem goes_agentStateRead (r : Reader) : Goes (execAgentStateRead r s) (Quiet s) := by
  unfold execAgentStateRead
  split
  · split
    · exact Goes.next (quiet_setGate id)
    · exact Goes.stay s
  · split
    · exact Goes.next (quiet_notice _)
    · exact Goes.stay s
    · exact Goes.stay s

/-! ### Commands decided by the session unit -/

theorem quiet_decideEnableAgent (arg : Word) (dest : Option DomainId) : Quiet s (decideEnableAgent arg dest s) := by
  simp only [decideEnableAgent]
  split
  case isTrue hst =>
    refine Quiet.trans (quiet_setAgent ?_) (quiet_answer ..)
    refine ⟨fun hok => ?_, rfl, rfl, rfl⟩
    simp only [Agent.ok, hst] at hok ⊢
    exact hok
  case isFalse => exact quiet_refuseBySession ..

theorem quiet_disableAgent : Quiet s (disableAgent s n) := by
  unfold disableAgent
  split
  · exact ((quiet_sendReclaim n).trans (quiet_postCondition ..)).trans (quiet_endSession n (by decide))
  · exact (quiet_sendReclaim n).trans (quiet_endSession n (by decide))
  all_goals exact quiet_endSession n (by decide)

theorem quiet_decideDisableAgent (arg : Word) (dest : Option DomainId) : Quiet s (decideDisableAgent arg dest s) :=
  quiet_disableAgent.trans (quiet_answer ..)

theorem quiet_decideEvictAgent (arg : Word) (dest : Option DomainId) : Quiet s (decideEvictAgent arg dest s) := by
  have hevict : Quiet s (answer (postCondition (endSession (sendReclaim s (argAgent arg)) (argAgent arg) .offline)
      (argAgent arg) .evicted) .evictAgent .done) :=
    (((quiet_sendReclaim _).trans (quiet_endSession _ (by decide))).trans (quiet_postCondition ..)).trans (quiet_answer ..)
  simp only [decideEvictAgent]
  split
  · exact hevict
  · exact hevict
  all_goals exact quiet_refuseBySession ..

end Session

/-! ### The notice unit -/

section Notices

variable {s : State} {n : AgentId}

theorem quiet_present (h : Handle) (x : NoticeAsk) : Quiet s (present s h x) := by
  unfold present
  split
  · exact quiet_setDomain
  · exact quiet_noDomain _

theorem quiet_handNotice (m : NoticeMsg) : Quiet s (handNotice s n m) :=
  quiet_setLink ((s.link n).sound_queues le_rfl id)

theorem quiet_beginDelivery : Quiet s (beginDelivery s n) := by
  simp only [beginDelivery]
  split
  · split
    · exact (quiet_setNotice ..).trans (quiet_handNotice _)
    · split
      · exact (quiet_setNotice ..).trans (quiet_present ..)
      · exact Quiet.refl s
  all_goals exact Quiet.refl s

/-- An agent's entry replaced, and delivery begun for it. -/
theorem quiet_deliver (x : NoticeAgent) : Quiet s (beginDelivery (s.setNotice n x) n) :=
  (quiet_setNotice n x).trans quiet_beginDelivery

theorem quiet_dropHead (d : DomainId) : Quiet s (dropHead s d) := quiet_setDomain

theorem quiet_takePost (d : DomainId) (h : Handle) (p : Placing) (m : NoticeItem) (st : AgentState) :
    Quiet s (takePost s d n h p m st) := by
  simp only [takePost]
  split
  · exact ((quiet_notice _).trans (quiet_dropHead d)).trans (quiet_deliver _)
  · exact (quiet_notice _).trans (quiet_dropHead d)

theorem goes_noticePost (d : DomainId) : Goes (execNoticePost d s) (Quiet s) := by
  unfold execNoticePost
  split
  · split
    · exact Goes.next ((quiet_notice _).trans (quiet_dropHead d))
    · split
      · exact Goes.stay s
      · split
        · exact Goes.next (quiet_notice _)
        · exact Goes.stay s
        · exact Goes.next (quiet_takePost ..)
  · exact Goes.stay s

theorem goes_withdrawFront (d : DomainId) : Goes (execWithdrawFront d s) (Quiet s) := by
  simp only [execWithdrawFront]
  split
  · split
    · exact Goes.next (quiet_dropHead d)
    · exact Goes.next ((quiet_dropHead d).trans (quiet_setNotice ..))
  · exact Goes.stay s

theorem goes_withdrawFollowUp (d : DomainId) : Goes (execWithdrawFollowUp d s) (Quiet s) := by
  simp only [execWithdrawFollowUp]
  split
  · split
    · exact Goes.next (quiet_dropHead d)
    · exact Goes.next ((quiet_dropHead d).trans (quiet_setNotice ..))
  · exact Goes.stay s

theorem quiet_clearEntry (h : Handle) : Quiet s (clearEntry s n h) := by
  simp only [clearEntry]
  split
  · exact quiet_deliver _
  · exact quiet_setNotice ..

theorem goes_clear (d : DomainId) : Goes (execClear d s) (Quiet s) := by
  unfold execClear
  split
  · split
    · exact Goes.next (quiet_dropHead d)
    · exact Goes.next ((quiet_dropHead d).trans (quiet_clearEntry _))
  · exact Goes.stay s

theorem goes_scrubRemove (d : DomainId) : Goes (execScrubRemove d s) (Quiet s) := by
  simp only [execScrubRemove]
  split
  · split
    · exact Goes.next (quiet_dropHead d)
    · exact Goes.next ((quiet_dropHead d).trans (quiet_notice _))
  · exact Goes.stay s

theorem goes_sessionConditionPost : Goes (execSessionConditionPost s) (Quiet s) := by
  simp only [execSessionConditionPost]
  split
  · split
    · exact Goes.next (quiet_notice _)
    · exact Goes.next ((quiet_notice _).trans (quiet_deliver _))
  · exact Goes.stay s

theorem goes_sessionSetEmpty : Goes (execSessionSetEmpty s) (Quiet s) := by
  simp only [execSessionSetEmpty]
  split
  · split
    · exact Goes.next (quiet_notice _)
    · exact Goes.next ((quiet_notice _).trans (quiet_deliver _))
  · exact Goes.stay s

theorem quiet_takeAnswer (h : Handle) (granted : Bool) : Quiet s (takeAnswer s n h granted) := by
  simp only [takeAnswer]
  split
  · split
    · split
      · exact (quiet_setNotice ..).trans (quiet_handNotice _)
      · exact quiet_deliver _
    · exact quiet_deliver _
  · exact Quiet.refl s

theorem goes_claimAnswer (src : Option DomainId) : Goes (execClaimAnswer src s) (Quiet s) := by
  unfold execClaimAnswer
  split
  · split
    · split
      · exact Goes.next (quiet_dropHead _)
      · exact Goes.next ((quiet_dropHead _).trans (quiet_takeAnswer ..))
    · exact Goes.stay s
  · split
    · exact Goes.next ((quiet_noDomain _).trans (quiet_takeAnswer ..))
    · exact Goes.stay s

theorem quiet_takeOutcome (h : Handle) (o : AckOutcome) : Quiet s (takeOutcome s n h o) := by
  simp only [takeOutcome]
  split
  · exact quiet_deliver _
  · exact quiet_setNotice ..

theorem goes_acknowledgementOutcome (src : Option DomainId) : Goes (execAcknowledgementOutcome src s) (Quiet s) := by
  unfold execAcknowledgementOutcome
  split
  · split
    · split
      · exact Goes.next (quiet_dropHead _)
      · exact Goes.next ((quiet_dropHead _).trans (quiet_takeOutcome ..))
    · exact Goes.stay s
  · split
    · exact Goes.next ((quiet_noDomain _).trans (quiet_takeOutcome ..))
    · exact Goes.stay s

theorem quiet_takeNoticeAck (h : Handle) : Quiet s (takeNoticeAck s n h) := by
  simp only [takeNoticeAck]
  split
  · exact (quiet_setNotice ..).trans (quiet_present ..)
  · split
    · split
      · exact Quiet.refl s
      · exact quiet_setNotice ..
    · exact quiet_reportNotice ..

theorem goes_noticeAck : Goes (execNoticeAck n s) (Quiet s) := by
  simp only [execNoticeAck]
  split
  · refine Goes.next ?_
    split
    · exact quiet_setNotice ..
    · exact (quiet_setNotice ..).trans (quiet_takeNoticeAck _)
  · exact Goes.stay s

theorem quiet_takeSessionAck : Quiet s (takeSessionAck s n) := by
  have hmark : Quiet s (if (s.noticeAgent n).retracted = some .session
      then s.setNotice n { s.noticeAgent n with retracted := none } else reportNotice s .linkProtocol n) := by
    split
    · exact quiet_setNotice ..
    · exact quiet_reportNotice ..
  cases hm : (s.noticeAgent n).marker with
  | sessionSent c => rw [takeSessionAck_sessionSent hm]; exact quiet_deliver _
  | ready | claiming h | recordSent h | acking h =>
    rw [takeSessionAck_of_not_sessionSent (by simp [hm])]; exact hmark

theorem goes_sessionAck : Goes (execSessionAck n s) (Quiet s) := by
  simp only [execSessionAck]
  split
  · refine Goes.next ?_
    split
    · exact quiet_setNotice ..
    · exact (quiet_setNotice ..).trans quiet_takeSessionAck
  · exact Goes.stay s

theorem goes_noticeReclaim : Goes (execNoticeReclaim n s) (Quiet s) := by
  simp only [execNoticeReclaim]
  split
  · split
    · exact Goes.next (quiet_setNotice ..)
    · exact Goes.next (Quiet.trans (quiet_notice _) (quiet_deliver (s := forgetReads n s) _))
  · exact Goes.stay s

theorem quiet_deliveries (l : List AgentId) : ∀ s : State, Quiet s (l.foldl beginDelivery s) := by
  induction l with
  | nil => exact Quiet.refl
  | cons n l ih => exact fun s => quiet_beginDelivery.trans (ih _)

theorem goes_domainLoss (d : DomainId) : Goes (execDomainLoss d s) (Quiet s) := by
  simp only [execDomainLoss]
  split
  · split
    · exact Goes.next (quiet_dropHead d)
    · exact Goes.next (((quiet_dropHead d).trans (quiet_notice _)).trans (quiet_deliveries ..))
  · exact Goes.stay s

theorem quiet_takeLinkReset : Quiet s (takeLinkReset s n) := by
  simp only [takeLinkReset]
  split
  · exact ((quiet_setNotice ..).trans (quiet_present ..)).trans quiet_beginDelivery
  · exact quiet_deliver _
  all_goals exact Quiet.refl s

theorem goes_noticeLinkReset : Goes (execNoticeLinkReset n s) (Quiet s) := by
  unfold execNoticeLinkReset
  split
  · exact Goes.next ((quiet_setLink ((s.link n).sound_queues le_rfl id)).trans quiet_takeLinkReset)
  · exact Goes.stay s

end Notices

end Sys2Proof.Machine
end

section
/-! The gate's queues keep their size and a link port its form (07 7.1) at every event of the unit. -/

set_option Elab.async false

namespace Sys2Proof.Machine

/-! ### The gate -/

theorem GateUnit.bounded_iff (g : GateUnit) : g.bounded = true ↔ g.checkQueue.length ≤ Config.gatePlaces ∧
    g.verdictQueue.length ≤ Config.gatePlaces ∧ g.doneQueue.length ≤ Config.gatePlaces := by
  simp [GateUnit.bounded, and_assoc]

/-- A message is appended only where its queue has a place (R116). -/
theorem bounded_acceptFrom {g : GateUnit} (h : g.bounded = true) (l : List GateMsg) : (acceptFrom g l).bounded = true := by
  induction l generalizing g with
  | nil => exact h
  | cons m rest ih =>
    simp only [acceptFrom]
    split
    case isTrue hroom =>
      refine ih ?_
      rw [GateUnit.bounded_iff] at h ⊢
      obtain ⟨hc, hv, hd⟩ := h
      cases m with
      | check c =>
        have := of_decide_eq_true hroom
        exact ⟨by simpa [GateUnit.append] using this, hv, hd⟩
      | done m =>
        have := of_decide_eq_true hroom
        exact ⟨hc, hv, by simpa [GateUnit.append] using this⟩
    case isFalse => exact h

theorem bounded_settle {g : GateUnit} (h : g.bounded = true) : g.settle.bounded = true := bounded_acceptFrom h _

/-- The bound of the gate looks at the lengths of its three queues alone. -/
theorem GateUnit.bounded_of_le {g k : GateUnit} (h : g.bounded = true) (hc : k.checkQueue.length ≤ g.checkQueue.length)
    (hv : k.verdictQueue.length ≤ g.verdictQueue.length) (hd : k.doneQueue.length ≤ g.doneQueue.length) :
    k.bounded = true := by
  rw [GateUnit.bounded_iff] at h ⊢
  exact ⟨hc.trans h.1, hv.trans h.2.1, hd.trans h.2.2⟩

section Gate

variable {s : State}

theorem quiet_offer (m : GateMsg) : Quiet s (s.setGate (s.gate.offer m)) := quiet_setGate fun h => bounded_acceptFrom h _

theorem quiet_settle : Quiet s (s.setGate s.gate.settle) := quiet_setGate bounded_settle

theorem goes_checkTake : Goes (execCheckTake s) (Quiet s) := by
  simp only [execCheckTake]
  split
  case h_1 c rest hqueue =>
    split
    case isTrue hroom =>
      refine Goes.next (quiet_setGate fun h => bounded_settle ?_)
      rw [GateUnit.bounded_iff] at h
      obtain ⟨hc, _, hd⟩ := h
      rw [hqueue, List.length_cons] at hc
      cases s.management.mode <;> rw [GateUnit.bounded_iff] <;>
        exact ⟨Nat.le_of_succ_le hc, by simpa using hroom, hd⟩
    case isFalse => exact Goes.stay s
  case h_2 => exact Goes.next quiet_settle

theorem goes_checkPresent : Goes (execCheckPresent s) (Quiet s) := by
  simp only [execCheckPresent]
  split
  · have hanswer : ∀ l, Quiet s (s.setGate { s.gate with answers := l }) := fun l => quiet_setGate id
    split
    · exact Goes.next (hanswer _)
    · split
      · exact Goes.next ((hanswer _).trans quiet_setDomain)
      · exact Goes.next ((hanswer _).trans (quiet_noDomain _))
  · exact Goes.stay s

@[simp] theorem length_placeVerdict (k : Nat) (v : Verdict) (q : List Place) : (placeVerdict k v q).length = q.length :=
  List.length_map _

theorem quiet_placeVerdict (k : Nat) (v : Verdict) :
    Quiet s (s.setGate { s.gate with verdictQueue := placeVerdict k v s.gate.verdictQueue }) :=
  quiet_setGate fun h => GateUnit.bounded_of_le h le_rfl (length_placeVerdict ..).le le_rfl

theorem goes_verdictPlace (src : Option DomainId) : Goes (execVerdictPlace src s) (Quiet s) := by
  unfold execVerdictPlace
  split
  · split
    · exact Goes.next (Quiet.trans quiet_setDomain (quiet_placeVerdict ..))
    · exact Goes.stay s
  · split
    case h_1 rest _ =>
      exact Goes.next ((quiet_noDomain { s.noDomain with verdicts := rest }).trans
        (quiet_placeVerdict (s := { s with noDomain := { s.noDomain with verdicts := rest } }) ..))
    · exact Goes.stay s

theorem goes_verdictAccept : Goes (execVerdictAccept s) (Quiet s) := by
  unfold execVerdictAccept
  split
  · exact Goes.next (quiet_setGate fun h => GateUnit.bounded_of_le h le_rfl (by simp) le_rfl)
  · exact Goes.stay s

theorem goes_doneDispatch : Goes (execDoneDispatch s) (Quiet s) := by
  simp only [execDoneDispatch]
  split
  case h_1 m rest hqueue =>
    have htaken : Quiet s (s.setGate { s.gate with doneQueue := rest }.settle) :=
      quiet_setGate fun h => bounded_settle (GateUnit.bounded_of_le h le_rfl le_rfl (by simp [hqueue]))
    split
    · exact Goes.next htaken
    · split
      · exact Goes.next (htaken.trans quiet_setDomain)
      · exact Goes.next htaken
  case h_2 => exact Goes.next quiet_settle

theorem bounded_restartedGate {g : GateUnit} (h : g.bounded = true) : (restartedGate g).bounded = true :=
  bounded_settle (GateUnit.bounded_of_le h le_rfl (List.length_map _).le (Nat.zero_le _))

end Gate

/-! ### The form of a link port, item by item -/

/-- The form of a port (07 7.1) as propositions: what `LinkPort.ok` and the size of the response queue come to. -/
structure LinkPort.Formed (p : LinkPort) : Prop where
  items : p.itemsOk = true
  length : p.retry.length = (p.txSeq - p.oldest).toNat
  frames : consecutive p.oldest p.retry = true
  replay : ∀ r, p.replayPos = some r → (r - p.oldest).toNat < (p.txSeq - p.oldest).toNat
  retry : p.retry.length ≤ 16
  received : p.rxQueue.length ≤ 16
  replays : p.replayCount ≤ 4
  corrupt : p.corruptWords ≤ 8
  responses : p.responses.length ≤ 8

theorem LinkPort.sound_iff (p : LinkPort) : p.sound ↔ p.Formed := by
  have hreplay : p.replayOk = true ↔ ∀ r, p.replayPos = some r → (r - p.oldest).toNat < (p.txSeq - p.oldest).toNat := by
    unfold LinkPort.replayOk
    cases p.replayPos <;> simp
  simp only [LinkPort.sound, LinkPort.ok, LinkPort.windowOk, LinkPort.sizesOk, Bool.and_eq_true, hreplay, beq_iff_eq,
    decide_eq_true_eq]
  constructor
  · rintro ⟨⟨⟨⟨hitems, hlength, hframes⟩, hr⟩, ⟨⟨hretry, hrx⟩, hreplays⟩, hcorrupt⟩, hresponses⟩
    exact ⟨hitems, hlength, hframes, hr, hretry, hrx, hreplays, hcorrupt, hresponses⟩
  · rintro ⟨hitems, hlength, hframes, hr, hretry, hrx, hreplays, hcorrupt, hresponses⟩
    exact ⟨⟨⟨⟨hitems, hlength, hframes⟩, hr⟩, ⟨⟨hretry, hrx⟩, hreplays⟩, hcorrupt⟩, hresponses⟩

/-! ### Sequence numbers and the retry buffer -/

theorem seq_sub_sub {n o t : Seq} (h : (n - o).toNat ≤ (t - o).toNat) :
    (t - n).toNat = (t - o).toNat - (n - o).toNat := by
  bv_omega

theorem seq_succ_sub {a o t : Seq} (h : (a - o).toNat < (t - o).toNat) : (a + 1 - o).toNat = (a - o).toNat + 1 := by
  bv_omega

theorem seq_sub_lt {r n o t : Seq} (hr : (r - o).toNat < (t - o).toNat) (hn : (n - o).toNat ≤ (r - o).toNat) :
    (r - n).toNat < (t - n).toNat := by
  bv_omega

/-- A number in the range is transmit sequence where its distance is the whole window. -/
theorem seq_lt_of_ne {n o t : Seq} (h : (n - o).toNat ≤ (t - o).toNat) (hne : n ≠ t) : (n - o).toNat < (t - o).toNat := by
  refine lt_of_le_of_ne h fun e => hne ?_
  bv_omega

theorem consecutive_drop {o : Seq} {l : List RetryEntry} (h : consecutive o l = true) (k : Nat) :
    consecutive (o + BitVec.ofNat 6 k) (l.drop k) = true := by
  induction k generalizing o l with
  | zero => simpa using h
  | succ k ih =>
    cases l with
    | nil => rfl
    | cons x rest =>
      simp only [consecutive, Bool.and_eq_true] at h
      have hnext := ih h.2
      rw [show o + 1 + BitVec.ofNat 6 k = o + BitVec.ofNat 6 (k + 1) by rw [BitVec.ofNat_add]; bv_omega] at hnext
      exact hnext

theorem consecutive_append {o : Seq} {l : List RetryEntry} (h : consecutive o l = true) (m : OutMsg) :
    consecutive o (l ++ [⟨o + BitVec.ofNat 6 l.length, m⟩]) = true := by
  induction l generalizing o with
  | nil => simp [consecutive]
  | cons x rest ih =>
    simp only [consecutive, Bool.and_eq_true, List.cons_append, List.length_cons] at h ⊢
    refine ⟨h.1, ?_⟩
    rw [show o + BitVec.ofNat 6 (rest.length + 1) = o + 1 + BitVec.ofNat 6 rest.length by rw [BitVec.ofNat_add]; bv_omega]
    exact ih h.2

section Window

variable {p : LinkPort} {n : Seq}

theorem LinkPort.Formed.drop_length (h : p.Formed) (hn : (n - p.oldest).toNat ≤ (p.txSeq - p.oldest).toNat) :
    (p.retry.drop (n - p.oldest).toNat).length = (p.txSeq - n).toNat := by
  rw [List.length_drop, h.length, seq_sub_sub hn]

theorem LinkPort.Formed.drop_frames (h : p.Formed) :
    consecutive n (p.retry.drop (n - p.oldest).toNat) = true := by
  have := consecutive_drop h.frames (n - p.oldest).toNat
  rwa [BitVec.ofNat_toNat, BitVec.setWidth_eq, show p.oldest + (n - p.oldest) = n by bv_omega] at this

theorem LinkPort.Formed.drop_le (h : p.Formed) (k : Nat) : (p.retry.drop k).length ≤ 16 := by
  have := h.retry
  rw [List.length_drop]
  omega

/-- A replay position that is kept, or moved to the new oldest entry, lies in what is left of the buffer (R139). -/
theorem LinkPort.Formed.replayAfter (h : p.Formed) (hn : (n - p.oldest).toNat ≤ (p.txSeq - p.oldest).toNat) {r : Seq}
    (hr : Machine.replayAfter n p (p.retry.drop (n - p.oldest).toNat) = some r) : (r - n).toNat < (p.txSeq - n).toNat := by
  simp only [Machine.replayAfter] at hr
  split at hr
  · exact nomatch hr
  · split at hr
    · split at hr
      · exact nomatch hr
      case isFalse hne =>
        cases hr
        rw [← h.drop_length hn, BitVec.sub_self]
        exact List.length_pos_iff.mpr fun e => hne (by rw [e]; rfl)
    case isFalse hpos hge =>
      cases hr
      exact seq_sub_lt (h.replay _ hpos) (Nat.le_of_not_lt hge)

end Window

/-! ### The events of a port -/

section Port

variable {e : LinkEnv} {p : LinkPort}

theorem LinkPort.Formed.report (h : p.Formed) (k : EventKind) : (linkReport e k p).Formed :=
  (sound_iff _).mp (p.sound_queues le_rfl id ((sound_iff p).mpr h))

theorem LinkPort.Formed.restartAttempt (h : p.Formed) (hs : p.state = .aligning) : (restartAttempt e p).Formed :=
  { h with
    items := by
      have := h.items
      simp only [LinkPort.itemsOk, hs, Bool.and_eq_true] at this
      simp [Machine.restartAttempt, LinkPort.itemsOk, hs, this] }

theorem LinkPort.Formed.detect (h : p.Formed) (hs : p.state = .down) :
    (Machine.restartAttempt e { p with state := .aligning }).Formed :=
  { h with
    items := by
      have := h.items
      simp only [LinkPort.itemsOk, hs, Bool.and_eq_true] at this
      simp [Machine.restartAttempt, LinkPort.itemsOk, this] }

theorem LinkPort.Formed.enterDown (h : p.Formed) : (enterDown p).Formed :=
  { h with
    items := rfl
    replay := fun _ hr => nomatch hr
    replays := Nat.zero_le _
    corrupt := Nat.zero_le _ }

theorem LinkPort.Formed.enterAligning (h : p.Formed) : (enterAligning e p).Formed :=
  { h with
    items := rfl
    replay := fun _ hr => nomatch hr
    replays := Nat.zero_le _ }

theorem LinkPort.Formed.retrain (h : p.Formed) : (retrain e p).Formed := h.enterAligning.report _

/-- A port with nothing to send again and nothing received. -/
theorem LinkPort.formed_of_empty {q : LinkPort} (hitems : q.itemsOk = true) (hretry : q.retry = []) (hseq : q.txSeq = q.oldest)
    (hreplay : q.replayPos = none) (hrx : q.rxQueue = []) (hcount : q.replayCount = 0) (hresponses : q.responses = [])
    (hcorrupt : q.corruptWords ≤ 8) : q.Formed where
  items := hitems
  length := by rw [hretry, hseq, BitVec.sub_self]; rfl
  frames := by rw [hretry]; rfl
  replay := fun _ hr => nomatch hreplay ▸ hr
  retry := by rw [hretry]; exact Nat.zero_le _
  received := by rw [hrx]; exact Nat.zero_le _
  replays := by rw [hcount]; exact Nat.zero_le _
  corrupt := hcorrupt
  responses := by rw [hresponses]; exact Nat.zero_le _

theorem LinkPort.Formed.linkReset (h : p.Formed) : (linkReset e p).Formed := by
  have hitems := h.items
  cases hs : p.state with
  | down | aligning =>
    simp only [LinkPort.itemsOk, hs, Bool.and_eq_true] at hitems
    simp only [Machine.linkReset, afterReset, hs]
    exact formed_of_empty (by simp [LinkPort.itemsOk, hitems]) rfl rfl rfl rfl rfl rfl h.corrupt
  | active =>
    simp only [Machine.linkReset, afterReset, hs]
    exact formed_of_empty rfl rfl rfl rfl rfl rfl rfl h.corrupt

theorem replayDeadlineFor_isSome (l : List RetryEntry) : (replayDeadlineFor e l).isSome = !l.isEmpty := by
  cases l <;> rfl

/-- Frames freed, as progress, in ACTIVE (R139). -/
theorem LinkPort.Formed.progress_freeBefore (h : p.Formed) (hs : p.state = .active) {n : Seq}
    (hn : (n - p.oldest).toNat ≤ (p.txSeq - p.oldest).toNat) : (progress e (freeBefore n p)).Formed where
  items := by
    have := h.items
    simp only [LinkPort.itemsOk, hs, Bool.and_eq_true] at this
    simp [progress, freeBefore, LinkPort.itemsOk, hs, this, replayDeadlineFor_isSome]
  length := h.drop_length hn
  frames := h.drop_frames
  replay := fun _ hr => h.replayAfter hn hr
  retry := h.drop_le _
  received := h.received
  replays := Nat.zero_le _
  corrupt := h.corrupt
  responses := h.responses

theorem LinkPort.Formed.takeAck (h : p.Formed) (hs : p.state = .active) (a : Seq) : (takeAck e a p).Formed := by
  unfold Machine.takeAck
  split
  case isTrue hlt => exact h.progress_freeBefore hs (by rw [seq_succ_sub hlt]; exact hlt)
  case isFalse => exact h

/-- A replay from a number of a window that is not empty, or the rollover (R140, R141). -/
theorem LinkPort.Formed.replayOrRollover (h : p.Formed) (hs : p.state = .active) {n : Seq}
    (hn : (n - p.oldest).toNat < (p.txSeq - p.oldest).toNat) : (replayOrRollover e n p).Formed := by
  unfold Machine.replayOrRollover
  split
  case isTrue hcount =>
    exact { h with
      items := by
        have hne : p.retry ≠ [] := fun hnil => by
          have := h.length
          simp only [hnil, List.length_nil] at this
          omega
        have := h.items
        simp only [LinkPort.itemsOk, hs, Bool.and_eq_true] at this
        simp [replayFrom, LinkPort.itemsOk, hs, this, hne]
      replay := fun r hr => by
        cases hr
        exact hn
      replays := hcount }
  case isFalse => exact h.retrain

theorem state_progress_freeBefore (n : Seq) : (progress e (freeBefore n p)).state = p.state := rfl

theorem LinkPort.Formed.takeNak (h : p.Formed) (hs : p.state = .active) (n : Seq) : (takeNak e n p).Formed := by
  simp only [Machine.takeNak]
  split
  · exact h.linkReset.report _
  case isFalse hrange =>
    have hn : (n - p.oldest).toNat ≤ (p.txSeq - p.oldest).toNat := by simpa [inRange] using hrange
    by_cases ho : n = p.oldest
    · simp only [if_pos ho]
      split
      · exact h
      case isFalse hne => exact h.replayOrRollover hs (seq_lt_of_ne hn hne)
    · simp only [if_neg ho]
      split
      · exact h.progress_freeBefore hs hn
      case isFalse hne =>
        refine (h.progress_freeBefore hs hn).replayOrRollover hs ?_
        change (n - n).toNat < (p.txSeq - n).toNat
        have := seq_lt_of_ne hn hne
        have := seq_sub_sub hn
        rw [BitVec.sub_self]
        change 0 < _
        omega

/-- The completion proper (R134). -/
theorem LinkPort.Formed.complete (h : p.Formed) {n : Seq} (hn : (n - p.oldest).toNat ≤ (p.txSeq - p.oldest).toNat) :
    (complete e n p).Formed where
  items := by
    simp [Machine.complete, LinkPort.itemsOk, replayDeadlineFor_isSome]
  length := h.drop_length hn
  frames := h.drop_frames
  replay := fun r hr => by
    simp only [Machine.complete] at hr ⊢
    split at hr
    · exact nomatch hr
    case isFalse hne =>
      cases hr
      rw [← h.drop_length hn, BitVec.sub_self]
      exact List.length_pos_iff.mpr fun e => hne (by rw [e]; rfl)
  retry := h.drop_le _
  received := h.received
  replays := Nat.zero_le _
  corrupt := h.corrupt
  responses := h.responses

theorem state_linkReset_of_aligning (hs : p.state = .aligning) : (linkReset e p).state = .aligning := by
  simp [linkReset, afterReset, hs]

theorem LinkPort.Formed.tryComplete (h : p.Formed) : (tryComplete e p).Formed := by
  unfold Machine.tryComplete
  split
  case h_1 hs _ =>
    split
    · exact h
    · split
      · exact h.linkReset
      · split
        case isTrue hrange => exact h.complete (by simpa [inRange] using hrange)
        case isFalse => exact (h.linkReset.report _).restartAttempt (state_linkReset_of_aligning hs)
  case h_2 => exact h

/-- An attempt replaced by another does not touch the form of a port in ALIGNING; nor does the frame last sent, nor a lower count
of corrupt words. -/
theorem LinkPort.Formed.attempt (h : p.Formed) {a b : Attempt} (ha : p.attempt = some a) {f : Option Frame} {k : Nat}
    (hk : k ≤ 8) : ({ p with attempt := some b, lastFrame := f, corruptWords := k } : LinkPort).Formed :=
  { h with
    items := by
      have := h.items
      cases hs : p.state <;> simp only [LinkPort.itemsOk, hs, ha, Bool.and_eq_true] at this ⊢ <;> simp_all
    corrupt := hk }

/-- The same for an attempt changed where there is one. -/
theorem LinkPort.Formed.mapAttempt (h : p.Formed) (g : Attempt → Attempt) {f : Option Frame} {k : Nat} (hk : k ≤ 8) :
    ({ p with attempt := p.attempt.map g, lastFrame := f, corruptWords := k } : LinkPort).Formed := by
  cases ha : p.attempt with
  | none => exact { h with items := by have := h.items; rwa [LinkPort.itemsOk, ha] at *, corrupt := hk }
  | some a => exact h.attempt ha hk

theorem LinkPort.Formed.sendResync (h : p.Formed) : (sendResync p).Formed := h.mapAttempt _ h.corrupt

theorem LinkPort.Formed.recordPeer (h : p.Formed) (n : Seq) (flag : Bool) : (recordPeer n flag p).Formed :=
  h.mapAttempt _ (Nat.zero_le _)

theorem LinkPort.Formed.otherWord (h : p.Formed) : (otherWord p).Formed := h.mapAttempt _ (Nat.zero_le _)

theorem LinkPort.Formed.validWord (h : p.Formed) (hs : p.state = .active) : (validWord e p).Formed :=
  { h with
    items := by
      have := h.items
      simp only [LinkPort.itemsOk, hs, Bool.and_eq_true] at this
      simp [Machine.validWord, LinkPort.itemsOk, hs, this]
    corrupt := Nat.zero_le _ }

/-- A frame of valid words: what ACTIVE does with it is done on a port whose watchdog has moved. -/
theorem LinkPort.Formed.onFrame (h : p.Formed) {f : LinkPort → LinkPort}
    (hf : ∀ q : LinkPort, q.Formed → q.state = .active → (f q).Formed) : (onFrame e f p).Formed := by
  unfold Machine.onFrame
  split
  case h_1 hs => exact hf _ (h.validWord hs) hs
  case h_2 => exact h.otherWord
  case h_3 => exact h

theorem LinkPort.Formed.idleWord (h : p.Formed) : (idleWord e p).Formed := by
  unfold Machine.idleWord
  split
  case h_1 hs => exact h.validWord hs
  case h_2 a _ ha =>
    simp only [countIdle]
    split
    · exact ((h.attempt ha (Nat.zero_le 8)).sendResync).tryComplete
    · exact h.attempt ha (Nat.zero_le 8)
  all_goals exact h

theorem LinkPort.Formed.resyncFrame (h : p.Formed) (n : Seq) (flag : Bool) : (resyncFrame e n flag p).Formed := by
  unfold Machine.resyncFrame
  split
  · exact h.enterAligning.recordPeer n flag
  · exact (h.recordPeer n flag).tryComplete
  · exact h

theorem LinkPort.Formed.corruptWords (h : p.Formed) {k : Nat} (hk : k ≤ 8) :
    ({ p with corruptWords := k } : LinkPort).Formed := { h with corrupt := hk }

theorem LinkPort.Formed.badWord (h : p.Formed) : (badWord e p).Formed := by
  have hmax : Config.maxCorrupt = 8 := rfl
  simp only [Machine.badWord]
  split
  · split
    · exact (h.corruptWords le_rfl).retrain
    · exact h.corruptWords (by omega)
  case h_2 hs =>
    split
    · exact (h.corruptWords (Nat.zero_le 8)).restartAttempt hs
    · exact h.mapAttempt _ (by omega)
  · exact h

/-- The flags of acknowledgements and the frame last sent are no part of the form. -/
theorem LinkPort.Formed.flags (h : p.Formed) {a b c : Bool} {f : Option Frame} :
    ({ p with ackOwed := a, nakOwed := b, nakSent := c, lastFrame := f } : LinkPort).Formed := { h with }

theorem LinkPort.Formed.badFrame (h : p.Formed) : (badFrame e p).Formed := h.onFrame fun _ hq _ => hq.flags

theorem LinkPort.Formed.decideData (h : p.Formed) (seq : Seq) (ws : List Word) : (decideData seq ws p).Formed := by
  simp only [Machine.decideData]
  split
  · split
    case isTrue hroom => exact { h with received := by simpa [acceptMessage, Config.receivePlaces] using Nat.succ_le_of_lt hroom }
    case isFalse => exact h
  · split
    · split
      · exact h
      · exact h.flags
    · exact h.flags

theorem LinkPort.Formed.dataFrame (h : p.Formed) (seq ack : Seq) (ws : List Word) : (dataFrame e seq ack ws p).Formed := by
  unfold Machine.dataFrame
  split
  · exact h.onFrame fun _ hq hs => (hq.takeAck hs ack).decideData seq ws
  · exact h.badFrame

theorem LinkPort.Formed.sendReplay (h : p.Formed) (hs : p.state = .active) {r : Seq} (hr : p.replayPos = some r) :
    (sendReplay r p).Formed := by
  have hitems := h.items
  simp only [LinkPort.itemsOk, hs, Bool.and_eq_true] at hitems
  have hin := h.replay r hr
  unfold Machine.sendReplay
  split
  · exact { h with
      items := by simp [sendData, LinkPort.itemsOk, hs, hitems]
      replay := fun k hk => by
        simp only [sendData] at hk ⊢
        split at hk
        · exact nomatch hk
        case isFalse hne =>
          cases hk
          rw [seq_succ_sub hin]
          refine lt_of_le_of_ne hin fun e => hne ?_
          bv_omega }
  · exact { h with
      items := by simp [LinkPort.itemsOk, hs, hitems]
      replay := fun _ hk => nomatch hk }

theorem LinkPort.Formed.frameNew (h : p.Formed) (hs : p.state = .active) (hr : p.replayPos = none)
    (hroom : p.retry.length < 16) (m : OutMsg) : (frameNew e m p).Formed where
  items := by
    have := h.items
    simp only [LinkPort.itemsOk, hs, Bool.and_eq_true] at this
    simp only [Machine.frameNew, sendData, LinkPort.itemsOk, hs, Bool.and_eq_true]
    refine ⟨this.1, ?_⟩
    cases hretry : p.retry with
    | nil => simp
    | cons x rest => simpa [hretry] using this.2
  length := by
    have := h.length
    simp only [Machine.frameNew, sendData, List.length_append, List.length_singleton]
    bv_omega
  frames := by
    have hlen : p.oldest + BitVec.ofNat 6 p.retry.length = p.txSeq := by
      rw [h.length, BitVec.ofNat_toNat, BitVec.setWidth_eq]
      bv_omega
    have := consecutive_append h.frames m
    rwa [hlen] at this
  replay := fun k hk => by
    simp only [Machine.frameNew, sendData, hr] at hk
    exact nomatch hk
  retry := by simpa [Machine.frameNew, sendData] using hroom
  received := h.received
  replays := h.replays
  corrupt := h.corrupt
  responses := h.responses

/-- The port with its next message taken out of its place. -/
theorem nextOut_cases {m : OutMsg} {q : LinkPort} (h : nextOut p = some (m, q)) :
    (∃ r rest, p.responses = r :: rest ∧ m = .response r.tag r.response ∧ q = { p with responses := rest }) ∨
      ∃ y, p.responses = [] ∧ p.notice = some y ∧ m = .notice y ∧ q = { p with notice := none } := by
  unfold nextOut at h
  split at h
  case h_1 r rest hp =>
    cases h
    exact .inl ⟨r, rest, hp, rfl, rfl⟩
  case h_2 y hp hn =>
    cases h
    exact .inr ⟨y, hp, hn, rfl, rfl⟩
  case h_3 => exact nomatch h

theorem LinkPort.Formed.sendAckOrIdle (h : p.Formed) : (sendAckOrIdle p).Formed := by
  unfold Machine.sendAckOrIdle
  split <;> exact h.flags

theorem LinkPort.Formed.sendActive (h : p.Formed) (hs : p.state = .active) : (sendActive e p).Formed := by
  unfold Machine.sendActive
  split
  · exact h.flags
  · split
    case h_1 r hr => exact h.sendReplay hs hr
    case h_2 hr =>
      split
      case isTrue hroom =>
        split
        case h_1 m q hout =>
          obtain ⟨x, rest, hp, -, rfl⟩ | ⟨y, -, -, -, rfl⟩ := nextOut_cases hout
          · have hshort : rest.length ≤ 8 := by
              have := h.responses
              simp only [hp, List.length_cons] at this
              omega
            exact LinkPort.Formed.frameNew (p := { p with responses := rest }) { h with responses := hshort } hs hr hroom m
          · exact LinkPort.Formed.frameNew (p := { p with notice := none }) { h with } hs hr hroom m
        case h_2 => exact h.sendAckOrIdle
      case isFalse => exact h.sendAckOrIdle

theorem LinkPort.Formed.sendFrame (h : p.Formed) : (sendFrame e p).Formed := by
  unfold Machine.sendFrame
  split
  case h_1 hs => exact h.sendActive hs
  case h_2 => exact h.flags
  case h_3 => exact h

end Port

/-! ### The commands -/

section Links

variable {s : State} {n : AgentId}

theorem quiet_onLink {f : LinkEnv → LinkPort → LinkPort}
    (h : (s.link n).Formed → (f (linkEnvOf s n) (s.link n)).Formed) : Quiet s (onLink n f s) :=
  quiet_setLink fun hp => (LinkPort.sound_iff _).mpr (h ((LinkPort.sound_iff _).mp hp))

theorem goes_signalDetect : Goes (execSignalDetect n s) (Quiet s) := by
  unfold execSignalDetect
  split
  case isTrue hs => exact Goes.next (quiet_onLink fun h => h.detect hs)
  case isFalse => exact Goes.stay s

theorem goes_lossOfSignalDetect : Goes (execLossOfSignalDetect n s) (Quiet s) := by
  unfold execLossOfSignalDetect
  split
  · exact Goes.next (quiet_onLink fun h => h.enterDown.report _)
  · exact Goes.next (quiet_onLink fun h => h.enterDown)
  · exact Goes.stay s

theorem goes_alignmentAttemptExpiry : Goes (execAlignmentAttemptExpiry n s) (Quiet s) := by
  unfold execAlignmentAttemptExpiry
  split
  case isTrue hs => exact Goes.next (quiet_onLink fun h => h.restartAttempt hs.1)
  case isFalse => exact Goes.stay s

theorem goes_watchdogExpiry : Goes (execWatchdogExpiry n s) (Quiet s) := by
  unfold execWatchdogExpiry
  split
  · exact Goes.next (quiet_onLink fun h => h.retrain)
  · exact Goes.stay s

theorem goes_replayDeadlineExpiry : Goes (execReplayDeadlineExpiry n s) (Quiet s) := by
  unfold execReplayDeadlineExpiry
  split
  case isTrue hdue =>
    obtain ⟨hs, hdue⟩ := hdue
    refine Goes.next (quiet_onLink fun h => h.replayOrRollover hs ?_)
    have hitems := h.items
    simp only [LinkPort.itemsOk, hs, Bool.and_eq_true] at hitems
    rw [← h.length, BitVec.sub_self]
    refine List.length_pos_iff.mpr fun hnil => ?_
    cases hd : (s.link n).replayDeadline with
    | none => simp [hd, dueAt] at hdue
    | some d => simp [hd, hnil] at hitems
  case isFalse => exact Goes.stay s

theorem goes_aligningResyncSend : Goes (execAligningResyncSend n s) (Quiet s) := by
  unfold execAligningResyncSend
  split
  · exact Goes.next (quiet_onLink fun h => h.sendResync.tryComplete)
  · exact Goes.stay s

end Links

end Sys2Proof.Machine
end

section
/-! What a command can do, said once (`Effect`): the events of a domain come to `EventOf`, and every command other than COLD_RESET
and TIME_COUNT_ADVANCE is one of the cases of `Effect`. -/

set_option Elab.async false

namespace Sys2Proof.Machine

/-! ### Events of a domain -/

/-- What an event makes of domain `d` and the pool: from the taking of its item on it keeps what `Kept` says, and the pool its
canonical form. -/
structure EventOf (s : State) (d : DomainId) (u : LockTable) : Prop where
  kept : ∃ t : LockTable, t.pool = s.pool ∧ t.dom.body = (s.domain d).body ∧ (t.dom.slotsOwned = true → Kept t u)
  wf : Pool.wf s.pool = true → Pool.wf u.pool = true

/-- The command is an event of domain `d`, or finds nothing to take. -/
def Occurs (s : State) (d : DomainId) (r : Host.Outcome State Fault Refusal) : Prop :=
  r = .next s ∨ ∃ u, r = .next (s.withTable d u) ∧ EventOf s d u

section Events

variable {s : State} {d : DomainId}

/-- An event that takes the head of one of the domain's queues and goes on from there. -/
theorem EventOf.of_taken {t u : LockTable} (hpool : t.pool = s.pool) (hbody : t.dom.body = (s.domain d).body)
    (hk : t.dom.slotsOwned = true → Kept t u) (hw : Pool.wf t.pool = true → Pool.wf u.pool = true) : EventOf s d u :=
  ⟨⟨t, hpool, hbody, hk⟩, fun w => hw (hpool ▸ w)⟩

theorem Occurs.event {u : LockTable} (h : EventOf s d u) : Occurs s d (.next (s.withTable d u)) := .inr ⟨u, rfl, h⟩

theorem Occurs.stay : Occurs s d (.next s) := .inl rfl

/-- What follows the taking of the head of the session unit's items. -/
theorem EventOf.of_session {u : LockTable} (hk : (popSession (s.table d)).dom.slotsOwned = true → Kept (popSession (s.table d)) u)
    (hw : Pool.wf s.pool = true → Pool.wf u.pool = true) : EventOf s d u :=
  .of_taken (t := popSession (s.table d)) rfl rfl hk hw

theorem EventOf.of_notice {u : LockTable} (hk : Kept (popNotice (s.table d)) u)
    (hw : Pool.wf s.pool = true → Pool.wf u.pool = true) : EventOf s d u :=
  .of_taken (t := popNotice (s.table d)) rfl rfl (fun _ => hk) hw

theorem occurs_acquire : Occurs s d (execAcquire (some d) s) := by
  simp only [execAcquire]
  split
  · exact .event (.of_session (fun ho => kept_returnDecision _ _ (kept_decideAcquire _ _ _ _ _ _ _ ho))
      (wf_returnDecision _ _ (wf_decideAcquire _ _ _ _ _ _ _ (popSession (s.table d)))))
  · exact .stay

theorem occurs_release : Occurs s d (execRelease d s) := by
  unfold execRelease
  split
  · exact .event (.of_session (fun ho => kept_decideRelease _ _ _ ho) (wf_decideRelease _ _ _ (popSession (s.table d))))
  · exact .stay

theorem occurs_convertUp : Occurs s d (execConvertUp d s) := by
  unfold execConvertUp
  split
  · exact .event (.of_session (fun ho => kept_returnDecision _ _ (kept_decideConvertUp _ _ _ _ ho))
      (wf_returnDecision _ _ (wf_decideConvertUp _ _ _ _ (popSession (s.table d)))))
  · exact .stay

theorem occurs_convertDown : Occurs s d (execConvertDown d s) := by
  unfold execConvertDown
  split
  · exact .event (.of_session (fun ho => kept_returnDecision _ _ (kept_decideConvertDown _ _ _ ho))
      (wf_returnDecision _ _ (wf_decideConvertDown _ _ _ (popSession (s.table d)))))
  · exact .stay

theorem occurs_query : Occurs s d (execQuery d s) := by
  unfold execQuery
  split
  · exact .event (.of_session (fun _ => kept_returnDecision _ _ (kept_decideQuery ..))
      (wf_returnDecision _ _ (wf_decideQuery _ _ _ (popSession (s.table d)))))
  · exact .stay

theorem ownerOf_owns {i : SlotId} (h : ownerOf s i = some d) : (s.domain d).owns i = true :=
  List.find?_some (p := fun k => (look s.domains k).owns i) h

/-- A timer of a slot that the domain owns. -/
theorem EventOf.of_timer {u : LockTable} {i : SlotId} (hi : ownerOf s i = some d)
    (hk : inBanks (s.domain d).banks i = true → (s.domain d).slotsOwned = true → (s.domain d).state ≠ .disabled →
      Kept (s.table d) u)
    (hw : Pool.wf s.pool = true → Pool.wf u.pool = true) : EventOf s d u := by
  obtain ⟨hstate, hbank⟩ := owns_inBanks (ownerOf_owns hi)
  exact .of_taken rfl rfl (fun ho => hk hbank ho hstate) hw

theorem occurs_waitExpiry {i : SlotId} (hi : ownerOf s i = some d) : Occurs s d (execWaitExpiry i s) := by
  simp only [execWaitExpiry, hi]
  split
  · exact .event (.of_timer hi (fun hb ho hst => kept_waitExpire _ hb ho hst) (wf_waitExpire _ i (s.table d)))
  · exact .stay

theorem occurs_drainOverrun {i : SlotId} (hi : ownerOf s i = some d) : Occurs s d (execDrainOverrun i s) := by
  simp only [execDrainOverrun, hi]
  split
  · exact .event (.of_timer hi (fun hb ho hst => kept_drainOverrun _ hb ho hst) (wf_drainOverrun _ i (s.table d)))
  · exact .stay

/-- The domain with the reclaim at the head of the session unit's items taken, and its number noted (log 11). -/
def notedReclaim (a : AgentId) (number : Nat) (t : LockTable) : LockTable :=
  { t with dom := { t.dom with fromSession := t.dom.fromSession.tail, reclaimed := put t.dom.reclaimed a number } }

theorem takeReclaim_eq (e : DomainEnv) (a : AgentId) (k : Nat) (t : LockTable) :
    takeReclaim e a k t = if t.dom.serves then (reclaimAgent e a (notedReclaim a k t)).table else notedReclaim a k t := rfl

theorem occurs_reclaim : Occurs s d (execReclaim d s) := by
  unfold execReclaim
  split
  case h_1 a k rest _ =>
    refine .event ⟨⟨notedReclaim a k (s.table d), rfl, rfl, fun ho => ?_⟩, wf_takeReclaim _ _ _ (s.table d)⟩
    rw [takeReclaim_eq]
    split
    case isTrue hserves => exact kept_reclaimAgent _ a ho (serves_not_disabled hserves)
    case isFalse => exact Kept.refl _
  case h_2 => exact .stay

theorem occurs_claim : Occurs s d (execClaim (some d) s) := by
  simp only [execClaim]
  split
  · exact .event (.of_notice (kept_takeClaim ..) (wf_takeClaim _ _ _ (popNotice (s.table d))))
  · exact .stay

theorem occurs_presentedAcknowledgement : Occurs s d (execPresentedAcknowledgement (some d) s) := by
  simp only [execPresentedAcknowledgement]
  split
  · exact .event (.of_notice (kept_takeAcknowledgement ..) (wf_takeAcknowledgement _ _ _ (popNotice (s.table d))))
  · exact .stay

theorem occurs_reversion : Occurs s d (execReversion (some d) s) := by
  simp only [execReversion]
  split
  · exact .event (.of_notice (kept_takeReversion ..) (wf_takeReversion _ _ (popNotice (s.table d))))
  · exact .stay

/-- The verdicts handed over are no part of what a decision keeps. -/
theorem Kept.withVerdicts {t u : LockTable} (h : Kept t u) (l : List (Nat × Verdict)) :
    Kept { t with dom := { t.dom with verdicts := l } } { u with dom := { u.dom with verdicts := l } } :=
  { h with verdicts := rfl }

/-- The domain with the head CHECK taken. -/
def popCheck (t : LockTable) : LockTable :=
  { t with dom := { t.dom with checks := t.dom.checks.tail } }

theorem occurs_check : Occurs s d (execCheck (some d) s) := by
  simp only [execCheck]
  split
  case h_1 p rest _ =>
    let l := (decideCheck (envOf s d) p (popCheck (s.table d))).2.dom.verdicts ++
      [(p.place, (decideCheck (envOf s d) p (popCheck (s.table d))).1)]
    exact .event ⟨⟨{ popCheck (s.table d) with dom := { (popCheck (s.table d)).dom with verdicts := l } }, rfl, rfl,
      fun ho => (kept_decideCheck (envOf s d) p (t := popCheck (s.table d)) ho).withVerdicts l⟩,
      wf_takeCheck _ _ (s.table d)⟩
  case h_2 => exact .stay

theorem occurs_done : Occurs s d (execDone d s) := by
  simp only [execDone]
  split
  case h_1 k rest _ =>
    exact .event (.of_taken (t := { s.table d with dom := { (s.table d).dom with dones := (s.table d).dom.dones.tail } }) rfl rfl
      (fun ho => kept_decideDone _ k ho) (wf_decideDone _ _ _))
  case h_2 => exact .stay

theorem event_revoke (online : AgentId → Bool) (h : Handle) :
    EventOf s d (revoke (envOf s d) online h (s.table d)).2 :=
  .of_taken rfl rfl (fun ho => kept_revoke _ _ _ ho) (wf_revoke _ _ _ (s.table d))

theorem event_examine (f : Option AgentId) {i : SlotId} (hi : inBanks (s.domain d).banks i = true) :
    EventOf s d (examine (envOf s d) f i (s.table d)).2 :=
  .of_taken rfl rfl (fun _ => kept_examine _ _ hi) (wf_examine _ _ _ (s.table d))

end Events

/-! ### What a command does to one domain -/

/-- What a command makes of domain `d` and the pool. -/
inductive Touch (s : State) (d : DomainId) : LockTable → Prop where
  | event {u : LockTable} (h : EventOf s d u) : Touch s d u
  | enabled (h : enableCheck s d = none) : Touch s d ⟨enabledDomain (s.domain d), s.pool⟩
  | closed (h : (s.domain d).state = .enabled) : Touch s d (closedTable (s.table d))
  | scrubbing (h : scrubCheck s d = none) : Touch s d ⟨scrubbingDomain (s.domain d), s.pool⟩
  | visited (i : SlotId) (hs : (s.domain d).state = .scrubbing) (hi : (s.domain d).scrubPos = some i) :
      Touch s d (visitSlot (envOf s d) i (s.table d))
  | restarted : Touch s d (restartTable (s.table d))
  | configured (h : (s.domain d).state = .disabled) (base limit : Page) (banks : BitVec 16) (policy : Policy)
      (drain : BitVec 16) : Touch s d ⟨{ s.domain d with
        base := base, limit := limit, banks := banks, policy := policy, drainLimit := drain }, s.pool⟩

/-- Codes by which START is written (10 10.3, 10.4). -/
def writesStart (c : Instr) : Prop :=
  c = .start ∨ c = .unknownCommand 0x0B ∨ ∃ v : Word, c = .registerWrite 0x0005 v ∧ v.setWidth 8 = 0x0B#8

/-- Codes by which WARM_RESTART is written. -/
def writesRestart (c : Instr) : Prop :=
  c = .warmRestart ∨ c = .unknownCommand 0x0C ∨ ∃ v : Word, c = .registerWrite 0x0005 v ∧ v.setWidth 8 = 0x0C#8

/-- What a command other than COLD_RESET and TIME_COUNT_ADVANCE does: work outside the lock table, at one domain, a JOIN, a
register write of a DISABLED agent, or a change of the part mode. -/
inductive Effect (c : Instr) (s : State) : State → Prop where
  | quiet {t : State} (h : Quiet s t) : Effect c s t
  | touched {t : State} (d : DomainId) (u : LockTable) (h : Touch s d u) (hq : Quiet (s.withTable d u) t) : Effect c s t
  | joined {u t : State} (n : AgentId) (x : Agent) (hc : c = .join n) (hu : Quiet s u) (hok : x.quota ≤ Config.maxQuota → x.ok = true)
      (hquota : x.quota = (u.agent n).quota) (hbound : x.bound = (u.agent n).bound) (hstate : x.state = .online)
      (hepoch : x.epoch = nextEpoch (u.agent n).epoch) (ht : Quiet (u.setAgent n x) t) (hstays : (t.agent n).state = x.state) :
      Effect c s t
  | written (n : AgentId) (x : Agent) (hs : (s.agent n).state = .disabled) (hok : (s.agent n).ok = true → x.ok = true)
      (hepoch : x.epoch = (s.agent n).epoch) : Effect c s (s.setAgent n x)
  | started (m : Management) (hc : writesStart c) (hm : m.mode = .active) : Effect c s (s.setManagement m)
  | restarted (m : Management) (hc : writesRestart c) (hm : m.mode = .setup) : Effect c s (s.setManagement m)

section Effects

variable {c : Instr} {s : State}

theorem Goes.quiet {r : Host.Outcome State Fault Refusal} (h : Goes r (Quiet s)) : Goes r (Effect c s) :=
  h.mono fun _ => .quiet

theorem Occurs.goes {d : DomainId} {r : Host.Outcome State Fault Refusal} (h : Occurs s d r) : Goes r (Effect c s) := by
  obtain rfl | ⟨u, rfl, hu⟩ := h
  · exact Goes.next (.quiet (Quiet.refl s))
  · exact Goes.next (.touched d u (.event hu) (Quiet.refl _))

theorem putTable_pool_eq_withTable {d : DomainId} {x : Domain} (h : x.state ≠ .disabled ∨ (s.domain d).state = .disabled) :
    s.withTable d ⟨x, s.pool⟩ = s.setDomain d x :=
  (withTable_putTable s d x s.pool h).trans (putTable_pool s d x)

/-! ### Management commands -/

/-- A command with its two events: its issue is quiet, its decision is what is left to show. -/
theorem goes_twoPhase {k : Command} {decide : Word → Option DomainId → State → State} (p : Phase)
    (h : ∀ arg dest, Effect c s (decide arg dest s)) : Goes (twoPhase k decide p s) (Effect c s) := by
  cases p with
  | issue => exact Goes.next (.quiet (quiet_issueCommand k))
  | decide =>
    simp only [twoPhase]
    split
    · exact Goes.next (h _ _)
    · exact Goes.next (.quiet (Quiet.refl s))

theorem effect_decideEnableDomain (arg : Word) (dest : Option DomainId) : Effect c s (decideEnableDomain arg dest s) := by
  simp only [decideEnableDomain]
  split
  · exact .quiet (quiet_refuseByDomain ..)
  case h_2 hcheck =>
    refine .touched (argDomain arg) _ (.enabled hcheck) ?_
    rw [putTable_pool_eq_withTable (.inl (by simp [enabledDomain]))]
    exact quiet_answer ..

theorem effect_decideCloseDomain (arg : Word) (dest : Option DomainId) : Effect c s (decideCloseDomain arg dest s) := by
  simp only [decideCloseDomain]
  split
  case isTrue hstate => exact .touched _ _ (.closed hstate) (quiet_answer ..)
  case isFalse => exact .quiet (quiet_refuseByDomain ..)

theorem effect_decideScrubDomain (arg : Word) (dest : Option DomainId) : Effect c s (decideScrubDomain arg dest s) := by
  simp only [decideScrubDomain]
  split
  · exact .quiet (quiet_refuseByDomain ..)
  case h_2 hcheck =>
    refine .touched (argDomain arg) _ (.scrubbing hcheck) ?_
    rw [putTable_pool_eq_withTable (.inl (by simp [scrubbingDomain]))]
    exact quiet_answer ..

theorem goes_scrubVisit (d : DomainId) : Goes (execScrubVisit d s) (Effect c s) := by
  unfold execScrubVisit
  split
  case h_1 i hstate hpos => exact Goes.next (.touched _ _ (.visited i hstate hpos) (Quiet.refl _))
  case h_2 => exact Goes.next (.quiet (Quiet.refl s))

theorem effect_decideRevokeRecord (arg : Word) (dest : Option DomainId) : Effect c s (decideRevokeRecord arg dest s) := by
  cases dest with
  | none => exact .quiet ((quiet_reportManagement ..).trans (quiet_answer ..))
  | some d =>
    simp only [decideRevokeRecord]
    exact .touched d _ (.event (event_revoke _ (handleField arg))) (quiet_answer ..)

theorem quiet_decideResetLink (arg : Word) (dest : Option DomainId) : Quiet s (decideResetLink arg dest s) :=
  (quiet_onLink fun h => h.linkReset).trans (quiet_answer ..)

theorem quiet_decideWalkStart (arg : Word) (dest : Option DomainId) : Quiet s (decideWalkStart arg dest s) := by
  simp only [decideWalkStart]
  split
  · exact quiet_refuseByDomain ..
  · exact quiet_setManagement

theorem quiet_decideWalkNext (arg : Word) (dest : Option DomainId) : Quiet s (decideWalkNext arg dest s) := by
  simp only [decideWalkNext]
  split
  · exact (quiet_reportManagement ..).trans (quiet_answer ..)
  · exact quiet_answer ..
  · split <;> exact quiet_setManagement

theorem quiet_afterExamination (d : DomainId) (f : Option AgentId) (i : SlotId) (x : Found) :
    Quiet s (afterExamination d f i x s) := by
  unfold afterExamination
  split
  · exact quiet_setManagement
  · split <;> exact quiet_setManagement

theorem goes_walkExamination : Goes (execWalkExamination s) (Effect c s) := by
  simp only [execWalkExamination]
  split
  case h_1 d f pos _ _ =>
    split
    case h_1 i hnext =>
      have hbank := ((nextSlot_lowest_above _ _ _).mp hnext).1
      exact Goes.next (.touched d _ (.event (event_examine f hbank)) (quiet_afterExamination ..))
    case h_2 => exact Goes.next (.quiet (Quiet.refl s))
  case h_2 => exact Goes.next (.quiet (Quiet.refl s))

theorem effect_startCommand (h : writesStart c) : Effect c s (startCommand s) := by
  simp only [startCommand]
  split
  · exact .quiet (quiet_refuseBusy _)
  · split
    · exact .started _ h rfl
    case h_2 hmode => exact .quiet (Quiet.trans quiet_setManagement (quiet_reportManagement ..))

theorem effect_restartCommand (h : writesRestart c) : Effect c s (restartCommand s) := by
  simp only [restartCommand]
  split
  · exact .quiet (quiet_refuseBusy _)
  · exact .restarted _ h rfl

theorem ofCode_code {k : BitVec 8} {x : Command} (h : Command.ofCode k = some x) : k = x.code :=
  (beq_iff_eq.mp (List.find?_some (p := fun y : Command => y.code == k) h)).symm

theorem effect_writeCommand {code : BitVec 8} (hstart : code = 0x0B → writesStart c) (hrestart : code = 0x0C → writesRestart c) :
    Effect c s (writeCommand s code) := by
  simp only [writeCommand]
  split
  case h_1 h => exact effect_startCommand (hstart (ofCode_code h))
  case h_2 h => exact effect_restartCommand (hrestart (ofCode_code h))
  case h_3 => exact .quiet (quiet_issueCommand _)
  case h_4 =>
    split
    · exact .quiet (quiet_reportManagement ..)
    · exact .quiet (Quiet.trans quiet_setManagement (quiet_reportManagement ..))

theorem goes_commandAnswer : Goes (execCommandAnswer s) (Quiet s) := by
  simp only [execCommandAnswer]
  split
  · exact Goes.next (quiet_setManagement)
  · split
    · exact Goes.next (quiet_setManagement)
    · exact Goes.stay s
  all_goals exact Goes.stay s

/-! ### Register writes -/

/-- A write of one configuration item. -/
theorem effect_writeDomainItem (d : DomainId) {f : Domain → Domain} {base limit : Page} {banks : BitVec 16} {policy : Policy}
    {drain : BitVec 16} (hf : f (s.domain d) = { s.domain d with
      base := base, limit := limit, banks := banks, policy := policy, drainLimit := drain }) :
    Effect c s (writeDomainItem s d f) := by
  unfold writeDomainItem
  split
  case isTrue hstate =>
    refine .touched d _ (.configured hstate base limit banks policy drain) ?_
    rw [putTable_pool_eq_withTable (.inr hstate), hf]
    exact Quiet.refl _
  case isFalse => exact .quiet (quiet_reportDomain ..)

theorem writeDomainItem_disabled {d : DomainId} (h : (s.domain d).state = .disabled) (f : Domain → Domain) :
    writeDomainItem s d f = s.setDomain d (f (s.domain d)) := if_pos h

theorem writeDomainItem_refused {d : DomainId} (h : (s.domain d).state ≠ .disabled) (f : Domain → Domain) :
    writeDomainItem s d f = reportDomain s .commandRefused d := if_neg h

@[simp] theorem setDomain_setDomain (s : State) (d : DomainId) (x y : Domain) :
    (s.setDomain d x).setDomain d y = s.setDomain d y := by
  simp [State.setDomain]

@[simp] theorem reportDomain_state (s : State) (k : EventKind) (d : DomainId) :
    ((reportDomain s k d).domain d).state = (s.domain d).state := by
  simp [reportDomain]

/-- Policy and drain limit, written item by item (log 22). -/
theorem writePolicyAndLimit_disabled {d : DomainId} (h : (s.domain d).state = .disabled) (v : Word) :
    writePolicyAndLimit s d v = if v.setWidth 16 = 0 then
        reportDomain (s.setDomain d { s.domain d with policy := if v.getLsbD 16 then .writeGuarded else .guarded })
          .commandRefused d
      else s.setDomain d { s.domain d with
        policy := if v.getLsbD 16 then .writeGuarded else .guarded, drainLimit := v.setWidth 16 } := by
  simp only [writePolicyAndLimit, writeDrainLimit, writeDomainItem_disabled h]
  by_cases hv : v.setWidth 16 = 0
  · rw [if_pos hv, if_pos hv]
  · rw [if_neg hv, if_neg hv, writeDomainItem_disabled (by simpa using h)]
    simp

theorem writePolicyAndLimit_refused {d : DomainId} (h : (s.domain d).state ≠ .disabled) (v : Word) :
    writePolicyAndLimit s d v = reportDomain (reportDomain s .commandRefused d) .commandRefused d := by
  simp only [writePolicyAndLimit, writeDrainLimit, writeDomainItem_refused h]
  split
  · rfl
  · exact writeDomainItem_refused (by simpa using h) _

theorem effect_writePolicyAndLimit (d : DomainId) (v : Word) : Effect c s (writePolicyAndLimit s d v) := by
  by_cases hstate : (s.domain d).state = .disabled
  · rw [writePolicyAndLimit_disabled hstate]
    split
    · refine .touched d _ (.configured hstate (s.domain d).base (s.domain d).limit (s.domain d).banks
        (if v.getLsbD 16 then .writeGuarded else .guarded) (s.domain d).drainLimit) ?_
      rw [putTable_pool_eq_withTable (.inr hstate)]
      exact quiet_reportDomain ..
    · refine .touched d _ (.configured hstate (s.domain d).base (s.domain d).limit (s.domain d).banks
        (if v.getLsbD 16 then .writeGuarded else .guarded) (v.setWidth 16)) ?_
      rw [putTable_pool_eq_withTable (.inr hstate)]
      exact Quiet.refl _
  · rw [writePolicyAndLimit_refused hstate]
    exact .quiet ((quiet_reportDomain ..).trans (quiet_reportDomain ..))

theorem effect_writeDomain (d : DomainId) (k : Nat) (v : Word) : Effect c s (writeDomain s d k v) := by
  unfold writeDomain
  split
  · exact effect_writeDomainItem d rfl
  · exact effect_writeDomainItem d rfl
  · exact effect_writeDomainItem d rfl
  · exact effect_writePolicyAndLimit d v
  · exact .quiet (Quiet.refl s)

theorem effect_writeAgent (n : AgentId) (k : Nat) (v : Word) : Effect c s (writeAgent s n k v) := by
  unfold writeAgent
  split
  · simp only [writeQuota]
    split
    case isTrue h =>
      obtain ⟨hstate, -, hquota⟩ := h
      refine .written n _ hstate (fun hok => ?_) rfl
      simp only [Agent.ok, Bool.and_eq_true, decide_eq_true_eq] at hok ⊢
      exact ⟨hok.1, hquota⟩
    case isFalse => exact .quiet (quiet_reportSession ..)
  · simp only [writeBound]
    split
    case isTrue h => exact .written n _ h.1 id rfl
    case isFalse => exact .quiet (quiet_reportSession ..)
  · exact .quiet (Quiet.refl s)

theorem quiet_writeLease (k : LeaseClass) (v : Word) : Quiet s (writeLease s k v) := by
  unfold writeLease
  split
  · exact quiet_setManagement
  · exact quiet_reportManagement ..

theorem quiet_writeWait (k : Fin 6) (v : Word) : Quiet s (writeWait s k v) := by
  unfold writeWait
  split
  · exact quiet_setManagement
  · exact quiet_reportManagement ..

theorem quiet_writeWatchdog (v : Word) : Quiet s (writeWatchdog s v) := by
  unfold writeWatchdog
  split
  · exact quiet_setManagement
  · exact quiet_reportManagement ..

theorem effect_writeRegister {a : BitVec 16} {v : Word} (hc : c = .registerWrite a v) : Effect c s (writeRegister s a v) := by
  simp only [writeRegister]
  split
  · exact .quiet (quiet_setManagement)
  · split
    case isTrue ha =>
      have ha : a = 0x0005 := BitVec.eq_of_toNat_eq ha
      exact effect_writeCommand (fun h => .inr (.inr ⟨v, ha ▸ hc, h⟩)) (fun h => .inr (.inr ⟨v, ha ▸ hc, h⟩))
    case isFalse =>
      split
      · exact .quiet (quiet_writeWatchdog v)
      split
      · exact .quiet (quiet_writeLease ..)
      split
      · exact .quiet (quiet_writeWait ..)
      split
      · exact .quiet (quiet_setFault _)
      split
      · exact .quiet (quiet_setFault _)
      split
      · exact .quiet (quiet_setFault _)
      split
      · exact effect_writeDomain ..
      split
      · exact effect_writeAgent ..
      · exact .quiet (Quiet.refl s)

theorem goes_faultReport (src : Source) : Goes (execFaultReport src s) (Quiet s) := by
  unfold execFaultReport
  split
  · refine Goes.next (Quiet.trans ?_ (quiet_setFault _))
    cases src with
    | management => exact quiet_setManagement
    | session => exact quiet_sessionReports _
    | notice => exact quiet_notice _
    | domain d => exact quiet_setDomain
    | link n => exact quiet_setLink ((s.link n).sound_queues le_rfl id)
  · exact Goes.stay s

/-! ### Warm restart -/

theorem goes_lockTableWarmRestart (d : DomainId) : Goes (execLockTableWarmRestart d s) (Effect c s) := by
  unfold execLockTableWarmRestart
  split
  · split
    · exact Goes.next (.touched d _ .restarted (quiet_restartTaken _))
    · exact Goes.next (.quiet (Quiet.refl s))
  · exact Goes.next (.quiet (Quiet.refl s))

theorem agentStays_restarted (a : Agent) : AgentStays a (restartedAgent a) := by
  refine ⟨fun hok => ?_, rfl, rfl, rfl⟩
  simp only [Agent.ok, Bool.and_eq_true, decide_eq_true_eq] at hok
  by_cases h : a.state = .disabled <;> simp [restartedAgent, Agent.ok, h, hok.2]

theorem quiet_restartSession (e : Nat) :
    Quiet s { s with session := { s.session with agents := mapTable restartedAgent s.session.agents, era := e } } := by
  refine ⟨⟨rfl, rfl, rfl, fun n => ?_, id, fun _ => id⟩, .of_same rfl rfl⟩
  simp only [State.agent, look_mapTable]
  exact agentStays_restarted _

theorem goes_sessionWarmRestart : Goes (execSessionWarmRestart s) (Quiet s) := by
  unfold execSessionWarmRestart
  split
  · split
    · exact Goes.next ((quiet_restartSession _).trans (quiet_restartTaken _))
    · exact Goes.stay s
  · exact Goes.stay s

theorem quiet_restartNotice (x : NoticeUnit) (y : NoDomain) :
    Quiet s { s with
      notice := x, domains := mapTable (fun d : Domain => { d with toNotice := [] }) s.domains, noDomain := y
      links := mapTable (fun p : LinkPort => { p with noticeResets := 0 }) s.links } := by
  refine ⟨⟨rfl, rfl, rfl, fun _ => AgentStays.refl _, id, fun n h => ?_⟩, rfl, fun d => ?_⟩
  · simp only [State.link, look_mapTable]
    exact (s.link n).sound_queues le_rfl id h
  · simp only [State.domain, look_mapTable]
    rfl

theorem goes_noticeWarmRestart : Goes (execNoticeWarmRestart s) (Quiet s) := by
  unfold execNoticeWarmRestart
  split
  · split
    · exact Goes.next ((quiet_restartNotice _ _).trans (quiet_restartTaken _))
    · exact Goes.stay s
  · exact Goes.stay s

theorem quiet_withdrawChecks : Quiet s (withdrawChecks s) :=
  (quiet_mapDomains (s := s) (f := fun d : Domain => { d with checks := [] }) fun _ => rfl).trans (quiet_noDomain _)

theorem goes_gateWarmRestart : Goes (execGateWarmRestart s) (Quiet s) := by
  unfold execGateWarmRestart
  split
  · split
    · exact Goes.next ((quiet_withdrawChecks.trans (quiet_setGate bounded_restartedGate)).trans (quiet_restartTaken _))
    · exact Goes.stay s
  · exact Goes.stay s

theorem goes_linkPortWarmRestart (n : AgentId) : Goes (execLinkPortWarmRestart n s) (Quiet s) := by
  unfold execLinkPortWarmRestart
  split
  · split
    · exact Goes.next ((quiet_onLink fun h => h.linkReset).trans (quiet_restartTaken _))
    · exact Goes.stay s
  · exact Goes.stay s

end Effects

end Sys2Proof.Machine
end

section
/-! Every command is one of the cases of `Effect`, but COLD_RESET and TIME_COUNT_ADVANCE: JOIN, what finds no domain, then the cases
of the table of commands. -/

set_option Elab.async false

namespace Sys2Proof.Machine

variable {c : Instr} {s : State}

/-! ### JOIN -/

theorem nextEpoch_ne_zero (e : Word) : nextEpoch e ≠ 0 := by
  unfold nextEpoch
  split
  · decide
  case isFalse h =>
    intro hzero
    exact h (BitVec.eq_of_toNat_eq (by have := congrArg BitVec.toNat hzero; simp at this ⊢; omega))

/-- An entry as an accepted JOIN leaves it. -/
def Agent.joinedWith (a : Agent) (k : LeaseClass) (t : Time) : Agent :=
  { a with state := .online, epoch := nextEpoch a.epoch, leaseClass := some k, leaseDeadline := some t }

theorem joinedWith_ok (a : Agent) (k : LeaseClass) (t : Time) (h : a.quota ≤ Config.maxQuota) : (a.joinedWith k t).ok = true := by
  have hepoch : ¬ nextEpoch a.epoch = 0#32 := nextEpoch_ne_zero _
  simp [Agent.ok, Agent.joinedWith, hepoch, h]

theorem joinAgent_eq (n : AgentId) (k : LeaseClass) :
    ∃ u d t, Quiet s u ∧ joinAgent s n k = u.setAgent n ((u.agent n).joinedWith d t) := by
  refine ⟨_, _, _, ?_, rfl⟩
  refine Quiet.trans ?_ (quiet_notice _)
  split
  · exact quiet_sendReclaim n
  · exact quiet_sendReclaim n
  · exact Quiet.refl s
  · exact Quiet.refl s

@[simp] theorem handResponse_agent_state (n : AgentId) (p : InProcess) (r : Response) :
    ((handResponse s n p r).agent n).state = (s.agent n).state := by
  simp only [handResponse]
  split
  · simp
  · split <;> simp

theorem goes_join (n : AgentId) : Goes (execJoin n s) (Effect (.join n) s) := by
  simp only [execJoin]
  split
  · exact Goes.next (.quiet (Quiet.refl s))
  · split
    · split
      · exact Goes.next (.quiet (quiet_dropMessage.trans (quiet_refuseAtFront ..)))
      case h_2 k _ =>
        obtain ⟨u, d, t, hu, heq⟩ := joinAgent_eq (s := dropMessage s n) n k
        rw [heq]
        exact Goes.next (.joined n ((u.agent n).joinedWith d t) rfl (quiet_dropMessage.trans hu) (joinedWith_ok (u.agent n) d t) rfl rfl rfl rfl
          (quiet_handResponse ..) (by simp))
      · exact Goes.next (.quiet quiet_dropMessage)
    · exact Goes.next (.quiet (Quiet.refl s))

/-! ### What resolved to no domain -/

theorem goes_acquire (dest : Option DomainId) : Goes (execAcquire dest s) (Effect c s) := by
  cases dest with
  | some d => exact occurs_acquire.goes
  | none =>
    simp only [execAcquire]
    split
    · exact Goes.next (.quiet (quiet_noDomain _))
    · exact Goes.next (.quiet (Quiet.refl s))

theorem goes_claim (dest : Option DomainId) : Goes (execClaim dest s) (Effect c s) := by
  cases dest with
  | some d => exact occurs_claim.goes
  | none =>
    simp only [execClaim]
    split
    · exact Goes.next (.quiet (quiet_noDomain _))
    · exact Goes.next (.quiet (Quiet.refl s))

theorem goes_presentedAcknowledgement (dest : Option DomainId) : Goes (execPresentedAcknowledgement dest s) (Effect c s) := by
  cases dest with
  | some d => exact occurs_presentedAcknowledgement.goes
  | none =>
    simp only [execPresentedAcknowledgement]
    split
    · exact Goes.next (.quiet (quiet_noDomain _))
    · exact Goes.next (.quiet (Quiet.refl s))

theorem goes_reversion (dest : Option DomainId) : Goes (execReversion dest s) (Effect c s) := by
  cases dest with
  | some d => exact occurs_reversion.goes
  | none =>
    simp only [execReversion]
    split
    · exact Goes.next (.quiet (quiet_noDomain _))
    · exact Goes.next (.quiet (Quiet.refl s))

theorem goes_check (dest : Option DomainId) : Goes (execCheck dest s) (Effect c s) := by
  cases dest with
  | some d => exact occurs_check.goes
  | none =>
    simp only [execCheck]
    split
    · exact Goes.next (.quiet (quiet_noDomain _))
    · exact Goes.next (.quiet (Quiet.refl s))

theorem goes_waitExpiry (i : SlotId) : Goes (execWaitExpiry i s) (Effect c s) := by
  cases hi : ownerOf s i with
  | some d => exact (occurs_waitExpiry hi).goes
  | none =>
    simp only [execWaitExpiry, hi]
    exact Goes.next (.quiet (Quiet.refl s))

theorem goes_drainOverrun (i : SlotId) : Goes (execDrainOverrun i s) (Effect c s) := by
  cases hi : ownerOf s i with
  | some d => exact (occurs_drainOverrun hi).goes
  | none =>
    simp only [execDrainOverrun, hi]
    exact Goes.next (.quiet (Quiet.refl s))

/-! ### Every command -/

theorem goes_exec (c : Instr) (s : State) (hreset : c ≠ .coldReset) (htick : c ≠ .timeCountAdvance) :
    Goes (exec c s) (Effect c s) := by
  cases c with
  | coldReset => exact absurd rfl hreset
  | timeCountAdvance => exact absurd rfl htick
  | registerWrite a v => exact Goes.next (effect_writeRegister rfl)
  | tokenCounterLowRead d => exact Goes.next (.quiet quiet_setManagement)
  | stickyBitsWrite v | interruptEnablesWrite v => exact Goes.next (.quiet (quiet_setFault _))
  | captureClear => exact Goes.next (.quiet (quiet_setFault _))
  | unknownCommand k =>
    exact Goes.next (effect_writeCommand (fun h => .inr (.inl (h ▸ rfl))) fun h => .inr (.inl (h ▸ rfl)))
  | enableDomain p => exact goes_twoPhase p effect_decideEnableDomain
  | closeDomain p => exact goes_twoPhase p effect_decideCloseDomain
  | scrubDomain p => exact goes_twoPhase p effect_decideScrubDomain
  | scrubVisit d => exact goes_scrubVisit d
  | enableAgent p => exact goes_twoPhase p fun _ _ => .quiet (quiet_decideEnableAgent ..)
  | disableAgent p => exact goes_twoPhase p fun _ _ => .quiet (quiet_decideDisableAgent ..)
  | evictAgent p => exact goes_twoPhase p fun _ _ => .quiet (quiet_decideEvictAgent ..)
  | revokeRecord p => exact goes_twoPhase p effect_decideRevokeRecord
  | resetLink p => exact goes_twoPhase p fun _ _ => .quiet (quiet_decideResetLink ..)
  | walkStart p => exact goes_twoPhase p fun _ _ => .quiet (quiet_decideWalkStart ..)
  | walkNext p => exact goes_twoPhase p fun _ _ => .quiet (quiet_decideWalkNext ..)
  | walkExamination => exact goes_walkExamination
  | start => exact Goes.next (effect_startCommand (.inl rfl))
  | warmRestart => exact Goes.next (effect_restartCommand (.inl rfl))
  | commandAnswer => exact goes_commandAnswer.quiet
  | lockTableWarmRestart d => exact goes_lockTableWarmRestart d
  | sessionWarmRestart => exact goes_sessionWarmRestart.quiet
  | noticeWarmRestart => exact goes_noticeWarmRestart.quiet
  | gateWarmRestart => exact goes_gateWarmRestart.quiet
  | linkPortWarmRestart n => exact (goes_linkPortWarmRestart n).quiet
  | requestArrival n => exact goes_requestArrival.quiet
  | requestTake n => exact goes_requestTake.quiet
  | join n => exact goes_join n
  | leave n => exact goes_leave.quiet
  | renew n => exact goes_renew.quiet
  | acknowledgementTake n => exact goes_acknowledgementTake.quiet
  | messageDiscard n => exact goes_messageDiscard.quiet
  | resultTake src => exact (goes_resultTake src).quiet
  | responseHandoff n => exact goes_responseHandoff.quiet
  | liveReport d => exact (goes_liveReport d).quiet
  | leaseExpiry n => exact goes_leaseExpiry.quiet
  | resetNotice n => exact goes_resetNotice.quiet
  | agentStateRead r => exact (goes_agentStateRead r).quiet
  | acquire dest => exact goes_acquire dest
  | release d => exact occurs_release.goes
  | convertUp d => exact occurs_convertUp.goes
  | convertDown d => exact occurs_convertDown.goes
  | query d => exact occurs_query.goes
  | waitExpiry i => exact goes_waitExpiry i
  | drainOverrun i => exact goes_drainOverrun i
  | reclaim d => exact occurs_reclaim.goes
  | claim dest => exact goes_claim dest
  | presentedAcknowledgement dest => exact goes_presentedAcknowledgement dest
  | reversion dest => exact goes_reversion dest
  | noticePost d => exact (goes_noticePost d).quiet
  | withdrawFront d => exact (goes_withdrawFront d).quiet
  | withdrawFollowUp d => exact (goes_withdrawFollowUp d).quiet
  | clear d => exact (goes_clear d).quiet
  | scrubRemove d => exact (goes_scrubRemove d).quiet
  | sessionConditionPost => exact goes_sessionConditionPost.quiet
  | sessionSetEmpty => exact goes_sessionSetEmpty.quiet
  | claimAnswer src => exact (goes_claimAnswer src).quiet
  | acknowledgementOutcome src => exact (goes_acknowledgementOutcome src).quiet
  | noticeAck n => exact goes_noticeAck.quiet
  | sessionAck n => exact goes_sessionAck.quiet
  | noticeReclaim n => exact goes_noticeReclaim.quiet
  | domainLoss d => exact (goes_domainLoss d).quiet
  | noticeLinkReset n => exact goes_noticeLinkReset.quiet
  | checkAccept k => exact Goes.next (.quiet (quiet_offer _))
  | doneAccept m => exact Goes.next (.quiet (quiet_offer _))
  | gateWordDiscard w => exact Goes.next (.quiet (Quiet.refl s))
  | checkTake => exact goes_checkTake.quiet
  | checkPresent => exact goes_checkPresent.quiet
  | check dest => exact goes_check dest
  | verdictPlace src => exact (goes_verdictPlace src).quiet
  | verdictAccept => exact goes_verdictAccept.quiet
  | doneDispatch => exact goes_doneDispatch.quiet
  | done d => exact occurs_done.goes
  | faultReport src => exact (goes_faultReport src).quiet
  | signalDetect n => exact goes_signalDetect.quiet
  | lossOfSignalDetect n => exact goes_lossOfSignalDetect.quiet
  | idleReceived n => exact Goes.next (.quiet (quiet_onLink fun h => h.idleWord))
  | resyncReceived n k f => exact Goes.next (.quiet (quiet_onLink fun h => h.resyncFrame k f))
  | corruptWord n => exact Goes.next (.quiet (quiet_onLink fun h => h.badWord))
  | corruptFrame n => exact Goes.next (.quiet (quiet_onLink fun h => h.badFrame))
  | dataReceived n k a ws => exact Goes.next (.quiet (quiet_onLink fun h => h.dataFrame k a ws))
  | ackReceived n a => exact Goes.next (.quiet (quiet_onLink fun h => h.onFrame fun _ hq hs => hq.takeAck hs a))
  | nakReceived n k => exact Goes.next (.quiet (quiet_onLink fun h => h.onFrame fun _ hq hs => hq.takeNak hs k))
  | alignmentAttemptExpiry n => exact goes_alignmentAttemptExpiry.quiet
  | watchdogExpiry n => exact goes_watchdogExpiry.quiet
  | replayDeadlineExpiry n => exact goes_replayDeadlineExpiry.quiet
  | frameSend n => exact Goes.next (.quiet (quiet_onLink fun h => h.sendFrame))
  | aligningResyncSend n => exact goes_aligningResyncSend.quiet

end Sys2Proof.Machine
end

section
/-! What every command keeps outside the lock table: the queue of commands, the time count, the part mode, and the forms of the
units. -/

set_option Elab.async false

namespace Sys2Proof.Machine

variable {c : Instr} {s t : State}

/-! ### Commands but COLD_RESET and TIME_COUNT_ADVANCE -/

theorem Effect.pending (h : Effect c s t) : t.pending = s.pending := by
  cases h with
  | quiet h => exact h.outside.pending
  | touched d u h hq => exact hq.outside.pending
  | joined n x hc hu hok hquota hbound hstate hepoch ht hstays => exact ht.outside.pending.trans hu.outside.pending
  | written n x hs hok hepoch => rfl
  | started m hc hm => rfl
  | restarted m hc hm => rfl

theorem Effect.time (h : Effect c s t) : t.time = s.time := by
  cases h with
  | quiet h => exact h.outside.time
  | touched d u h hq => exact hq.outside.time
  | joined n x hc hu hok hquota hbound hstate hepoch ht hstays => exact ht.outside.time.trans hu.outside.time
  | written n x hs hok hepoch => rfl
  | started m hc hm => rfl
  | restarted m hc hm => rfl

@[simp] theorem endWalk_mode (m : Management) (d : DomainId) : (endWalk m d).mode = m.mode := by
  unfold endWalk
  split
  · split <;> rfl
  all_goals rfl

@[simp] theorem withTable_mode (d : DomainId) (u : LockTable) : (s.withTable d u).management.mode = s.management.mode := by
  obtain h | h := withTable_management s d u <;> simp [h]

/-- The part mode changes at a write of START's or WARM_RESTART's code alone. -/
theorem Effect.mode (h : Effect c s t) : t.management.mode = s.management.mode ∨
    (writesStart c ∧ t.management.mode = .active) ∨ (writesRestart c ∧ t.management.mode = .setup) := by
  cases h with
  | quiet h => exact .inl h.outside.mode
  | touched d u h hq => exact .inl (hq.outside.mode.trans (withTable_mode d u))
  | joined n x hc hu hok hquota hbound hstate hepoch ht hstays => exact .inl (ht.outside.mode.trans hu.outside.mode)
  | written n x hs hok hepoch => exact .inl rfl
  | started m hc hm => exact .inr (.inl ⟨hc, hm⟩)
  | restarted m hc hm => exact .inr (.inr ⟨hc, hm⟩)

/-- Every command, with what it comes to. -/
theorem exec_cases (c : Instr) (s : State) :
    c = .coldReset ∨ c = .timeCountAdvance ∨ c ≠ .coldReset ∧ c ≠ .timeCountAdvance ∧ ∃ t, exec c s = .next t ∧ Effect c s t := by
  by_cases hreset : c = .coldReset
  · exact .inl hreset
  · by_cases htick : c = .timeCountAdvance
    · exact .inr (.inl htick)
    · exact .inr (.inr ⟨hreset, htick, goes_exec c s hreset htick⟩)

theorem eq_of_next {t u : State} (h : (.next t : Host.Outcome State Fault Refusal) = .next u) : t = u := by
  injection h

theorem exec_timeCountAdvance (s : State) : exec .timeCountAdvance s = .next { s with
    time := s.time + 1
    pool := (s.upsets.headD []).foldl (fun p u => strike u p) s.pool
    upsets := s.upsets.tail } := rfl

/-- Settles O2: COLD_RESET and TIME_COUNT_ADVANCE end in a state written out, every other command in one its `Effect` describes. -/
theorem noCommandStopsThePart : Obligations.NoCommandStopsThePart := by
  intro c s
  obtain rfl | rfl | ⟨-, -, t, ht, heffect⟩ := exec_cases c s
  · exact ⟨_, exec_coldReset s, rfl⟩
  · exact ⟨_, exec_timeCountAdvance s, rfl⟩
  · exact ⟨t, ht, heffect.pending⟩

/-! ### Storage errors -/

/-- A slot after a storage error. -/
def Slot.struck (x : Slot) : UpsetKind → Slot
  | .recordBit => { x with health := oneBitMore x.health }
  | .recordBits => { x with health := .manyBits }
  | .copyA c => { x with copyA := c }
  | .copyB c => { x with copyB := c }
  | .copyC c => { x with copyC := c }

theorem strike_eq (u : Upset) (p : Pool) : strike u p = poolPut p u.slot ((poolGet p u.slot).struck u.kind) := by
  unfold strike Slot.struck
  cases u.kind <;> rfl

theorem poolGet_strike_ne {u : Upset} {i : SlotId} (h : u.slot ≠ i) (p : Pool) : poolGet (strike u p) i = poolGet p i := by
  rw [strike_eq, poolGet_poolPut_ne _ _ h.symm]

theorem poolGet_strike_same {p : Pool} (hp : Pool.wf p = true) (u : Upset) :
    poolGet (strike u p) u.slot = (poolGet p u.slot).struck u.kind := by
  rw [strike_eq, poolGet_poolPut_same hp]

/-- The storage errors of a millisecond leave every slot that none of them names. -/
theorem poolGet_strikes_ne {i : SlotId} {us : List Upset} (h : ∀ u ∈ us, u.slot ≠ i) (p : Pool) :
    poolGet (us.foldl (fun p u => strike u p) p) i = poolGet p i := by
  induction us generalizing p with
  | nil => rfl
  | cons u rest ih =>
    rw [List.foldl_cons, ih fun v hv => h v (List.mem_cons_of_mem _ hv), poolGet_strike_ne (h u List.mem_cons_self)]

/-- A slot that one of them names alone is struck once. -/
theorem poolGet_strikes_one {p : Pool} (hp : Pool.wf p = true) {pre post : List Upset} {u : Upset}
    (h : ∀ v ∈ pre ++ post, v.slot ≠ u.slot) :
    poolGet ((pre ++ u :: post).foldl (fun p u => strike u p) p) u.slot = (poolGet p u.slot).struck u.kind := by
  have hpre : ∀ v ∈ pre, v.slot ≠ u.slot := fun v hv => h v (List.mem_append_left _ hv)
  have hpost : ∀ v ∈ post, v.slot ≠ u.slot := fun v hv => h v (List.mem_append_right _ hv)
  rw [List.foldl_append, List.foldl_cons, poolGet_strikes_ne hpost, poolGet_strike_same (wf_strikes hp pre),
    poolGet_strikes_ne hpre]

theorem oneBitMore_eq (h : Health) : oneBitMore h = if h = .clean then .oneBit else .manyBits := by
  cases h <;> rfl

/-- Settles O3: time and mode by the `Effect` of the command; the storage errors of an advance by the strikes, one after another. -/
theorem whatMovesTheTimeAndTheMode : Obligations.WhatMovesTheTimeAndTheMode := by
  refine ⟨fun c s t h => ?time, fun s hs => ?quietTick, fun s us rest hus hp => ?tick, fun c s t h => ?mode⟩
  case time =>
    obtain rfl | rfl | ⟨hreset, htick, u, hu, heffect⟩ := exec_cases c s
    · rw [exec_coldReset] at h
      exact (congrArg State.time (eq_of_next h)).symm
    · rw [exec_timeCountAdvance] at h
      exact (congrArg State.time (eq_of_next h)).symm
    · cases eq_of_next (hu.symm.trans h)
      rw [heffect.time]
      split
      · exact absurd rfl htick
      · exact absurd rfl hreset
      · rfl
  case quietTick =>
    rw [exec_timeCountAdvance, hs]
    cases s
    cases hs
    rfl
  case tick =>
    refine ⟨_, by rw [exec_timeCountAdvance, hus]; rfl, fun i hi => poolGet_strikes_ne hi _, fun pre post u hsplit hv => ?_⟩
    cases hsplit
    refine (poolGet_strikes_one hp hv).trans ?_
    cases u.kind <;> simp [Slot.struck, oneBitMore_eq]
  case mode =>
    obtain rfl | rfl | ⟨-, -, u, hu, heffect⟩ := exec_cases c s
    · rw [exec_coldReset] at h
      have hmode : t.management.mode = .setup := by rw [← eq_of_next h]; rfl
      exact ⟨fun _ g => by simp [hmode] at g, fun _ _ => .inl rfl⟩
    · rw [exec_timeCountAdvance] at h
      have hmode : t.management.mode = s.management.mode := by rw [← eq_of_next h]
      exact ⟨fun hs ht => by simp [hmode, hs] at ht, fun hs ht => by simp [hmode, hs] at ht⟩
    · cases eq_of_next (hu.symm.trans h)
      obtain hmode | ⟨hc, hmode⟩ | ⟨hc, hmode⟩ := heffect.mode
      · exact ⟨fun hs ht => by simp [hmode, hs] at ht, fun hs ht => by simp [hmode, hs] at ht⟩
      · exact ⟨fun _ _ => hc, fun _ ht => by simp [hmode] at ht⟩
      · exact ⟨fun _ ht => by simp [hmode] at ht, fun _ _ => .inr hc⟩

/-! ### The forms of the units -/

@[simp] theorem pool_becomeDisabled (t : LockTable) : (becomeDisabled t).pool = t.pool := rfl

@[simp] theorem pool_closedTable (t : LockTable) : (closedTable t).pool = t.pool := by
  unfold closedTable
  split <;> rfl

theorem Touch.wf {d : DomainId} {u : LockTable} (h : Touch s d u) (hp : Pool.wf s.pool = true) : Pool.wf u.pool = true := by
  cases h with
  | event h => exact h.wf hp
  | enabled h => exact hp
  | closed h => rwa [pool_closedTable]
  | scrubbing h => exact hp
  | visited i hs hi => exact wf_visitSlot _ _ _ hp
  | restarted => exact wf_restartTable _ hp
  | configured h => exact hp

/-- What a command keeps of the units' forms. -/
structure InForm (s t : State) : Prop where
  pool : Pool.wf s.pool = true → Pool.wf t.pool = true
  agents : s.agentsOk → t.agentsOk
  gate : s.gate.bounded = true → t.gate.bounded = true
  links : s.linksOk → t.linksOk

theorem InForm.refl (s : State) : InForm s s := ⟨id, id, id, id⟩

theorem InForm.trans {s t u : State} (h : InForm s t) (g : InForm t u) : InForm s u :=
  ⟨g.pool ∘ h.pool, g.agents ∘ h.agents, g.gate ∘ h.gate, g.links ∘ h.links⟩

theorem Quiet.inForm (h : Quiet s t) : InForm s t where
  pool := fun w => h.lock.pool ▸ w
  agents := fun g n => (h.outside.agent n).ok (g n)
  gate := h.outside.gate
  links := fun g n => h.outside.link n (g n)

theorem inForm_setAgent {n : AgentId} {x : Agent} (h : (s.agent n).ok = true → x.ok = true) : InForm s (s.setAgent n x) where
  pool := id
  agents := fun g k => by
    by_cases hk : k = n
    · subst hk
      rw [setAgent_agent_same]
      exact h (g k)
    · rw [setAgent_agent_ne s x hk]
      exact g k
  gate := id
  links := id

theorem Agent.ok_quota {a : Agent} (h : a.ok = true) : a.quota ≤ Config.maxQuota := by
  simp only [Agent.ok, Bool.and_eq_true, decide_eq_true_eq] at h
  exact h.2

theorem Effect.inForm (h : Effect c s t) : InForm s t := by
  cases h with
  | quiet h => exact h.inForm
  | touched d u h hq =>
    have htable : InForm s (s.withTable d u) := ⟨h.wf, id, id, id⟩
    exact htable.trans hq.inForm
  | joined n x hc hu hok hquota hbound hstate hepoch ht hstays =>
    exact hu.inForm.trans ((inForm_setAgent fun g => hok (hquota ▸ Agent.ok_quota g)).trans ht.inForm)
  | written n x hs hok hepoch => exact inForm_setAgent hok
  | started m hc hm => exact ⟨id, id, id, id⟩
  | restarted m hc hm => exact ⟨id, id, id, id⟩

@[simp] theorem reset_agent (n : AgentId) : State.reset.agent n = .reset := look_replicate _ _

@[simp] theorem reset_link (n : AgentId) : State.reset.link n = .reset := look_replicate _ _

theorem reset_agentsOk : State.reset.agentsOk := fun n => by
  rw [reset_agent]
  decide

theorem reset_linksOk : State.reset.linksOk := fun n => by
  rw [reset_link]
  decide

theorem inForm_exec {t : State} (h : exec c s = .next t) : InForm s t := by
  obtain rfl | rfl | ⟨-, -, u, hu, heffect⟩ := exec_cases c s
  · cases eq_of_next ((exec_coldReset s).symm.trans h)
    exact ⟨fun _ => rfl, fun _ => reset_agentsOk, fun _ => rfl, fun _ => reset_linksOk⟩
  · cases eq_of_next ((exec_timeCountAdvance s).symm.trans h)
    exact ⟨fun w => wf_strikes w _, id, id, id⟩
  · cases eq_of_next (hu.symm.trans h)
    exact heffect.inForm

theorem step_cases {t : State} (h : step s = .next t) :
    t = s ∨ ∃ c rest, s.pending = c :: rest ∧ exec c { s with pending := rest } = .next t := by
  unfold step at h
  split at h
  · exact .inl (eq_of_next h).symm
  case h_2 c rest hpending => exact .inr ⟨c, rest, hpending, h⟩

/-- Settles O56: the front command keeps each form, whatever it is. -/
theorem everyStepKeepsTheUnitsInForm : Obligations.EveryStepKeepsTheUnitsInForm := by
  intro s t h
  have hform : InForm s t := by
    obtain rfl | ⟨c, rest, -, hexec⟩ := step_cases h
    · exact InForm.refl t
    · have hkept := inForm_exec hexec
      exact ⟨hkept.pool, hkept.agents, hkept.gate, hkept.links⟩
  exact ⟨hform.pool, hform.agents, hform.gate, hform.links⟩

end Sys2Proof.Machine
end

section
/-! What service keeps: the configuration and the tokens of a domain, the quota, bound and epoch of an agent. -/

set_option Elab.async false

namespace Sys2Proof.Machine

variable {c : Instr} {s t : State} {d : DomainId}

/-! ### A scrub visit -/

@[simp] theorem body_probeRecord (e : DomainEnv) (i : SlotId) (t : LockTable) : (probeRecord e i t).2.dom.body = t.dom.body := by
  simp only [probeRecord]
  split <;> rfl

@[simp] theorem body_repairDirectory (e : DomainEnv) (i : SlotId) (t : LockTable) :
    (repairDirectory e i t).dom.body = t.dom.body := by
  simp only [repairDirectory]
  split <;> rfl

@[simp] theorem body_probe (e : DomainEnv) (i : SlotId) (t : LockTable) : (probe e i t).2.dom.body = t.dom.body := by
  simp only [probe]
  split <;> simp

theorem onlySlot_probeRecord (e : DomainEnv) (i : SlotId) (t : LockTable) : onlySlot i t.pool (probeRecord e i t).2.pool := by
  simp only [probeRecord]
  split
  · exact fun _ _ => rfl
  · exact onlySlot_poolPut _ _ _
  · exact fun _ _ => rfl

theorem onlySlot_repairDirectory (e : DomainEnv) (i : SlotId) (t : LockTable) :
    onlySlot i t.pool (repairDirectory e i t).pool := by
  simp only [repairDirectory]
  split
  · exact fun _ _ => rfl
  · exact onlySlot_poolPut _ _ _

theorem onlySlot_probe (e : DomainEnv) (i : SlotId) (t : LockTable) : onlySlot i t.pool (probe e i t).2.pool := by
  simp only [probe]
  split
  · exact onlySlot_repairDirectory e i t
  · exact (onlySlot_repairDirectory e i t).trans (onlySlot_probeRecord e i _)

/-- A slot visit writes its slot alone, and moves the scrub position. -/
theorem visitSlot_cases (e : DomainEnv) (i : SlotId) (t : LockTable) : ∃ x p, x.body = t.dom.body ∧ onlySlot i t.pool p ∧
    visitSlot e i t = advanceScrub i ⟨x, p⟩ := by
  have hother := onlySlot_probe e i t
  have hbody := body_probe e i t
  unfold visitSlot
  split
  case h_1 u heq =>
    rw [heq] at hother hbody
    exact ⟨u.dom, u.pool, hbody, hother, rfl⟩
  all_goals
    rename_i u heq
    rw [heq] at hother hbody
    exact ⟨(scrubSlot i u).dom, _, hbody, hother.trans (onlySlot_freeSlot _ i), rfl⟩

/-- The scrub position moves on, or the domain is DISABLED. -/
theorem advanceScrub_cases (i : SlotId) (t : LockTable) :
    (∃ j, advanceScrub i t = { t with dom := { t.dom with scrubPos := some j } }) ∨ advanceScrub i t = becomeDisabled t := by
  unfold advanceScrub
  split
  case h_1 j _ => exact .inl ⟨j, rfl⟩
  case h_2 => exact .inr rfl

/-! ### What service keeps -/

/-- What every command but COLD_RESET keeps of a domain: its configuration where it is not DISABLED (R1); tokens only rise (R21). -/
structure DomainServed (x y : Domain) : Prop where
  config : x.state ≠ .disabled → y.configuration = x.configuration
  tokens : x.tokenCounter.toNat ≤ y.tokenCounter.toNat
  exhausted : x.exhausted = true → y.exhausted = true

theorem DomainServed.of_eq {x y : Domain} (hc : y.configuration = x.configuration) (hk : y.tokenCounter = x.tokenCounter)
    (hx : y.exhausted = x.exhausted) : DomainServed x y :=
  ⟨fun _ => hc, (congrArg BitVec.toNat hk).ge, hx.trans⟩

theorem DomainServed.refl (x : Domain) : DomainServed x x := .of_eq rfl rfl rfl

theorem DomainServed.trans {x y z : Domain} (h : DomainServed x y) (g : DomainServed y z) (hxy : x.state ≠ .disabled →
    y.state ≠ .disabled) : DomainServed x z :=
  ⟨fun hx => (g.config (hxy hx)).trans (h.config hx), h.tokens.trans g.tokens, g.exhausted ∘ h.exhausted⟩

theorem DomainServed.of_body {x y : Domain} (h : y.body = x.body) : DomainServed x y :=
  .of_eq (eq_of_body Domain.configuration h) (eq_of_body Domain.tokenCounter h) (eq_of_body Domain.exhausted h)

theorem DomainServed.then_body {x y z : Domain} (h : DomainServed x y) (g : z.body = y.body) : DomainServed x z :=
  ⟨fun hx => (eq_of_body Domain.configuration g).trans (h.config hx), h.tokens.trans (DomainServed.of_body g).tokens,
    fun hx => (eq_of_body Domain.exhausted g).trans (h.exhausted hx)⟩

theorem EventOf.served {u : LockTable} (h : EventOf s d u) (ho : (s.domain d).slotsOwned = true) :
    DomainServed (s.domain d) u.dom := by
  obtain ⟨t, -, hbody, hkept⟩ := h.kept
  have k := hkept ((eq_of_body Domain.slotsOwned hbody).trans ho)
  exact DomainServed.trans (.of_body hbody) ⟨fun _ => k.config, k.tokens, k.exhausted⟩
    fun hx => (eq_of_body Domain.state hbody).trans_ne hx

theorem served_visitSlot (e : DomainEnv) (i : SlotId) (t : LockTable) : DomainServed t.dom (visitSlot e i t).dom := by
  obtain ⟨x, p, hbody, -, hvisit⟩ := visitSlot_cases e i t
  have hc := eq_of_body Domain.configuration hbody
  have hk := eq_of_body Domain.tokenCounter hbody
  have hx := eq_of_body Domain.exhausted hbody
  obtain ⟨j, hadvance⟩ | hadvance := advanceScrub_cases i ⟨x, p⟩
  · rw [hvisit, hadvance]
    exact .of_eq hc hk hx
  · rw [hvisit, hadvance]
    exact .of_eq hc hk hx

theorem served_restartTable (t : LockTable) : DomainServed t.dom (restartTable t).dom := by
  unfold restartTable
  split <;> exact .of_eq rfl rfl rfl

theorem served_closedTable (t : LockTable) : DomainServed t.dom (closedTable t).dom := by
  unfold closedTable
  split <;> exact .of_eq rfl rfl rfl

theorem Touch.served {u : LockTable} (h : Touch s d u) (ho : (s.domain d).slotsOwned = true) :
    DomainServed (s.domain d) u.dom := by
  cases h with
  | event h => exact h.served ho
  | enabled h => exact .of_eq rfl rfl rfl
  | closed h => exact served_closedTable (s.table d)
  | scrubbing h => exact .of_eq rfl rfl rfl
  | visited i hs hi => exact served_visitSlot _ i (s.table d)
  | restarted => exact served_restartTable (s.table d)
  | configured h => exact ⟨fun hx => absurd h hx, le_rfl, id⟩

theorem Effect.domainServed (h : Effect c s t) (hs : s.collectionsOwned) (k : DomainId) :
    DomainServed (s.domain k) (t.domain k) := by
  cases h with
  | quiet h => exact .of_body (h.lock.body k)
  | touched d u h hq =>
    refine DomainServed.then_body ?_ (hq.lock.body k)
    by_cases hk : k = d
    · subst hk
      rw [withTable_domain_same]
      exact h.served (hs k).1
    · rw [withTable_domain_ne s u hk]
      exact .refl _
  | joined n x hc hu hok hquota hbound hstate hepoch ht hstays =>
    exact DomainServed.then_body (.of_body (hu.lock.body k)) (ht.lock.body k)
  | written n x hs hok hepoch => exact .refl _
  | started m hc hm => exact .refl _
  | restarted m hc hm => exact .refl _

/-- What every command but COLD_RESET keeps of an agent: quota and bound where it is not DISABLED (R78); the
epoch moves at its JOIN alone (R81). -/
structure AgentServed (c : Instr) (n : AgentId) (a b : Agent) : Prop where
  stays : a.state ≠ .disabled → b.quota = a.quota ∧ b.bound = a.bound
  epoch : b.epoch ≠ a.epoch → c = .join n ∧ b.state = .online ∧ b.epoch = nextEpoch a.epoch

theorem AgentStays.served {n : AgentId} {a b : Agent} (h : AgentStays a b) : AgentServed c n a b :=
  ⟨fun _ => ⟨h.quota, h.bound⟩, fun hne => absurd h.epoch hne⟩

theorem Effect.agentServed (h : Effect c s t) (n : AgentId) : AgentServed c n (s.agent n) (t.agent n) := by
  cases h with
  | quiet h => exact (h.outside.agent n).served
  | touched d u h hq => exact AgentStays.served (hq.outside.agent n)
  | joined m x hc hu hok hquota hbound hstate hepoch ht hstays =>
    have hbefore := hu.outside.agent n
    have hafter := ht.outside.agent n
    by_cases hm : n = m
    · subst hm
      rw [setAgent_agent_same] at hafter
      refine ⟨fun _ => ⟨?_, ?_⟩, fun _ => ⟨hc, hstays.trans hstate, ?_⟩⟩
      · rw [hafter.quota, hquota, hbefore.quota]
      · rw [hafter.bound, hbound, hbefore.bound]
      · rw [hafter.epoch, hepoch, hbefore.epoch]
    · rw [setAgent_agent_ne _ x hm] at hafter
      exact (hbefore.trans hafter).served
  | written m x hs hok hepoch =>
    by_cases hm : n = m
    · subst hm
      rw [setAgent_agent_same]
      exact ⟨fun hn => absurd hs hn, fun hne => absurd hepoch hne⟩
    · rw [setAgent_agent_ne _ x hm]
      exact (AgentStays.refl _).served
  | started m hc hm => exact (AgentStays.refl _).served
  | restarted m hc hm => exact (AgentStays.refl _).served

/-- Settles O59: domain by domain and agent by agent from the `Effect` of the command; an advance of the time touches neither. -/
theorem whatServiceKeeps : Obligations.WhatServiceKeeps := by
  intro c s t h hreset hs
  have hserved : (∀ d, DomainServed (s.domain d) (t.domain d)) ∧ ∀ n, AgentServed c n (s.agent n) (t.agent n) := by
    obtain rfl | rfl | ⟨-, -, u, hu, heffect⟩ := exec_cases c s
    · exact absurd rfl hreset
    · cases eq_of_next ((exec_timeCountAdvance s).symm.trans h)
      exact ⟨fun d => .refl _, fun n => (AgentStays.refl _).served⟩
    · cases eq_of_next (hu.symm.trans h)
      exact ⟨heffect.domainServed hs, heffect.agentServed⟩
  obtain ⟨hdomain, hagent⟩ := hserved
  exact ⟨fun d => (hdomain d).config, fun d => ⟨(hdomain d).tokens, (hdomain d).exhausted⟩, fun n =>
    ⟨(hagent n).stays, (hagent n).epoch⟩⟩

end Sys2Proof.Machine
end

section
/-! The invariants of O57: they hold at reset, and they do not say enough of a FREE slot to be kept by ENABLE_DOMAIN. -/

set_option Elab.async false

namespace Sys2Proof.Machine

/-! ### At reset -/

theorem reset_collectionsOwned : State.reset.collectionsOwned := fun d => by
  rw [reset_domain]
  decide

theorem apart_of_disabled {s : State} (h : ∀ d, (s.domain d).state = .disabled) : s.domainsApart :=
  fun d _ _ hd => absurd (h d) hd

/-- With every domain DISABLED the agreement asks only that no slot holds a record. -/
theorem recordsAgree_of_disabled {s : State} (h : ∀ d, (s.domain d).state = .disabled)
    (hf : ∀ i, (poolGet s.pool i).directory.free = true ∧ (recordOf s.pool i).state = .free) : s.recordsAgree where
  served := fun d hd => absurd (h d) hd
  position := fun d _ hs => nomatch (h d).symm.trans hs
  scrubbed := fun d _ hs => nomatch (h d).symm.trans hs
  unowned := fun i _ => (hf i).2
  marked := fun i => iff_of_true (hf i).1 (hf i).2

theorem reset_disabled (d : DomainId) : (State.reset.domain d).state = .disabled := by rw [reset_domain]; rfl

theorem reset_noRecord : (Slot.reset).directory.free = true ∧ Slot.reset.record.state = .free := by decide

/-- Settles O58: every unit is in its reset state, no domain serves and no slot holds a record. -/
theorem theInvariantsHoldAtReset : Obligations.TheInvariantsHoldAtReset :=
  ⟨rfl, reset_agentsOk, rfl, reset_linksOk, apart_of_disabled reset_disabled, reset_collectionsOwned,
    recordsAgree_of_disabled reset_disabled fun _ => reset_noRecord⟩

/-! ### A stray wait deadline -/

/-- A FREE slot whose record store still shows a wait deadline: nothing that O57 assumes of a slot that no domain owns forbids it. -/
def straySlot : Slot := { Slot.reset with record := { Record.cleared with waitDeadline := some 0 } }

/-- Domain 0 DISABLED over bank 0, the slot of which is stray, and ENABLE_DOMAIN of it in progress. -/
def strayState : State :=
  { State.reset with
    management := { Management.reset with command := some (.handed .enableDomain 0 none) }
    pool := [(0, straySlot)]
    domains := put State.reset.domains 0 { Domain.reset with banks := 1 }
    pending := [.enableDomain .decide] }

/-- The state after the step: domain 0 ENABLED, the record store untouched. -/
def strayEnabled : State :=
  answer (({ strayState with pending := [] }).setDomain 0 (enabledDomain (strayState.domain 0))) .enableDomain .done

theorem step_strayState : step strayState = .next strayEnabled := by
  have hcheck : enableCheck { strayState with pending := [] } 0 = none := by decide
  have hdecide : decideEnableDomain 0 none { strayState with pending := [] } = strayEnabled := by
    have hzero : argDomain 0 = 0 := by decide
    simp only [decideEnableDomain, hzero, hcheck]
    rfl
  exact congrArg Host.Outcome.next hdecide

theorem stray_domain (d : DomainId) : strayState.domain d = if d = 0 then { Domain.reset with banks := 1 } else .reset := by
  by_cases h : d = 0
  · subst h
    exact look_put_same ..
  · rw [if_neg h]
    exact (look_put_ne _ _ h).trans (reset_domain d)

theorem stray_disabled (d : DomainId) : (strayState.domain d).state = .disabled := by
  rw [stray_domain]
  split <;> rfl

theorem stray_collectionsOwned : strayState.collectionsOwned := fun d => by
  rw [stray_domain]
  split <;> decide

theorem poolGet_stray (i : SlotId) : poolGet strayState.pool i = straySlot ∨ poolGet strayState.pool i = .reset := by
  by_cases h : 0 = i
  · exact .inl (if_pos h)
  · exact .inr (if_neg h)

theorem stray_noRecord (i : SlotId) :
    (poolGet strayState.pool i).directory.free = true ∧ (recordOf strayState.pool i).state = .free := by
  unfold recordOf
  obtain h | h := poolGet_stray i
  · rw [h]
    decide
  · rw [h]
    decide

/-- The enabled domain's slot 0 has a wait deadline and is FREE, which R18 excludes. -/
theorem strayEnabled_disagrees : ¬ strayEnabled.recordsAgree := fun h => by
  have hstate : (strayEnabled.domain 0).state = .enabled := by decide
  have hbank : inBanks (strayEnabled.domain 0).banks 0 = true := by decide
  have hserved := h.served 0 (by simp [hstate]) (by simp [hstate])
  have hwaits := (hserved.places 0 hbank).waitDeadline
  have hrecord : recordOf strayEnabled.pool 0 = straySlot.record := rfl
  rw [hrecord] at hwaits
  revert hwaits
  decide

/-- Refutes O57: its premises ask of a slot that no domain owns only that its record's state is FREE, not that its deadlines are
absent. ENABLE_DOMAIN takes the record store as it stands (R4), so a FREE record with a wait deadline comes to lie in the bank of
an ENABLED domain, where R18 as `placesRecord` states it allows none. -/
theorem not_everyStepKeepsDomainsApart : ¬ Obligations.EveryStepKeepsDomainsApart := fun h => by
  have hkept := h strayState strayEnabled step_strayState (apart_of_disabled stray_disabled) stray_collectionsOwned
  have hspared : strayState.copiesSpared := fun u hu => absurd hu List.not_mem_nil
  exact strayEnabled_disagrees (hkept.2 (by decide) (recordsAgree_of_disabled stray_disabled stray_noRecord) hspared)

end Sys2Proof.Machine
end

section
/-! What an event of one domain, and one of one link port, leaves alone (00 "Internal units"). -/

set_option Elab.async false

namespace Sys2Proof.Machine

variable {s : State} {d : DomainId} {n : AgentId}

/-! ### Events of a domain -/

/-- What O60 says of an event of domain `d`. -/
def StaysIn (d : DomainId) (s t : State) : Prop :=
  onlyDomain d s t ∧ (t.domain d).configuration = (s.domain d).configuration ∧
    ((∀ j, (s.domain d).scrubPos = some j → inBanks (s.domain d).banks j = true) →
      ∀ i, inBanks (s.domain d).banks i = false → poolGet t.pool i = poolGet s.pool i)

theorem onlyDomain_withTable (d : DomainId) (s : State) (u : LockTable) : onlyDomain d s (s.withTable d u) :=
  ⟨rfl, fun _ hk => withTable_domain_ne s u hk, withTable_management s d u⟩

theorem StaysIn.refl (d : DomainId) (s : State) : StaysIn d s s :=
  ⟨⟨rfl, fun _ _ => rfl, .inl rfl⟩, rfl, fun _ _ _ => rfl⟩

theorem EventOf.staysIn {u : LockTable} (h : EventOf s d u) (ho : (s.domain d).slotsOwned = true) :
    StaysIn d s (s.withTable d u) := by
  obtain ⟨t, hpool, hbody, hkept⟩ := h.kept
  have k := hkept ((eq_of_body Domain.slotsOwned hbody).trans ho)
  refine ⟨onlyDomain_withTable d s u, ?_, fun _ i hi => ?_⟩
  · rw [withTable_domain_same]
    exact k.config.trans (eq_of_body Domain.configuration hbody)
  · rw [← eq_of_body Domain.banks hbody] at hi
    exact (k.others i hi).trans (congrArg (poolGet · i) hpool)

theorem Occurs.staysIn {r : Host.Outcome State Fault Refusal} (h : Occurs s d r) (ho : (s.domain d).slotsOwned = true) :
    Goes r (StaysIn d s) := by
  obtain rfl | ⟨u, rfl, hu⟩ := h
  · exact Goes.next (.refl d s)
  · exact Goes.next (hu.staysIn ho)

theorem staysIn_scrubVisit : Goes (execScrubVisit d s) (StaysIn d s) := by
  unfold execScrubVisit
  split
  case h_1 i hstate hpos =>
    obtain ⟨x, p, hbody, honly, hvisit⟩ := visitSlot_cases (envOf s d) i (s.table d)
    have hpool : (visitSlot (envOf s d) i (s.table d)).pool = p ∧
        (visitSlot (envOf s d) i (s.table d)).dom.configuration = x.configuration := by
      obtain ⟨j, hadvance⟩ | hadvance := advanceScrub_cases i ⟨x, p⟩ <;> rw [hvisit, hadvance] <;> exact ⟨rfl, rfl⟩
    obtain ⟨hpool, hconfig⟩ := hpool
    refine Goes.next ⟨onlyDomain_withTable d s _, ?_, fun hin j hj => ?_⟩
    · rw [withTable_domain_same, hconfig]
      exact eq_of_body Domain.configuration hbody
    · have hne : j ≠ i := fun he => by
        rw [he, hin i hpos] at hj
        exact nomatch hj
      rw [withTable_pool, hpool]
      exact honly j hne
  case h_2 => exact Goes.next (.refl d s)

/-! ### Events of a link port -/

theorem onlyLink_onLink (f : LinkEnv → LinkPort → LinkPort) : onlyLink n s (onLink n f s) :=
  ⟨rfl, fun _ hm => setLink_link_ne s _ hm⟩

theorem onlyLink_refl (n : AgentId) (s : State) : onlyLink n s s := ⟨rfl, fun _ _ => rfl⟩

theorem onlyLink_signalDetect : Goes (execSignalDetect n s) (onlyLink n s) := by
  unfold execSignalDetect
  split
  · exact Goes.next (onlyLink_onLink _)
  · exact Goes.next (onlyLink_refl n s)

theorem onlyLink_lossOfSignalDetect : Goes (execLossOfSignalDetect n s) (onlyLink n s) := by
  unfold execLossOfSignalDetect
  split
  · exact Goes.next (onlyLink_onLink _)
  · exact Goes.next (onlyLink_onLink _)
  · exact Goes.next (onlyLink_refl n s)

theorem onlyLink_alignmentAttemptExpiry : Goes (execAlignmentAttemptExpiry n s) (onlyLink n s) := by
  unfold execAlignmentAttemptExpiry
  split
  · exact Goes.next (onlyLink_onLink _)
  · exact Goes.next (onlyLink_refl n s)

theorem onlyLink_watchdogExpiry : Goes (execWatchdogExpiry n s) (onlyLink n s) := by
  unfold execWatchdogExpiry
  split
  · exact Goes.next (onlyLink_onLink _)
  · exact Goes.next (onlyLink_refl n s)

theorem onlyLink_replayDeadlineExpiry : Goes (execReplayDeadlineExpiry n s) (onlyLink n s) := by
  unfold execReplayDeadlineExpiry
  split
  · exact Goes.next (onlyLink_onLink _)
  · exact Goes.next (onlyLink_refl n s)

theorem onlyLink_aligningResyncSend : Goes (execAligningResyncSend n s) (onlyLink n s) := by
  unfold execAligningResyncSend
  split
  · exact Goes.next (onlyLink_onLink _)
  · exact Goes.next (onlyLink_refl n s)

theorem Goes.of_exec {r : Host.Outcome State Fault Refusal} {P : State → Prop} {t : State} (h : Goes r P) (ht : r = .next t) :
    P t := by
  obtain ⟨u, hu, hp⟩ := h
  exact eq_of_next (hu.symm.trans ht) ▸ hp

/-- Settles O60: each domain event by what it keeps from the taking of its item on, each link event as an update of its port. -/
theorem eventsStayInTheirUnit : Obligations.EventsStayInTheirUnit := by
  refine ⟨fun c s t d hc ht ho => ?domain, fun c s t n hc ht => ?link⟩
  case domain =>
    have hstays : Goes (exec c s) (StaysIn d s) := by
      obtain rfl | rfl | rfl | rfl | rfl | rfl | rfl | rfl | rfl | rfl | rfl | rfl | ⟨i, hi, rfl | rfl⟩ := hc
      · exact occurs_acquire.staysIn ho
      · exact occurs_release.staysIn ho
      · exact occurs_convertUp.staysIn ho
      · exact occurs_convertDown.staysIn ho
      · exact occurs_query.staysIn ho
      · exact occurs_reclaim.staysIn ho
      · exact occurs_claim.staysIn ho
      · exact occurs_presentedAcknowledgement.staysIn ho
      · exact occurs_reversion.staysIn ho
      · exact occurs_check.staysIn ho
      · exact occurs_done.staysIn ho
      · exact staysIn_scrubVisit
      · exact (occurs_waitExpiry hi).staysIn ho
      · exact (occurs_drainOverrun hi).staysIn ho
    exact hstays.of_exec ht
  case link =>
    have honly : Goes (exec c s) (onlyLink n s) := by
      obtain rfl | rfl | rfl | ⟨k, f, rfl⟩ | rfl | rfl | ⟨k, a, ws, rfl⟩ | ⟨a, rfl⟩ | ⟨k, rfl⟩ | rfl | rfl | rfl | rfl | rfl := hc
      · exact onlyLink_signalDetect
      · exact onlyLink_lossOfSignalDetect
      · exact Goes.next (onlyLink_onLink _)
      · exact Goes.next (onlyLink_onLink _)
      · exact Goes.next (onlyLink_onLink _)
      · exact Goes.next (onlyLink_onLink _)
      · exact Goes.next (onlyLink_onLink _)
      · exact Goes.next (onlyLink_onLink _)
      · exact Goes.next (onlyLink_onLink _)
      · exact onlyLink_alignmentAttemptExpiry
      · exact onlyLink_watchdogExpiry
      · exact onlyLink_replayDeadlineExpiry
      · exact Goes.next (onlyLink_onLink _)
      · exact onlyLink_aligningResyncSend
    exact honly.of_exec ht

end Sys2Proof.Machine
end

section
/-! The queue of commands, the register map, the reports taken by the fault unit, and the units other than the lock table after
COLD_RESET. -/

set_option Elab.async false

namespace Sys2Proof.Machine

/-! ### The queue -/

theorem step_cons {s : State} {c : Instr} {rest : List Instr} (h : s.pending = c :: rest) :
    step s = exec c { s with pending := rest } := by
  simp only [step, h]

theorem step_nil {s : State} (h : s.pending = []) : step s = .next s := by
  simp only [step, h]

/-- Settles O1: the two cases of `step`. -/
theorem stepTakesTheFrontCommand : Obligations.StepTakesTheFrontCommand :=
  ⟨fun _ _ _ => step_cons, fun _ => step_nil⟩

/-! ### COLD_RESET -/

@[simp] theorem reset_noticeAgent (n : AgentId) : State.reset.noticeAgent n = .reset := look_replicate _ _

theorem ready_of_empty {g : GateUnit} (hc : g.checkQueue = []) (hd : g.doneQueue = []) (m : GateMsg) : g.ready m = true := by
  cases m <;> simp [GateUnit.ready, GateUnit.hasRoom, hc, hd, Config.gatePlaces]

theorem readyFor_of_empty {g : GateUnit} (hc : g.checkQueue = []) (hd : g.doneQueue = []) (w : Word) :
    g.readyFor w = true := by
  unfold GateUnit.readyFor
  split <;> simp [hc, hd, Config.gatePlaces]

/-- Settles O5: each item is read off the reset values of its unit. -/
theorem coldResetOfTheOtherUnits : Obligations.ColdResetOfTheOtherUnits := by
  intro s
  have hpin : State.reset.faultAsserted = false := rfl
  refine ⟨_, exec_coldReset s, rfl, rfl, rfl, rfl, rfl, rfl, rfl, rfl, rfl, rfl, rfl, rfl, rfl, rfl, rfl, rfl, rfl, hpin,
    fun n => ?agent, fun n => ?notice, rfl, rfl, rfl, rfl, rfl, ready_of_empty rfl rfl, readyFor_of_empty rfl rfl,
    fun n => ?link⟩
  case agent =>
    have hreset : look State.reset.session.agents n = .reset := reset_agent n
    simp [State.agent, hreset, Agent.reset]
  case notice =>
    have hreset : look State.reset.notice.agents n = .reset := reset_noticeAgent n
    simp [State.noticeAgent, hreset, NoticeAgent.reset]
  case link =>
    have hreset : look State.reset.links n = .reset := reset_link n
    simp [State.link, hreset, LinkPort.reset]

/-! ### Addresses (10 10.2) -/

theorem toNat_address {k : Nat} (h : k < 65536) : (BitVec.ofNat 16 k).toNat = k := by
  rw [BitVec.toNat_ofNat]
  exact Nat.mod_eq_of_lt h

/-- A write in the block of a domain. -/
theorem writeRegister_domain (s : State) (d : DomainId) {k : Nat} (hk : k < 16) (v : Word) :
    writeRegister s (BitVec.ofNat 16 (0x0100 + 16 * d.val + k)) v = writeDomain s d k v := by
  have hd := d.isLt
  have haddress : (BitVec.ofNat 16 (0x0100 + 16 * d.val + k)).toNat = 0x0100 + 16 * d.val + k := toNat_address (by omega)
  have hdomain : Fin.ofNat 8 ((0x0100 + 16 * d.val + k - 0x0100) / 16) = d := Fin.ext (by simp [Fin.ofNat]; omega)
  have hitem : (0x0100 + 16 * d.val + k - 0x0100) % 16 = k := by omega
  simp only [writeRegister, haddress]
  iterate 8 rw [if_neg (by omega)]
  rw [if_pos (by omega), hdomain, hitem]

/-- A write in the block of an agent. -/
theorem writeRegister_agent (s : State) (n : AgentId) {k : Nat} (hk : k < 8) (v : Word) :
    writeRegister s (BitVec.ofNat 16 (0x0200 + 8 * n.val + k)) v = writeAgent s n k v := by
  have hn := n.isLt
  have haddress : (BitVec.ofNat 16 (0x0200 + 8 * n.val + k)).toNat = 0x0200 + 8 * n.val + k := toNat_address (by omega)
  have hagent : Fin.ofNat 16 ((0x0200 + 8 * n.val + k - 0x0200) / 8) = n := Fin.ext (by simp [Fin.ofNat]; omega)
  have hitem : (0x0200 + 8 * n.val + k - 0x0200) % 8 = k := by omega
  simp only [writeRegister, haddress]
  iterate 9 rw [if_neg (by omega)]
  rw [if_pos (by omega), hagent, hitem]

/-- A read in the block of a domain. -/
theorem readRegister_domain (s : State) (d : DomainId) {k : Nat} (hk : k < 16) :
    readRegister s (BitVec.ofNat 16 (0x0100 + 16 * d.val + k)) = domainWord s d k := by
  have hd := d.isLt
  have haddress : (BitVec.ofNat 16 (0x0100 + 16 * d.val + k)).toNat = 0x0100 + 16 * d.val + k := toNat_address (by omega)
  have hdomain : Fin.ofNat 8 ((0x0100 + 16 * d.val + k - 0x0100) / 16) = d := Fin.ext (by simp [Fin.ofNat]; omega)
  have hitem : (0x0100 + 16 * d.val + k - 0x0100) % 16 = k := by omega
  simp only [readRegister, haddress]
  iterate 14 rw [if_neg (by omega)]
  rw [if_pos (by omega), hdomain, hitem]

theorem exec_registerWrite (s : State) (a : BitVec 16) (v : Word) :
    exec (.registerWrite a v) s = .next (writeRegister s a v) := rfl

theorem exec_registerWrite_domain (s : State) (d : DomainId) {a k : Nat} (ha : a = 0x0100 + 16 * d.val + k) (hk : k < 16)
    (v : Word) : exec (.registerWrite (BitVec.ofNat 16 a) v) s = .next (writeDomain s d k v) := by
  rw [exec_registerWrite, ha, writeRegister_domain s d hk]

theorem exec_registerWrite_agent (s : State) (n : AgentId) {a k : Nat} (ha : a = 0x0200 + 8 * n.val + k) (hk : k < 8)
    (v : Word) : exec (.registerWrite (BitVec.ofNat 16 a) v) s = .next (writeAgent s n k v) := by
  rw [exec_registerWrite, ha, writeRegister_agent s n hk]

/-! ### The configuration of a domain (R1) -/

section Items

variable (s : State) (d : DomainId) (v : Word)

theorem writeDomain_base : writeDomain s d 0 v = writeDomainItem s d (fun x => { x with base := v }) := rfl

theorem writeDomain_limit : writeDomain s d 1 v = writeDomainItem s d (fun x => { x with limit := v }) := rfl

theorem writeDomain_banks : writeDomain s d 2 v = writeDomainItem s d (fun x => { x with banks := v.setWidth 16 }) := rfl

theorem writeDomain_policyAndLimit : writeDomain s d 3 v = writePolicyAndLimit s d v := rfl

/-- The items at 0, 1 and 2 of the block, in a domain that is not DISABLED. -/
theorem writeDomain_refused (h : (s.domain d).state ≠ .disabled) (k : Fin 3) :
    writeDomain s d k.val v = reportDomain s .commandRefused d := by
  match k with
  | 0 => exact (writeDomain_base s d v).trans (writeDomainItem_refused h _)
  | 1 => exact (writeDomain_limit s d v).trans (writeDomainItem_refused h _)
  | 2 => exact (writeDomain_banks s d v).trans (writeDomainItem_refused h _)

end Items

theorem drainLimit_place (limit : BitVec 16) (p : Policy) :
    (place limit.toNat 0 ||| place p.bit 16).setWidth 16 = limit := by
  apply BitVec.eq_of_getLsbD_eq
  intro i hi
  have hlt : i < 16 := hi
  have hpolicy : (place p.bit 16).getLsbD i = false := by
    simp [place, hlt]
  simp [place, hlt]

theorem policy_place (limit : BitVec 16) (p : Policy) :
    (place limit.toNat 0 ||| place p.bit 16).getLsbD 16 = true ↔ p = .writeGuarded := by
  cases p <;> simp [place, Policy.bit]

theorem banks_place (banks : BitVec 16) : place banks.toNat 0 = banks.setWidth 32 := by
  apply BitVec.eq_of_toNat_eq
  simp [place]

theorem exec_lockTableWarmRestart_configuration {s t : State} {k : DomainId} (h : exec (.lockTableWarmRestart k) s = .next t)
    (d : DomainId) : (t.domain d).configuration = (s.domain d).configuration := by
  change execLockTableWarmRestart k s = _ at h
  unfold execLockTableWarmRestart at h
  have hstays : s = t → (t.domain d).configuration = (s.domain d).configuration := fun he => he ▸ rfl
  split at h
  · split at h
    · rw [← eq_of_next h]
      by_cases hd : d = k
      · subst hd
        change ((s.withTable d (restartTable (s.table d))).domain d).configuration = _
        rw [withTable_domain_same]
        unfold restartTable
        split <;> rfl
      · exact congrArg Domain.configuration (withTable_domain_ne s _ hd)
    · exact hstays (eq_of_next h)
  · exact hstays (eq_of_next h)

/-- Settles O6: the writes item by item, the reset values, the warm restart, and the reads of the same block. -/
theorem domainConfigurationWrites : Obligations.DomainConfigurationWrites := by
  refine ⟨fun s d v h => ⟨?base, ?limit, ?banks, ?policyAndLimit⟩, fun s d v h => ⟨fun k => ?refused, ?refusedBoth⟩,
    fun d => ?reset, fun s t d k h => exec_lockTableWarmRestart_configuration h d,
    fun s d => ⟨?readBase, ?readLimit, ?readBanks, ?readDrain, ?readPolicy⟩⟩
  case base => rw [exec_registerWrite_domain s d (k := 0) (by omega) (by decide), writeDomain_base, writeDomainItem_disabled h]
  case limit => rw [exec_registerWrite_domain s d (k := 1) (by omega) (by decide), writeDomain_limit, writeDomainItem_disabled h]
  case banks => rw [exec_registerWrite_domain s d (k := 2) (by omega) (by decide), writeDomain_banks, writeDomainItem_disabled h]
  case policyAndLimit =>
    rw [exec_registerWrite_domain s d (k := 3) (by omega) (by decide), writeDomain_policyAndLimit, writePolicyAndLimit_disabled h]
    rfl
  case refused => rw [exec_registerWrite_domain s d (k := k.val) rfl (by omega), writeDomain_refused s d v h]
  case refusedBoth =>
    rw [exec_registerWrite_domain s d (k := 3) (by omega) (by decide), writeDomain_policyAndLimit, writePolicyAndLimit_refused h]
  case reset =>
    rw [reset_domain]
    rfl
  case readBase => exact readRegister_domain s d (k := 0) (by decide)
  case readLimit => exact (congrArg _ (by congr 1; omega)).trans (readRegister_domain s d (k := 1) (by decide))
  case readBanks =>
    exact ((congrArg _ (by congr 1; omega)).trans (readRegister_domain s d (k := 2) (by decide))).trans (banks_place _)
  case readDrain =>
    rw [show 0x0103 + 16 * d.val = 0x0100 + 16 * d.val + 3 by omega, readRegister_domain s d (by decide)]
    exact drainLimit_place ..
  case readPolicy =>
    rw [show 0x0103 + 16 * d.val = 0x0100 + 16 * d.val + 3 by omega, readRegister_domain s d (by decide)]
    exact policy_place ..

/-! ### The other registers (R78, R149, R176, R180, R184, R185) -/

theorem writeDomain_unassigned (s : State) (d : DomainId) {k : Nat} (hk : 4 ≤ k) (v : Word) : writeDomain s d k v = s := by
  match k, hk with
  | _ + 4, _ => rfl

theorem writeAgent_unassigned (s : State) (n : AgentId) {k : Nat} (h1 : k ≠ 1) (h2 : k ≠ 2) (v : Word) :
    writeAgent s n k v = s := by
  match k, h1, h2 with
  | 0, _, _ => rfl
  | _ + 3, _, _ => rfl

theorem writeAgent_quota (s : State) (n : AgentId) (v : Word) : writeAgent s n 1 v = writeQuota s n v := rfl

theorem writeAgent_bound (s : State) (n : AgentId) (v : Word) : writeAgent s n 2 v = writeBound s n v := rfl

theorem classValueOk_iff (v : Word) : classValueOk v = true ↔ 1 ≤ v.toNat ∧ v.toNat ≤ 65535 := by
  simp [classValueOk]

theorem writeRegister_lease (s : State) (k : LeaseClass) (v : Word) :
    writeRegister s (BitVec.ofNat 16 (0x0010 + k.val)) v = writeLease s k v := by
  have hk := k.isLt
  have haddress : (BitVec.ofNat 16 (0x0010 + k.val)).toNat = 0x0010 + k.val := toNat_address (by omega)
  have hclass : Fin.ofNat 8 (0x0010 + k.val - 0x0010) = k := Fin.ext (by simp [Fin.ofNat])
  simp only [writeRegister, haddress]
  iterate 3 rw [if_neg (by omega)]
  rw [if_pos (by omega), hclass]

theorem writeRegister_wait (s : State) (k : Fin 6) (v : Word) :
    writeRegister s (BitVec.ofNat 16 (0x0018 + k.val)) v = writeWait s k v := by
  have hk := k.isLt
  have haddress : (BitVec.ofNat 16 (0x0018 + k.val)).toNat = 0x0018 + k.val := toNat_address (by omega)
  have hclass : Fin.ofNat 6 (0x0018 + k.val - 0x0018) = k := Fin.ext (by simp [Fin.ofNat])
  simp only [writeRegister, haddress]
  iterate 4 rw [if_neg (by omega)]
  rw [if_pos (by omega), hclass]

/-- The addresses of no item that a write changes. -/
def Unassigned (a : Nat) : Prop :=
  a < 0x0004 ∨ a = 0x0006 ∨ a = 0x0007 ∨ (0x0009 ≤ a ∧ a ≤ 0x000F) ∨ a = 0x001E ∨ a = 0x001F ∨ (0x0023 ≤ a ∧ a ≤ 0x00FF) ∨
    (0x0100 ≤ a ∧ a ≤ 0x017F ∧ 4 ≤ a % 16) ∨ (0x0180 ≤ a ∧ a ≤ 0x01FF) ∨
    (0x0200 ≤ a ∧ a ≤ 0x027F ∧ a % 8 ≠ 1 ∧ a % 8 ≠ 2) ∨ 0x0280 ≤ a

theorem writeRegister_unassigned (s : State) {a : BitVec 16} (h : Unassigned a.toNat) (v : Word) : writeRegister s a v = s := by
  unfold Unassigned at h
  simp only [writeRegister]
  iterate 8 rw [if_neg (by omega)]
  split
  · exact writeDomain_unassigned s _ (by omega) v
  · split
    · exact writeAgent_unassigned s _ (by omega) (by omega) v
    · rfl

/-- Settles O7: each address leads to the write of its item, and the write to the two cases of its check. -/
theorem registerWrites : Obligations.RegisterWrites := by
  refine ⟨fun s n v => ⟨?quota, ?bound⟩, fun s v => ⟨rfl, rfl, fun c => ?lease, fun c => ?wait, fun a h => ?unassigned⟩⟩
  case quota =>
    rw [exec_registerWrite_agent s n (k := 1) (by omega) (by decide), writeAgent_quota]
    rfl
  case bound =>
    rw [exec_registerWrite_agent s n (k := 2) (by omega) (by decide), writeAgent_bound]
    rfl
  case lease =>
    rw [exec_registerWrite, writeRegister_lease]
    simp only [writeLease, classValueOk_iff]
  case wait =>
    rw [exec_registerWrite, writeRegister_wait]
    simp only [writeWait, classValueOk_iff]
  case unassigned => rw [exec_registerWrite, writeRegister_unassigned s h]

/-! ### Reports taken (R170, R172) -/

theorem exec_stickyBitsWrite (s : State) (v : Word) :
    exec (.stickyBitsWrite v) s = .next (s.setFault (s.fault.clearSticky v)) := rfl

/-- No two kinds share a bit. -/
theorem EventKind.number_inj {k l : EventKind} : k.number = l.number ↔ k = l := by
  cases k <;> cases l <;> decide

/-- The mask of a kind sets its own bit alone. -/
theorem getLsbD_mask (k l : EventKind) : l.mask.getLsbD k.number = decide (k = l) := by
  simp only [EventKind.mask, BitVec.getLsbD_ofNat, Nat.testBit_two_pow, decide_eq_true k.number_lt, Bool.true_and]
  rw [decide_eq_decide]
  exact eq_comm.trans EventKind.number_inj

theorem isFault_iff (k : EventKind) :
    k.isFault = true ↔ k = .recordUncorrectable ∨ k = .drainOverrun ∨ k = .tokensExhausted := by
  cases k <;> decide

theorem reportsOf_withReports (s : State) (src : Source) (l : List Report) : reportsOf (withReports s src l) src = l := by
  cases src with
  | management | session | notice => rfl
  | domain d => exact congrArg Domain.reports (setDomain_domain_same ..)
  | link n => exact congrArg LinkPort.reports (setLink_link_same ..)

theorem FaultUnit.take_full {f : FaultUnit} {c : Report} (h : f.capture = some c) (r : Report) :
    (f.take r).capture = some c ∧ (f.take r).missed = (f.missed || r.kind.isFault) := by
  simp [FaultUnit.take, captureAfter, h]

theorem FaultUnit.take_empty {f : FaultUnit} (h : f.capture = none) (r : Report) :
    (f.take r).missed = f.missed ∧ (f.take r).capture = if r.kind.isFault || f.notes then some r else none := by
  simp [FaultUnit.take, captureAfter, h]

/-- Settles O9: the fault unit's `take`, on a full and on an empty capture record. -/
theorem reportsAreTaken : Obligations.ReportsAreTaken := by
  refine ⟨⟨exec_stickyBitsWrite, fun s src r rest hhead => ⟨_, exec_faultReport hhead, ?taken, fun k => ?bits, rfl, rfl, rfl⟩⟩,
    fun s src r rest hhead => ⟨_, exec_faultReport hhead, fun c hfull => ?full, fun hempty => ?empty⟩⟩
  case taken => rw [reportsOf_setFault, reportsOf_withReports]
  case bits =>
    change (s.fault.sticky ||| r.kind.mask).getLsbD k.number = _
    rw [BitVec.getLsbD_or, getLsbD_mask]
  case full =>
    obtain ⟨hcapture, hmissed⟩ := FaultUnit.take_full hfull r
    refine ⟨hcapture, ?_⟩
    change (s.fault.take r).missed = true ↔ _
    rw [hmissed, Bool.or_eq_true, isFault_iff]
  case empty =>
    obtain ⟨hmissed, hcapture⟩ := FaultUnit.take_empty hempty r
    refine ⟨hmissed, hcapture.trans ?_⟩
    simp only [Bool.or_eq_true, isFault_iff, or_assoc]

/-! ### Token counters (R176) -/

theorem latch_append_low (k : Token) : k.extractLsb' 32 8 ++ k.setWidth 32 = k := by
  apply BitVec.eq_of_getLsbD_eq
  intro i hi
  rw [BitVec.getLsbD_append]
  split
  case isTrue hlow => simp [hlow]
  case isFalse hhigh =>
    have hi : i < 40 := hi
    have hoffset : i - 32 < 8 := by omega
    have hsum : 32 + (i - 32) = i := by omega
    simp [hoffset, hsum]

theorem place_setWidth (x : BitVec 8) : place x.toNat 0 = x.setWidth 32 := by
  apply BitVec.eq_of_toNat_eq
  simp [place]

/-- Settles O11: the low read returns and latches the two halves of one value. -/
theorem tokenCounterRead : Obligations.TokenCounterRead := by
  intro s d
  refine ⟨_, rfl, rfl, ?low, latch_append_low _, fun k => ?high⟩
  case low =>
    rw [show 0x0107 + 16 * d.val = 0x0100 + 16 * d.val + 7 by omega, readRegister_domain s d (by decide)]
    rfl
  case high =>
    rw [show 0x0108 + 16 * k.val = 0x0100 + 16 * k.val + 8 by omega, readRegister_domain _ k (by decide)]
    exact place_setWidth _

end Sys2Proof.Machine
end

section
/-! The command register, and the decisions of the domain, agent, link and walk commands (R4 to R6, R9, R79, R90 to R93, R145,
R178 to R182). -/

set_option Elab.async false

namespace Sys2Proof.Machine

/-! ### Handing over, answering (R180) -/

section Register

variable {s : State} {c : Command}

theorem issueCommand_idle (h : s.management.command = none) : issueCommand s c = s.setManagement { s.management with
    command := some (.handed c s.management.argument (destination s c s.management.argument)) } := by
  simp only [issueCommand, h]
  rfl

theorem issueCommand_busy (h : s.management.command ≠ none) : issueCommand s c = refuseBusy s c :=
  if_pos (Option.isSome_iff_ne_none.mpr h)

/-- The decision of the command in progress is taken with the argument it was handed with. -/
theorem twoPhase_decide {decide : Word → Option DomainId → State → State} {arg : Word} {dest : Option DomainId}
    (h : s.management.command = some (.handed c arg dest)) : twoPhase c decide .decide s = .next (decide arg dest s) := by
  simp only [twoPhase, inProgress, h, if_pos]

/-- The commands that are handed to a unit. -/
theorem exec_issue {x : Instr} (h : (x, c) ∈ [(Instr.enableDomain .issue, Command.enableDomain),
    (.closeDomain .issue, .closeDomain), (.scrubDomain .issue, .scrubDomain), (.enableAgent .issue, .enableAgent),
    (.disableAgent .issue, .disableAgent), (.evictAgent .issue, .evictAgent), (.revokeRecord .issue, .revokeRecord),
    (.resetLink .issue, .resetLink), (.walkStart .issue, .walkStart), (.walkNext .issue, .walkNext)]) :
    exec x s = .next (issueCommand s c) := by
  simp only [List.mem_cons, Prod.mk.injEq, List.not_mem_nil, or_false] at h
  obtain ⟨rfl, rfl⟩ | ⟨rfl, rfl⟩ | ⟨rfl, rfl⟩ | ⟨rfl, rfl⟩ | ⟨rfl, rfl⟩ | ⟨rfl, rfl⟩ | ⟨rfl, rfl⟩ | ⟨rfl, rfl⟩ | ⟨rfl, rfl⟩ |
    ⟨rfl, rfl⟩ := h <;> rfl

theorem exec_commandAnswer_answered {a : Answer} (h : s.management.command = some (.answered c a)) :
    exec .commandAnswer s = .next (s.setManagement { s.management with
      status := some a, lastCode := c.code, command := none }) := by
  change execCommandAnswer s = _
  simp only [execCommandAnswer, h]

theorem exec_commandAnswer_restarting {due : RestartDue} (h : s.management.command = some (.restarting due)) :
    exec .commandAnswer s = .next (if due.finished then s.setManagement { s.management with
      status := some .done, lastCode := Command.warmRestart.code, command := none } else s) := by
  change execCommandAnswer s = _
  simp only [execCommandAnswer, h]
  split <;> rfl

theorem all_not_iff {n : Nat} (v : Vector Bool n) : v.toList.all (fun b => !b) = true ↔ ∀ i : Fin n, look v i = false := by
  simp only [List.all_eq_true, Vector.mem_toList_iff, Vector.mem_iff_getElem, Bool.not_eq_true', look]
  exact ⟨fun h i => h _ ⟨i.val, i.isLt, rfl⟩, fun h b ⟨i, hi, hb⟩ => hb ▸ h ⟨i, hi⟩⟩

theorem finished_iff (due : RestartDue) : due.finished = true ↔ (∀ d, look due.domains d = false) ∧ due.session = false ∧
    due.notice = false ∧ due.gate = false ∧ ∀ n, look due.links n = false := by
  simp only [RestartDue.finished, Bool.and_eq_true, all_not_iff, Bool.not_eq_true', and_assoc]

/-- Settles O12: issue, answer, and the end of a warm restart. -/
theorem commandsAreHandedOverAndAnswered : Obligations.CommandsAreHandedOverAndAnswered := by
  refine ⟨fun s x c hx => ⟨fun h => ?idle, fun h => ?busy⟩, fun s c a h => exec_commandAnswer_answered h,
    fun s due h => ⟨fun hall => ?finished, fun hsome => ?unfinished⟩⟩
  case idle =>
    rw [exec_issue hx, issueCommand_idle h]
    rfl
  case busy =>
    rw [exec_issue hx, issueCommand_busy h]
    rfl
  case finished =>
    rw [exec_commandAnswer_restarting h, if_pos ((finished_iff due).mpr hall)]
    rfl
  case unfinished =>
    rw [exec_commandAnswer_restarting h, if_neg]
    intro hfinished
    obtain ⟨hdomains, hsession, hnotice, hgate, hlinks⟩ := (finished_iff due).mp hfinished
    simp [hdomains, hsession, hnotice, hgate, hlinks] at hsome

end Register

/-! ### START, WARM_RESTART and other codes (R178, R179) -/

section Codes

variable {s : State}

theorem exec_start (s : State) : exec .start s = .next (startCommand s) := rfl

theorem exec_warmRestart (s : State) : exec .warmRestart s = .next (restartCommand s) := rfl

theorem ofCode_unknown {code : BitVec 8} (h : unknownCodeOk code = true) : Command.ofCode code = none := by
  refine List.find?_eq_none.mpr fun c _ hcode => ?_
  have hnamed : ∀ c : Command, unknownCodeOk c.code = false := fun c => by cases c <;> decide
  rw [← beq_iff_eq.mp hcode, hnamed c] at h
  exact nomatch h

theorem exec_unknownCommand {code : BitVec 8} (h : unknownCodeOk code = true) : exec (.unknownCommand code) s = .next
    (if s.management.command.isSome then reportManagement s .commandRefused none none
    else reportManagement (s.setManagement { s.management with status := some (.refused .unknownCommand), lastCode := code })
      .commandRefused none none) := by
  change Host.Outcome.next (writeCommand s code) = _
  simp only [writeCommand, ofCode_unknown h]

/-- Settles O13: each code while no command is in progress, and while one is. -/
theorem startWarmRestartAndUnknownCodes : Obligations.StartWarmRestartAndUnknownCodes := by
  refine ⟨fun s h => ⟨fun hmode => ?setup, fun hmode => ?active, ?restart, fun code hcode => ?unknown⟩,
    fun s h => ⟨?startBusy, ?restartBusy, fun code hcode => ?unknownBusy⟩⟩
  case setup =>
    rw [exec_start]
    simp only [startCommand, h, hmode]
    rfl
  case active =>
    rw [exec_start]
    simp only [startCommand, h, hmode]
    rfl
  case restart =>
    rw [exec_warmRestart]
    simp only [restartCommand, h]
    cases hcursor : s.management.cursor <;> rfl
  case unknown =>
    rw [exec_unknownCommand hcode, if_neg (by simp [h])]
    rfl
  case startBusy =>
    rw [exec_start, startCommand, if_pos (Option.isSome_iff_ne_none.mpr h)]
    rfl
  case restartBusy =>
    rw [exec_warmRestart, restartCommand, if_pos (Option.isSome_iff_ne_none.mpr h)]
    rfl
  case unknownBusy => rw [exec_unknownCommand hcode, if_pos (Option.isSome_iff_ne_none.mpr h)]

end Codes

/-! ### Windows and bank sets that meet (01 1.2) -/

theorem windowsMeet_iff (x y : Domain) : windowsMeet x y = true ↔ sharesPage x y := by
  simp only [windowsMeet, sharesPage, decide_eq_true_eq, BitVec.le_def]
  constructor
  · intro h
    obtain hle | hle := Nat.le_total x.base.toNat y.base.toNat
    · exact ⟨y.base, by omega⟩
    · exact ⟨x.base, by omega⟩
  · rintro ⟨p, hp⟩
    omega

theorem banksMeet_iff (x y : Domain) : (x.banks &&& y.banks != 0) = true ↔ sharesBank x y := by
  rw [bne_iff_ne]
  constructor
  · intro h
    by_contra hnone
    refine h (BitVec.eq_of_getLsbD_eq fun i hi => ?_)
    by_contra hbit
    simp only [BitVec.getLsbD_and, BitVec.ofNat_eq_ofNat, BitVec.getLsbD_zero, Bool.not_eq_false, Bool.and_eq_true] at hbit
    exact hnone ⟨⟨i, hi⟩, hbit⟩
  · rintro ⟨b, hx, hy⟩ hzero
    have hbit := congrArg (fun z : BitVec 16 => z.getLsbD b.val) hzero
    rw [BitVec.getLsbD_and, hx, hy] at hbit
    simp at hbit

section Checks

variable {s : State} {d : DomainId}

theorem otherDomain_iff {f : Domain → Bool} {g : Domain → Domain → Prop} (h : ∀ y, f y = true ↔ g (s.domain d) y) :
    otherDomain s d f = true ↔ meetsAnother s d g := by
  simp [otherDomain, meetsAnother, h, and_assoc]

theorem window_meets : otherDomain s d (fun y => windowsMeet (s.domain d) y) = true ↔ meetsAnother s d sharesPage :=
  otherDomain_iff fun y => windowsMeet_iff _ y

theorem banks_meet : otherDomain s d (fun y => (s.domain d).banks &&& y.banks != 0) = true ↔ meetsAnother s d sharesBank :=
  otherDomain_iff fun y => banksMeet_iff _ y

/-- The checks common to R4 and R9, of a DISABLED domain with a bank set. -/
def meetingCheck (s : State) (d : DomainId) : Option Reason :=
  if otherDomain s d (fun y => windowsMeet (s.domain d) y) then some .windowOverlap
  else if otherDomain s d (fun y => (s.domain d).banks &&& y.banks != 0) then some .bankInUse
  else none

theorem meetingCheck_window (h : meetsAnother s d sharesPage) : meetingCheck s d = some .windowOverlap :=
  if_pos (window_meets.mpr h)

theorem meetingCheck_banks (h : ¬ meetsAnother s d sharesPage) (g : meetsAnother s d sharesBank) :
    meetingCheck s d = some .bankInUse :=
  (if_neg (mt window_meets.mp h)).trans (if_pos (banks_meet.mpr g))

theorem meetingCheck_none (h : ¬ meetsAnother s d sharesPage) (g : ¬ meetsAnother s d sharesBank) : meetingCheck s d = none :=
  (if_neg (mt window_meets.mp h)).trans (if_neg (mt banks_meet.mp g))

theorem enableCheck_meeting (hs : (s.domain d).state = .disabled) (hb : (s.domain d).banks ≠ 0)
    (hw : (s.domain d).base ≤ (s.domain d).limit) : enableCheck s d = meetingCheck s d := by
  have horder : ¬ (s.domain d).limit.toNat < (s.domain d).base.toNat := Nat.not_lt.mpr hw
  simp only [enableCheck]
  rw [if_neg (not_not.mpr hs), if_neg hb, if_neg horder, meetingCheck]

theorem scrubCheck_meeting (hs : (s.domain d).state = .disabled) (hb : (s.domain d).banks ≠ 0) :
    scrubCheck s d = meetingCheck s d := by
  simp only [scrubCheck, hs]
  rw [if_neg hb, meetingCheck]

end Checks

/-! ### ENABLE_DOMAIN, CLOSE_DOMAIN, SCRUB_DOMAIN -/

section Domains

variable {s : State} {arg : Word} {dest : Option DomainId}

theorem exec_enableDomain_refused {r : Reason} (h : s.management.command = some (.handed .enableDomain arg dest))
    (hc : enableCheck s (argDomain arg) = some r) :
    exec (.enableDomain .decide) s = .next (refuseByDomain s .enableDomain (argDomain arg) r) :=
  (twoPhase_decide h).trans (by simp only [decideEnableDomain, hc])

theorem exec_enableDomain_accepted (h : s.management.command = some (.handed .enableDomain arg dest))
    (hc : enableCheck s (argDomain arg) = none) : exec (.enableDomain .decide) s =
      .next (answer (s.setDomain (argDomain arg) (enabledDomain (s.domain (argDomain arg)))) .enableDomain .done) :=
  (twoPhase_decide h).trans (by simp only [decideEnableDomain, hc])

theorem exec_scrubDomain_refused {r : Reason} (h : s.management.command = some (.handed .scrubDomain arg dest))
    (hc : scrubCheck s (argDomain arg) = some r) :
    exec (.scrubDomain .decide) s = .next (refuseByDomain s .scrubDomain (argDomain arg) r) :=
  (twoPhase_decide h).trans (by simp only [decideScrubDomain, hc])

theorem exec_scrubDomain_accepted (h : s.management.command = some (.handed .scrubDomain arg dest))
    (hc : scrubCheck s (argDomain arg) = none) : exec (.scrubDomain .decide) s =
      .next (answer (s.setDomain (argDomain arg) (scrubbingDomain (s.domain (argDomain arg)))) .scrubDomain .done) :=
  (twoPhase_decide h).trans (by simp only [decideScrubDomain, hc])

/-- Settles O14: the five checks in their order, by `enableCheck`. -/
theorem enableDomainDecision : Obligations.EnableDomainDecision := by
  intro s arg dest h
  refine ⟨fun hstate => ?state, fun hstate hbanks => ?banks, fun hstate hbanks hwindow => ?order,
    fun hstate hbanks hwindow => ⟨fun hpage => ?page, fun hpage hbank => ?bank, fun hpage hbank => ?accepted⟩⟩
  case state => exact exec_enableDomain_refused h (if_pos hstate)
  case banks => exact exec_enableDomain_refused h ((if_neg (not_not.mpr hstate)).trans (if_pos hbanks))
  case order =>
    exact exec_enableDomain_refused h ((if_neg (not_not.mpr hstate)).trans ((if_neg hbanks).trans (if_pos hwindow)))
  case page =>
    exact exec_enableDomain_refused h ((enableCheck_meeting hstate hbanks hwindow).trans (meetingCheck_window hpage))
  case bank =>
    exact exec_enableDomain_refused h ((enableCheck_meeting hstate hbanks hwindow).trans (meetingCheck_banks hpage hbank))
  case accepted =>
    exact exec_enableDomain_accepted h ((enableCheck_meeting hstate hbanks hwindow).trans (meetingCheck_none hpage hbank))

theorem scrubCheck_quarantined {d : DomainId} (h : (s.domain d).state = .quarantined) : scrubCheck s d = none := by
  simp only [scrubCheck, h]

theorem scrubCheck_noBank {d : DomainId} (h : (s.domain d).state = .disabled) (hb : (s.domain d).banks = 0) :
    scrubCheck s d = some .bankSetEmpty := by
  simp only [scrubCheck, h]
  exact if_pos hb

theorem scrubCheck_wrongState {d : DomainId}
    (h : (s.domain d).state = .enabled ∨ (s.domain d).state = .closing ∨ (s.domain d).state = .scrubbing) :
    scrubCheck s d = some .wrongState := by
  obtain h | h | h := h <;> simp only [scrubCheck, h]

/-- Settles O16: the states that need no check, then the checks of R9 by `scrubCheck`. -/
theorem scrubDomainDecision : Obligations.ScrubDomainDecision := by
  intro s arg dest h
  refine ⟨fun hstate => ?quarantined, fun hstate hbanks => ?banks, fun hstate hbanks =>
    ⟨fun hpage => ?page, fun hpage hbank => ?bank, fun hpage hbank => ?accepted⟩, fun hstate => ?refused⟩
  case quarantined => exact exec_scrubDomain_accepted h (scrubCheck_quarantined hstate)
  case banks => exact exec_scrubDomain_refused h (scrubCheck_noBank hstate hbanks)
  case page => exact exec_scrubDomain_refused h ((scrubCheck_meeting hstate hbanks).trans (meetingCheck_window hpage))
  case bank => exact exec_scrubDomain_refused h ((scrubCheck_meeting hstate hbanks).trans (meetingCheck_banks hpage hbank))
  case accepted => exact exec_scrubDomain_accepted h ((scrubCheck_meeting hstate hbanks).trans (meetingCheck_none hpage hbank))
  case refused => exact exec_scrubDomain_refused h (scrubCheck_wrongState hstate)

theorem exec_closeDomain_enabled (h : s.management.command = some (.handed .closeDomain arg dest))
    (hs : (s.domain (argDomain arg)).state = .enabled) : exec (.closeDomain .decide) s =
      .next (answer (s.withTable (argDomain arg) (closedTable (s.table (argDomain arg)))) .closeDomain .done) :=
  (twoPhase_decide h).trans (congrArg _ (if_pos hs))

theorem exec_closeDomain_refused (h : s.management.command = some (.handed .closeDomain arg dest))
    (hs : (s.domain (argDomain arg)).state ≠ .enabled) :
    exec (.closeDomain .decide) s = .next (refuseByDomain s .closeDomain (argDomain arg) .wrongState) :=
  (twoPhase_decide h).trans (congrArg _ (if_neg hs))

/-- A walk ended while no search is in progress: the cursor alone moves. -/
theorem endWalk_idle {m : Management} (h : m.command ≠ some .searching) (d : DomainId) : endWalk m d = { m with
    cursor := match m.cursor with
      | .walking w f p => if w = d then .ended else .walking w f p
      | c => c } := by
  have hkeep : ∀ c, m.cursor = c → m = { m with cursor := c } := by
    rintro _ rfl
    rfl
  unfold endWalk
  split
  case h_1 w f p hcursor =>
    simp only [hcursor]
    by_cases hw : w = d
    · rw [if_pos hw, if_pos hw]
    · rw [if_neg hw, if_neg hw]
      exact hkeep _ hcursor
  all_goals
    rename_i hcursor
    simp only [hcursor]
    exact hkeep _ hcursor

/-- A command of a domain that leaves the pool and moves no more of the management port than the walk cursor. -/
theorem withTable_cursor {d : DomainId} {u : LockTable} {k : Cursor} (hp : u.pool = s.pool)
    (hm : (s.withTable d u).management = { s.management with cursor := k }) : s.withTable d u = { s with
      domains := (s.withTable d u).domains
      management := { s.management with cursor := (s.withTable d u).management.cursor } } := by
  have hsplit : s.withTable d u = { s with
      domains := (s.withTable d u).domains, management := (s.withTable d u).management } := by
    obtain ⟨x, p⟩ := u
    cases hp
    rfl
  rw [hm] at hsplit ⊢
  exact hsplit

theorem closedTable_used {t : LockTable} (h : t.dom.freeList.length < slotCount t.dom.banks) :
    closedTable t = { t with dom := { t.dom with state := .closing } } := by
  have hused : t.dom.inUse ≠ 0 := by unfold Domain.inUse; omega
  exact if_neg hused

theorem closedTable_unused {t : LockTable} (h : slotCount t.dom.banks ≤ t.dom.freeList.length) :
    closedTable t = becomeDisabled t := by
  have hunused : t.dom.inUse = 0 := by unfold Domain.inUse; omega
  exact if_pos hunused

/-- Settles O15: an ENABLED domain by the slots in use, any other by its state. -/
theorem closeDomainDecision : Obligations.CloseDomainDecision := by
  intro s arg dest h
  refine ⟨fun hstate hused => ?closing, fun hstate hunused => ?closed, fun hstate => exec_closeDomain_refused h hstate⟩
  case closing =>
    rw [exec_closeDomain_enabled h hstate, closedTable_used (t := s.table (argDomain arg)) hused, withTable_putTable _ _ _ _ (.inl (by simp))]
    rfl
  case closed =>
    have hsearch : s.management.command ≠ some .searching := by simp [h]
    have hwalk : (s.withTable (argDomain arg) (becomeDisabled (s.table (argDomain arg)))).management =
        endWalk s.management (argDomain arg) := if_pos ⟨rfl, by simp [hstate]⟩
    rw [endWalk_idle hsearch] at hwalk
    refine ⟨s.withTable (argDomain arg) (becomeDisabled (s.table (argDomain arg))), ?_, withTable_domain_same ..,
      fun k hk => withTable_domain_ne _ _ hk, congrArg Management.cursor hwalk, ?_⟩
    · rw [exec_closeDomain_enabled h hstate, closedTable_unused (t := s.table (argDomain arg)) hunused]
    · exact withTable_cursor rfl hwalk

end Domains

/-! ### ENABLE_AGENT, EVICT_AGENT, DISABLE_AGENT (R79, R92, R93) -/

section Agents

variable {s : State} {arg : Word} {dest : Option DomainId}

theorem exec_enableAgent (h : s.management.command = some (.handed .enableAgent arg dest)) :
    exec (.enableAgent .decide) s = .next (decideEnableAgent arg dest s) := twoPhase_decide h

theorem exec_evictAgent (h : s.management.command = some (.handed .evictAgent arg dest)) :
    exec (.evictAgent .decide) s = .next (decideEvictAgent arg dest s) := twoPhase_decide h

theorem exec_disableAgent (h : s.management.command = some (.handed .disableAgent arg dest)) :
    exec (.disableAgent .decide) s = .next (decideDisableAgent arg dest s) := twoPhase_decide h

theorem decideEvictAgent_eq : decideEvictAgent arg dest s =
    if (s.agent (argAgent arg)).state = .online ∨ (s.agent (argAgent arg)).state = .lapsed then
      answer (postCondition (endSession (sendReclaim s (argAgent arg)) (argAgent arg) .offline) (argAgent arg) .evicted)
        .evictAgent .done
    else refuseBySession s .evictAgent (argAgent arg) .wrongState := by
  unfold decideEvictAgent
  cases hstate : (s.agent (argAgent arg)).state <;> simp [hstate]

theorem disableAgent_eq (n : AgentId) : disableAgent s n =
    if (s.agent n).state = .online then endSession (postCondition (sendReclaim s n) n .evicted) n .disabled
    else if (s.agent n).state = .lapsed then endSession (sendReclaim s n) n .disabled
    else endSession s n .disabled := by
  unfold disableAgent
  cases (s.agent n).state <;> simp

end Agents

/-! ### A reclaim sent (R90) -/

section Reclaim

variable (s : State) (n : AgentId)

@[simp] theorem sendReclaim_domain (d : DomainId) : (sendReclaim s n).domain d =
    { s.domain d with fromSession := (s.domain d).fromSession ++ [.reclaim n ((s.agent n).reclaims + 1)] } :=
  look_mapTable (fun x : Domain => x.handed (.reclaim n ((s.agent n).reclaims + 1))) s.domains d

@[simp] theorem sendReclaim_agent_same :
    (sendReclaim s n).agent n = { s.agent n with reclaims := (s.agent n).reclaims + 1 } := setAgent_agent_same ..

@[simp] theorem sendReclaim_noticeAgent_same :
    (sendReclaim s n).noticeAgent n = { s.noticeAgent n with reclaims := (s.noticeAgent n).reclaims ++ [s.session.era] } :=
  setNotice_noticeAgent_same ..

theorem sendReclaim_agent_ne {m : AgentId} (h : m ≠ n) : (sendReclaim s n).agent m = s.agent m := setAgent_agent_ne _ _ h

theorem sendReclaim_noticeAgent_ne {m : AgentId} (h : m ≠ n) : (sendReclaim s n).noticeAgent m = s.noticeAgent m :=
  setNotice_noticeAgent_ne _ _ h

end Reclaim

/-- Settles O18: each command by the session state it finds, and the parts of a reclaim. -/
theorem agentCommandDecisions : Obligations.AgentCommandDecisions := by
  refine ⟨fun s arg dest => ⟨fun h => exec_enableAgent h, fun h => ?evict, fun h => ?disable⟩, fun s n =>
    ⟨sendReclaim_domain s n, sendReclaim_noticeAgent_same s n, sendReclaim_agent_same s n,
      fun m hm => ⟨sendReclaim_agent_ne s n hm, sendReclaim_noticeAgent_ne s n hm⟩, rfl⟩⟩
  case evict =>
    rw [exec_evictAgent h, decideEvictAgent_eq]
    rfl
  case disable =>
    rw [exec_disableAgent h, decideDisableAgent, disableAgent_eq]
    rfl

/-! ### RESET_LINK, WALK_START (R145, R181) -/

theorem exec_resetLink {s : State} {arg : Word} {dest : Option DomainId}
    (h : s.management.command = some (.handed .resetLink arg dest)) :
    exec (.resetLink .decide) s = .next (answer (onLink (argAgent arg) linkReset s) .resetLink .done) := twoPhase_decide h

theorem exec_linkPortWarmRestart {s : State} {n : AgentId} {due : RestartDue}
    (h : s.management.command = some (.restarting due)) (hn : look due.links n = true) : exec (.linkPortWarmRestart n) s =
      .next (restartTaken (onLink n linkReset s) { due with links := put due.links n false }) := by
  change execLinkPortWarmRestart n s = _
  simp only [execLinkPortWarmRestart, restartDue, h, hn, if_true]

/-- Settles O20: both commands make the one link reset of R145, `linkReset`. -/
theorem linkResets : Obligations.LinkResets := by
  intro s n p q deadline after
  have hreset : linkReset (linkEnvOf s n) (s.link n) = after := rfl
  have hlink : onLink n linkReset s = s.setLink n after := congrArg (s.setLink n) hreset
  refine ⟨fun arg dest h hn => ?_, fun due h hdue => ?_⟩
  · rw [exec_resetLink h, hn, hlink]
  · rw [exec_linkPortWarmRestart h hdue, hlink]

theorem argFilter_eq (arg : Word) : argFilter arg =
    if arg.getLsbD 31 then some (Fin.ofNat 16 (arg.extractLsb' 27 4).toNat) else none := by
  have hbit : (field arg 31 1 = 1) ↔ arg.getLsbD 31 = true := by
    have hword : arg.extractLsb' 31 1 = BitVec.ofBool (arg.getLsbD 31) := by
      apply BitVec.eq_of_getLsbD_eq
      intro i hi
      have hzero : i = 0 := by omega
      subst hzero
      simp
    rw [field, hword]
    cases arg.getLsbD 31 <;> decide
  simp only [argFilter, hbit]
  rfl

/-- Settles O21: a walk begins in a domain that is not DISABLED. -/
theorem walkStart : Obligations.WalkStart := by
  intro s arg dest h
  have hexec : exec (.walkStart .decide) s = .next (decideWalkStart arg dest s) := twoPhase_decide h
  refine ⟨fun hstate => ?_, fun hstate => ?_⟩
  · rw [hexec, decideWalkStart, if_neg hstate, argFilter_eq]
    rfl
  · rw [hexec, decideWalkStart, if_pos hstate]
    rfl

end Sys2Proof.Machine
end

section
/-! A warm restart, unit by unit (R12, R99, R115, R131), and the reads of a slot by a scrub and by a walk (R10, R11, R182, R183). -/

set_option Elab.async false

namespace Sys2Proof.Machine

/-! ### A domain's warm restart (R12) -/

theorem genOf_freeSlot_ne (p : Pool) {i j : SlotId} (h : j ≠ i) : genOf (freeSlot p i) j = genOf p j :=
  congrArg (fun x : Slot => x.directory.gen) (onlySlot_freeSlot p i j h)

/-- Every slot of the list is retired once, and no other is written. -/
theorem poolGet_renewSlots {l : List SlotId} (hl : l.Nodup) {p : Pool} (hp : Pool.wf p = true) (i : SlotId) :
    poolGet (renewSlots l p) i = if i ∈ l then retired (genOf p i) else poolGet p i := by
  induction l generalizing p with
  | nil => rfl
  | cons j rest ih =>
    obtain ⟨hj, hrest⟩ := List.nodup_cons.mp hl
    have hfold : renewSlots (j :: rest) p = renewSlots rest (freeSlot p j) := rfl
    rw [hfold, ih hrest (wf_freeSlot hp j)]
    by_cases hi : i = j
    · subst hi
      rw [if_neg hj, if_pos List.mem_cons_self, poolGet_freeSlot_same hp]
    · have hmem : i ∈ j :: rest ↔ i ∈ rest := by simp [hi]
      simp only [hmem, genOf_freeSlot_ne p hi, onlySlot_freeSlot p j i hi]

/-- The domain as R12 leaves it. -/
def Domain.restarted (x : Domain) : Domain :=
  { x with
    state := if x.state = .enabled then .enabled else .disabled
    scrubPos := if x.state = .enabled ∨ x.state = .disabled then x.scrubPos else none
    freeList := if x.state = .enabled then slotsOfBanks x.banks else if x.state = .disabled then x.freeList else []
    waitQueue := if x.state = .disabled then x.waitQueue else []
    occupancy := if x.state = .disabled then x.occupancy else []
    tokenMap := if x.state = .disabled then x.tokenMap else []
    live := if x.state = .disabled then x.live else Vector.replicate 16 0
    fromSession := [], era := x.era + 1 }

theorem restartTable_dom (t : LockTable) : (restartTable t).dom = t.dom.restarted := by
  unfold restartTable Domain.restarted
  cases hstate : t.dom.state <;> simp [restartedDomain, enabledDomain, emptyCollections, hstate]

theorem poolGet_restartTable {t : LockTable} (hp : Pool.wf t.pool = true) (i : SlotId) : poolGet (restartTable t).pool i =
    if t.dom.state ≠ .disabled ∧ inBanks t.dom.banks i = true then retired (genOf t.pool i) else poolGet t.pool i := by
  have hrenewed := poolGet_renewSlots (nodup_slotsOfBanks t.dom.banks) hp i
  simp only [mem_slotsOfBanks] at hrenewed
  unfold restartTable
  split
  case h_1 hstate => simp [hstate]
  all_goals
    rename_i hstate
    simpa [hstate, restartedDomain] using hrenewed

theorem endWalk_fields (m : Management) (d : DomainId) :
    endWalk m d = { m with cursor := (endWalk m d).cursor, command := (endWalk m d).command } := by
  unfold endWalk
  split
  · split <;> rfl
  all_goals rfl

theorem withTable_management_fields (s : State) (d : DomainId) (u : LockTable) : (s.withTable d u).management =
    { s.management with
      cursor := (s.withTable d u).management.cursor, command := (s.withTable d u).management.command } := by
  obtain h | h := withTable_management s d u
  · rw [h]
  · rw [h]
    exact endWalk_fields _ _

theorem exec_lockTableWarmRestart {s : State} {d : DomainId} {due : RestartDue}
    (h : s.management.command = some (.restarting due)) (hd : look due.domains d = true) : exec (.lockTableWarmRestart d) s =
      .next (restartTaken (s.withTable d (restartTable (s.table d))) { due with domains := put due.domains d false }) := by
  change execLockTableWarmRestart d s = _
  simp only [execLockTableWarmRestart, restartDue, h, hd, if_true]

/-- Settles O23: the table by `restartTable`; of the management port a walk of the domain may end. -/
theorem lockTableWarmRestart : Obligations.LockTableWarmRestart := by
  intro s d due h hd hp
  let u := restartTable (s.table d)
  refine ⟨u.dom, u.pool, { (s.withTable d u).management with
    command := some (.restarting { due with domains := put due.domains d false }) }, ?exec, ?management, restartTable_dom _,
    fun i => poolGet_restartTable (t := s.table d) hp i⟩
  case exec =>
    rw [exec_lockTableWarmRestart h hd]
    rfl
  case management => rw [withTable_management_fields]

/-! ### The session unit, the gate unit and the notice unit (R99, R115, R131) -/

section Units

variable {s : State} {due : RestartDue}

theorem exec_sessionWarmRestart (h : s.management.command = some (.restarting due)) (hs : due.session = true) :
    exec .sessionWarmRestart s = .next (restartTaken { s with session := { s.session with
      agents := mapTable restartedAgent s.session.agents, era := s.session.era + 1 } } { due with session := false }) := by
  change execSessionWarmRestart s = _
  simp only [execSessionWarmRestart, restartDue, h, hs, if_true]

theorem exec_gateWarmRestart (h : s.management.command = some (.restarting due)) (hg : due.gate = true) :
    exec .gateWarmRestart s =
      .next (restartTaken ((withdrawChecks s).setGate (restartedGate s.gate)) { due with gate := false }) := by
  change execGateWarmRestart s = _
  simp only [execGateWarmRestart, restartDue, h, hg, if_true]

/-- Messages accepted from the port join the queues behind those that stand there. -/
theorem acceptFrom_doneQueue (l : List GateMsg) (g : GateUnit) : g.doneQueue <+: (acceptFrom g l).doneQueue := by
  induction l generalizing g with
  | nil => exact List.prefix_refl _
  | cons m rest ih =>
    simp only [acceptFrom]
    split
    · refine List.IsPrefix.trans ?_ (ih _)
      cases m with
      | check c => exact List.prefix_refl _
      | done k => exact List.prefix_append ..
    · exact List.prefix_refl _

/-- A DONE at the head of the port is the first of an empty queue. -/
theorem acceptFrom_done {g : GateUnit} (h : g.doneQueue = []) (m : Done) (rest : List GateMsg) :
    (acceptFrom g (.done m :: rest)).doneQueue.head? = some m := by
  have hroom : g.hasRoom (.done m) = true := by simp [GateUnit.hasRoom, h, Config.gatePlaces]
  have hprefix := acceptFrom_doneQueue rest (g.append (.done m))
  have haccept : acceptFrom g (.done m :: rest) = acceptFrom (g.append (.done m)) rest := if_pos hroom
  have hqueue : (g.append (.done m)).doneQueue = [m] := congrArg (· ++ [m]) h
  obtain ⟨tail, htail⟩ := hprefix
  rw [haccept, ← htail, hqueue]
  rfl

theorem restartedGate_idle {g : GateUnit} (h : g.port = []) : restartedGate g = { g with
    doneQueue := [], verdictQueue := g.verdictQueue.map (fun p => { p with verdict := some (.refused .notReady) }) } := by
  simp only [restartedGate, GateUnit.settle, h, acceptFrom]

theorem restartedGate_done {g : GateUnit} {m : Done} {rest : List GateMsg} (h : g.port = .done m :: rest) :
    (restartedGate g).doneQueue.head? = some m := by
  simp only [restartedGate, GateUnit.settle, h]
  exact acceptFrom_done rfl m rest

/-- No place of the queue is undecided. -/
theorem undecided_none {k : Nat} {q : List Place} (h : ∀ p ∈ q, p.verdict ≠ none) : undecided k q = none := by
  have hfind : q.find? (fun p => p.number == k && p.verdict.isNone) = none :=
    List.find?_eq_none.mpr fun p hp => by simp [h p hp]
  rw [undecided, hfind]
  rfl

theorem placeVerdict_decided (k : Nat) (v : Verdict) {q : List Place} (h : ∀ p ∈ q, p.verdict ≠ none) :
    placeVerdict k v q = q := by
  unfold placeVerdict
  conv_rhs => rw [← List.map_id q]
  exact List.map_congr_left fun p hp => if_neg fun g => h p hp g.2

/-- Settles O24: the session unit's agents, the gate's queues, and the answers that come too late. -/
theorem sessionAndGateWarmRestart : Obligations.SessionAndGateWarmRestart := by
  refine ⟨fun s due h hs => ⟨_, exec_sessionWarmRestart h hs, fun n => look_mapTable .., rfl⟩,
    fun s due h hg hport => ⟨_, exec_gateWarmRestart h hg, withdrawChecks_domain s, ?idle⟩,
    fun s due m rest h hg hport => ⟨_, exec_gateWarmRestart h hg, restartedGate_done hport, fun d => ?checks⟩,
    fun s k st epoch rest hanswers hdecided => ?present, fun s d k v rest hverdicts hdecided => ?place⟩
  case idle =>
    rw [restartedGate_idle hport]
    rfl
  case checks => exact congrArg Domain.checks (withdrawChecks_domain s d)
  case present =>
    change execCheckPresent s = _
    simp only [execCheckPresent, hanswers, setGate_gate, undecided_none hdecided]
    rfl
  case place =>
    change execVerdictPlace (some d) s = _
    simp only [execVerdictPlace, hverdicts, placeVerdict_decided k v hdecided]
    rfl

theorem exec_noticeWarmRestart (h : s.management.command = some (.restarting due)) (hn : due.notice = true) :
    exec .noticeWarmRestart s = .next (restartTaken
      { s with
        notice := { s.notice with
          agents := mapTable restartedNoticeAgent s.notice.agents, conditions := [], reads := Vector.replicate 8 .idle
          era := s.notice.era + 1 }
        domains := mapTable (fun d : Domain => { d with toNotice := [] }) s.domains
        noDomain := { s.noDomain with toNotice := [] }
        links := mapTable (fun p : LinkPort => { p with noticeResets := 0 }) s.links }
      { due with notice := false }) := by
  change execNoticeWarmRestart s = _
  simp only [execNoticeWarmRestart, restartDue, h, hn, if_true]

/-- Settles O25: each queue of what the notice unit was handed, by the table that holds it. -/
theorem noticeWarmRestart : Obligations.NoticeWarmRestart := by
  refine ⟨fun s due h hn => ⟨_, exec_noticeWarmRestart h hn, fun n => ?agent, rfl, fun d => ?read, fun d => ?domain, rfl,
    fun n => ?link, rfl⟩, fun n => ?reset⟩
  case agent => exact look_mapTable restartedNoticeAgent s.notice.agents n
  case read => exact look_replicate ..
  case domain => simp only [restartTaken, State.domain, State.setManagement, look_mapTable]
  case link => simp only [restartTaken, State.link, State.setManagement, look_mapTable]
  case reset =>
    rw [reset_noticeAgent]
    exact ⟨rfl, rfl, rfl, rfl, rfl, rfl⟩

end Units

end Sys2Proof.Machine
end

section
/-! The session unit: arrivals, acknowledgements, the front-end checks, sessions, lock requests, results and lease expiry
(04, 08). -/

set_option Elab.async false

namespace Sys2Proof.Machine

/-! ### Arrivals and reset notices (R146, R152) -/

/-- The first REQUEST of a queue whose arrival has not been taken, its tag FREE. -/
theorem markArrival_holder {tags : Vector Bool 8} {x : Received} (hr : isRequest x.words = true) (hm : x.mark = none)
    (ht : look tags (requestTag x.words) = false) (rest : List Received) : markArrival tags (x :: rest) =
      (put tags (requestTag x.words) true, { x with mark := some true } :: rest) := by
  simp [markArrival, hr, hm, ht]

/-- The first REQUEST of a queue whose arrival has not been taken, its tag BUSY. -/
theorem markArrival_clash {tags : Vector Bool 8} {x : Received} (hr : isRequest x.words = true) (hm : x.mark = none)
    (ht : look tags (requestTag x.words) = true) (rest : List Received) :
    markArrival tags (x :: rest) = (tags, { x with mark := some false } :: rest) := by
  simp [markArrival, hr, hm, ht]

/-- Messages before it that are no REQUEST, or whose arrival has been taken, are passed over. -/
theorem markArrival_append (tags : Vector Bool 8) {pre : List Received}
    (h : ∀ y ∈ pre, isRequest y.words = false ∨ y.mark ≠ none) (l : List Received) :
    markArrival tags (pre ++ l) = ((markArrival tags l).1, pre ++ (markArrival tags l).2) := by
  induction pre with
  | nil => rfl
  | cons y pre ih =>
    have hy : ¬(isRequest y.words && y.mark.isNone) = true := by
      have := h y List.mem_cons_self
      simpa [← Option.ne_none_iff_isSome, or_iff_not_imp_left] using this
    rw [List.cons_append, markArrival, if_neg hy, ih fun z hz => h z (List.mem_cons_of_mem _ hz)]
    rfl

theorem exec_requestArrival {s : State} {n : AgentId} (h : (s.link n).resetNotice = none) : exec (.requestArrival n) s =
    .next ((s.setAgent n { s.agent n with tags := (markArrival (s.agent n).tags (s.link n).rxQueue).1 }).setLink n
      { s.link n with rxQueue := (markArrival (s.agent n).tags (s.link n).rxQueue).2 }) := by
  change execRequestArrival n s = _
  simp [execRequestArrival, h]

theorem setAgent_agent (s : State) (n : AgentId) : s.setAgent n (s.agent n) = s := by
  simp [State.setAgent, State.agent]

/-! ### The message at the head of a receive queue (R153) -/

/-- The session unit can take the message at the head of the receive queue of link `n`. -/
structure AtHead (s : State) (n : AgentId) (x : Received) (rest : List Received) : Prop where
  noReset : (s.link n).resetNotice = none
  idle : (s.agent n).inProcess = none
  head : (s.link n).rxQueue = x :: rest
  arrived : isRequest x.words = true → x.mark ≠ none

section Head

variable {s : State} {n : AgentId} {x : Received} {rest : List Received}

theorem AtHead.nextMessage (h : AtHead s n x rest) : nextMessage s n = some x := by
  have hx : ¬(isRequest x.words && x.mark.isNone) = true := by
    simpa [← Option.ne_none_iff_isSome] using h.arrived
  simp only [Machine.nextMessage, h.noReset, h.idle, h.head, if_neg hx]
  rfl

theorem AtHead.dropMessage (h : AtHead s n x rest) : dropMessage s n = s.setLink n { s.link n with rxQueue := rest } := by
  simp only [Machine.dropMessage, h.head, List.tail_cons]

/-- An agent without a request in process stays so. -/
theorem AtHead.agent_idle (h : AtHead s n x rest) (tags : Vector Bool 8) :
    { s.agent n with inProcess := none, tags := tags } = { s.agent n with tags := tags } := by
  rw [← h.idle]

/-- The entry with its lease deadline set afresh. -/
def Agent.renewed (a : Agent) (t : Time) : Agent :=
  { a with leaseDeadline := some t }

theorem renewLease_online {c : LeaseClass} (h : (s.agent n).state = .online) (hc : (s.agent n).leaseClass = some c) :
    renewLease s n = s.setAgent n ((s.agent n).renewed (s.time + BitVec.ofNat 32 (leaseMs s c))) := by
  simp only [renewLease, h, hc, Agent.renewed]

theorem renewLease_other (h : (s.agent n).state ≠ .online) : renewLease s n = s := by
  simp only [renewLease]
  split
  · next ho _ => exact absurd ho h
  · rfl

theorem renewLease_setLink (l : LinkPort) : renewLease (s.setLink n l) n = (renewLease s n).setLink n l := by
  simp only [renewLease, setLink_agent]
  split <;> rfl

theorem exec_acknowledgementTake (h : AtHead s n x rest) {b : AckBody} (hb : parseAck x.words = some b) :
    exec (.acknowledgementTake n) s = .next (passAck (renewLease (s.setLink n { s.link n with rxQueue := rest }) n) n b) := by
  change execAcknowledgementTake n s = _
  simp only [execAcknowledgementTake, h.nextMessage, hb, h.dropMessage]

theorem exec_messageDiscard (h : AtHead s n x rest) (hx : isDiscarded x.words = true) : exec (.messageDiscard n) s =
    .next (reportSession (s.setLink n { s.link n with rxQueue := rest }) .linkProtocol n) := by
  change execMessageDiscard n s = _
  simp only [execMessageDiscard, h.nextMessage, hx, if_true, h.dropMessage]

/-- An acknowledgement of its length, as the session unit takes it and hands it on. -/
theorem parseAck_item {w : Word} {item : AckItem} {era : Nat}
    (h : messageType [w] = 5 ∧ item = .notice ⟨Fin.ofNat 4096 (w.extractLsb' 8 12).toNat, w.extractLsb' 0 8⟩ era ∨
      messageType [w] = 6 ∧ item = .session era) :
    ∃ b, parseAck [w] = some b ∧ item = match b with | .notice h => .notice h era | .session => .session era := by
  obtain ⟨hw, rfl⟩ | ⟨hw, rfl⟩ := h
  · exact ⟨.notice (handleField w), by simp only [parseAck, hw], rfl⟩
  · exact ⟨.session, by simp only [parseAck, hw], rfl⟩

theorem isDiscarded_of {ws : List Word} (hr : isRequest ws = false)
    (h : messageType ws ≠ 5 ∧ messageType ws ≠ 6 ∨ ws.length ≠ 1) : isDiscarded ws = true := by
  have hnone : parseAck ws = none := by
    unfold parseAck
    split
    case h_1 w hw => exact absurd hw (by simpa using h.resolve_right (by simp) |>.1)
    case h_2 w hw => exact absurd hw (by simpa using h.resolve_right (by simp) |>.2)
    case h_3 => rfl
  simp [isDiscarded, hr, hnone]

end Head

/-- Settles O26: arrivals by `markArrival`, acknowledgements by `parseAck`. -/
theorem arrivalsResetNoticesAndAcknowledgements : Obligations.ArrivalsResetNoticesAndAcknowledgements := by
  refine ⟨⟨fun s n pre rest x hreset hq hpre hx hmark => ⟨fun htag => ?holder, fun htag => ?clash⟩,
    fun s n k hk => ⟨?waits, ?reset⟩⟩,
    fun s n x rest hreset hidle hq hx => ⟨fun w item hw hitem => ⟨fun c hon hc => ?online, fun hoff => ?other⟩,
      fun hother => ?discard⟩⟩
  case holder => rw [exec_requestArrival hreset, hq, markArrival_append _ hpre, markArrival_holder hx hmark htag]
  case clash =>
    rw [exec_requestArrival hreset, hq, markArrival_append _ hpre, markArrival_clash hx hmark htag]
    exact congrArg (fun u : State => Host.Outcome.next (u.setLink n _)) (setAgent_agent s n)
  case waits =>
    change execRequestArrival n s = _
    simp only [execRequestArrival, hk, Option.isSome_some, if_true]
  case reset =>
    change execResetNotice n s = _
    simp only [execResetNotice, hk]
  case discard =>
    exact exec_messageDiscard ⟨hreset, hidle, hq, by simp [hx]⟩ (isDiscarded_of hx hother)
  all_goals
    have hhead : AtHead s n x rest := ⟨hreset, hidle, hq, by simp [hx]⟩
    obtain ⟨b, hb, rfl⟩ := parseAck_item hitem
    rw [exec_acknowledgementTake hhead (hw ▸ hb)]
  case online =>
    rw [renewLease_setLink, renewLease_online hon hc]
    rfl
  case other =>
    rw [renewLease_setLink, renewLease_other hoff]
    rfl

/-! ### Responses handed on (R147, R157) -/

theorem responsesWith_eq (s : State) (n : AgentId) (r : QueuedResponse) : s.responsesWith n r =
    (s.link n).responses ++ if lateResponse s n r.stamp then [] else [r] := by
  unfold State.responsesWith lateResponse restartedBefore restartDue
  cases s.management.command with
  | none => rfl
  | some c =>
    cases c with
    | restarting due => cases hs : due.session <;> cases hl : look due.links n <;> simp +contextual [hs, hl, apply_ite]
    | _ => rfl

section Hand

variable {s : State} {n : AgentId} {p : InProcess}

/-- The response of the current reset state finds a place. -/
theorem handResponse_room (hstamp : p.stamp = (s.agent n).lastReset) (hroom : (s.link n).responses.length < 8) (r : Response) :
    handResponse s n p r = (s.setAgent n { s.agent n with inProcess := none, tags := freeTag (s.agent n).tags p }).setLink n
      { s.link n with responses := s.responsesWith n ⟨p.tag, r, p.stamp⟩ } := by
  simp only [handResponse, hstamp, ne_eq, not_true, if_false, Config.responsePlaces, hroom, if_true, responsesWith_eq]

theorem handResponse_full (hstamp : p.stamp = (s.agent n).lastReset) (hfull : 8 ≤ (s.link n).responses.length) (r : Response) :
    handResponse s n p r = s.setAgent n { s.agent n with inProcess := some { p with response := some r } } := by
  simp only [handResponse, hstamp, ne_eq, not_true, if_false, Config.responsePlaces, Nat.not_lt.mpr hfull]

theorem handResponse_foreign (hstamp : p.stamp ≠ (s.agent n).lastReset) (r : Response) :
    handResponse s n p r = s.setAgent n { s.agent n with inProcess := none } := by
  simp only [handResponse, if_pos hstamp]

@[simp] theorem setLink_setLink (s : State) (n : AgentId) (x y : LinkPort) : (s.setLink n x).setLink n y = s.setLink n y := by
  simp [State.setLink]

@[simp] theorem setAgent_setAgent (s : State) (n : AgentId) (x y : Agent) :
    (s.setAgent n x).setAgent n y = s.setAgent n y := by
  simp [State.setAgent]

/-- A response handed on once the head of the receive queue has been taken. -/
theorem handResponse_dropped {rest : List Received} (hstamp : p.stamp = (s.agent n).lastReset)
    (hroom : (s.link n).responses.length < 8) (r : Response) :
    handResponse (s.setLink n { s.link n with rxQueue := rest }) n p r =
      (s.setAgent n { s.agent n with inProcess := none, tags := freeTag (s.agent n).tags p }).setLink n
        { s.link n with rxQueue := rest, responses := s.responsesWith n ⟨p.tag, r, p.stamp⟩ } := by
  have hlate : lateResponse (s.setLink n { s.link n with rxQueue := rest }) n p.stamp = lateResponse s n p.stamp := by
    simp [lateResponse, restartedBefore, restartDue]
  have hroom' : ((s.setLink n { s.link n with rxQueue := rest }).link n).responses.length < 8 := by simpa using hroom
  refine (handResponse_room (s := s.setLink n { s.link n with rxQueue := rest }) hstamp hroom' r).trans ?_
  rw [responsesWith_eq, responsesWith_eq, hlate]
  simp only [setLink_link_same]
  exact setLink_setLink (s.setAgent n _) n _ _

end Hand

/-! ### The front-end checks (R154) -/

section Front

variable {s : State} {n : AgentId} {x : Received} {rest : List Received}

/-- The command that takes a request of kind `k`. -/
def takeOf (k : Nat) (n : AgentId) : Instr :=
  if k = 1 then .join n else if k = 2 then .leave n else if k = 6 then .renew n else .requestTake n

/-- A request that a check refuses is answered at its taking, by the command that takes its kind. -/
theorem exec_takeOf_refused (h : AtHead s n x rest) (hr : isRequest x.words = true) {c : ResultRefusal}
    (hc : frontEnd s n x = .error c) : exec (takeOf (requestKind x.words) n) s =
      .next (refuseAtFront (s.setLink n { s.link n with rxQueue := rest }) n x c) := by
  have hfront : frontEnd (s.setLink n { s.link n with rxQueue := rest }) n x = .error c := hc
  unfold takeOf
  split
  · next hk =>
    change execJoin n s = _
    simp [execJoin, h.nextMessage, hr, hk, h.dropMessage, hfront]
  · next hk1 =>
    split
    · next hk =>
      change execLeave n s = _
      simp [execLeave, h.nextMessage, hr, hk, h.dropMessage, hfront]
    · next hk2 =>
      split
      · next hk =>
        change execRenew n s = _
        simp [execRenew, h.nextMessage, hr, hk, h.dropMessage, hfront]
      · next hk6 =>
        change execRequestTake n s = _
        simp [execRequestTake, h.nextMessage, hr, hk1, hk2, hk6, h.dropMessage, hfront]

/-- The state after the answer at the taking of the request. -/
def answeredAtFront (s : State) (n : AgentId) (x : Received) (rest : List Received) (holder : Bool) (c : ResultRefusal) : State :=
  (s.setAgent n { s.agent n with
    tags := if holder then put (s.agent n).tags (requestTag x.words) false else (s.agent n).tags }).setLink n
    { s.link n with rxQueue := rest, responses := s.responsesWith n ⟨requestTag x.words, .refused c, x.stamp⟩ }

/-- A request read off the head as its process: the tag is its holder's where its arrival made it so. -/
theorem processOf_eq {b : Bool} (h : x.mark = some b) : processOf x = ⟨requestTag x.words, b, x.stamp, none⟩ := by
  cases b <;> simp [processOf, h]

section Answer

variable (h : AtHead s n x rest) (hstamp : x.stamp = (s.agent n).lastReset) (hroom : (s.link n).responses.length < 8)
include h hstamp hroom

theorem handResponse_atHead {b : Bool} (hb : x.mark = some b) (r : Response) :
    handResponse (s.setLink n { s.link n with rxQueue := rest }) n (processOf x) r =
      (s.setAgent n { s.agent n with
        tags := if b then put (s.agent n).tags (requestTag x.words) false else (s.agent n).tags }).setLink n
      { s.link n with rxQueue := rest, responses := s.responsesWith n ⟨requestTag x.words, r, x.stamp⟩ } := by
  rw [handResponse_dropped (by exact hstamp) hroom, processOf_eq hb]
  simp only [freeTag, h.agent_idle]

theorem refuseAtFront_other {b : Bool} (hb : x.mark = some b) {c : ResultRefusal} (hc : c ≠ .tagInUse) :
    refuseAtFront (s.setLink n { s.link n with rxQueue := rest }) n x c = answeredAtFront s n x rest b c := by
  simp only [refuseAtFront, if_neg hc]
  exact handResponse_atHead h hstamp hroom hb _

theorem refuseAtFront_tagInUse {b : Bool} (hb : x.mark = some b) :
    refuseAtFront (s.setLink n { s.link n with rxQueue := rest }) n x .tagInUse =
      reportSession (answeredAtFront s n x rest b .tagInUse) .linkProtocol n := by
  have hanswer := handResponse_atHead (s := reportSession s .linkProtocol n) ⟨h.noReset, h.idle, h.head, h.arrived⟩ hstamp
    hroom hb (.refused .tagInUse)
  simp only [refuseAtFront, if_true]
  exact hanswer

end Answer

theorem frontEnd_badRequest (h : parseRequest x.words = none) : frontEnd s n x = .error .badRequest := by
  simp only [frontEnd, h]

variable {q : RequestBody} (hq : parseRequest x.words = some q)
include hq

theorem frontEnd_tagInUse (h : x.mark = some false) : frontEnd s n x = .error .tagInUse := by
  simp only [frontEnd, hq, h, if_true]

theorem frontEnd_notReady (h : x.mark = some true) (hm : s.management.mode = .setup) : frontEnd s n x = .error .notReady := by
  simp [frontEnd, hq, h, hm]

section Active

variable (h : x.mark = some true) (hm : s.management.mode = .active)
include h hm

theorem frontEnd_online (hst : (s.agent n).state = .online) : frontEnd s n x = .ok q := by
  simp [frontEnd, hq, h, hm, hst]

theorem frontEnd_disabled (hst : (s.agent n).state = .disabled) : frontEnd s n x = .error .agentDisabled := by
  simp [frontEnd, hq, h, hm, hst]

theorem frontEnd_offline (hst : (s.agent n).state = .offline) (hj : ∀ c, q ≠ .join c) :
    frontEnd s n x = .error .notJoined := by
  cases q with
  | join c => exact absurd rfl (hj c)
  | _ => simp [frontEnd, hq, h, hm, hst]

theorem frontEnd_lapsed (hst : (s.agent n).state = .lapsed) (hj : ∀ c, q ≠ .join c) :
    frontEnd s n x = .error .sessionLapsed := by
  cases q with
  | join c => exact absurd rfl (hj c)
  | _ => simp [frontEnd, hq, h, hm, hst]

end Active

omit hq

theorem frontEnd_join {c : LeaseClass} (hc : parseRequest x.words = some (.join c)) (h : x.mark = some true)
    (hm : s.management.mode = .active) (hst : (s.agent n).state ≠ .disabled) : frontEnd s n x = .ok (.join c) := by
  cases hstate : (s.agent n).state with
  | disabled => exact absurd hstate hst
  | _ => simp [frontEnd, hc, h, hm, hstate]

/-- Only a request of kind 1 is a JOIN. -/
theorem requestKind_join {ws : List Word} {c : LeaseClass} (h : parseRequest ws = some (.join c)) : requestKind ws = 1 := by
  unfold parseRequest at h
  split at h
  case h_1 hk => exact hk
  all_goals simp at h

end Front

/-- Settles O27: each check by the one before it. -/
theorem frontEndRefusals : Obligations.FrontEndRefusals := by
  intro s n x rest b hreset hidle hq hx hmark hstamp hroom
  have hhead : AtHead s n x rest := ⟨hreset, hidle, hq, by simp [hmark]⟩
  have hother {c : ResultRefusal} (hfront : frontEnd s n x = .error c) (hc : c ≠ .tagInUse) :
      exec (takeOf (requestKind x.words) n) s = .next (answeredAtFront s n x rest b c) := by
    rw [exec_takeOf_refused hhead hx hfront, refuseAtFront_other hhead hstamp hroom hmark hc]
  refine ⟨fun hbad => hother (frontEnd_badRequest hbad) (by decide), fun q hbody => ⟨?clash, ?holder⟩⟩
  case clash =>
    rintro rfl
    exact (exec_takeOf_refused hhead hx (frontEnd_tagInUse hbody hmark)).trans
      (congrArg _ (refuseAtFront_tagInUse hhead hstamp hroom hmark))
  case holder =>
    rintro rfl
    refine ⟨fun hsetup => hother (frontEnd_notReady hbody hmark hsetup) (by decide), fun hactive => ?_⟩
    have hbodies (hk : requestKind x.words ≠ 1) (c : LeaseClass) : q ≠ .join c := by
      rintro rfl
      exact hk (requestKind_join hbody)
    exact ⟨fun hst => hother (frontEnd_disabled hbody hmark hactive hst) (by decide),
      fun hk hst => hother (frontEnd_offline hbody hmark hactive hst (hbodies hk)) (by decide),
      fun hk hst => hother (frontEnd_lapsed hbody hmark hactive hst (hbodies hk)) (by decide)⟩

/-! ### JOIN, LEAVE and RENEW (R80, R87, R91) -/

section Sessions

variable {s : State} {n : AgentId} {x : Received} {rest : List Received}

theorem exec_join (h : AtHead s n x rest) (hr : isRequest x.words = true) (hk : requestKind x.words = 1) {c : LeaseClass}
    (hc : frontEnd s n x = .ok (.join c)) :
    let u := joinAgent (s.setLink n { s.link n with rxQueue := rest }) n c
    exec (.join n) s = .next (handResponse u n (processOf x) (joinedResponse u n)) := by
  have hfront : frontEnd (s.setLink n { s.link n with rxQueue := rest }) n x = .ok (.join c) := hc
  change execJoin n s = _
  simp [execJoin, h.nextMessage, hr, hk, h.dropMessage, hfront]

theorem exec_leave (h : AtHead s n x rest) (hr : isRequest x.words = true) (hk : requestKind x.words = 2) {b : RequestBody}
    (hb : frontEnd s n x = .ok b) : exec (.leave n) s = .next (handResponse
      (endSession (sendReclaim (s.setLink n { s.link n with rxQueue := rest }) n) n .offline) n (processOf x) .left) := by
  have hfront : frontEnd (s.setLink n { s.link n with rxQueue := rest }) n x = .ok b := hb
  change execLeave n s = _
  simp [execLeave, h.nextMessage, hr, hk, h.dropMessage, hfront]

theorem exec_renew (h : AtHead s n x rest) (hr : isRequest x.words = true) (hk : requestKind x.words = 6) {b : RequestBody}
    (hb : frontEnd s n x = .ok b) :
    let u := renewLease (s.setLink n { s.link n with rxQueue := rest }) n
    exec (.renew n) s =
      .next (handResponse u n (processOf x) (.renewed (leaseMs u ((u.agent n).leaseClass.getD 0)))) := by
  have hfront : frontEnd (s.setLink n { s.link n with rxQueue := rest }) n x = .ok b := hb
  change execRenew n s = _
  simp [execRenew, h.nextMessage, hr, hk, h.dropMessage, hfront]

/-- The reclaim of a session that stands open when another is opened. -/
def reclaimedFirst (s : State) (n : AgentId) : State :=
  if (s.agent n).state = .offline then s else sendReclaim s n

theorem reclaimedFirst_setLink (l : LinkPort) : reclaimedFirst (s.setLink n l) n = (reclaimedFirst s n).setLink n l := by
  unfold reclaimedFirst
  rw [setLink_agent]
  split <;> rfl

theorem reclaimedFirst_kept : (reclaimedFirst s n).time = s.time ∧ (reclaimedFirst s n).management = s.management ∧
    (reclaimedFirst s n).links = s.links ∧
    ∃ k, (reclaimedFirst s n).agent n = { s.agent n with reclaims := k } := by
  unfold reclaimedFirst
  split
  · exact ⟨rfl, rfl, rfl, (s.agent n).reclaims, rfl⟩
  · exact ⟨rfl, rfl, rfl, _, sendReclaim_agent_same ..⟩

/-- The asking that the session notice set be emptied, put to the notice unit. -/
def askEmpty (s : State) (era : Nat) (conditions : List ConditionItem) (n : AgentId) : State :=
  { s with notice := { s.notice with conditions := conditions ++ [.empty n era] } }

theorem joinAgent_notDisabled (h : (s.agent n).state ≠ .disabled) (c : LeaseClass) : joinAgent s n c =
    (askEmpty (reclaimedFirst s n) s.session.era s.notice.conditions n).setAgent n
      (((reclaimedFirst s n).agent n).joinedWith (min c ((reclaimedFirst s n).agent n).bound)
        ((reclaimedFirst s n).time +
          BitVec.ofNat 32 (leaseMs (reclaimedFirst s n) (min c ((reclaimedFirst s n).agent n).bound)))) := by
  unfold joinAgent reclaimedFirst
  cases hst : (s.agent n).state with
  | disabled => exact absurd hst h
  | offline | online | lapsed => rfl

theorem joinAgent_setLink (h : (s.agent n).state ≠ .disabled) (c : LeaseClass) (l : LinkPort) :
    joinAgent (s.setLink n l) n c = (joinAgent s n c).setLink n l := by
  rw [joinAgent_notDisabled h, joinAgent_notDisabled (s := s.setLink n l) h, reclaimedFirst_setLink]
  rfl

theorem joinedResponse_written (u : State) (a : Agent) (l : LinkPort) (k : LeaseClass) (t : Time) :
    joinedResponse ((u.setAgent n (a.joinedWith k t)).setLink n l) n = .joined (nextEpoch a.epoch) (leaseMs u k) a.quota := by
  simp only [joinedResponse, setLink_agent, setAgent_agent_same]
  rfl

/-- The holder's response, handed on once the message has been taken and the agent's entry written. -/
theorem handResponse_written (u : State) {l : LinkPort} (hlink : u.link n = l) (a : Agent) (hmark : x.mark = some true)
    (hidle : a.inProcess = none) (hstamp : x.stamp = a.lastReset) (hroom : l.responses.length < 8) (r : Response) :
    handResponse ((u.setAgent n a).setLink n { l with rxQueue := rest }) n (processOf x) r =
      (u.setAgent n { a with tags := put a.tags (requestTag x.words) false }).setLink n
        { l with rxQueue := rest, responses := u.responsesWith n ⟨requestTag x.words, r, x.stamp⟩ } := by
  subst hlink
  have hagent : (u.setAgent n a).agent n = a := setAgent_agent_same ..
  have hhand := handResponse_dropped (s := u.setAgent n a) (p := processOf x) (rest := rest)
    (hstamp.trans (congrArg Agent.lastReset hagent.symm)) hroom r
  rw [processOf_eq hmark] at hhand ⊢
  refine hhand.trans ?_
  rw [hagent, setAgent_setAgent]
  simp only [freeTag, if_true, ← hidle]
  rfl

end Sessions

/-- Settles O28: each command by the checks it passes and the response it hands on. -/
theorem sessionsOpenRenewAndEnd : Obligations.SessionsOpenRenewAndEnd := by
  refine ⟨fun s n x rest c hreset hidle hq hx hk hbody hmark hstamp hroom hactive hst => ?join,
    fun s n x rest hreset hidle hq hx hmark hstamp hroom hactive hst =>
      ⟨fun hk hbody => ?leave, fun c hk hbody hc => ?renew⟩⟩
  all_goals have hhead : AtHead s n x rest := ⟨hreset, hidle, hq, by simp [hmark]⟩
  case join =>
    obtain ⟨htime, hmanagement, hlinks, k, hagent⟩ := reclaimedFirst_kept (s := s) (n := n)
    have hlink : (reclaimedFirst s n).link n = s.link n := congrArg (look · n) hlinks
    have hlease (m : LeaseClass) : leaseMs (reclaimedFirst s n) m = leaseMs s m := by simp only [leaseMs, hmanagement]
    rw [exec_join hhead hx hk (frontEnd_join hbody hmark hactive hst), joinAgent_setLink hst, joinAgent_notDisabled hst,
      joinedResponse_written, htime, hlease, handResponse_written (askEmpty _ _ _ _) hlink _ hmark
        (by simp [hagent, Agent.joinedWith, hidle]) (by simp [hagent, Agent.joinedWith, hstamp]) hroom]
    have hresponses (r : QueuedResponse) :
        (askEmpty (reclaimedFirst s n) s.session.era s.notice.conditions n).responsesWith n r = s.responsesWith n r := by
      change (reclaimedFirst s n).responsesWith n r = _
      simp only [State.responsesWith, hmanagement, hlink]
    rw [hresponses, show leaseMs (askEmpty (reclaimedFirst s n) _ _ _) _ = _ from hlease _]
    unfold reclaimedFirst at hagent ⊢
    simp only [hagent]
    rfl
  case leave =>
    rw [exec_leave hhead hx hk (frontEnd_online hbody hmark hactive hst)]
    refine congrArg _ ((handResponse_written (sendReclaim s n) rfl { (sendReclaim s n).agent n with
      state := .offline, leaseClass := none, leaseDeadline := none } hmark ?_ ?_ hroom _).trans ?_)
    · rwa [sendReclaim_agent_same]
    · rwa [sendReclaim_agent_same]
    · rw [sendReclaim_agent_same]
      rfl
  case renew =>
    rw [exec_renew hhead hx hk (frontEnd_online hbody hmark hactive hst), renewLease_setLink, renewLease_online hst hc]
    have hclass (t : Time) (l : LinkPort) :
        (((s.setAgent n ((s.agent n).renewed t)).setLink n l).agent n).leaseClass.getD 0 = c := by
      simp [Agent.renewed, hc]
    rw [hclass]
    exact congrArg _ (handResponse_written s rfl ((s.agent n).renewed _) hmark hidle hstamp hroom _)

/-! ### Lock requests handed on (R2, R26, R156) -/

section Lock

variable {s : State} {n : AgentId} {x : Received} {rest : List Received}

theorem requestKind_lock {ws : List Word} {b : LockBody} (h : parseRequest ws = some (.lock b)) :
    requestKind ws ≠ 1 ∧ requestKind ws ≠ 2 ∧ requestKind ws ≠ 6 := by
  unfold parseRequest at h
  split at h
  case h_3 hk => simp [hk]
  case h_4 hk => simp [hk]
  case h_5 hk => simp [hk]
  case h_7 hk => simp [hk]
  all_goals simp at h

theorem exec_requestTake (h : AtHead s n x rest) (hr : isRequest x.words = true) {b : LockBody}
    (hbody : parseRequest x.words = some (.lock b)) (hb : frontEnd s n x = .ok (.lock b)) : exec (.requestTake n) s =
      .next (handLock (renewLease (s.setLink n { s.link n with rxQueue := rest }) n) n x b) := by
  obtain ⟨h1, h2, h6⟩ := requestKind_lock hbody
  have hfront : frontEnd (s.setLink n { s.link n with rxQueue := rest }) n x = .ok (.lock b) := hb
  change execRequestTake n s = _
  simp [execRequestTake, h.nextMessage, hr, h1, h2, h6, h.dropMessage, hfront]

/-- The request put in process once the message has been taken and the lease renewed. -/
theorem putInProcess_written (u : State) (a : Agent) (l : LinkPort) (hmark : x.mark = some true) :
    putInProcess ((u.setAgent n a).setLink n l) n x =
      (u.setAgent n { a with inProcess := some ⟨requestTag x.words, true, x.stamp, none⟩ }).setLink n l := by
  rw [← processOf_eq hmark]
  unfold putInProcess
  rw [setLink_agent, setAgent_agent_same]
  exact congrArg (fun v : State => v.setLink n l) (setAgent_setAgent u n a _)

theorem lockRequest_written (u : State) (a : Agent) (l : LinkPort) (b : LockBody) :
    lockRequest ((u.setAgent n a).setLink n l) n x b = ⟨n, a.quota, a.live, x.stamp, u.session.era, b⟩ := by
  unfold lockRequest
  rw [setLink_agent, setAgent_agent_same]
  rfl

section Handed

variable (s n x) {mode : Mode} {first : Page} {count : Nat} {cookie : BitVec 16} {code : WaitCode}

theorem handLock_held {d : DomainId} (hd : holderOf s first = some d) : handLock s n x (.acquire mode first count cookie code) =
    handDomain (putInProcess s n x) d (.request (lockRequest s n x (.acquire mode first count cookie code))) := by
  simp only [handLock, hd]

theorem handLock_unheld (hd : holderOf s first = none) : handLock s n x (.acquire mode first count cookie code) =
    { putInProcess s n x with noDomain := { s.noDomain with
      requests := s.noDomain.requests ++ [lockRequest s n x (.acquire mode first count cookie code)] } } := by
  simp only [handLock, hd]
  rfl

theorem handLock_owned {b : LockBody} {h : Handle} (hb : b.handle? = some h) {d : DomainId} (hd : ownerOf s h.slot = some d) :
    handLock s n x b = handDomain (putInProcess s n x) d (.request (lockRequest s n x b)) := by
  cases b with
  | acquire => exact absurd hb (by simp [LockBody.handle?])
  | release k | convertUp k _ | convertDown k | query k =>
    obtain rfl : k = h := Option.some.inj hb
    simp only [handLock, hd]

theorem handLock_unowned {b : LockBody} {h : Handle} (hb : b.handle? = some h) (hd : ownerOf s h.slot = none) :
    handLock s n x b = handResponse s n (processOf x) (.refused .staleHandle) := by
  cases b with
  | acquire => exact absurd hb (by simp [LockBody.handle?])
  | release k | convertUp k _ | convertDown k | query k =>
    obtain rfl : k = h := Option.some.inj hb
    simp only [handLock, hd]

end Handed

end Lock

/-- Settles O29: the request by the domain of its page, or of its handle's bank. -/
theorem lockRequestsAreHandedOn : Obligations.LockRequestsAreHandedOn := by
  intro s n x rest b c hreset hidle hq hx hbody hmark hactive hst hc
  have hhead : AtHead s n x rest := ⟨hreset, hidle, hq, by simp [hmark]⟩
  have hexec := exec_requestTake hhead hx hbody (frontEnd_online hbody hmark hactive hst)
  rw [renewLease_setLink, renewLease_online hst hc] at hexec
  refine ⟨fun mode first count cookie code hb => ⟨fun d hd hfirst => ?held, fun hd => ?unheld⟩,
    fun h code hb => ⟨fun d hd hfirst => ?owned, fun hd hstamp hroom => ?unowned⟩⟩
  case held =>
    subst hb
    rw [hexec]
    refine congrArg _ ((handLock_held _ n x (d := d) (by exact holderOf_first (s := s) hd hfirst)).trans ?_)
    rw [putInProcess_written s _ _ hmark, lockRequest_written]
    rfl
  case unheld =>
    subst hb
    rw [hexec]
    refine congrArg _ ((handLock_unheld _ n x (by exact holderOf_none (s := s) hd)).trans ?_)
    rw [putInProcess_written s _ _ hmark, lockRequest_written]
    rfl
  all_goals
    have hhandle : b.handle? = some h := by rcases hb with rfl | rfl | rfl | rfl <;> rfl
  case owned =>
    rw [hexec]
    refine congrArg _ ((handLock_owned _ n x hhandle (d := d) (by exact ownerOf_first (s := s) hd hfirst)).trans ?_)
    rw [putInProcess_written s _ _ hmark, lockRequest_written]
    rfl
  case unowned =>
    rw [hexec]
    exact congrArg _ ((handLock_unowned _ n x hhandle (by exact ownerOf_none (s := s) hd)).trans <|
      handResponse_written s rfl ((s.agent n).renewed _) hmark hidle hstamp hroom _)

/-! ### Results and live reports (R96, R157) -/

section Results

variable {s : State} {a : AgentId}

/-- A live count after the live report that came with a result, if one did. -/
def liveAfter (c : Option LiveChange) (m : Nat) : Nat :=
  match c with
  | none => m
  | some c => c.apply m

theorem applyAttached_eq (c : Option LiveChange) :
    applyAttached s a c = s.setAgent a { s.agent a with live := liveAfter c (s.agent a).live } := by
  cases c with
  | none => exact (setAgent_agent s a).symm
  | some c => rfl

theorem takeResult_stale {k : BitVec 8} {r : Response} {c : Option LiveChange} {era : Nat} (h : era < s.session.era) :
    takeResult s a k r c era = s := if_pos h

theorem takeResult_current {k : BitVec 8} {r : Response} {c : Option LiveChange} {era : Nat} (h : s.session.era ≤ era)
    {p : InProcess} (hp : (s.agent a).inProcess = some p) : takeResult s a k r c era =
      handResponse (s.setAgent a { s.agent a with live := liveAfter c (s.agent a).live }) a { p with stamp := k } r := by
  have hcurrent : takeResult s a k r c era = match ((applyAttached s a c).agent a).inProcess with
    | some p => handResponse (applyAttached s a c) a { p with stamp := k } r
    | none => applyAttached s a c := if_neg (Nat.not_lt.mpr h)
  rw [hcurrent, applyAttached_eq, setAgent_agent_same]
  simp only [hp]

theorem exec_resultTake {d : DomainId} {k : BitVec 8} {r : Response} {c : Option LiveChange} {era : Nat} {rest : List DomainReport}
    (h : (s.domain d).toSession = .result a k r c era :: rest) : exec (.resultTake (some d)) s =
      .next (takeResult (s.setDomain d { s.domain d with toSession := rest }) a k r c era) := by
  change execResultTake (some d) s = _
  simp only [execResultTake, h]

theorem exec_liveReport_live {d : DomainId} {c : LiveChange} {era : Nat} {rest : List DomainReport}
    (h : (s.domain d).toSession = .live a c era :: rest) (hera : s.session.era ≤ era) : exec (.liveReport d) s =
      .next (applyLive (s.setDomain d { s.domain d with toSession := rest }) a c) := by
  change execLiveReport d s = _
  simp only [execLiveReport, h]
  exact congrArg _ (if_neg (Nat.not_lt.mpr hera))

theorem exec_liveReport_lost {d : DomainId} {m era : Nat} {rest : List DomainReport}
    (h : (s.domain d).toSession = .lost a m era :: rest) (hera : s.session.era ≤ era) : exec (.liveReport d) s =
      .next (postCondition (applyLive (s.setDomain d { s.domain d with toSession := rest }) a (.subtract m)) a (.lost d)) := by
  change execLiveReport d s = _
  simp only [execLiveReport, h]
  exact congrArg _ (if_neg (Nat.not_lt.mpr hera))

end Results

/-- Settles O30: a result by `takeResult`, a live report by `applyLive`. -/
theorem resultsAndLiveReports : Obligations.ResultsAndLiveReports := by
  refine ⟨fun s d a k r c era rest p hhead hp => ?result, fun s a tag holder r hp hroom => ?handoff,
    fun s d a c era rest hhead hera => ?live, fun s d a m era rest hhead hera => ?lost⟩
  case result =>
    intro u live x
    have hlive : live = liveAfter c (s.agent a).live := by
      unfold live
      rcases c with _ | _ | _ | m <;> rfl
    have hexec : exec (.resultTake (some d)) s = .next (takeResult u a k r c era) := exec_resultTake hhead
    have hx : (u.setAgent a x).agent a = x := setAgent_agent_same ..
    have hx' : x = { s.agent a with live := liveAfter c (s.agent a).live } := by rw [← hlive]
    have hcurrent (hera : s.session.era ≤ era) :
        takeResult u a k r c era = handResponse (u.setAgent a x) a { p with stamp := k } r :=
      hx' ▸ takeResult_current (s := u) hera hp
    refine ⟨fun hera => ?_, fun hera hk => ?_, fun hera hk hroom => ?_, fun hera hk hfull => ?_⟩
    · rw [hexec, takeResult_stale (s := u) hera]
    · rw [hexec, hcurrent hera, handResponse_foreign (s := u.setAgent a x) (hx.symm ▸ hk), hx, setAgent_setAgent]
    · rw [hexec, hcurrent hera, handResponse_room (s := u.setAgent a x) (hx.symm ▸ hk) hroom, hx, setAgent_setAgent]
      rfl
    · rw [hexec, hcurrent hera, handResponse_full (s := u.setAgent a x) (hx.symm ▸ hk) hfull, hx, setAgent_setAgent]
  case handoff =>
    change execResponseHandoff a s = _
    simp only [execResponseHandoff, hp]
    exact congrArg _ (handResponse_room rfl hroom r)
  case live =>
    rw [exec_liveReport_live hhead hera]
    cases c <;> rfl
  case lost =>
    rw [exec_liveReport_lost hhead hera]
    rfl

/-! ### Lease expiry and reads (R88, R95, R103) -/

/-- The reclaim sent once the agent has left ONLINE. -/
theorem sendReclaim_endSession (s : State) (n : AgentId) (st : AgentState) : sendReclaim (endSession s n st) n =
    (sendReclaim s n).setAgent n { s.agent n with
      state := st, leaseClass := none, leaseDeadline := none, reclaims := (s.agent n).reclaims + 1 } := by
  unfold sendReclaim endSession
  rw [setAgent_agent_same]
  simp [State.setAgent, State.setNotice, State.noticeAgent]

theorem due_iff (now deadline : Time) : due now deadline = true ↔ (now - deadline).toNat < 2 ^ 31 := by
  simp [due]

theorem due_at_or_after (deadline : Time) {k : Nat} (hk : k < 2 ^ 31) : due (deadline + BitVec.ofNat 32 k) deadline = true := by
  rw [due_iff]
  have hsub : deadline + BitVec.ofNat 32 k - deadline = BitVec.ofNat 32 k := by bv_omega
  rw [hsub, BitVec.toNat_ofNat]
  omega

theorem due_before (now : Time) {k : Nat} (hpos : 0 < k) (hk : k ≤ 2 ^ 31) : due now (now + BitVec.ofNat 32 k) = false := by
  rw [← Bool.not_eq_true, due_iff]
  bv_omega

/-- Settles O31: the deadline by `due`, the reads by the entry they name. -/
theorem leaseExpiryAndReads : Obligations.LeaseExpiryAndReads := by
  refine ⟨fun s n deadline hon hdeadline => ⟨fun k hk htime => ?due, fun k hpos hk htime => ?before⟩,
    fun s k a rest hread => ?gate, fun s d a hread => ?post⟩
  case due =>
    change execLeaseExpiry n s = _
    have hdue : (s.agent n).state = .online ∧ dueAt s.time (s.agent n).leaseDeadline := by
      rw [hdeadline, htime]
      exact ⟨hon, due_at_or_after deadline hk⟩
    rw [execLeaseExpiry, if_pos hdue, sendReclaim_endSession]
    simp [postCondition, reportSession, State.setAgent, sendReclaim]
  case before =>
    change execLeaseExpiry n s = _
    have hnot : ¬((s.agent n).state = .online ∧ dueAt s.time (s.agent n).leaseDeadline) := by
      rw [hdeadline, htime, dueAt, due_before s.time hpos hk]
      simp
    rw [execLeaseExpiry, if_neg hnot]
  case gate =>
    change execAgentStateRead .gate s = _
    simp only [execAgentStateRead, hread]
    rfl
  case post =>
    change execAgentStateRead (.post d) s = _
    simp only [execAgentStateRead, hread]

end Sys2Proof.Machine
end

section
/-! The gate: the decision of a CHECK by its domain, the way of messages through the gate unit, and the words on GD_IN and the links
(06, 08 8.9). -/

set_option Elab.async false

namespace Sys2Proof.Machine

/-! ### The decision of a CHECK (R119 to R124) -/

/-- An event of a domain that leaves the pool as it is, and the domain's state. -/
theorem withTable_sameState {s : State} {d : DomainId} {x : Domain} (h : x.state = (s.domain d).state) :
    s.withTable d ⟨x, s.pool⟩ = s.setDomain d x :=
  putTable_pool_eq_withTable (by rw [h]; exact (em _).symm)

/-- The loss of a record by an event of a domain that serves (R7). -/
theorem quarantine_report (e : DomainEnv) (i : SlotId) {t : LockTable} (h : t.dom.serves = true) :
    quarantine (report e .recordUncorrectable none (some i) none t) = ⟨t.dom.quarantinedBy e.id i e.now, t.pool⟩ :=
  if_pos h

section Decide

variable {e : DomainEnv} {p : PresentedCheck} {t : LockTable}

/-- The pages of the CHECK lie in the domain. -/
def Domain.hasPages (x : Domain) (c : Check) : Prop :=
  x.holds c.first = true ∧ c.first.toNat + c.extra.toNat ≤ x.limit.toNat

theorem lastPage_checkPages (c : Check) : lastPage c.first (checkPages c) = c.first.toNat + c.extra.toNat := by
  simp [lastPage, checkPages]

theorem hasPages_iff (x : Domain) (c : Check) :
    (!x.holds c.first || decide (x.limit.toNat < lastPage c.first (checkPages c))) = false ↔ x.hasPages c := by
  rw [lastPage_checkPages]
  simp [Domain.hasPages]

theorem decideCheck_outside (h : ¬ t.dom.hasPages p.check) : decideCheck e p t = (.refused .noDomain, t) :=
  if_pos (by rwa [← hasPages_iff, Bool.not_eq_false] at h)

section Inside

variable (hpages : t.dom.hasPages p.check)
include hpages

theorem decideCheck_unavailable (h : t.dom.unavailable = true) : decideCheck e p t = (.refused .domainUnavailable, t) := by
  simp only [decideCheck, (hasPages_iff _ _).mpr hpages, h, if_true]
  rfl

section Serving

variable (hserves : t.dom.unavailable = false)
include hserves

theorem decideCheck_untracked (htoken : p.check.token = 0) (hkind : p.check.kind = .read) (hpolicy : t.dom.policy = .writeGuarded) :
    decideCheck e p t = (.admitUntracked, t) := by
  simp [decideCheck, (hasPages_iff _ _).mpr hpages, hserves, htoken, hkind, hpolicy]

theorem decideCheck_noToken (htoken : p.check.token = 0) (h : p.check.kind = .write ∨ t.dom.policy = .guarded) :
    decideCheck e p t = (.refused .token, t) := by
  have hnot : ¬(p.check.kind = .read ∧ t.dom.policy = .writeGuarded) := by
    rintro ⟨hk, hp⟩
    simp [hk, hp] at h
  simp [decideCheck, (hasPages_iff _ _).mpr hpages, hserves, htoken, hnot]

variable (htoken : p.check.token ≠ 0)
include htoken

theorem decideCheck_agent (h : p.state ≠ .online) : decideCheck e p t = (.refused .agent, t) := by
  simp only [decideCheck, (hasPages_iff _ _).mpr hpages, hserves, htoken, h, ne_eq, not_false_eq_true, Bool.false_eq_true, if_true,
    if_false]

variable (honline : p.state = .online)
include honline

theorem decideCheck_epoch (h : p.check.epoch ≠ p.epoch) : decideCheck e p t = (.refused .epoch, t) := by
  simp only [decideCheck, (hasPages_iff _ _).mpr hpages, hserves, htoken, honline, h, ne_eq, not_true, not_false_eq_true, Bool.false_eq_true,
    if_true, if_false]

variable (hepoch : p.check.epoch = p.epoch)
include hepoch

theorem decideCheck_unmapped (h : tokenSlot p.check.token t.dom.tokenMap = none) : decideCheck e p t = (.refused .token, t) := by
  simp only [decideCheck, (hasPages_iff _ _).mpr hpages, hserves, htoken, honline, hepoch, h, ne_eq, not_true, Bool.false_eq_true,
    if_false]

variable {i : SlotId} (hslot : tokenSlot p.check.token t.dom.tokenMap = some i)
include hslot

theorem decideCheck_lost (h : (poolGet t.pool i).health = .manyBits) : decideCheck e p t =
    (.refused .domainUnavailable, quarantine (report e .recordUncorrectable none (some i) none t)) := by
  simp only [decideCheck, (hasPages_iff _ _).mpr hpages, hserves, htoken, honline, hepoch, hslot, readRecord_lost e h,
    ne_eq, not_true, Bool.false_eq_true, if_false]

theorem decideCheck_read (h : (poolGet t.pool i).health = .clean) :
    decideCheck e p t = checkRecord p.check i (recordOf t.pool i) t := by
  simp only [decideCheck, (hasPages_iff _ _).mpr hpages, hserves, htoken, honline, hepoch, hslot, readRecord_clean e h,
    ne_eq, not_true, Bool.false_eq_true, if_false]

end Serving

end Inside

/-! ### The checks against the record (R123, R124) -/

section Against

variable {c : Check} {i : SlotId} {r : Record}

/-- The record covers the pages of the CHECK. -/
def Record.covers (r : Record) (c : Check) : Prop :=
  r.first.toNat ≤ c.first.toNat ∧ c.first.toNat + c.extra.toNat ≤ lastPage r.first r.count

theorem covers_iff : ¬(c.first.toNat < r.first.toNat ∨ lastPage r.first r.count < lastPage c.first (checkPages c)) ↔
    r.covers c := by
  rw [lastPage_checkPages]
  simp [Record.covers]

theorem checkRecord_owner (h : r.owner ≠ c.agent) : checkRecord c i r t = (.refused .owner, t) := if_pos h

variable (howner : r.owner = c.agent)
include howner

theorem checkRecord_mode (hk : c.kind = .write) (hm : r.mode = .shared) : checkRecord c i r t = (.refused .mode, t) := by
  simp [checkRecord, howner, hk, hm]

variable (hmode : c.kind = .read ∨ r.mode = .exclusive)
include hmode

theorem checkRecord_cover (h : ¬ r.covers c) : checkRecord c i r t = (.refused .cover, t) := by
  have hnot : ¬(c.kind = .write ∧ r.mode = .shared) := by rcases hmode with h | h <;> simp [h]
  rw [← covers_iff, not_not] at h
  simp only [checkRecord, howner, hnot, h, ne_eq, not_true, if_false, if_true]

variable (hcovers : r.covers c)
include hcovers

theorem checkRecord_full (h : 63 ≤ inFlight r c.kind) : checkRecord c i r t = (.refused .countFull, t) := by
  have hnot : ¬(c.kind = .write ∧ r.mode = .shared) := by rcases hmode with h | h <;> simp [h]
  rw [← covers_iff] at hcovers
  simp only [checkRecord, howner, hnot, hcovers, ne_eq, not_true, if_false, Config.maxInFlight, h, if_true]

theorem checkRecord_admitted (h : inFlight r c.kind < 63) : checkRecord c i r t =
    (.admitted ⟨c.kind, handleOf t.pool i⟩, setRecord i (withInFlight r c.kind (inFlight r c.kind + 1)) t) := by
  have hnot : ¬(c.kind = .write ∧ r.mode = .shared) := by rcases hmode with h | h <;> simp [h]
  rw [← covers_iff] at hcovers
  simp only [checkRecord, howner, hnot, hcovers, ne_eq, not_true, if_false, Config.maxInFlight, Nat.not_le.mpr h]

end Against

theorem tokenSlot_none {k : Token} {m : List (Token × SlotId)} (h : ∀ x ∈ m, x.1 ≠ k) : tokenSlot k m = none := by
  have hfind : m.find? (fun x => x.1 == k) = none := List.find?_eq_none.mpr fun x hx => by simp [h x hx]
  rw [tokenSlot, hfind]
  rfl

theorem tokenSlot_append {k : Token} {pre : List (Token × SlotId)} (h : ∀ x ∈ pre, x.1 ≠ k) (i : SlotId)
    (post : List (Token × SlotId)) : tokenSlot k (pre ++ (k, i) :: post) = some i := by
  have hpre : pre.find? (fun x => x.1 == k) = none := List.find?_eq_none.mpr fun x hx => by simp [h x hx]
  simp [tokenSlot, List.find?_append, hpre]

end Decide

section Exec

variable {s : State} {d : DomainId} {p : PresentedCheck} {rest : List PresentedCheck}

/-- The table of a domain that has taken the CHECK at the head of those presented to it. -/
def takenCheck (s : State) (d : DomainId) (rest : List PresentedCheck) : LockTable :=
  ⟨{ s.domain d with checks := rest }, s.pool⟩

theorem exec_check (h : (s.domain d).checks = p :: rest) {v : Verdict} {t : LockTable}
    (hv : decideCheck (envOf s d) p (takenCheck s d rest) = (v, t)) : exec (.check (some d)) s =
      .next (s.withTable d ⟨{ t.dom with verdicts := t.dom.verdicts ++ [(p.place, v)] }, t.pool⟩) := by
  have htail : { (s.table d) with dom := { (s.table d).dom with checks := (s.table d).dom.checks.tail } } = takenCheck s d rest := by
    simp [takenCheck, State.table, h]
  change execCheck (some d) s = _
  simp only [execCheck, h, takeCheck, htail, hv]

theorem exec_check_kept (h : (s.domain d).checks = p :: rest) {v : Verdict}
    (hv : decideCheck (envOf s d) p (takenCheck s d rest) = (v, takenCheck s d rest)) : exec (.check (some d)) s =
      .next (s.setDomain d { s.domain d with checks := rest, verdicts := (s.domain d).verdicts ++ [(p.place, v)] }) := by
  rw [exec_check h hv]
  exact congrArg _ (withTable_sameState rfl)

end Exec

theorem serving_available {x : Domain} (h : x.state = .enabled ∨ x.state = .closing) :
    x.unavailable = false ∧ x.serves = true := by
  rcases h with h | h <;> simp [Domain.unavailable, Domain.serves, h]

/-- Settles O43: each check of the decision, and then of the record, by the ones before it. -/
theorem checkDecision : Obligations.CheckDecision := by
  refine ⟨fun s d p rest hchecks => ?domain, fun s p rest hchecks => ?none⟩
  case none =>
    change execCheck none s = _
    simp only [execCheck, hchecks]
  case domain =>
    intro x c verdict decided inside
    have hdecided {v : Verdict} (hv : decideCheck (envOf s d) p (takenCheck s d rest) = (v, takenCheck s d rest)) : decided v :=
      exec_check_kept hchecks hv
    refine ⟨fun hout => hdecided (decideCheck_outside hout), fun hin hun => hdecided (decideCheck_unavailable hin ?_),
      fun hin hst => ?serving⟩
    · rcases hun with hun | hun <;> simp [Domain.unavailable, takenCheck, x, hun] at hun ⊢
    case serving =>
      obtain ⟨hav, hserves⟩ := serving_available hst
      refine ⟨fun h0 hk hp => hdecided (decideCheck_untracked hin hav h0 hk hp),
        fun h0 hk => hdecided (decideCheck_noToken hin hav h0 hk),
        fun h0 ho => hdecided (decideCheck_agent hin hav h0 ho),
        fun h0 ho he => hdecided (decideCheck_epoch hin hav h0 ho he),
        fun h0 ho he => ⟨fun hnone => hdecided (decideCheck_unmapped hin hav h0 ho he (tokenSlot_none hnone)),
          fun pre post i hmap hpre => ?mapped⟩⟩
      case mapped =>
        have hslot : tokenSlot c.token (takenCheck s d rest).dom.tokenMap = some i := by
          change tokenSlot c.token x.tokenMap = some i
          rw [hmap]
          exact tokenSlot_append hpre i post
        intro r covers
        refine ⟨fun hlost => ?lost, fun hclean => ?clean⟩
        case lost =>
          have hread := decideCheck_lost (e := envOf s d) (t := takenCheck s d rest) hin hav h0 ho he hslot hlost
          rw [quarantine_report _ _ hserves] at hread
          refine ⟨_, exec_check hchecks hread, ?_⟩
          rw [withTable_putTable _ _ _ _ (.inl (by simp [Domain.quarantinedBy]))]
          simp only [State.putTable, State.domain, look_put_same]
          exact ⟨rfl, rfl, rfl⟩
        case clean =>
          have hread := decideCheck_read (e := envOf s d) (t := takenCheck s d rest) hin hav h0 ho he hslot hclean
          have hrecord {v : Verdict} (hv : checkRecord c i r (takenCheck s d rest) = (v, takenCheck s d rest)) : decided v :=
            hdecided (hread.trans hv)
          refine ⟨fun hown => hrecord (checkRecord_owner hown), fun hown hk hm => hrecord (checkRecord_mode hown hk hm),
            fun hown hmode => ⟨fun hcov => hrecord (checkRecord_cover hown hmode hcov),
              fun hcov hfull => hrecord (checkRecord_full hown hmode hcov hfull), fun hcov hroom hwf => ?admitted⟩⟩
          case admitted =>
            refine ⟨_, (exec_check hchecks (hread.trans (checkRecord_admitted hown hmode hcov hroom))).trans
              (congrArg _ (withTable_putTable _ _ _ _ ?_)), onlySlot_writeRecord s.pool i _, ?_⟩
            · rcases hst with h | h <;> exact .inl (by simp [setRecord, takenCheck, show (s.domain d).state = _ from h])
            · refine (poolGet_writeRecord hwf i i _).trans ?_
              rw [if_pos rfl, ← hclean]
              rfl

/-! ### Acceptance on GD_IN (R116, R163) -/

section Accept

variable {g : GateUnit}

theorem acceptFrom_room {m : GateMsg} (h : g.hasRoom m = true) (rest : List GateMsg) :
    acceptFrom g (m :: rest) = acceptFrom (g.append m) rest := if_pos h

theorem acceptFrom_full {m : GateMsg} (h : g.hasRoom m = false) (rest : List GateMsg) :
    acceptFrom g (m :: rest) = { g with port := m :: rest } := if_neg (by simp [h])

theorem settle_idle (h : g.port = []) : g.settle = g := by
  simp only [GateUnit.settle, h, acceptFrom]
  rw [← h]

theorem offer_room (h : g.port = []) {m : GateMsg} (hroom : g.hasRoom m = true) : g.offer m = g.append m := by
  rw [GateUnit.offer, h, List.nil_append, acceptFrom_room hroom]
  have hport : (g.append m).port = [] := by cases m <;> exact h
  simp only [acceptFrom]
  rw [← hport]

theorem offer_full (h : g.port = []) {m : GateMsg} (hroom : g.hasRoom m = false) : g.offer m = { g with port := [m] } := by
  rw [GateUnit.offer, h, List.nil_append, acceptFrom_full hroom]

/-- A message behind one that waits for a place waits with it. -/
theorem offer_behind {w : GateMsg} {rest : List GateMsg} (h : g.port = w :: rest) (hw : g.hasRoom w = false) (m : GateMsg) :
    g.offer m = { g with port := g.port ++ [m] } := by
  rw [GateUnit.offer, h, List.cons_append, acceptFrom_full hw]

theorem hasRoom_check_iff (c : Check) : g.hasRoom (.check c) = true ↔ g.checkQueue.length < 16 :=
  decide_eq_true_iff (p := g.checkQueue.length < Config.gatePlaces)

theorem hasRoom_done_iff (m : Done) : g.hasRoom (.done m) = true ↔ g.doneQueue.length < 16 :=
  decide_eq_true_iff (p := g.doneQueue.length < Config.gatePlaces)

theorem hasRoom_check_full {c : Check} (h : 16 ≤ g.checkQueue.length) : g.hasRoom (.check c) = false := by
  rw [← Bool.not_eq_true, hasRoom_check_iff]
  omega

theorem hasRoom_done_full {m : Done} (h : 16 ≤ g.doneQueue.length) : g.hasRoom (.done m) = false := by
  rw [← Bool.not_eq_true, hasRoom_done_iff]
  omega

theorem exec_checkAccept (s : State) (c : Check) : exec (.checkAccept c) s = .next (s.setGate (s.gate.offer (.check c))) := rfl

theorem exec_doneAccept (s : State) (m : Done) : exec (.doneAccept m) s = .next (s.setGate (s.gate.offer (.done m))) := rfl

end Accept

/-! ### The queues of the gate unit (R117, R118, R119, R126) -/

section Queues

variable {s : State}

theorem undecided_append {k : Nat} {pre post : List Place} {c : Check} (h : ∀ p ∈ pre, p.number ≠ k) :
    undecided k (pre ++ ⟨k, c, none⟩ :: post) = some c := by
  have hpre : pre.find? (fun p => p.number == k && p.verdict.isNone) = none :=
    List.find?_eq_none.mpr fun p hp => by simp [h p hp]
  simp [undecided, List.find?_append, hpre]

theorem placeVerdict_other {k : Nat} {q : List Place} (v : Verdict) (h : ∀ p ∈ q, p.number ≠ k) : placeVerdict k v q = q := by
  unfold placeVerdict
  conv_rhs => rw [← List.map_id q]
  exact List.map_congr_left fun p hp => if_neg fun g => h p hp g.1

theorem placeVerdict_append {k : Nat} {pre post : List Place} {c : Check} {w : Option Verdict} (v : Verdict)
    (hpre : ∀ p ∈ pre, p.number ≠ k) (hpost : ∀ p ∈ post, p.number ≠ k) :
    placeVerdict k v (pre ++ ⟨k, c, w⟩ :: post) = pre ++ ⟨k, c, some (w.getD v)⟩ :: post := by
  have hsplit : placeVerdict k v (pre ++ ⟨k, c, w⟩ :: post) =
      placeVerdict k v pre ++ placeVerdict k v [⟨k, c, w⟩] ++ placeVerdict k v post := by simp [placeVerdict]
  rw [hsplit, placeVerdict_other v hpre, placeVerdict_other v hpost]
  cases w <;> simp [placeVerdict]

theorem exec_checkPresent {k : Nat} {st : AgentState} {epoch : Word} {rest : List (Nat × AgentState × Word)}
    (h : s.gate.answers = (k, st, epoch) :: rest) {c : Check} (hc : undecided k s.gate.verdictQueue = some c) :
    (∀ d, holderOf s c.first = some d → exec .checkPresent s =
      .next ((s.setGate { s.gate with answers := rest }).setDomain d { s.domain d with
        checks := (s.domain d).checks ++ [⟨k, c, st, epoch⟩] })) ∧
    (holderOf s c.first = none → exec .checkPresent s = .next { s.setGate { s.gate with answers := rest } with
      noDomain := { s.noDomain with checks := s.noDomain.checks ++ [⟨k, c, st, epoch⟩] } }) := by
  have hholder (p : Page) : holderOf (s.setGate { s.gate with answers := rest }) p = holderOf s p := rfl
  refine ⟨fun d hd => ?_, fun hd => ?_⟩
  all_goals
    change execCheckPresent s = _
    simp only [execCheckPresent, h, setGate_gate, hc, hholder, hd]
    rfl

theorem exec_doneDispatch {m : Done} {rest : List Done} (hport : s.gate.port = []) (h : s.gate.doneQueue = m :: rest) :
    (m = .null → exec .doneDispatch s = .next (s.setGate { s.gate with doneQueue := rest })) ∧
    ∀ k, m = .ticket k →
      (ownerOf s k.handle.slot = none → exec .doneDispatch s = .next (s.setGate { s.gate with doneQueue := rest })) ∧
      ∀ d, ownerOf s k.handle.slot = some d → exec .doneDispatch s =
        .next ((s.setGate { s.gate with doneQueue := rest }).setDomain d { s.domain d with
          dones := (s.domain d).dones ++ [k] }) := by
  have hsettle : ({ s.gate with doneQueue := rest } : GateUnit).settle = { s.gate with doneQueue := rest } := settle_idle hport
  have howner (i : SlotId) : ownerOf (s.setGate { s.gate with doneQueue := rest }) i = ownerOf s i := rfl
  refine ⟨?_, fun k => ?_⟩
  · rintro rfl
    change execDoneDispatch s = _
    simp only [execDoneDispatch, h, hsettle]
  · rintro rfl
    refine ⟨fun hk => ?_, fun d hk => ?_⟩
    all_goals
      change execDoneDispatch s = _
      simp only [execDoneDispatch, h, hsettle, howner, hk]
    rfl

end Queues

/-- Settles O50: acceptance by `hasRoom`, then each command of the gate unit on its queue. -/
theorem theWayThroughTheGate : Obligations.TheWayThroughTheGate := by
  refine ⟨fun s => ⟨fun c => ⟨fun hport hroom => ?_, fun hport hfull => ?_⟩,
    fun m => ⟨fun hport hroom => ?_, fun hport hfull => ?_, fun b rest hport hfull => ?_⟩,
    fun w rest hport hw => ⟨fun c => ?_, fun m => ?_⟩, hasRoom_check_iff, hasRoom_done_iff, fun w => rfl⟩,
    fun s hport => ⟨fun c rest hqueue hroom => ⟨fun hmode => ?setup, fun hmode => ?active⟩, fun hfull => ?full,
      fun k st epoch rest pre post c hanswers hqueue hpre => exec_checkPresent hanswers (hqueue ▸ undecided_append hpre),
      fun d k v rest pre post c w hv hqueue hpre hpost => ?place,
      fun k v rest pre post c w hv hqueue hpre hpost => ?placeNone,
      fun k c rest => ⟨fun v hqueue => ?accept, fun hqueue => ?undecided⟩, fun m rest hqueue => exec_doneDispatch hport hqueue⟩⟩
  · rw [exec_checkAccept, offer_room hport ((hasRoom_check_iff c).mpr hroom)]
    rfl
  · rw [exec_checkAccept, offer_full hport (hasRoom_check_full hfull)]
    rfl
  · rw [exec_doneAccept, offer_room hport ((hasRoom_done_iff m).mpr hroom)]
    rfl
  · rw [exec_doneAccept, offer_full hport (hasRoom_done_full hfull)]
    rfl
  · rw [exec_doneAccept, offer_behind hport (hasRoom_check_full hfull)]
    rfl
  · rw [exec_checkAccept, offer_behind hport hw]
    rfl
  · rw [exec_doneAccept, offer_behind hport hw]
    rfl
  case setup | active =>
    change execCheckTake s = _
    simp only [execCheckTake, hqueue, Config.gatePlaces, hroom, if_true, hmode]
    rw [settle_idle (by exact hport)]
    rfl
  case full =>
    change execCheckTake s = _
    cases hqueue : s.gate.checkQueue with
    | nil =>
      simp only [execCheckTake, hqueue, settle_idle hport]
      rfl
    | cons c rest => simp only [execCheckTake, hqueue, Config.gatePlaces, Nat.not_lt.mpr hfull, if_false]
  case place =>
    change execVerdictPlace (some d) s = _
    simp only [execVerdictPlace, hv, hqueue, placeVerdict_append v hpre hpost]
    rfl
  case placeNone =>
    change execVerdictPlace none s = _
    simp only [execVerdictPlace, hv, hqueue, placeVerdict_append v hpre hpost]
  case accept =>
    change execVerdictAccept s = _
    simp only [execVerdictAccept, GateUnit.offered, hqueue, List.tail_cons]
    rfl
  case undecided =>
    change execVerdictAccept s = _
    simp only [execVerdictAccept, GateUnit.offered, hqueue]

end Sys2Proof.Machine
end

section
/-! The words on the pins (08 8.9): what the fields of a word built by `place` read back, the words presented on GD_IN, and the words of
a frame received on a link line. -/

set_option Elab.async false

namespace Sys2Proof.Machine

/-! ### Fields of a word (08 8.9) -/

theorem getLsbD_place (x lo i : Nat) :
    (place x lo).getLsbD i = (decide (i < 32) && decide (lo ≤ i) && x.testBit (i - lo)) := by
  rw [place, BitVec.getLsbD_shiftLeft, BitVec.getLsbD_ofNat]
  by_cases hlo : lo ≤ i
  · by_cases h32 : i < 32
    · simp [h32, hlo, show i - lo < 32 by omega]
    · simp [h32]
  · simp [hlo]

/-- The field into which a number was placed. -/
theorem extract_place_at {x lo len : Nat} (h : lo + len ≤ 32) : (place x lo).extractLsb' lo len = BitVec.ofNat len x := by
  apply BitVec.eq_of_getLsbD_eq
  intro i hi
  rw [BitVec.getLsbD_extractLsb', getLsbD_place, BitVec.getLsbD_ofNat]
  simp [hi, show lo + i < 32 by omega]

/-- A field below the number placed. -/
theorem extract_place_above {x lo start len : Nat} (h : start + len ≤ lo) : (place x lo).extractLsb' start len = 0#len := by
  apply BitVec.eq_of_getLsbD_eq
  intro i hi
  rw [BitVec.getLsbD_extractLsb', getLsbD_place]
  simp [show ¬ lo ≤ start + i by omega]

/-- A field above the number placed. -/
theorem extract_place_below {x lo start len : Nat} (k : Nat) (hx : x < 2 ^ k) (h : lo + k ≤ start) :
    (place x lo).extractLsb' start len = 0#len := by
  apply BitVec.eq_of_getLsbD_eq
  intro i hi
  have hbit : x.testBit (start + i - lo) = false :=
    Nat.testBit_lt_two_pow (lt_of_lt_of_le hx (Nat.pow_le_pow_right (by omega) (by omega)))
  rw [BitVec.getLsbD_extractLsb', getLsbD_place, hbit]
  simp

theorem getLsbD_eq_extract (w : Word) (i : Nat) : w.getLsbD i = decide (w.extractLsb' i 1 = 1#1) := by
  rw [← Bool.coe_iff_coe]
  simp only [decide_eq_true_eq]
  constructor
  · intro h
    apply BitVec.eq_of_getLsbD_eq
    intro j hj
    obtain rfl : j = 0 := by omega
    simp [h]
  · intro h
    have := congrArg (fun v : BitVec 1 => v.getLsbD 0) h
    simpa [BitVec.getLsbD_extractLsb'] using this

/-! ### The words of a CHECK and of a DONE (R163, R164) -/

theorem accessBit_lt (k : AccessKind) : accessBit k < 2 ^ 1 := by cases k <;> decide

theorem tokenHigh_lt (k : Token) : k.toNat / 2 ^ 32 < 2 ^ 8 := by
  have := k.isLt
  omega

/-- The fields of the first word of a CHECK. -/
theorem checkHead_fields (c : Check) : (checkHead c).extractLsb' 28 4 = 1#4 ∧
    (checkHead c).extractLsb' 24 4 = BitVec.ofNat 4 c.agent.val ∧
    (checkHead c).extractLsb' 23 1 = BitVec.ofNat 1 (accessBit c.kind) ∧
    (checkHead c).extractLsb' 8 8 = BitVec.ofNat 8 (c.token.toNat / 2 ^ 32) ∧
    (checkHead c).extractLsb' 0 8 = BitVec.ofNat 8 c.extra.toNat := by
  have hagent : c.agent.val < 2 ^ 4 := c.agent.isLt
  have hkind := accessBit_lt c.kind
  have htoken := tokenHigh_lt c.token
  have hextra : c.extra.toNat < 2 ^ 8 := c.extra.isLt
  refine ⟨?_, ?_, ?_, ?_, ?_⟩ <;> simp only [checkHead, BitVec.extractLsb'_or]
  · rw [extract_place_at (by omega), extract_place_below 4 hagent (by omega), extract_place_below 1 hkind (by omega),
      extract_place_below 8 htoken (by omega), extract_place_below 8 hextra (by omega)]
    simp
  · rw [extract_place_above (by omega), extract_place_at (by omega), extract_place_below 1 hkind (by omega),
      extract_place_below 8 htoken (by omega), extract_place_below 8 hextra (by omega)]
    simp
  · rw [extract_place_above (by omega), extract_place_above (by omega), extract_place_at (by omega),
      extract_place_below 8 htoken (by omega), extract_place_below 8 hextra (by omega)]
    simp
  · rw [extract_place_above (by omega), extract_place_above (by omega), extract_place_above (by omega), extract_place_at (by omega),
      extract_place_below 8 hextra (by omega)]
    simp
  · rw [extract_place_above (by omega), extract_place_above (by omega), extract_place_above (by omega),
      extract_place_above (by omega), extract_place_at (by omega)]
    simp

theorem accessOf_accessBit (k : AccessKind) : accessOf (decide (BitVec.ofNat 1 (accessBit k) = 1#1)) = k := by
  cases k <;> decide

theorem token_parts (k : Token) : BitVec.ofNat 8 (k.toNat / 2 ^ 32) ++ tokenLow k = k := by
  apply BitVec.eq_of_toNat_eq
  have := k.isLt
  rw [BitVec.toNat_append, tokenLow, BitVec.toNat_setWidth, BitVec.toNat_ofNat, Nat.mod_eq_of_lt (tokenHigh_lt k),
    ← Nat.shiftLeft_add_eq_or_of_lt (by omega), Nat.shiftLeft_eq]
  omega

theorem decodeCheck_words (c : Check) : decodeCheck (checkHead c) c.epoch (tokenLow c.token) c.first = c := by
  obtain ⟨-, hagent, hkind, htoken, hextra⟩ := checkHead_fields c
  have hn : c.agent.val % 2 ^ 4 = c.agent.val := Nat.mod_eq_of_lt c.agent.isLt
  have hcode : Fin.ofNat 16 c.agent.val = c.agent := Fin.ext (Nat.mod_eq_of_lt c.agent.isLt)
  simp only [decodeCheck, field, getLsbD_eq_extract, hagent, hkind, htoken, hextra, accessOf_accessBit, token_parts,
    BitVec.toNat_ofNat, hn, hcode, BitVec.ofNat_toNat, BitVec.setWidth_eq]

/-- A handle field reads back whatever stands above it. -/
theorem handleField_or {w : Word} (hlow : w.extractLsb' 0 8 = 0#8) (hslot : w.extractLsb' 8 12 = 0#12) (h : Handle) :
    handleField (w ||| handleWord h) = h := by
  have hs : h.slot.val < 2 ^ 12 := h.slot.isLt
  have hg : h.gen.toNat < 2 ^ 8 := h.gen.isLt
  have hslotField : (w ||| handleWord h).extractLsb' 8 12 = BitVec.ofNat 12 h.slot.val := by
    simp only [handleWord, BitVec.extractLsb'_or, hslot]
    rw [extract_place_at (by omega), extract_place_below 8 hg (by omega)]
    simp
  have hgenField : (w ||| handleWord h).extractLsb' 0 8 = BitVec.ofNat 8 h.gen.toNat := by
    simp only [handleWord, BitVec.extractLsb'_or, hlow]
    rw [extract_place_above (by omega), extract_place_at (by omega)]
    simp
  have hcode : Fin.ofNat 4096 h.slot.val = h.slot := Fin.ext (Nat.mod_eq_of_lt h.slot.isLt)
  simp only [handleField, field, hslotField, hgenField, BitVec.toNat_ofNat, Nat.mod_eq_of_lt hs, hcode, BitVec.ofNat_toNat,
    BitVec.setWidth_eq]

theorem handleWord_high (h : Handle) {start len : Nat} (hs : 20 ≤ start) : (handleWord h).extractLsb' start len = 0#len := by
  simp only [handleWord, BitVec.extractLsb'_or]
  rw [extract_place_below 12 h.slot.isLt (by omega), extract_place_below 8 h.gen.isLt (by omega)]
  simp

theorem decodeDone_word (m : Done) : decodeDone (doneWord m) = m ∧ (doneWord m).extractLsb' 28 4 = 2#4 := by
  cases m with
  | null => decide
  | ticket t =>
    have hkind := accessBit_lt t.kind
    have hword : doneWord (.ticket t) = place 2 28 ||| place (accessBit t.kind) 23 ||| handleWord t.handle := rfl
    have hnull : (doneWord (.ticket t)).extractLsb' 22 1 = 0#1 := by
      simp only [hword, BitVec.extractLsb'_or]
      rw [extract_place_above (by omega), extract_place_above (by omega), handleWord_high _ (by omega)]
      simp
    have haccess : (doneWord (.ticket t)).extractLsb' 23 1 = BitVec.ofNat 1 (accessBit t.kind) := by
      simp only [hword, BitVec.extractLsb'_or]
      rw [extract_place_above (by omega), extract_place_at (by omega), handleWord_high _ (by omega)]
      simp
    have hhandle : handleField (doneWord (.ticket t)) = t.handle := by
      rw [hword]
      refine handleField_or ?_ ?_ t.handle <;>
        · rw [BitVec.extractLsb'_or, extract_place_above (by omega), extract_place_above (by omega)]
          simp
    refine ⟨?_, ?_⟩
    · simp only [decodeDone, getLsbD_eq_extract, hnull, haccess, hhandle, accessOf_accessBit]
      rfl
    · simp only [hword, BitVec.extractLsb'_or]
      rw [extract_place_at (by omega), extract_place_below 1 hkind (by omega), handleWord_high _ (by omega)]
      simp

/-! ### Words presented on GD_IN (R116, R163) -/

theorem field_eq {w : Word} {lo len k : Nat} (h : w.extractLsb' lo len = BitVec.ofNat len k) (hk : k < 2 ^ len) :
    field w lo len = k := by
  rw [field, h, BitVec.toNat_ofNat, Nat.mod_eq_of_lt hk]

theorem checkHead_type (c : Check) : field (checkHead c) 28 4 = 1 :=
  field_eq (k := 1) (checkHead_fields c).1 (by omega)

theorem doneWord_type (m : Done) : field (doneWord m) 28 4 = 2 :=
  field_eq (k := 2) (decodeDone_word m).2 (by omega)

theorem gateStep_type1 {w : Word} (h : field w 28 4 = 1) : gateStep [] w = ([w], []) := by
  unfold gateStep
  rw [h]
  rfl

theorem gateStep_type2 {w : Word} (h : field w 28 4 = 2) : gateStep [] w = ([], [.doneAccept (decodeDone w)]) := by
  unfold gateStep
  rw [h]
  rfl

theorem gateStep_check (c : Check) : gateStep [] (checkHead c) = ([checkHead c], []) :=
  gateStep_type1 (checkHead_type c)

theorem gateStep_done (m : Done) : gateStep [] (doneWord m) = ([], [.doneAccept m]) := by
  rw [gateStep_type2 (doneWord_type m), (decodeDone_word m).1]

theorem gateStep_fourth (w0 w1 w2 w : Word) :
    gateStep [w0, w1, w2] w = ([], [.checkAccept (decodeCheck w0 w1 w2 w)]) := rfl

theorem gateStep_last (c : Check) : gateStep [checkHead c, c.epoch, tokenLow c.token] c.first = ([], [.checkAccept c]) := by
  rw [gateStep_fourth, decodeCheck_words]

theorem gateStep_other {w : Word} (h : discardTypeOk w = true) : gateStep [] w = ([], [.gateWordDiscard w]) := by
  have htype : w.extractLsb' 28 4 ≠ 1#4 ∧ w.extractLsb' 28 4 ≠ 2#4 := by simpa [discardTypeOk] using h
  have h1 : field w 28 4 ≠ 1 := fun g => htype.1 (BitVec.eq_of_toNat_eq (g.trans (by decide)))
  have h2 : field w 28 4 ≠ 2 := fun g => htype.2 (BitVec.eq_of_toNat_eq (g.trans (by decide)))
  unfold gateStep
  match hk : field w 28 4 with
  | 0 => rfl
  | 1 => exact absurd hk h1
  | 2 => exact absurd hk h2
  | k + 3 => rfl

section Present

variable {s : State}

/-- A word that finds GD_IN_READY asserted, with nothing waiting on the port. -/
theorem presentWord_passes {w : Word} (hport : s.gate.port = []) (h : s.gate.readyFor w = true) : s.presentWord w =
    { s with gate := { s.gate with words := (gateStep s.gate.words w).1 }, pending := s.pending ++ (gateStep s.gate.words w).2 } := by
  simp only [State.presentWord, settle_idle hport, hport, h]
  rfl

theorem presentWord_waits {w : Word} (hport : s.gate.port = []) (h : s.gate.readyFor w = false) : s.presentWord w = s := by
  simp only [State.presentWord, settle_idle hport, h, Bool.and_false]
  rfl

theorem readyFor_within {g : GateUnit} (h : g.words ≠ []) (w : Word) : g.readyFor w = true := by
  simp [GateUnit.readyFor, h]

theorem readyFor_check {g : GateUnit} (h : g.words = []) (c : Check) :
    g.readyFor (checkHead c) = decide (g.checkQueue.length < 16) := by
  simp only [GateUnit.readyFor, h, checkHead_type]
  rfl

theorem readyFor_done {g : GateUnit} (h : g.words = []) (m : Done) :
    g.readyFor (doneWord m) = decide (g.doneQueue.length < 16) := by
  simp only [GateUnit.readyFor, h, doneWord_type]
  rfl

/-- The words of a CHECK within the message: held until the fourth. -/
theorem presentWord_held {held : List Word} {w : Word} (hport : s.gate.port = [])
    (hheld : gateStep held w = (held ++ [w], [])) (hne : held ≠ []) :
    ({ s with gate := { s.gate with words := held } } : State).presentWord w =
      { s with gate := { s.gate with words := held ++ [w] } } := by
  rw [presentWord_passes (by exact hport) (readyFor_within hne w), hheld]
  simp

theorem present_check (c : Check) (hwords : s.gate.words = []) (hport : s.gate.port = []) (h : s.gate.checkQueue.length < 16) :
    (checkWords c).foldl (fun u w => u.presentWord w) s = { s with pending := s.pending ++ [.checkAccept c] } := by
  have hfirst : s.presentWord (checkHead c) = { s with gate := { s.gate with words := [checkHead c] } } := by
    rw [presentWord_passes hport (by simp [readyFor_check hwords, h]), hwords, gateStep_check]
    simp
  have hlast : ({ s with gate := { s.gate with words := [checkHead c, c.epoch, tokenLow c.token] } } : State).presentWord c.first =
      { s with pending := s.pending ++ [.checkAccept c] } := by
    rw [presentWord_passes (by exact hport) (readyFor_within (by simp) _), gateStep_last]
    simp only [← hwords]
  simp only [checkWords, List.foldl_cons, List.foldl_nil, hfirst]
  rw [presentWord_held hport rfl (by simp), presentWord_held hport rfl (by simp)]
  exact hlast

end Present

/-! ### The words of a frame (R160, R161) -/

section Line

variable (n : AgentId)

theorem lineStep_start (held : List Word) (w : Word) : lineStep n held (startWord w) =
    ((startReceived n w).1, (if held.isEmpty then [] else [.corruptFrame n]) ++ (startReceived n w).2) := by
  have htag : (startWord w).extractLsb' 32 2 = 0b10#2 := BitVec.extractLsb'_append_eq_left
  have hword : (startWord w).extractLsb' 0 32 = w := BitVec.extractLsb'_append_eq_right
  simp only [lineStep, htag, hword]
  rfl

theorem lineStep_continuation (held : List Word) (w : Word) :
    lineStep n held (continuationWord w) = continuationReceived n held w := by
  have htag : (continuationWord w).extractLsb' 32 2 = 0b01#2 := BitVec.extractLsb'_append_eq_left
  have hword : (continuationWord w).extractLsb' 0 32 = w := BitVec.extractLsb'_append_eq_right
  simp only [lineStep, htag, hword]
  rfl

/-- The message words of a frame in progress are held, and the check word behind them ends it. -/
theorem lineEvents_continue (start check : Word) {acc words : List Word} (h : acc.length + words.length = dataLength start) :
    lineEvents n (start :: acc) (words.map continuationWord ++ [continuationWord check]) =
      [dataEvent n start (acc ++ words) check] := by
  induction words generalizing acc with
  | nil =>
    have hlen : acc.length = dataLength start := by simpa using h
    simp [lineEvents, lineStep_continuation, continuationReceived, hlen]
  | cons w rest ih =>
    have hlen : acc.length ≠ dataLength start := by
      simp only [List.length_cons] at h
      omega
    have hrest : (acc ++ [w]).length + rest.length = dataLength start := by
      simp only [List.length_append, List.length_cons, List.length_nil] at h ⊢
      omega
    simp only [List.map_cons, List.cons_append, lineEvents, lineStep_continuation, continuationReceived, if_neg hlen,
      List.nil_append, ih hrest, List.append_assoc]

/-- The start word of a DATA frame. -/
def dataStart (seq number : Seq) (length : Nat) : Word :=
  place 1 28 ||| place seq.toNat 22 ||| place number.toNat 16 ||| place length 12

theorem dataStart_fields (seq number : Seq) {length : Nat} (h : length ≤ 7) :
    field (dataStart seq number length) 28 4 = 1 ∧ numberField (dataStart seq number length) = seq ∧
    (dataStart seq number length).extractLsb' 16 6 = number ∧ dataLength (dataStart seq number length) = length := by
  have hseq : seq.toNat < 2 ^ 6 := seq.isLt
  have hnumber : number.toNat < 2 ^ 6 := number.isLt
  have hlength : length < 2 ^ 4 := by omega
  refine ⟨field_eq (k := 1) ?_ (by omega), ?_, ?_, field_eq ?_ hlength⟩
  · simp only [dataStart, BitVec.extractLsb'_or]
    rw [extract_place_at (by omega), extract_place_below 6 hseq (by omega), extract_place_below 6 hnumber (by omega),
      extract_place_below 4 hlength (by omega)]
    simp
  · simp only [numberField, dataStart, BitVec.extractLsb'_or]
    rw [extract_place_above (by omega), extract_place_at (by omega), extract_place_below 6 hnumber (by omega),
      extract_place_below 4 hlength (by omega)]
    simp
  · simp only [dataStart, BitVec.extractLsb'_or]
    rw [extract_place_above (by omega), extract_place_above (by omega), extract_place_at (by omega),
      extract_place_below 4 hlength (by omega)]
    simp
  · simp only [dataStart, BitVec.extractLsb'_or]
    rw [extract_place_above (by omega), extract_place_above (by omega), extract_place_above (by omega),
      extract_place_at (by omega)]
    simp

theorem dataFrameWords_eq (seq number : Seq) (words : List Word) : dataFrameWords seq number words =
    startWord (dataStart seq number words.length) :: (words.map continuationWord ++
      [continuationWord (place (dataCode (dataStart seq number words.length) words).toNat 16)]) := rfl

theorem dataEvent_own {start : Word} (words : List Word) :
    dataEvent n start words (place (dataCode start words).toNat 16) =
      .dataReceived n (numberField start) (start.extractLsb' 16 6) words := by
  have hcode : (place (dataCode start words).toNat 16).extractLsb' 16 16 = dataCode start words := by
    rw [extract_place_at (by omega)]
    simp
  exact if_pos hcode.symm

theorem lineEvents_data (seq number : Seq) {words : List Word} (h1 : 1 ≤ words.length) (h7 : words.length ≤ 7) :
    lineEvents n [] (dataFrameWords seq number words) = [.dataReceived n seq number words] := by
  obtain ⟨htype, hseq, hnumber, hlength⟩ := dataStart_fields seq number h7
  have hstart : startReceived n (dataStart seq number words.length) = ([dataStart seq number words.length], []) :=
    if_pos ⟨htype, by omega, by omega⟩
  rw [dataFrameWords_eq]
  simp only [lineEvents, lineStep_start, hstart, List.isEmpty_nil, if_true, List.nil_append]
  refine (lineEvents_continue n _ _ (by simp [hlength])).trans ?_
  rw [List.nil_append, dataEvent_own, hseq, hnumber]

/-! A frame of one word: its content stands above its check code. -/

/-- The fields above the check code are those of the content. -/
theorem single_extract (w : Word) (c : BitVec 16) {start len : Nat} (h : 16 ≤ start) :
    (w ||| c.setWidth 32).extractLsb' start len = w.extractLsb' start len := by
  have hhigh : (c.setWidth 32).extractLsb' start len = 0#len := by
    apply BitVec.eq_of_getLsbD_eq
    intro i hi
    have hbit : c.getLsbD (start + i) = false := BitVec.getLsbD_of_ge _ _ (by omega)
    simp [hbit]
  rw [BitVec.extractLsb'_or, hhigh]
  simp

/-- A received frame of one word is of the kind its content names: its check code matches. -/
theorem lineEvents_single {w : Word} (hlow : w.extractLsb' 0 16 = 0#16) (htype : field w 28 4 ≠ 1) :
    ∃ v, lineEvents n [] (singleFrame w) = [singleEvent n v] ∧ singleCode v = v.extractLsb' 0 16 ∧
      ∀ start len, 16 ≤ start → v.extractLsb' start len = w.extractLsb' start len := by
  refine ⟨w ||| (singleCode w).setWidth 32, ?_, ?_, fun start len h => single_extract w _ h⟩
  · have hfield : field (w ||| (singleCode w).setWidth 32) 28 4 = field w 28 4 := by
      rw [field, single_extract w _ (by omega), field]
    have hstart : startReceived n (w ||| (singleCode w).setWidth 32) =
        ([], [singleEvent n (w ||| (singleCode w).setWidth 32)]) := if_neg fun h => htype (hfield ▸ h.1)
    simp only [singleFrame, lineEvents, lineStep_start, hstart, List.isEmpty_nil, if_true, List.nil_append, List.append_nil]
  · have hcode : ((singleCode w).setWidth 32).extractLsb' 0 16 = singleCode w := by
      apply BitVec.eq_of_getLsbD_eq
      intro i hi
      simp [hi, show i < 32 by omega]
    have hsame : singleCode (w ||| (singleCode w).setWidth 32) = singleCode w := by
      simp only [singleCode, single_extract w _ (Nat.le_refl 16)]
    rw [BitVec.extractLsb'_or, hlow, hcode, hsame]
    simp

section Kinds

variable {n} {v w : Word} (hcode : singleCode v = v.extractLsb' 0 16)
include hcode

theorem singleEvent_idle (h : field v 28 4 = 0) : singleEvent n v = .idleReceived n := by
  unfold singleEvent
  rw [if_neg (by simp [hcode]), h]
  rfl

theorem singleEvent_ack (h : field v 28 4 = 2) : singleEvent n v = .ackReceived n (numberField v) := by
  unfold singleEvent
  rw [if_neg (by simp [hcode]), h]
  rfl

theorem singleEvent_nak (h : field v 28 4 = 3) : singleEvent n v = .nakReceived n (numberField v) := by
  unfold singleEvent
  rw [if_neg (by simp [hcode]), h]
  rfl

theorem singleEvent_resync (h : field v 28 4 = 4) :
    singleEvent n v = .resyncReceived n (numberField v) (v.getLsbD 21) := by
  unfold singleEvent
  rw [if_neg (by simp [hcode]), h]
  rfl

end Kinds

/-- The fields of the word of an ACK or a NAK. -/
theorem numberWord_fields (k : Nat) (a : Seq) : (place k 28 ||| place a.toNat 22).extractLsb' 28 4 = BitVec.ofNat 4 k ∧
    (place k 28 ||| place a.toNat 22).extractLsb' 22 6 = a ∧ (place k 28 ||| place a.toNat 22).extractLsb' 0 16 = 0#16 := by
  have ha : a.toNat < 2 ^ 6 := a.isLt
  refine ⟨?_, ?_, ?_⟩ <;> rw [BitVec.extractLsb'_or]
  · rw [extract_place_at (by omega), extract_place_below 6 ha (by omega)]
    simp
  · rw [extract_place_above (by omega), extract_place_at (by omega)]
    simp
  · rw [extract_place_above (by omega), extract_place_above (by omega)]
    simp

theorem lineEvents_ack (a : Seq) : lineEvents n [] (Frame.ack a).lineWords = [.ackReceived n a] := by
  obtain ⟨htype, hnumber, hlow⟩ := numberWord_fields 2 a
  obtain ⟨v, hevent, hcode, hv⟩ := lineEvents_single n hlow (by rw [field_eq htype (by omega)]; omega)
  have hkind : field v 28 4 = 2 := field_eq ((hv 28 4 (by omega)).trans htype) (by omega)
  rw [Frame.lineWords, hevent, singleEvent_ack hcode hkind, numberField, hv 22 6 (by omega), hnumber]

theorem lineEvents_nak (a : Seq) : lineEvents n [] (Frame.nak a).lineWords = [.nakReceived n a] := by
  obtain ⟨htype, hnumber, hlow⟩ := numberWord_fields 3 a
  obtain ⟨v, hevent, hcode, hv⟩ := lineEvents_single n hlow (by rw [field_eq htype (by omega)]; omega)
  have hkind : field v 28 4 = 3 := field_eq ((hv 28 4 (by omega)).trans htype) (by omega)
  rw [Frame.lineWords, hevent, singleEvent_nak hcode hkind, numberField, hv 22 6 (by omega), hnumber]

theorem lineEvents_idle : lineEvents n [] Frame.idle.lineWords = [.idleReceived n] := by
  have htype : field (place 0 28) 28 4 = 0 := by decide
  obtain ⟨v, hevent, hcode, hv⟩ := lineEvents_single n (w := place 0 28) (by decide) (by rw [htype]; omega)
  have hkind : field v 28 4 = 0 := by rw [field, hv 28 4 (by omega)]; exact htype
  rw [Frame.lineWords, hevent, singleEvent_idle hcode hkind]

theorem bit_lt (b : Bool) : bit b < 2 ^ 1 := by cases b <;> decide

/-- The fields of the word of a RESYNC. -/
theorem resyncWord_fields (a : Seq) (flag : Bool) :
    (place 4 28 ||| place a.toNat 22 ||| place (bit flag) 21).extractLsb' 28 4 = BitVec.ofNat 4 4 ∧
    (place 4 28 ||| place a.toNat 22 ||| place (bit flag) 21).extractLsb' 22 6 = a ∧
    (place 4 28 ||| place a.toNat 22 ||| place (bit flag) 21).extractLsb' 21 1 = BitVec.ofNat 1 (bit flag) ∧
    (place 4 28 ||| place a.toNat 22 ||| place (bit flag) 21).extractLsb' 0 16 = 0#16 := by
  have ha : a.toNat < 2 ^ 6 := a.isLt
  have hflag := bit_lt flag
  refine ⟨?_, ?_, ?_, ?_⟩ <;> rw [BitVec.extractLsb'_or, BitVec.extractLsb'_or]
  · rw [extract_place_at (by omega), extract_place_below 6 ha (by omega), extract_place_below 1 hflag (by omega)]
    simp
  · rw [extract_place_above (by omega), extract_place_at (by omega), extract_place_below 1 hflag (by omega)]
    simp
  · rw [extract_place_above (by omega), extract_place_above (by omega), extract_place_at (by omega)]
    simp
  · rw [extract_place_above (by omega), extract_place_above (by omega), extract_place_above (by omega)]
    simp

theorem lineEvents_resync (a : Seq) (flag : Bool) :
    lineEvents n [] (Frame.resync a flag).lineWords = [.resyncReceived n a flag] := by
  obtain ⟨htype, hnumber, hflag, hlow⟩ := resyncWord_fields a flag
  obtain ⟨v, hevent, hcode, hv⟩ := lineEvents_single n hlow (by rw [field_eq htype (by omega)]; omega)
  have hkind : field v 28 4 = 4 := field_eq ((hv 28 4 (by omega)).trans htype) (by omega)
  have hbit : v.getLsbD 21 = flag := by
    rw [getLsbD_eq_extract, hv 21 1 (by omega), hflag]
    cases flag <;> decide
  rw [Frame.lineWords, hevent, singleEvent_resync hcode hkind, numberField, hv 22 6 (by omega), hnumber, hbit]

/-- A message of the part has 1 to 7 words, a STATUS 7. -/
theorem messageWords_length (m : OutMsg) : 1 ≤ (messageWords m).length ∧ (messageWords m).length ≤ 7 := by
  cases m with
  | response tag r => cases r <;> simp [messageWords, responseWords, Response.fields, statusWords]
  | notice k => cases k <;> simp [messageWords, noticeWords]

end Line

/-- Settles O51: the gate words by `gateStep`, the line words by `lineStep`. -/
theorem wordsOnThePinsRoundTrip : Obligations.WordsOnThePinsRoundTrip := by
  refine ⟨⟨fun c => ?check, fun m => ?done, fun w h => ?other⟩,
    fun s c hwords hport => ⟨present_check c hwords hport, fun hfull => presentWord_waits hport ?fullCheck⟩,
    fun s m hwords hport => ⟨fun hroom => ?donePasses, fun hfull => presentWord_waits hport ?fullDone⟩,
    fun s => ⟨_, exec_coldReset s, rfl⟩,
    fun n seq number flag => ⟨fun words => lineEvents_data n seq number, messageWords_length, lineEvents_ack n number,
      lineEvents_nak n number, lineEvents_resync n number flag, lineEvents_idle n⟩⟩
  case fullCheck => rw [readyFor_check hwords, decide_eq_false (Nat.not_lt.mpr hfull)]
  case fullDone => rw [readyFor_done hwords, decide_eq_false (Nat.not_lt.mpr hfull)]
  case check =>
    simp only [checkWords, gateEvents, gateStep_check]
    exact congrArg (fun l => l ++ []) (congrArg Prod.snd (gateStep_last c))
  case done => simp only [gateEvents, gateStep_done, List.append_nil]
  case other => simp only [gateEvents, gateStep_other h, List.append_nil]
  case donePasses =>
    rw [presentWord_passes hport (by rw [readyFor_done hwords, decide_eq_true hroom]), hwords, gateStep_done]
    simp only [← hwords]

end Sys2Proof.Machine
end

section
/-! The link ports (07): signals and attempts, the completion of an attempt, what an ACTIVE port receives, expires and sends. -/

set_option Elab.async false

namespace Sys2Proof.Machine

theorem setLink_link (s : State) (n : AgentId) : s.setLink n (s.link n) = s := by
  simp [State.setLink, State.link]

section Port

variable {e : LinkEnv} {p : LinkPort}

/-! ### A port that is DOWN hears nothing (R132) -/

section Down

variable (h : p.state = .down)
include h

theorem onFrame_down (f : LinkPort → LinkPort) : onFrame e f p = p := by
  simp only [onFrame, h]

theorem idleWord_down : idleWord e p = p := by
  simp only [idleWord, h]

theorem badWord_down : badWord e p = p := by
  simp only [badWord, h]

theorem resyncFrame_down (n : Seq) (flag : Bool) : resyncFrame e n flag p = p := by
  simp only [resyncFrame, h]

theorem dataFrame_down (k m : Seq) (ws : List Word) : dataFrame e k m ws p = p := by
  unfold dataFrame badFrame
  rw [onFrame_down h, onFrame_down h, ite_self]

end Down

/-! ### A port that aligns (R133, R134) -/

section Aligning

variable (h : p.state = .aligning)
include h

theorem onFrame_aligning (f : LinkPort → LinkPort) : onFrame e f p = otherWord p := by
  simp only [onFrame, h]

theorem dataFrame_aligning (k m : Seq) (ws : List Word) : dataFrame e k m ws p = otherWord p := by
  unfold dataFrame badFrame
  rw [onFrame_aligning h, onFrame_aligning h, ite_self]

variable {a : Attempt} (ha : p.attempt = some a)
include ha

omit h in
theorem otherWord_attempt : otherWord p = { p with corruptWords := 0, attempt := some { a with idles := 0 } } := by
  simp only [otherWord, ha, Option.map_some]

omit h in
/-- The three parts of an attempt are not all there. -/
theorem tryComplete_waits (hparts : a.aligned = false ∨ a.ownSent = false ∨ a.peer = none) : tryComplete e p = p := by
  obtain ⟨idles, aligned, ownSent, peer, deadline⟩ := a
  unfold tryComplete
  split
  · next heq => simp_all
  · rfl

theorem idleWord_aligning : idleWord e p = countIdle e a p := by
  simp only [idleWord, h, ha]

omit h ha in
theorem countIdle_before (hi : a.idles < 15) :
    countIdle e a p = { p with corruptWords := 0, attempt := some { a with idles := a.idles + 1 } } := by
  have hk : min Config.alignIdles (a.idles + 1) = a.idles + 1 := by simp [Config.alignIdles]; omega
  have hnot : ¬(a.idles + 1 = Config.alignIdles ∧ a.aligned = false) := by simp [Config.alignIdles]; omega
  simp only [countIdle, hk, if_neg hnot]

omit h ha in
theorem countIdle_aligned (hi : 15 ≤ a.idles) (hal : a.aligned = true) :
    countIdle e a p = { p with corruptWords := 0, attempt := some { a with idles := 16 } } := by
  have hk : min Config.alignIdles (a.idles + 1) = 16 := by simp [Config.alignIdles]; omega
  simp [countIdle, hk, hal]

/-- The sixteenth IDLE: the attempt is aligned, and its RESYNC sent. -/
def LinkPort.aligned (p : LinkPort) (a : Attempt) : LinkPort :=
  { p with
    corruptWords := 0, attempt := some { a with idles := 16, aligned := true, ownSent := true }
    lastFrame := some (.resync p.rxExpect p.resetPending) }

omit h ha in
theorem countIdle_sixteenth (hi : 15 ≤ a.idles) (hal : a.aligned = false) :
    countIdle e a p = tryComplete e (p.aligned a) := by
  have hk : min Config.alignIdles (a.idles + 1) = Config.alignIdles := by simp [Config.alignIdles]; omega
  simp only [countIdle, hk, hal, and_self, if_true]
  rfl

omit h in
theorem recordPeer_attempt (n : Seq) (flag : Bool) :
    recordPeer n flag p = { p with corruptWords := 0, attempt := some { a with peer := some (n, flag) } } := by
  simp only [recordPeer, ha, Option.map_some]

omit ha in
theorem resyncFrame_aligning (n : Seq) (flag : Bool) : resyncFrame e n flag p = tryComplete e (recordPeer n flag p) := by
  simp only [resyncFrame, h]

theorem badWord_aligning_few (hc : p.corruptWords < 7) :
    badWord e p = { p with corruptWords := p.corruptWords + 1, attempt := some { a with idles := 0 } } := by
  have hnot : ¬ Config.maxCorrupt ≤ p.corruptWords + 1 := by simp [Config.maxCorrupt]; omega
  simp only [badWord, h, if_neg hnot, ha, Option.map_some]

omit ha in
theorem badWord_aligning_eighth (hc : 7 ≤ p.corruptWords) :
    badWord e p = { p with corruptWords := 0, attempt := some (freshAttempt e) } := by
  have hk : Config.maxCorrupt ≤ p.corruptWords + 1 := by simp [Config.maxCorrupt]; omega
  simp only [badWord, h, if_pos hk, restartAttempt]

omit h in
theorem sendResync_attempt : sendResync p = { p with
    attempt := some { a with ownSent := true }, lastFrame := some (.resync p.rxExpect p.resetPending) } := by
  simp only [sendResync, ha, Option.map_some]

end Aligning

end Port

/-- Settles O52: each command by the link state and the attempt it finds. -/
theorem signalsAndAttempts : Obligations.SignalsAndAttempts := by
  intro s n p to' fresh down
  have hkeep : Host.Outcome.next (s.setLink n p) = (.next s : Host.Outcome State Fault Refusal) := congrArg _ (setLink_link s n)
  have hport {q r : LinkPort} (h : q = r) : Host.Outcome.next (s.setLink n q) = to' r := h ▸ rfl
  refine ⟨fun h => ⟨?detect, ?deaf, ?deafFrames⟩, fun h => ?detected, fun h => ?lost, fun h => ?lostAligning, fun a h ha =>
    ⟨fun next flag hparts => ?resync, fun hi => ?idle, fun hi hal => ?counted, fun hi hal hpeer => ?sixteenth, ?other,
      fun hc => hport (badWord_aligning_few h ha hc), fun hc => hport (badWord_aligning_eighth h hc), ?expiry⟩⟩
  case detect =>
    change execSignalDetect n s = _
    simp only [execSignalDetect, show (s.link n).state = _ from h, if_true]
    rfl
  case deaf =>
    have hloss : exec (.lossOfSignalDetect n) s = .next s := by
      change execLossOfSignalDetect n s = _
      simp only [execLossOfSignalDetect, show (s.link n).state = _ from h]
    simp only [List.forall_mem_cons, List.not_mem_nil, false_implies, implies_true, and_true]
    exact ⟨hloss, (hport (idleWord_down h)).trans hkeep, (hport (badWord_down h)).trans hkeep,
      (hport (onFrame_down h oweNak)).trans hkeep⟩
  case deafFrames =>
    intro k m flag ws
    simp only [List.forall_mem_cons, List.not_mem_nil, false_implies, implies_true, and_true]
    exact ⟨(hport (onFrame_down h (takeAck (linkEnvOf s n) k))).trans hkeep,
      (hport (onFrame_down h (takeNak (linkEnvOf s n) k))).trans hkeep,
      (hport (resyncFrame_down h k flag)).trans hkeep, (hport (dataFrame_down h k m ws)).trans hkeep⟩
  case detected =>
    change execSignalDetect n s = _
    exact if_neg h
  case lost =>
    change execLossOfSignalDetect n s = _
    simp only [execLossOfSignalDetect, show (s.link n).state = _ from h]
    rfl
  case lostAligning =>
    change execLossOfSignalDetect n s = _
    simp only [execLossOfSignalDetect, show (s.link n).state = _ from h]
    rfl
  case resync =>
    exact hport ((resyncFrame_aligning h next flag).trans
      ((congrArg _ (recordPeer_attempt ha next flag)).trans (tryComplete_waits rfl (by tauto))))
  case idle => exact hport ((idleWord_aligning h ha).trans (countIdle_before hi))
  case counted => exact hport ((idleWord_aligning h ha).trans (countIdle_aligned hi hal))
  case sixteenth =>
    exact hport ((idleWord_aligning h ha).trans ((countIdle_sixteenth hi hal).trans
      (tryComplete_waits rfl (.inr (.inr hpeer)))))
  case other =>
    rintro x (rfl | ⟨k, rfl | rfl⟩ | ⟨k, m, ws, rfl⟩)
    · exact hport ((onFrame_aligning h oweNak).trans (otherWord_attempt ha))
    · exact hport ((onFrame_aligning h _).trans (otherWord_attempt ha))
    · exact hport ((onFrame_aligning h _).trans (otherWord_attempt ha))
    · exact hport ((dataFrame_aligning h k m ws).trans (otherWord_attempt ha))
  case expiry =>
    change execAlignmentAttemptExpiry n s = _
    simp only [execAlignmentAttemptExpiry, show (s.link n).state = _ from h, show (s.link n).attempt = _ from ha, true_and,
      Option.map_some]
    rfl

/-! ### The completion of an attempt (R134) -/

section Complete

variable {e : LinkEnv} {p : LinkPort} {a : Attempt} {next : Seq} {flag : Bool}

/-- The port aligns, and the three parts of its attempt are there. -/
def LinkPort.met (p : LinkPort) (next : Seq) (flag : Bool) : Prop :=
  p.state = .aligning ∧ ∃ a : Attempt, p.attempt = some a ∧ a.aligned = true ∧ a.ownSent = true ∧ a.peer = some (next, flag)

section Met

variable (h : p.met next flag)
include h

/-- What the attempt comes to, by the peer's RESYNC. -/
theorem tryComplete_met : tryComplete e p =
    if p.resetPending && !flag then p
    else if flag && !p.resetPending then linkReset e p
    else if inRange next p then complete e next p
    else restartAttempt e (linkReport e .linkProtocol (linkReset e p)) := by
  obtain ⟨hstate, ⟨idles, _, _, _, deadline⟩, ha, rfl, rfl, rfl⟩ := h
  simp only [tryComplete, hstate, ha]

theorem tryComplete_unflagged (hp : p.resetPending = true) (hf : flag = false) : tryComplete e p = p := by
  simp [tryComplete_met h, hp, hf]

theorem tryComplete_flagged (hp : p.resetPending = false) (hf : flag = true) : tryComplete e p = linkReset e p := by
  simp [tryComplete_met h, hp, hf]

theorem tryComplete_outOfRange (hf : flag = p.resetPending) (hr : inRange next p = false) :
    tryComplete e p = restartAttempt e (linkReport e .linkProtocol (linkReset e p)) := by
  rw [tryComplete_met h, hr, hf]
  cases p.resetPending <;> rfl

theorem tryComplete_completes (hf : flag = p.resetPending) (hr : inRange next p = true) :
    tryComplete e p = complete e next p := by
  rw [tryComplete_met h, hr, hf]
  cases p.resetPending <;> rfl

end Met

theorem complete_eq : complete e next p = { p with
    state := .active, attempt := none, oldest := next, retry := p.retry.drop (next - p.oldest).toNat
    replayPos := if p.retry.length ≤ (next - p.oldest).toNat then none else some next
    replayCount := 0
    replayDeadline := if p.retry.length ≤ (next - p.oldest).toNat then none else some (e.now + 1)
    resetPending := false, watchdog := some (e.now + e.period) } := by
  have hempty : (p.retry.drop (next - p.oldest).toNat).isEmpty = decide (p.retry.length ≤ (next - p.oldest).toNat) := by
    rw [← Bool.coe_iff_coe]
    simp
  simp only [complete, replayDeadlineFor, hempty, decide_eq_true_eq]

theorem resyncOwed_iff (hstate : p.state = .aligning) (ha : p.attempt = some a) (hal : a.aligned = true) (ho : a.ownSent = false) :
    resyncOwed p = true := by
  simp only [resyncOwed, hstate, ha, hal, ho]
  rfl

theorem exec_aligningResyncSend {s : State} {n : AgentId} (h : resyncOwed (s.link n) = true) : exec (.aligningResyncSend n) s =
    .next (s.setLink n (tryComplete (linkEnvOf s n) (sendResync (s.link n)))) := if_pos h

end Complete

/-- Settles O53: the three commands make the same port, which completes by `tryComplete`. -/
theorem attemptsComplete : Obligations.AttemptsComplete := by
  intro s n a next flag hstate ha e
  refine ⟨fun hal ho hpeer => ?send, fun c p hc => ?completes⟩
  case send =>
    rw [exec_aligningResyncSend (resyncOwed_iff hstate ha hal ho), sendResync_attempt ha,
      tryComplete_waits (a := { a with ownSent := true }) rfl (.inr (.inr hpeer))]
  case completes =>
    have hmade : exec c s = .next (s.setLink n (tryComplete e p)) ∧ p.met next flag := by
      obtain ⟨rfl, hal, hi, hpeer, rfl⟩ | ⟨rfl, hal, ho, rfl⟩ | ⟨rfl, hal, ho, hpeer, rfl⟩ := hc
      · exact ⟨congrArg (fun q => Host.Outcome.next (s.setLink n q))
          ((idleWord_aligning hstate ha).trans (countIdle_sixteenth hi hal)), hstate, _, rfl, rfl, rfl, hpeer⟩
      · exact ⟨congrArg (fun q => Host.Outcome.next (s.setLink n q))
          ((resyncFrame_aligning hstate next flag).trans (congrArg _ (recordPeer_attempt ha next flag))),
          hstate, _, rfl, hal, ho, rfl⟩
      · refine ⟨?_, hstate, _, rfl, hal, rfl, hpeer⟩
        rw [exec_aligningResyncSend (resyncOwed_iff hstate ha hal ho), sendResync_attempt ha]
    obtain ⟨hexec, hmet⟩ := hmade
    rw [hexec]
    refine ⟨fun hp hf => ?_, fun hp hf => ?_, fun hf hout => ?_, fun hf hin => ?_⟩
    · rw [tryComplete_unflagged hmet hp hf]
    · rw [tryComplete_flagged hmet hp hf]
    · refine ⟨_, congrArg (fun q => Host.Outcome.next (s.setLink n q))
        (tryComplete_outOfRange hmet hf (decide_eq_false (Nat.not_le.mpr hout))), ?_⟩
      have haligning : p.state = .aligning := hmet.1
      simp [restartAttempt, linkReport, linkReset, afterReset, haligning, freshAttempt, e, linkEnvOf]
    · rw [tryComplete_completes hmet hf (decide_eq_true hin), complete_eq]
      rfl

/-! ### What an ACTIVE port receives (R135 to R143) -/

section Active

variable {e : LinkEnv} {p : LinkPort}

section State

variable (h : p.state = .active)
include h

theorem onFrame_active (f : LinkPort → LinkPort) : onFrame e f p = f (validWord e p) := by
  simp only [onFrame, h]

theorem idleWord_active : idleWord e p = validWord e p := by
  simp only [idleWord, h]

theorem badWord_active_few (hc : p.corruptWords < 7) : badWord e p = { p with corruptWords := p.corruptWords + 1 } := by
  have hnot : ¬ Config.maxCorrupt ≤ p.corruptWords + 1 := by simp [Config.maxCorrupt]; omega
  simp only [badWord, h, if_neg hnot]

theorem badWord_active_eighth (hc : 7 ≤ p.corruptWords) : badWord e p = retrain e { p with corruptWords := 8 } := by
  have hk : Config.maxCorrupt ≤ p.corruptWords + 1 := by simp [Config.maxCorrupt]; omega
  simp only [badWord, h, if_pos hk]
  rfl

theorem resyncFrame_active (n : Seq) (flag : Bool) : resyncFrame e n flag p = recordPeer n flag (enterAligning e p) := by
  simp only [resyncFrame, h]

theorem dataFrame_active {ws : List Word} (hws : 1 ≤ ws.length ∧ ws.length ≤ 7) (seq a : Seq) :
    dataFrame e seq a ws p = decideData seq ws (takeAck e a (validWord e p)) := by
  rw [dataFrame, if_pos hws, onFrame_active h]

end State

/-- The retry buffer with its first `k` entries freed, the oldest being `m`, as progress (R139). -/
def LinkPort.freed (p : LinkPort) (now : Time) (k : Nat) (m : Seq) : LinkPort :=
  { p with
    retry := p.retry.drop k, oldest := m, replayCount := 0
    replayPos := match p.replayPos with
      | none => none
      | some r => if (r - p.oldest).toNat < k then (if p.retry.length ≤ k then none else some m) else some r
    replayDeadline := if p.retry.length ≤ k then none else some (now + 1) }

theorem progress_freeBefore {k : Nat} {m : Seq} (hk : (m - p.oldest).toNat = k) :
    progress e (freeBefore m p) = p.freed e.now k m := by
  have hempty : (p.retry.drop k).isEmpty = decide (p.retry.length ≤ k) := by
    rw [← Bool.coe_iff_coe]
    simp
  unfold progress freeBefore replayAfter LinkPort.freed replayDeadlineFor
  simp only [hk, hempty, decide_eq_true_eq] <;> cases p.replayPos <;> rfl

theorem takeAck_inside {a : Seq} (h : (a - p.oldest).toNat < (p.txSeq - p.oldest).toNat) :
    takeAck e a p = p.freed e.now ((a - p.oldest).toNat + 1) (a + 1) := by
  rw [takeAck, if_pos h, progress_freeBefore (seq_succ_sub h)]

theorem takeAck_outside {a : Seq} (h : (p.txSeq - p.oldest).toNat ≤ (a - p.oldest).toNat) : takeAck e a p = p :=
  if_neg (Nat.not_lt.mpr h)

theorem takeAck_eq (a : Seq) : takeAck e a p =
    if (a - p.oldest).toNat < (p.txSeq - p.oldest).toNat then p.freed e.now ((a - p.oldest).toNat + 1) (a + 1) else p := by
  split
  · next h => exact takeAck_inside h
  · next h => exact takeAck_outside (Nat.not_lt.mp h)

/-! The decision of a DATA frame by the distance of its sequence number. -/

section Data

variable {seq : Seq} {ws : List Word}

theorem decideData_accepted (h : (seq - p.rxExpect).toNat = 0) (hroom : p.rxQueue.length < 16) :
    decideData seq ws p = acceptMessage ws p := by
  simp only [decideData, h, if_true, Config.receivePlaces, hroom]

theorem decideData_full (h : (seq - p.rxExpect).toNat = 0) (hfull : 16 ≤ p.rxQueue.length) : decideData seq ws p = p := by
  simp only [decideData, h, if_true, Config.receivePlaces, Nat.not_lt.mpr hfull, if_false]

theorem decideData_ahead (h1 : 1 ≤ (seq - p.rxExpect).toNat) (h31 : (seq - p.rxExpect).toNat ≤ 31) :
    decideData seq ws p = if p.nakSent then p else oweNak p := by
  simp only [decideData, show ¬(seq - p.rxExpect).toNat = 0 by omega, show (seq - p.rxExpect).toNat < 32 by omega, if_true,
    if_false]

theorem decideData_behind (h : 32 ≤ (seq - p.rxExpect).toNat) : decideData seq ws p = { p with ackOwed := true } := by
  simp only [decideData, show ¬(seq - p.rxExpect).toNat = 0 by omega, show ¬(seq - p.rxExpect).toNat < 32 by omega, if_false]

end Data

theorem replayOrRollover_replays (h : p.replayCount < 4) (m : Seq) : replayOrRollover e m p = replayFrom e m p := if_pos h

theorem replayOrRollover_rolls (h : 4 ≤ p.replayCount) (m : Seq) : replayOrRollover e m p = retrain e p :=
  if_neg (Nat.not_lt.mpr h)

theorem linkReset_reports : (linkReset e p).reports = p.reports := by
  unfold linkReset afterReset
  cases p.state <;> rfl

/-! A NAK by the place of its number in the retry buffer. -/

/-- The port with the frames before the number freed, if there are any. -/
def LinkPort.freedTo (p : LinkPort) (now : Time) (m : Seq) : LinkPort :=
  if (m - p.oldest).toNat = 0 then p else p.freed now (m - p.oldest).toNat m

theorem sub_toNat_eq_zero {m o : Seq} : (m - o).toNat = 0 ↔ m = o := by
  constructor
  · intro h
    bv_omega
  · rintro rfl
    simp

section Nak

variable {m : Seq}

theorem takeNak_outOfRange (h : (p.txSeq - p.oldest).toNat < (m - p.oldest).toNat) :
    takeNak e m p = linkReport e .linkProtocol (linkReset e p) := by
  have hr : inRange m p = false := decide_eq_false (Nat.not_le.mpr h)
  simp [takeNak, hr]

theorem takeNak_inRange (h : (m - p.oldest).toNat ≤ (p.txSeq - p.oldest).toNat) : takeNak e m p =
    if m = p.txSeq then p.freedTo e.now m else replayOrRollover e m (p.freedTo e.now m) := by
  have hr : inRange m p = true := decide_eq_true h
  have hfreed : (if m = p.oldest then p else progress e (freeBefore m p)) = p.freedTo e.now m := by
    rw [LinkPort.freedTo, progress_freeBefore rfl]
    simp only [sub_toNat_eq_zero]
  simp only [takeNak, hr, hfreed]
  rfl

end Nak

end Active

/-- Settles O54: each word and frame by the place of its numbers. -/
theorem anActivePortReceives : Obligations.AnActivePortReceives := by
  intro s n h p e period to' v out freed
  have hport {q r : LinkPort} (h : q = r) : Host.Outcome.next (s.setLink n q) = to' r := h ▸ rfl
  refine ⟨hport (idleWord_active h), fun hc => hport (badWord_active_few h hc), fun hc => hport (badWord_active_eighth h hc),
    hport (onFrame_active h oweNak), fun next flag => hport (resyncFrame_active h next flag), fun a => ⟨fun hin => ?ack, fun hout => ?noAck⟩,
    fun seq a ws hws => ?data, fun m => ?nak⟩
  case ack => exact hport ((onFrame_active h (takeAck e a)).trans (takeAck_inside (p := v) hin))
  case noAck => exact hport ((onFrame_active h (takeAck e a)).trans (takeAck_outside (p := v) hout))
  case data =>
    intro k q d
    have hlength : 1 ≤ ws.length ∧ ws.length ≤ 7 := by simpa [dataLengthOk] using hws
    have hexec {r : LinkPort} (hr : decideData seq ws q = r) : exec (.dataReceived n seq a ws) s = to' r :=
      hport ((dataFrame_active h hlength seq a).trans ((congrArg _ (takeAck_eq (p := v) a)).trans hr))
    obtain ⟨hexpect, hqueue, hsent, hnumber⟩ : q.rxExpect = p.rxExpect ∧ q.rxQueue = p.rxQueue ∧ q.nakSent = p.nakSent ∧
        q.resetNumber = p.resetNumber := by
      unfold q
      split <;> exact ⟨rfl, rfl, rfl, rfl⟩
    have hd : (seq - q.rxExpect).toNat = d := by rw [hexpect]
    refine ⟨fun h0 hroom => hexec ?_, fun h0 hfull => hexec (decideData_full (hd.trans h0) (hqueue ▸ hfull)),
      fun h1 h31 hns => hexec ?_, fun h1 h31 hns => hexec ?_, fun h32 => hexec (decideData_behind (hd ▸ h32))⟩
    · rw [decideData_accepted (hd.trans h0) (hqueue ▸ hroom)]
      simp only [acceptMessage, hexpect, hqueue, hnumber]
    · rw [decideData_ahead (hd ▸ h1) (hd ▸ h31), hsent, hns]
      rfl
    · rw [decideData_ahead (hd ▸ h1) (hd ▸ h31), hsent, hns]
      rfl
  case nak =>
    intro k q
    have hexec {r : LinkPort} (hr : takeNak e m v = r) : exec (.nakReceived n m) s = to' r :=
      hport ((onFrame_active h (takeNak e m)).trans hr)
    have hq : v.freedTo e.now m = q := rfl
    refine ⟨fun hout => hexec ((takeNak_outOfRange (p := v) hout).trans ?_), fun hm => hexec ?_, fun hin hcount => hexec ?_,
      fun h0 hne hcount => hexec ?_⟩
    · rw [linkReport, linkReset_reports]
      rfl
    · rw [takeNak_inRange (p := v) (by subst hm; exact Nat.le_refl _), if_pos hm, hq]
    · have hne : m ≠ p.txSeq := by
        rintro rfl
        exact absurd hin (Nat.lt_irrefl _)
      rw [takeNak_inRange (p := v) (Nat.le_of_lt hin), if_neg hne, hq, replayOrRollover_replays hcount]
      rfl
    · have hqv : v.freedTo e.now m = v := if_pos h0
      rw [takeNak_inRange (p := v) (h0.le.trans (Nat.zero_le _)), if_neg hne, hqv, replayOrRollover_rolls (p := v) hcount]
      rfl

/-! ### Deadlines and frames sent (R135, R138, R141, R148) -/

section Send

variable {e : LinkEnv} {p : LinkPort}

theorem sendFrame_active (h : p.state = .active) : sendFrame e p = sendActive e p := by
  simp only [sendFrame, h]

theorem sendFrame_aligning (h : p.state = .aligning) : sendFrame e p = { p with lastFrame := some .idle } := by
  unfold sendFrame
  rw [h]

theorem sendFrame_down (h : p.state = .down) : sendFrame e p = p := by
  unfold sendFrame
  rw [h]

theorem sendActive_nak (h : p.nakOwed = true) :
    sendActive e p = { p with lastFrame := some (.nak p.rxExpect), nakOwed := false } := if_pos h

theorem sendReplay_found {r : Seq} {x : RetryEntry} (h : p.retry.find? (fun y => y.seq == r) = some x) :
    sendReplay r p = sendData r x.msg { p with replayPos := if r + 1 = p.txSeq then none else some (r + 1) } := by
  simp only [sendReplay, h]

variable (hnak : p.nakOwed = false)
include hnak

theorem sendActive_replay {r : Seq} (h : p.replayPos = some r) : sendActive e p = sendReplay r p := by
  simp [sendActive, hnak, h]

variable (hreplay : p.replayPos = none)
include hreplay

theorem sendActive_new (hroom : p.retry.length < 16) {m : OutMsg} {q : LinkPort} (h : nextOut p = some (m, q)) :
    sendActive e p = frameNew e m q := by
  simp [sendActive, hnak, hreplay, Config.retryPlaces, hroom, h]

theorem sendActive_full (hfull : 16 ≤ p.retry.length) : sendActive e p = sendAckOrIdle p := by
  simp [sendActive, hnak, hreplay, Config.retryPlaces, Nat.not_lt.mpr hfull]

theorem sendActive_nothing (h : nextOut p = none) : sendActive e p = sendAckOrIdle p := by
  simp [sendActive, hnak, hreplay, h]

end Send

section Out

variable {p : LinkPort}

theorem nextOut_response {x : QueuedResponse} {rest : List QueuedResponse} (h : p.responses = x :: rest) :
    nextOut p = some (.response x.tag x.response, { p with responses := rest }) := by
  simp only [nextOut, h]

theorem nextOut_notice {y : NoticeMsg} (h : p.responses = []) (hy : p.notice = some y) :
    nextOut p = some (.notice y, { p with notice := none }) := by
  simp only [nextOut, h, hy]

theorem nextOut_none (h : p.responses = []) (hn : p.notice = none) : nextOut p = none := by
  simp only [nextOut, h, hn]

/-- A new frame takes its number and its place in the retry buffer; nothing of what left its message's place matters to it. -/
theorem frameNew_eq (e : LinkEnv) (m : OutMsg) (q : LinkPort) : frameNew e m q = { q with
    lastFrame := some (.data q.txSeq (q.rxExpect - 1) m), ackOwed := false, txSeq := q.txSeq + 1
    retry := q.retry ++ [⟨q.txSeq, m⟩]
    replayDeadline := if q.retry = [] then some (e.now + 1) else q.replayDeadline } := by
  simp only [frameNew, sendData, ackNumber, List.isEmpty_iff]

end Out

/-- Settles O55: the deadlines by `dueAt`, the next frame in the order of R148. -/
theorem anActivePortExpiresAndSends : Obligations.AnActivePortExpiresAndSends := by
  intro s n p to' out
  have hport {q r : LinkPort} (h : q = r) : Host.Outcome.next (s.setLink n q) = to' r := h ▸ rfl
  refine ⟨fun h => ⟨?watchdog, fun hdue => ?notDue, fun hdue => ⟨fun hc => ?replay, fun hc => ?rollover⟩,
    fun hnak => hport ((sendFrame_active h).trans (sendActive_nak hnak)), fun hnak =>
      ⟨fun r x hr hx => hport ((sendFrame_active h).trans ((sendActive_replay hnak hr).trans (sendReplay_found hx))),
        fun hr => ⟨fun hroom m q hmq => ?new, fun hnone => ?rest⟩⟩⟩, fun h => ?aligning, fun h => ?down⟩
  case watchdog =>
    change execWatchdogExpiry n s = _
    simp only [execWatchdogExpiry, show (s.link n).state = _ from h, true_and]
    rfl
  case notDue =>
    change execReplayDeadlineExpiry n s = _
    exact if_neg fun hand => by simp [show dueAt s.time (s.link n).replayDeadline = false from hdue] at hand
  case replay =>
    change execReplayDeadlineExpiry n s = _
    exact (if_pos ⟨h, hdue⟩).trans (hport (replayOrRollover_replays hc _))
  case rollover =>
    change execReplayDeadlineExpiry n s = _
    exact (if_pos ⟨h, hdue⟩).trans (hport (replayOrRollover_rolls hc _))
  case new =>
    have hnew : nextOut p = some (m, q) ∧ q.txSeq = p.txSeq ∧ q.rxExpect = p.rxExpect ∧ q.retry = p.retry ∧
        q.replayDeadline = p.replayDeadline := by
      obtain ⟨x, rest, hresponses, rfl, rfl⟩ | ⟨y, hresponses, hnotice, rfl, rfl⟩ := hmq
      · exact ⟨nextOut_response hresponses, rfl, rfl, rfl, rfl⟩
      · exact ⟨nextOut_notice hresponses hnotice, rfl, rfl, rfl, rfl⟩
    obtain ⟨hout, htx, hrx, hretry, hdeadline⟩ := hnew
    refine hport ((sendFrame_active h).trans ((sendActive_new hnak hr hroom hout).trans ?_))
    rw [frameNew_eq, htx, hrx, hretry, hdeadline]
    rfl
  case rest =>
    refine hport ((sendFrame_active h).trans ?_)
    obtain hfull | ⟨hresponses, hnotice⟩ := hnone
    · exact sendActive_full hnak hr hfull
    · exact sendActive_nothing hnak hr (nextOut_none hresponses hnotice)
  case aligning => exact hport (sendFrame_aligning h)
  case down => exact congrArg _ ((congrArg (s.setLink n) (sendFrame_down h)).trans (setLink_link s n))

end Sys2Proof.Machine
end

section
/-! The notice unit (05): delivery, posts, removals, answers and outcomes, reclaims, losses of domains and link resets. -/

set_option Elab.async false

namespace Sys2Proof.Machine

/-! ### Delivery (R106) -/

section Delivery

variable {s : State} {n : AgentId}

theorem noticeWith_eq (s : State) (n : AgentId) (m : NoticeMsg) :
    s.noticeWith n m = if lateNotice s n then (s.link n).notice else some m := by
  unfold State.noticeWith lateNotice restartedBefore restartDue
  cases s.management.command with
  | none => rfl
  | some c =>
    cases c with
    | restarting due => cases hs : due.notice <;> cases hl : look due.links n <;> simp [hl]
    | _ => rfl

theorem handNotice_eq (s : State) (n : AgentId) (m : NoticeMsg) :
    handNotice s n m = s.setLink n { s.link n with notice := s.noticeWith n m } := by
  rw [noticeWith_eq]
  rfl

theorem present_owned {h : Handle} {d : DomainId} (hd : ownerOf s h.slot = some d) (x : NoticeAsk) :
    present s h x = s.setDomain d { s.domain d with fromNotice := (s.domain d).fromNotice ++ [x] } := by
  simp only [present, hd]

theorem present_unowned {h : Handle} (hd : ownerOf s h.slot = none) (x : NoticeAsk) :
    present s h x = { s with noDomain := { s.noDomain with asks := s.noDomain.asks ++ [x] } } := by
  simp only [present, hd]

theorem beginDelivery_busy (h : (s.noticeAgent n).marker ≠ .ready) : beginDelivery s n = s := by
  simp only [beginDelivery]
  split
  · next hr => exact absurd hr h
  all_goals rfl

variable (h : (s.noticeAgent n).marker = .ready)
include h

theorem beginDelivery_conditions (hc : (s.noticeAgent n).conditions ≠ .none) : beginDelivery s n =
    handNotice (s.setNotice n { s.noticeAgent n with marker := .sessionSent (s.noticeAgent n).conditions }) n
      (.session (s.noticeAgent n).conditions) := by
  simp only [beginDelivery, h, hc, ne_eq, not_false_eq_true, if_true]

variable (hc : (s.noticeAgent n).conditions = .none)
include hc

theorem beginDelivery_nothing (hq : (s.noticeAgent n).queue.find? (fun e => !e.frozen) = none) : beginDelivery s n = s := by
  simp only [beginDelivery, h, hc, hq, ne_eq, not_true, if_false]

theorem beginDelivery_claim {e : Entry} (hq : (s.noticeAgent n).queue.find? (fun e => !e.frozen) = some e) : beginDelivery s n =
    present (s.setNotice n { s.noticeAgent n with marker := .claiming e.handle }) e.handle (.claim n e.handle) := by
  simp only [beginDelivery, h, hc, hq, ne_eq, not_true, if_false]

end Delivery

theorem find_first {α : Type} {f : α → Bool} {pre post : List α} {x : α} (hpre : ∀ y ∈ pre, f y = false) (hx : f x = true) :
    (pre ++ x :: post).find? f = some x := by
  have hnone : pre.find? f = none := List.find?_eq_none.mpr fun y hy => by simp [hpre y hy]
  rw [List.find?_append, hnone, List.find?_cons_of_pos hx]
  rfl

/-- Settles O44: the session conditions first, else the first entry that is not frozen. -/
theorem deliveryBegins : Obligations.DeliveryBegins := by
  intro s n a
  refine ⟨beginDelivery_busy, fun h hc => ?session, fun h hc => ⟨fun hq => ?nothing, fun pre post e hq hpre he => ?claim⟩⟩
  case session =>
    rw [beginDelivery_conditions h hc, handNotice_eq]
    rfl
  case nothing =>
    exact beginDelivery_nothing h hc (List.find?_eq_none.mpr fun e he => by simp [hq e he])
  case claim =>
    have hfind : (s.noticeAgent n).queue.find? (fun e => !e.frozen) = some e := by
      rw [show (s.noticeAgent n).queue = _ from hq]
      exact find_first (fun y hy => by simp [hpre y hy]) (by simp [he])
    have hclaim := beginDelivery_claim h hc hfind
    exact ⟨fun d hd => hclaim.trans (present_owned (by exact hd) _), fun hd => hclaim.trans (present_unowned (by exact hd) _)⟩

/-! ### The queue of an agent (R101, R103, R104, R110) -/

section Queue

variable {h : Handle} {pre post : List Entry} {e : Entry}

theorem findEntry_none {q : List Entry} (hq : ∀ y ∈ q, y.handle ≠ h) : findEntry h q = none :=
  List.find?_eq_none.mpr fun y hy => by simp [hq y hy]

theorem findEntry_first (he : e.handle = h) (hpre : ∀ y ∈ pre, y.handle ≠ h) : findEntry h (pre ++ e :: post) = some e :=
  find_first (fun y hy => by simp [hpre y hy]) (by simp [he])

theorem changeEntry_other {q : List Entry} (f : Entry → Entry) (hq : ∀ y ∈ q, y.handle ≠ h) : changeEntry h f q = q := by
  unfold changeEntry
  conv_rhs => rw [← List.map_id q]
  exact List.map_congr_left fun y hy => if_neg (hq y hy)

theorem dropEntry_other {q : List Entry} (hq : ∀ y ∈ q, y.handle ≠ h) : dropEntry h q = q :=
  List.filter_eq_self.mpr fun y hy => by simp [hq y hy]

section One

variable (he : e.handle = h) (hpre : ∀ y ∈ pre, y.handle ≠ h) (hpost : ∀ y ∈ post, y.handle ≠ h)
include he hpre hpost

/-- The one entry of the handle is changed in its place. -/
theorem changeEntry_one (f : Entry → Entry) : changeEntry h f (pre ++ e :: post) = pre ++ f e :: post := by
  have hsplit : changeEntry h f (pre ++ e :: post) = changeEntry h f pre ++ changeEntry h f [e] ++ changeEntry h f post := by
    simp [changeEntry]
  rw [hsplit, changeEntry_other f hpre, changeEntry_other f hpost]
  simp [changeEntry, he]

theorem dropEntry_one : dropEntry h (pre ++ e :: post) = pre ++ post := by
  have hsplit : dropEntry h (pre ++ ([e] ++ post)) = dropEntry h pre ++ (dropEntry h [e] ++ dropEntry h post) := by
    simp only [dropEntry, List.filter_append]
  have hone : dropEntry h [e] = [] := by simp [dropEntry, he]
  exact hsplit.trans (by rw [dropEntry_other hpre, dropEntry_other hpost, hone, List.nil_append])

theorem applyPost_front {p : Placing} (hp : p ≠ .followUp) (m : NoticeItem) :
    applyPost h p m (pre ++ e :: post) = pre ++ { e with front := m } :: post := by
  have hfront : postFront h m (pre ++ e :: post) = pre ++ { e with front := m } :: post := by
    simp only [postFront, findEntry_first he hpre, changeEntry_one he hpre hpost]
  cases p with
  | followUp => exact absurd rfl hp
  | newFront => exact hfront
  | replaceFront => exact hfront

theorem promoteEntry_some {m : NoticeItem} (hm : e.followUp = some m) :
    promoteEntry h (pre ++ e :: post) = pre ++ post ++ [{ e with front := m, followUp := none }] := by
  simp only [promoteEntry, findEntry_first he hpre, hm, dropEntry_one he hpre hpost]

omit hpost in
theorem promoteEntry_none (hm : e.followUp = none) : promoteEntry h (pre ++ e :: post) = pre ++ e :: post := by
  simp only [promoteEntry, findEntry_first he hpre, hm]

end One

theorem applyPost_new {q : List Entry} (hq : ∀ y ∈ q, y.handle ≠ h) {p : Placing} (hp : p ≠ .followUp) (m : NoticeItem) :
    applyPost h p m q = q ++ [⟨h, m, none, false⟩] := by
  have hfront : postFront h m q = q ++ [⟨h, m, none, false⟩] := by
    simp only [postFront, findEntry_none hq]
  cases p with
  | followUp => exact absurd rfl hp
  | newFront => exact hfront
  | replaceFront => exact hfront

end Queue

/-! ### Messages of a domain (R103, R104) -/

section Messages

variable {s : State} {d : DomainId} {era : Nat} {b : NoticeBody} {rest : List DomainNotice}

theorem headMessage_eq (h : (s.domain d).toNotice = ⟨era, b⟩ :: rest) : headMessage s d = some ⟨era, b⟩ := by
  rw [headMessage, h]
  rfl

theorem dropHead_eq (h : (s.domain d).toNotice = ⟨era, b⟩ :: rest) :
    dropHead s d = s.setDomain d { s.domain d with toNotice := rest } := by
  rw [dropHead, h]
  rfl

theorem staleMessage_old (h : era < s.notice.era) : staleMessage s ⟨era, b⟩ = true := decide_eq_true h

theorem staleMessage_new (h : s.notice.era ≤ era) : staleMessage s ⟨era, b⟩ = false := decide_eq_false (Nat.not_lt.mpr h)

theorem dropHead_reads (hhead : (s.domain d).toNotice = ⟨era, b⟩ :: rest) (reads : Vector PostRead 8) :
    dropHead { s with notice := { s.notice with reads := reads } } d =
      { s.setDomain d { s.domain d with toNotice := rest } with notice := { s.notice with reads := reads } } :=
  dropHead_eq (s := { s with notice := { s.notice with reads := reads } }) hhead

/-- The head message taken, with the read for a post of the domain as given. -/
def postTaken (s : State) (d : DomainId) (rest : List DomainNotice) (st : PostRead) : State :=
  { s.setDomain d { s.domain d with toNotice := rest } with notice := { s.notice with reads := put s.notice.reads d st } }

section Post

variable {a : AgentId} {h : Handle} {p : Placing} {m : NoticeItem} {k : Nat}
  (hhead : (s.domain d).toNotice = ⟨era, .post a h p m k⟩ :: rest)
include hhead

theorem exec_noticePost_stale (hera : era < s.notice.era) : exec (.noticePost d) s = .next (postTaken s d rest .idle) := by
  change execNoticePost d s = _
  simp only [execNoticePost, headMessage_eq hhead, staleMessage_old hera, if_true, dropHead_reads hhead]
  rfl

variable (hera : s.notice.era ≤ era)
include hera

theorem exec_noticePost_waits (hk : (s.noticeAgent a).reclaimed < k) : exec (.noticePost d) s = .next s := by
  change execNoticePost d s = _
  simp [execNoticePost, headMessage_eq hhead, staleMessage_new hera, hk]

variable (hk : k ≤ (s.noticeAgent a).reclaimed)
include hk

theorem exec_noticePost_asks (hread : look s.notice.reads d = .idle) : exec (.noticePost d) s =
    .next { s with notice := { s.notice with reads := put s.notice.reads d (.asked a) } } := by
  change execNoticePost d s = _
  simp [execNoticePost, headMessage_eq hhead, staleMessage_new hera, Nat.not_lt.mpr hk, hread]

theorem exec_noticePost_answered {b : AgentId} {st : AgentState} (hread : look s.notice.reads d = .answered b st) :
    exec (.noticePost d) s = .next (takePost s d a h p m st) := by
  change execNoticePost d s = _
  simp [execNoticePost, headMessage_eq hhead, staleMessage_new hera, Nat.not_lt.mpr hk, hread]

end Post

section TakePost

variable {a : AgentId} {h : Handle} {p : Placing} {m : NoticeItem}
  (hhead : (s.domain d).toNotice = ⟨era, b⟩ :: rest)
include hhead

theorem takePost_other {st : AgentState} (hst : st ≠ .online) : takePost s d a h p m st = postTaken s d rest .idle := by
  simp only [takePost, dropHead_reads hhead, if_neg hst]
  rfl

theorem takePost_online : takePost s d a h p m .online = beginDelivery ((postTaken s d rest .idle).setNotice a
    { s.noticeAgent a with queue := applyPost h p m (s.noticeAgent a).queue }) a := by
  simp only [takePost, dropHead_reads hhead, if_true]
  rfl

end TakePost

end Messages

/-- Settles O45: the two events of a post, and its placing in the queue. -/
theorem noticePosts : Obligations.NoticePosts := by
  intro s d era a h p m k rest hhead taken applied q
  refine ⟨exec_noticePost_stale hhead, exec_noticePost_waits hhead, fun hera hk => ⟨exec_noticePost_asks hhead hera hk,
    fun b st hread hst => ?other, fun b hread => ?online⟩⟩
  case other => exact (exec_noticePost_answered hhead hera hk hread).trans (congrArg _ (takePost_other hhead hst))
  case online =>
    have hexec {q' : List Entry} (hq : applyPost h p m q = q') : exec (.noticePost d) s = .next (applied q') :=
      hq ▸ (exec_noticePost_answered hhead hera hk hread).trans (congrArg _ (takePost_online hhead))
    refine ⟨fun pre post e hq he hpre hpost => ⟨fun hp => hexec ?_, fun hp => hexec ?_⟩,
      fun hq => ⟨fun hp => hexec (applyPost_new hq hp m), fun hp => hexec ?_⟩⟩
    · rw [hq, applyPost_front he hpre hpost hp]
    · rw [hq, hp]
      exact changeEntry_one he hpre hpost _
    · rw [hp]
      exact changeEntry_other _ hq

/-! ### Removals (R104) -/

section Removals

variable {s : State} {d : DomainId} {era : Nat} {rest : List DomainNotice} {a : AgentId} {h : Handle}

/-- The part with the head message of a domain taken by the notice unit. -/
def messageTaken (s : State) (d : DomainId) (rest : List DomainNotice) : State :=
  s.setDomain d { s.domain d with toNotice := rest }

theorem exec_withdrawFront (hhead : (s.domain d).toNotice = ⟨era, .withdrawFront a h⟩ :: rest) (hera : s.notice.era ≤ era) :
    exec (.withdrawFront d) s = .next ((messageTaken s d rest).setNotice a { s.noticeAgent a with
      queue := dropEntry h (s.noticeAgent a).queue }) := by
  change execWithdrawFront d s = _
  simp only [execWithdrawFront, headMessage_eq hhead, staleMessage_new hera, dropHead_eq hhead]
  rfl

theorem exec_withdrawFollowUp (hhead : (s.domain d).toNotice = ⟨era, .withdrawFollowUp a h⟩ :: rest) (hera : s.notice.era ≤ era) :
    exec (.withdrawFollowUp d) s = .next ((messageTaken s d rest).setNotice a { s.noticeAgent a with
      queue := changeEntry h (fun e => { e with followUp := none }) (s.noticeAgent a).queue }) := by
  change execWithdrawFollowUp d s = _
  simp only [execWithdrawFollowUp, headMessage_eq hhead, staleMessage_new hera, dropHead_eq hhead]
  rfl

theorem exec_clear (hhead : (s.domain d).toNotice = ⟨era, .clear a h⟩ :: rest) (hera : s.notice.era ≤ era) :
    exec (.clear d) s = .next (clearEntry (messageTaken s d rest) a h) := by
  change execClear d s = _
  simp only [execClear, headMessage_eq hhead, staleMessage_new hera, dropHead_eq hhead]
  rfl

theorem exec_scrubRemove (hhead : (s.domain d).toNotice = ⟨era, .scrubRemove h⟩ :: rest) (hera : s.notice.era ≤ era) :
    exec (.scrubRemove d) s = .next { messageTaken s d rest with notice := { s.notice with
      agents := mapTable (fun a : NoticeAgent => { a with queue := dropEntry h a.queue }) s.notice.agents } } := by
  change execScrubRemove d s = _
  simp only [execScrubRemove, headMessage_eq hhead, staleMessage_new hera, dropHead_eq hhead]
  rfl

/-! A record notice is taken out of delivery by the marker. -/

theorem retract_claiming {x : NoticeAgent} (hx : x.marker = .claiming h) : retract x = { x with marker := .ready } := by
  simp only [retract, hx]

theorem retract_sent {x : NoticeAgent} (hx : x.marker = .recordSent h ∨ x.marker = .acking h) :
    retract x = { x with marker := .ready, retracted := some (.handle h) } := by
  obtain hx | hx := hx <;> simp only [retract, hx]

theorem retract_other {x : NoticeAgent} (hx : x.marker.handle? = none) : retract x = x := by
  unfold retract
  unfold Marker.handle? at hx
  split <;> simp_all

theorem marker_handle_iff (m : Marker) (h : Handle) :
    m.handle? = some h ↔ m = .claiming h ∨ m = .recordSent h ∨ m = .acking h := by
  cases m <;> simp [Marker.handle?]

/-- The agent with the entry of a handle removed. -/
def NoticeAgent.without (x : NoticeAgent) (h : Handle) : NoticeAgent :=
  { x with queue := x.queue.filter (fun e => e.handle != h) }

theorem clearEntry_delivering (hm : (s.noticeAgent a).marker.handle? = some h) :
    clearEntry s a h = beginDelivery (s.setNotice a (retract ((s.noticeAgent a).without h))) a := if_pos hm

theorem clearEntry_other (hm : (s.noticeAgent a).marker.handle? ≠ some h) :
    clearEntry s a h = s.setNotice a ((s.noticeAgent a).without h) := if_neg hm

end Removals

/-- Settles O46: each removal on the queue it names, and the marker's part of a CLEAR. -/
theorem noticeRemovals : Obligations.NoticeRemovals := by
  intro s d era b rest hhead hera u
  refine ⟨fun a h hb => ?front, fun a h hb => ?followUp, fun a h hb => ?clear, fun h hb => ?scrub⟩
  all_goals subst hb
  case front => exact exec_withdrawFront hhead hera
  case followUp => exact exec_withdrawFollowUp hhead hera
  case clear =>
    intro x
    have hdelivering (hm : x.marker.handle? = some h) :
        exec (.clear d) s = .next (beginDelivery (u.setNotice a (retract x)) a) :=
      (exec_clear hhead hera).trans (congrArg _ (clearEntry_delivering (s := u) hm))
    refine ⟨fun hm => ?_, fun hm => ?_, fun h1 h2 h3 => ?_⟩
    · rw [hdelivering ((marker_handle_iff _ _).mpr (.inl hm)), retract_claiming hm]
    · rw [hdelivering ((marker_handle_iff _ _).mpr (.inr hm)), retract_sent hm]
    · have hm : x.marker.handle? ≠ some h := by simp [marker_handle_iff, h1, h2, h3]
      exact (exec_clear hhead hera).trans (congrArg _ (clearEntry_other (s := u) hm))
  case scrub =>
    refine ⟨_, exec_scrubRemove hhead hera, fun a => ?_, rfl⟩
    simp only [State.noticeAgent, look_mapTable, dropEntry]

/-! ### Answers, outcomes and acknowledgements (R107, R109, R110) -/

section Answers

variable {s : State} {d : DomainId} {era : Nat} {rest : List DomainNotice} {n : AgentId} {h : Handle}

theorem exec_claimAnswer {granted : Bool} (hhead : (s.domain d).toNotice = ⟨era, .answer n h granted⟩ :: rest)
    (hera : s.notice.era ≤ era) : exec (.claimAnswer (some d)) s = .next (takeAnswer (messageTaken s d rest) n h granted) := by
  change execClaimAnswer (some d) s = _
  simp only [execClaimAnswer, headMessage_eq hhead, staleMessage_new hera, dropHead_eq hhead]
  rfl

theorem exec_acknowledgementOutcome {o : AckOutcome} (hhead : (s.domain d).toNotice = ⟨era, .outcome n h o⟩ :: rest)
    (hera : s.notice.era ≤ era) :
    exec (.acknowledgementOutcome (some d)) s = .next (takeOutcome (messageTaken s d rest) n h o) := by
  change execAcknowledgementOutcome (some d) s = _
  simp only [execAcknowledgementOutcome, headMessage_eq hhead, staleMessage_new hera, dropHead_eq hhead]
  rfl

theorem exec_noticeAck {rest : List AckItem} (hhead : (s.noticeAgent n).acks = .notice h era :: rest)
    (hera : s.notice.era ≤ era) : exec (.noticeAck n) s =
      .next (takeNoticeAck (s.setNotice n { s.noticeAgent n with acks := rest }) n h) := by
  change execNoticeAck n s = _
  simp only [execNoticeAck, hhead]
  exact congrArg _ (if_neg (Nat.not_lt.mpr hera))

theorem takeAnswer_unnamed {granted : Bool} (hm : (s.noticeAgent n).marker ≠ .claiming h) : takeAnswer s n h granted = s :=
  if_neg hm

section Claiming

variable (hm : (s.noticeAgent n).marker = .claiming h)
include hm

theorem takeAnswer_declined :
    takeAnswer s n h false = beginDelivery (s.setNotice n { s.noticeAgent n with marker := .ready }) n := by
  simp [takeAnswer, hm]

theorem takeAnswer_noEntry (hq : findEntry h (s.noticeAgent n).queue = none) :
    takeAnswer s n h true = beginDelivery (s.setNotice n { s.noticeAgent n with marker := .ready }) n := by
  simp [takeAnswer, hm, hq]

theorem takeAnswer_granted {e : Entry} (hq : findEntry h (s.noticeAgent n).queue = some e) : takeAnswer s n h true =
    handNotice (s.setNotice n { s.noticeAgent n with marker := .recordSent h }) n (.record h e.front) := by
  simp [takeAnswer, hm, hq]

end Claiming

theorem takeOutcome_acking (hm : (s.noticeAgent n).marker = .acking h) (o : AckOutcome) : takeOutcome s n h o =
    beginDelivery (s.setNotice n { s.noticeAgent n with
      queue := applyOutcome h o (s.noticeAgent n).queue, marker := .ready }) n := by
  simp only [takeOutcome, hm, if_true]

theorem takeNoticeAck_sent (hm : (s.noticeAgent n).marker = .recordSent h) :
    takeNoticeAck s n h = present (s.setNotice n { s.noticeAgent n with marker := .acking h }) h (.acknowledge n h) :=
  if_pos hm

section NotSent

variable (hm : (s.noticeAgent n).marker ≠ .recordSent h)
include hm

theorem takeNoticeAck_absorbed (hr : (s.noticeAgent n).retracted = some (.handle h)) : takeNoticeAck s n h =
    if (s.noticeAgent n).marker = .acking h then s else s.setNotice n { s.noticeAgent n with retracted := none } := by
  simp only [takeNoticeAck, if_neg hm, if_pos hr]

theorem takeNoticeAck_stray (hr : (s.noticeAgent n).retracted ≠ some (.handle h)) :
    takeNoticeAck s n h = reportNotice s .linkProtocol n := by
  simp only [takeNoticeAck, if_neg hm, if_neg hr]

end NotSent

end Answers

/-- Settles O48: the answer, the outcome and the acknowledgement, each by the marker. -/
theorem answersOutcomesAndAcknowledgements : Obligations.AnswersOutcomesAndAcknowledgements := by
  refine ⟨fun s d era n h granted rest hhead hera => ?answer,
    fun s d era n h o rest pre post e hhead hera hm hq he hpre hpost => ?outcome,
    fun s n h era rest hhead hera => ?ack⟩
  case answer =>
    intro u a
    have hexec := exec_claimAnswer hhead hera
    refine ⟨fun hm => ?_, fun hm hg => ?_, fun hm hg hq => ?_, fun pre post e hm hg hq he hpre => ?_⟩
    · exact hexec.trans (congrArg _ (takeAnswer_unnamed (s := u) hm))
    · subst hg
      exact hexec.trans (congrArg _ (takeAnswer_declined (s := u) hm))
    · subst hg
      exact hexec.trans (congrArg _ (takeAnswer_noEntry (s := u) hm (findEntry_none hq)))
    · subst hg
      have hfind : findEntry h (u.noticeAgent n).queue = some e := by
        rw [show (u.noticeAgent n).queue = _ from hq]
        exact findEntry_first he hpre
      exact hexec.trans (congrArg _ ((takeAnswer_granted (s := u) hm hfind).trans (handNotice_eq ..)))
  case outcome =>
    intro after
    have hexec {q : List Entry} (hq' : applyOutcome h o (s.noticeAgent n).queue = q) :
        exec (.acknowledgementOutcome (some d)) s = .next (after q) :=
      hq' ▸ (exec_acknowledgementOutcome hhead hera).trans (congrArg _ (takeOutcome_acking (s := messageTaken s d rest) hm o))
    refine ⟨fun m ho hf => hexec ?_, fun ho hf => hexec ?_, fun ho => hexec ?_, fun ho => hexec ?_⟩ <;> rw [hq, ho]
    · exact promoteEntry_some he hpre hpost hf
    · exact promoteEntry_none he hpre hf
    · exact dropEntry_one he hpre hpost
    · rfl
  case ack =>
    intro a
    let u := s.setNotice n a
    have hu : u.noticeAgent n = a := setNotice_noticeAgent_same ..
    have hexec : exec (.noticeAck n) s = .next (takeNoticeAck u n h) := exec_noticeAck hhead hera
    refine ⟨fun d hm hd => ?_, fun hm hr => ?_, fun h1 h2 hr => ?_, fun hm hr => ?_⟩
    · rw [hexec, takeNoticeAck_sent (s := u) (hu.symm ▸ hm), present_owned (by exact hd), hu, setNotice_setNotice]
      rfl
    · rw [hexec, takeNoticeAck_absorbed (s := u) (by rw [hu, hm]; simp) (hu.symm ▸ hr), hu, if_pos hm]
    · rw [hexec, takeNoticeAck_absorbed (s := u) (hu.symm ▸ h1) (hu.symm ▸ hr), hu, if_neg h2, setNotice_setNotice]
    · rw [hexec, takeNoticeAck_stray (s := u) (hu.symm ▸ hm) (hu.symm ▸ hr)]

/-! ### Reclaims, losses of domains, link resets (R112, R113, R114) -/

section Emptying

variable {s : State} {n : AgentId}

theorem exec_noticeReclaim {era : Nat} {rest : List Nat} (hhead : (s.noticeAgent n).reclaims = era :: rest)
    (hera : s.notice.era ≤ era) : exec (.noticeReclaim n) s = .next (beginDelivery ((forgetReads n s).setNotice n (retract
      { s.noticeAgent n with reclaims := rest, reclaimed := (s.noticeAgent n).reclaimed + 1, queue := [] })) n) := by
  change execNoticeReclaim n s = _
  simp only [execNoticeReclaim, hhead]
  exact if_neg (Nat.not_lt.mpr hera)

theorem forget_named {x : PostRead} (h : x = .asked n ∨ ∃ st, x = .answered n st) : x.forget n = .idle := by
  obtain rfl | ⟨st, rfl⟩ := h <;> simp [PostRead.forget]

theorem forget_other {x : PostRead} (h : x ≠ .asked n) (hst : ∀ st, x ≠ .answered n st) : x.forget n = x := by
  cases x with
  | idle => rfl
  | asked a => exact if_neg fun (g : a = n) => h (g ▸ rfl)
  | answered a st => exact if_neg fun (g : a = n) => hst st (g ▸ rfl)

/-! What a delivery does to the agent it is begun for, and to no other. -/

@[simp] theorem handNotice_noticeAgent (s : State) (n : AgentId) (m : NoticeMsg) (k : AgentId) :
    (handNotice s n m).noticeAgent k = s.noticeAgent k := rfl

@[simp] theorem present_noticeAgent (s : State) (h : Handle) (x : NoticeAsk) (k : AgentId) :
    (present s h x).noticeAgent k = s.noticeAgent k := by
  unfold present
  split <;> rfl

theorem beginDelivery_noticeAgent_ne (s : State) {n k : AgentId} (h : k ≠ n) :
    (beginDelivery s n).noticeAgent k = s.noticeAgent k := by
  simp only [beginDelivery]
  split
  · split
    · rw [handNotice_noticeAgent, setNotice_noticeAgent_ne _ _ h]
    · split
      · rw [present_noticeAgent, setNotice_noticeAgent_ne _ _ h]
      · rfl
  all_goals rfl

/-- The agent's entry after its delivery comes of the entry alone. -/
theorem beginDelivery_noticeAgent_congr {t : State} (h : t.noticeAgent n = s.noticeAgent n) :
    (beginDelivery t n).noticeAgent n = (beginDelivery s n).noticeAgent n := by
  simp only [beginDelivery, h]
  split
  · split
    · simp
    · split
      · simp
      · exact h
  all_goals exact h

theorem deliveries_noticeAgent {l : List AgentId} (hl : l.Nodup) (u : State) (n : AgentId) :
    (l.foldl beginDelivery u).noticeAgent n = if n ∈ l then (beginDelivery u n).noticeAgent n else u.noticeAgent n := by
  induction l generalizing u with
  | nil => rfl
  | cons k rest ih =>
    obtain ⟨hk, hrest⟩ := List.nodup_cons.mp hl
    rw [List.foldl_cons, ih hrest]
    by_cases hn : n = k
    · subst hn
      rw [if_neg hk, if_pos List.mem_cons_self]
    · have hkept := beginDelivery_noticeAgent_ne u hn
      simp only [List.mem_cons, hn, false_or, hkept, beginDelivery_noticeAgent_congr hkept]

/-! The loss of a domain (R113). -/

section Loss

variable {banks : BitVec 16} {a : NoticeAgent}

theorem deliversFrom_iff : deliversFrom banks a = true ↔
    ∃ h, (a.marker = .claiming h ∨ a.marker = .recordSent h ∨ a.marker = .acking h) ∧ inBanks banks h.slot = true := by
  simp only [deliversFrom, ← marker_handle_iff]
  cases a.marker.handle? <;> simp

/-- The queue with the entries of the banks frozen. -/
def NoticeAgent.frozenBy (a : NoticeAgent) (banks : BitVec 16) : NoticeAgent :=
  { a with queue := a.queue.map (fun e => { e with frozen := e.frozen || inBanks banks e.handle.slot }) }

theorem loseBanks_eq : loseBanks banks a = if deliversFrom banks a then retract (a.frozenBy banks) else a.frozenBy banks := by
  have hfrozen (e : Entry) : (if inBanks banks e.handle.slot then { e with frozen := true } else e) =
      { e with frozen := e.frozen || inBanks banks e.handle.slot } := by
    cases inBanks banks e.handle.slot <;> simp
  cases hm : a.marker.handle? with
  | none =>
    simp only [loseBanks, deliversFrom, hfrozen, hm]
    rfl
  | some h =>
    simp only [loseBanks, deliversFrom, hfrozen, hm]
    rfl

theorem retract_delivering (h : deliversFrom banks a = true) : retract a = { a with
    marker := .ready
    retracted := match a.marker with
      | .recordSent h | .acking h => some (.handle h)
      | _ => a.retracted } := by
  obtain ⟨k, hk | hk | hk, -⟩ := deliversFrom_iff.mp h <;> simp only [retract, hk]

theorem exec_domainLoss {d : DomainId} {era : Nat} {rest : List DomainNotice} (hhead : (s.domain d).toNotice = ⟨era, .loss banks⟩ :: rest)
    (hera : s.notice.era ≤ era) : exec (.domainLoss d) s =
      .next (((List.finRange 16).filter (fun n => deliversFrom banks (s.noticeAgent n))).foldl beginDelivery
        { messageTaken s d rest with notice := { s.notice with agents := mapTable (loseBanks banks) s.notice.agents } }) := by
  change execDomainLoss d s = _
  simp only [execDomainLoss, headMessage_eq hhead, staleMessage_new hera, dropHead_eq hhead]
  rfl

end Loss

theorem exec_noticeLinkReset (h : 0 < (s.link n).noticeResets) : exec (.noticeLinkReset n) s =
    .next (takeLinkReset (s.setLink n { s.link n with noticeResets := (s.link n).noticeResets - 1 }) n) := if_pos h

theorem takeLinkReset_recordSent {h : Handle} (hm : (s.noticeAgent n).marker = .recordSent h) : takeLinkReset s n =
    beginDelivery (present (s.setNotice n { s.noticeAgent n with marker := .ready, retracted := some (.handle h) }) h
      (.revert h)) n := by
  simp only [takeLinkReset, hm]

theorem takeLinkReset_sessionSent {y : Conditions} (hm : (s.noticeAgent n).marker = .sessionSent y) : takeLinkReset s n =
    beginDelivery (s.setNotice n { s.noticeAgent n with marker := .ready, retracted := some .session }) n := by
  simp only [takeLinkReset, hm]

theorem takeLinkReset_other (hr : ∀ h, (s.noticeAgent n).marker ≠ .recordSent h)
    (hs : ∀ y, (s.noticeAgent n).marker ≠ .sessionSent y) : takeLinkReset s n = s := by
  simp only [takeLinkReset]
  split
  · next h heq => exact absurd heq (hr h)
  · next y heq => exact absurd heq (hs y)
  all_goals rfl

end Emptying

/-- Settles O49: the reclaim and the link reset by the marker, the loss by its deliveries one after another. -/
theorem reclaimLossAndLinkReset : Obligations.ReclaimLossAndLinkReset := by
  refine ⟨fun s n era rest hhead hera => ?reclaim, fun s d era banks rest hit hhead hera hsorted hmem => ?loss,
    fun s n hpos => ?link⟩
  case reclaim =>
    intro a
    refine ⟨mapTable (PostRead.forget n) s.notice.reads, fun d => ?reads, ?deliveries⟩
    case reads =>
      rw [look_mapTable]
      exact ⟨forget_named, forget_other⟩
    case deliveries =>
      intro u
      have hexec : exec (.noticeReclaim n) s = .next (beginDelivery (u.setNotice n (retract a)) n) :=
        exec_noticeReclaim hhead hera
      refine ⟨fun h hm => ?_, fun h hm => ?_, fun y hm => ?_⟩
      · rw [hexec, retract_sent hm]
      · rw [hexec, retract_claiming hm]
      · have hnone : a.marker.handle? = none := by obtain hm | hm := hm <;> rw [hm] <;> rfl
        rw [hexec, retract_other hnone]
  case loss =>
    have hhit : (List.finRange 16).filter (fun n => deliversFrom banks (s.noticeAgent n)) = hit := by
      refine List.Pairwise.eq_of_mem_iff ((List.sortedLT_finRange 16).pairwise.filter _) hsorted fun n => ?_
      rw [List.mem_filter, hmem, deliversFrom_iff]
      simp
    have hexec := exec_domainLoss hhead hera
    rw [hhit] at hexec
    have hagent (n : AgentId) : State.noticeAgent { messageTaken s d rest with
        notice := { s.notice with agents := mapTable (loseBanks banks) s.notice.agents } } n =
        loseBanks banks (s.noticeAgent n) := look_mapTable ..
    have hdelivers (n : AgentId) : deliversFrom banks (s.noticeAgent n) = true ↔ n ∈ hit := by rw [deliversFrom_iff, hmem]
    refine ⟨_, rfl, fun n hn => ?kept, fun n hn => ?retracted, hexec, fun t ht => ?after⟩
    case kept =>
      rw [hagent, loseBanks_eq, if_neg (mt (hdelivers n).mp hn)]
      rfl
    case retracted =>
      rw [hagent, loseBanks_eq, if_pos ((hdelivers n).mpr hn)]
      exact retract_delivering (a := (s.noticeAgent n).frozenBy banks) ((hdelivers n).mpr hn)
    case after =>
      have hnodup : hit.Nodup := hsorted.imp fun h => ne_of_lt h
      obtain rfl := eq_of_next (hexec.symm.trans ht)
      exact ⟨fun n hn => (deliveries_noticeAgent hnodup _ n).trans (if_pos hn),
        fun n hn => (deliveries_noticeAgent hnodup _ n).trans (if_neg hn)⟩
  case link =>
    intro u a
    have hexec := exec_noticeLinkReset hpos
    refine ⟨fun h d hm hd => ?_, fun y hm => ?_, fun hr hs => ?_⟩
    · refine hexec.trans (congrArg _ ((takeLinkReset_recordSent (s := u) hm).trans (congrArg (beginDelivery · n) ?_)))
      exact present_owned (by exact hd) _
    · exact hexec.trans (congrArg _ (takeLinkReset_sessionSent (s := u) hm))
    · exact hexec.trans (congrArg _ (takeLinkReset_other (s := u) hr hs))

end Sys2Proof.Machine
end

section
/-! Reads of a slot with their repairs and corrections (R165, R166), the visits of a scrub (R10, R11) and the examinations of a walk
(R182, R183). -/

set_option Elab.async false

namespace Sys2Proof.Machine

/-! ### What a read of a slot repairs, corrects and reports (R165, R166) -/

/-- The slot with the value read written to all three copies of its directory entry. -/
def Slot.repaired (z : Slot) : Slot :=
  z.withDirectory z.directory

/-- The slot after the read of its record: a single bit is corrected. -/
def Slot.corrected (z : Slot) : Slot :=
  { z with health := if z.health = .oneBit then .clean else z.health }

/-- What the repair of the directory entry of slot `i` reports. -/
def repairReports (e : DomainEnv) (i : SlotId) (z : Slot) : List Report :=
  if z.agrees = true then []
  else [⟨.recordCorrected, some e.id, if z.directory.free = true ∨ z.health = .manyBits then none else some z.record.owner,
    some i, none, e.now⟩]

/-- What the read of the record of slot `i` reports. -/
def recordReports (e : DomainEnv) (i : SlotId) (z : Slot) : List Report :=
  match z.health with
  | .clean => []
  | .oneBit => [⟨.recordCorrected, some e.id, correctedOwner z, some i, none, e.now⟩]
  | .manyBits => [⟨.recordUncorrectable, some e.id, none, some i, none, e.now⟩]

theorem repaired_directory (z : Slot) : z.repaired.directory = z.directory :=
  majority_same z.directory

theorem repaired_of_agrees {z : Slot} (h : z.agrees = true) : z.repaired = z := by
  obtain ⟨a, b, c, r, k⟩ := z
  obtain ⟨rfl, rfl⟩ : a = b ∧ b = c := by simpa [Slot.agrees] using h
  simp [Slot.repaired, Slot.withDirectory, Slot.directory]

theorem corrected_of_health {z : Slot} (h : z.health ≠ .oneBit) : z.corrected = z := by
  simp [Slot.corrected, h]

section Read

variable (e : DomainEnv) (i : SlotId) {t : LockTable} (hp : Pool.wf t.pool = true)

/-- The table after a read that reported `l` and left the pool `p`. -/
def LockTable.readBy (t : LockTable) (l : List Report) (p : Pool) : LockTable :=
  ⟨{ t.dom with reports := t.dom.reports ++ l }, p⟩

theorem readBy_nil (t : LockTable) : t.readBy [] t.pool = t := by
  simp [LockTable.readBy]

include hp

theorem repairDirectory_eq : ∃ p, repairDirectory e i t = t.readBy (repairReports e i (poolGet t.pool i)) p ∧
    Pool.wf p = true ∧ onlySlot i t.pool p ∧ poolGet p i = (poolGet t.pool i).repaired := by
  by_cases h : (poolGet t.pool i).agrees = true
  · refine ⟨t.pool, ?_, hp, fun j _ => rfl, (repaired_of_agrees h).symm⟩
    rw [repairDirectory_agrees e h, repairReports, if_pos h, readBy_nil]
  · refine ⟨poolPut t.pool i (poolGet t.pool i).repaired, ?_, wf_poolPut hp i _, onlySlot_poolPut t.pool i _, ?_⟩
    · have howner : (if (poolGet t.pool i).health == .manyBits then none else correctedOwner (poolGet t.pool i)) =
          if (poolGet t.pool i).directory.free = true ∨ (poolGet t.pool i).health = .manyBits then none
          else some (poolGet t.pool i).record.owner := by
        cases (poolGet t.pool i).health <;> simp [correctedOwner]
      simp only [repairDirectory, if_neg h, howner, repairReports]
      rfl
    · rw [poolGet_poolPut hp, if_pos rfl]

theorem probeRecord_eq : ∃ p, probeRecord e i t =
      ((poolGet t.pool i).health != .manyBits, t.readBy (recordReports e i (poolGet t.pool i)) p) ∧
    Pool.wf p = true ∧ onlySlot i t.pool p ∧ poolGet p i = (poolGet t.pool i).corrected := by
  cases h : (poolGet t.pool i).health with
  | clean =>
    refine ⟨t.pool, ?_, hp, fun j _ => rfl, (corrected_of_health (by simp [h])).symm⟩
    rw [probeRecord_clean e h, recordReports, h, readBy_nil]
    rfl
  | manyBits =>
    refine ⟨t.pool, ?_, hp, fun j _ => rfl, (corrected_of_health (by simp [h])).symm⟩
    rw [probeRecord_lost e h, recordReports, h]
    rfl
  | oneBit =>
    refine ⟨poolPut t.pool i { poolGet t.pool i with health := .clean }, ?_, wf_poolPut hp i _, onlySlot_poolPut t.pool i _, ?_⟩
    · simp only [probeRecord, h, recordReports]
      rfl
    · rw [poolGet_poolPut hp, if_pos rfl]
      simp [Slot.corrected, h]

omit hp in
theorem probe_free (h : (poolGet t.pool i).directory.free = true) :
    probe e i t = (.free (poolGet t.pool i).directory.gen, repairDirectory e i t) := by
  simp only [probe, h, if_true]

theorem probe_used (h : (poolGet t.pool i).directory.free = false) : ∃ p, probe e i t =
      (if (poolGet t.pool i).health = .manyBits then .bad (poolGet t.pool i).directory.gen
        else .good (poolGet t.pool i).directory.gen (poolGet t.pool i).record,
      t.readBy (repairReports e i (poolGet t.pool i) ++ recordReports e i (poolGet t.pool i)) p) ∧
    Pool.wf p = true ∧ onlySlot i t.pool p ∧ poolGet p i = (poolGet t.pool i).repaired.corrected := by
  obtain ⟨p, hrepair, hwf, honly, hslot⟩ := repairDirectory_eq e i hp
  have hreports : recordReports e i (poolGet t.pool i).repaired = recordReports e i (poolGet t.pool i) := by
    have howner : correctedOwner (poolGet t.pool i).repaired = correctedOwner (poolGet t.pool i) := by
      simp only [correctedOwner, repaired_directory]
      rfl
    unfold recordReports
    rw [howner]
    rfl
  obtain ⟨q, hread, hwf', honly', hslot'⟩ := probeRecord_eq e i
    (t := t.readBy (repairReports e i (poolGet t.pool i)) p) hwf
  have hpool : poolGet (t.readBy (repairReports e i (poolGet t.pool i)) p).pool i = (poolGet t.pool i).repaired := hslot
  rw [hpool, hreports] at hread
  rw [hpool] at hslot'
  refine ⟨q, ?_, hwf', honly.trans honly', hslot'⟩
  have hrecord : recordOf q i = (poolGet t.pool i).record := by
    rw [recordOf, hslot']
    rfl
  have hhealth : (poolGet t.pool i).repaired.health = (poolGet t.pool i).health := rfl
  simp only [probe, h, hrepair, hread, hhealth]
  simp only [LockTable.readBy, List.append_assoc, hrecord]
  cases (poolGet t.pool i).health <;> rfl

end Read

/-! ### The visit of a slot by a scrub (R10, R11) -/

/-- The domain once its scrub has passed slot `i`. -/
def Domain.scrubbedPast (y : Domain) (i : SlotId) : Domain :=
  match nextSlot y.banks (some i) with
  | some j => { y with scrubPos := some j }
  | none => { y with
    state := .disabled, scrubPos := none, freeList := [], waitQueue := [], occupancy := [], tokenMap := [] }

theorem advanceScrub_eq (i : SlotId) (t : LockTable) : advanceScrub i t = ⟨t.dom.scrubbedPast i, t.pool⟩ := by
  unfold advanceScrub Domain.scrubbedPast
  cases nextSlot t.dom.banks (some i) <;> rfl

section Visit

variable (e : DomainEnv) {i : SlotId} {t : LockTable} (hp : Pool.wf t.pool = true)

theorem visitSlot_free (h : (poolGet t.pool i).directory.free = true) :
    visitSlot e i t = advanceScrub i (repairDirectory e i t) := by
  simp only [visitSlot, probe_free e i h]

/-- The domain of a slot visit that reported `l` and asked for the removal of the handle. -/
def Domain.scrubReported (x : Domain) (l : List Report) (h : Handle) : Domain :=
  { x with toNotice := x.toNotice ++ [⟨x.era, .scrubRemove h⟩], reports := x.reports ++ l }

include hp

theorem visitSlot_used (h : (poolGet t.pool i).directory.free = false) : ∃ p, visitSlot e i t =
      ⟨(t.dom.scrubReported (repairReports e i (poolGet t.pool i) ++ recordReports e i (poolGet t.pool i))
        ⟨i, (poolGet t.pool i).directory.gen⟩).scrubbedPast i, p⟩ ∧
    onlySlot i t.pool p ∧ poolGet p i = retired (poolGet t.pool i).directory.gen := by
  obtain ⟨p, hprobe, hwf, honly, hslot⟩ := probe_used e i hp h
  have hgen : genOf p i = (poolGet t.pool i).directory.gen := by
    rw [genOf, hslot]
    exact congrArg DirCopy.gen (repaired_directory _)
  refine ⟨freeSlot p i, ?_, honly.trans (onlySlot_freeSlot p i), by rw [poolGet_freeSlot_same hwf, hgen]⟩
  have hvisit : visitSlot e i t = advanceScrub i (scrubSlot i (t.readBy
      (repairReports e i (poolGet t.pool i) ++ recordReports e i (poolGet t.pool i)) p)) := by
    simp only [visitSlot, hprobe]
    cases (poolGet t.pool i).health <;> rfl
  rw [hvisit, advanceScrub_eq]
  simp only [scrubSlot, tell, handleOf, LockTable.readBy, hgen]
  rfl

end Visit

theorem exec_scrubVisit {s : State} {d : DomainId} {i : SlotId} (h : (s.domain d).state = .scrubbing)
    (hpos : (s.domain d).scrubPos = some i) :
    exec (.scrubVisit d) s = .next (s.withTable d (visitSlot (envOf s d) i (s.table d))) := by
  change execScrubVisit d s = _
  simp only [execScrubVisit, h, hpos]

/-- Settles O17: the visit of a FREE slot repairs its directory entry, that of another frees it. -/
theorem scrubVisit : Obligations.ScrubVisit := by
  intro s d i hwf hstate hpos x z reported repair moved
  have hexec := exec_scrubVisit hstate hpos
  refine ⟨fun hfree => ⟨fun hagrees => ?agree, ?repaired⟩, fun hused => ?used⟩
  case agree =>
    rw [hexec, visitSlot_free (t := s.table d) _ hfree, repairDirectory_agrees (t := s.table d) _ hagrees, advanceScrub_eq]
    rfl
  case repaired =>
    obtain ⟨p, hrepair, -, honly, hslot⟩ := repairDirectory_eq (envOf s d) i (t := s.table d) hwf
    refine ⟨p, ?_, honly, hslot⟩
    rw [hexec, visitSlot_free (t := s.table d) _ hfree, hrepair, advanceScrub_eq]
    rfl
  case used =>
    intro read
    obtain ⟨p, hvisit, honly, hslot⟩ := visitSlot_used (envOf s d) (t := s.table d) hwf hused
    have hread : recordReports (envOf s d) i z = read := by
      have howner : correctedOwner z = some z.record.owner := by simp [correctedOwner, z, hused]
      unfold recordReports read
      simp only [howner] <;> rfl
    refine ⟨p, ?_, honly, hslot⟩
    rw [hexec, hvisit, show recordReports _ i (poolGet (s.table d).pool i) = read from hread]
    unfold Domain.scrubReported
    rw [← List.append_assoc]
    rfl

/-! ### The examinations of a walk (R182, R183) -/

theorem withTable_table (s : State) (d : DomainId) : s.withTable d (s.table d) = s := by
  have hkept : s.withTable d (s.table d) = s.setDomain d (s.domain d) := withTable_sameState rfl
  rw [hkept]
  simp [State.setDomain, State.domain]

section Probe

variable (e : DomainEnv) {i : SlotId} {t : LockTable} (ha : (poolGet t.pool i).agrees = true)
  (hf : (poolGet t.pool i).directory.free = false)
include ha hf

theorem probe_clean (h : (poolGet t.pool i).health = .clean) :
    probe e i t = (.good (poolGet t.pool i).directory.gen (recordOf t.pool i), t) := by
  simp only [probe, hf, repairDirectory_agrees e ha, probeRecord_clean e h]
  rfl

theorem probe_lost (h : (poolGet t.pool i).health = .manyBits) :
    probe e i t = (.bad (poolGet t.pool i).directory.gen, report e .recordUncorrectable none (some i) none t) := by
  simp only [probe, hf, repairDirectory_agrees e ha, probeRecord_lost e h]
  rfl

end Probe

section Examine

variable {e : DomainEnv} {f : Option AgentId} {i : SlotId} {t : LockTable} (ha : (poolGet t.pool i).agrees = true)
include ha

theorem examine_free (hf : (poolGet t.pool i).directory.free = true) : examine e f i t = (.passed, t) := by
  simp only [examine, probe_free e i hf, repairDirectory_agrees e ha]

variable (hf : (poolGet t.pool i).directory.free = false)
include hf

theorem examine_filtered (h : (poolGet t.pool i).health = .clean) {a : AgentId} (hfilter : f = some a)
    (howner : (poolGet t.pool i).record.owner ≠ a) : examine e f i t = (.passed, t) := by
  have hout : filteredOut f (recordOf t.pool i) = true := by simp [filteredOut, hfilter, recordOf, howner]
  simp only [examine, probe_clean e ha hf h, hout, if_true]

theorem examine_found (h : (poolGet t.pool i).health = .clean)
    (hfilter : f = none ∨ f = some (poolGet t.pool i).record.owner) : examine e f i t =
      (.reported ⟨e.id, i, (poolGet t.pool i).directory.gen, false, some (poolGet t.pool i).record,
        queuePosition i (poolGet t.pool i).record t⟩, t) := by
  have hin : filteredOut f (recordOf t.pool i) = false := by
    obtain rfl | rfl := hfilter <;> simp [filteredOut, recordOf]
  simp only [examine, probe_clean e ha hf h, hin]
  rfl

theorem examine_lost (h : (poolGet t.pool i).health = .manyBits) : examine e f i t =
    (.reported ⟨e.id, i, (poolGet t.pool i).directory.gen, true, none, 0⟩,
      quarantine (report e .recordUncorrectable none (some i) none t)) := by
  simp only [examine, probe_lost e ha hf h]

end Examine

theorem quarantine_fields (t : LockTable) : (quarantine t).pool = t.pool ∧ (quarantine t).dom.reports = t.dom.reports ∧
    (quarantine t).dom.state = if t.dom.state = .enabled ∨ t.dom.state = .closing then .quarantined else t.dom.state := by
  unfold quarantine
  by_cases h : t.dom.serves = true
  · have hstate : t.dom.state = .enabled ∨ t.dom.state = .closing := by simpa [Domain.serves] using h
    rw [if_pos h, if_pos hstate]
    exact ⟨rfl, rfl, rfl⟩
  · have hstate : ¬(t.dom.state = .enabled ∨ t.dom.state = .closing) := by simpa [Domain.serves] using h
    rw [if_neg h, if_neg hstate]
    exact ⟨rfl, rfl, rfl⟩

section Walk

variable {s : State} {d : DomainId} {f : Option AgentId} {p : Option SlotId} {i : SlotId}

theorem exec_walkNext {arg : Word} {dest : Option DomainId} (h : s.management.command = some (.handed .walkNext arg dest)) :
    exec (.walkNext .decide) s = .next (decideWalkNext arg dest s) := twoPhase_decide h

theorem exec_walkExamination (hc : s.management.command = some .searching) (hw : s.management.cursor = .walking d f p)
    (hi : nextSlot (s.domain d).banks p = some i) {x : Found} {t : LockTable}
    (hx : examine (envOf s d) f i (s.table d) = (x, t)) :
    exec .walkExamination s = .next (afterExamination d f i x (s.withTable d t)) := by
  change execWalkExamination s = _
  simp only [execWalkExamination, hc, hw, hi, hx]

end Walk

/-- Settles O22: WALK_NEXT by the cursor, an examination by what the slot holds. -/
theorem walkSearch : Obligations.WalkSearch := by
  refine ⟨fun s arg dest hc =>
      ⟨fun hcursor => ?none, fun hcursor => ?ended, fun d f p hcursor => ⟨fun hn => ?last, fun hn => ?next⟩⟩,
    fun s d f p i hc hw hi ha => ?examination⟩
  case none =>
    rw [exec_walkNext hc]
    simp only [decideWalkNext, hcursor]
  case ended =>
    rw [exec_walkNext hc]
    simp only [decideWalkNext, hcursor]
  case last =>
    rw [exec_walkNext hc]
    simp only [decideWalkNext, hcursor, hn]
    rfl
  case next =>
    obtain ⟨j, hj⟩ := Option.ne_none_iff_exists'.mp hn
    rw [exec_walkNext hc]
    simp only [decideWalkNext, hcursor, hj]
    rfl
  case examination =>
    intro x z passed
    have hpassed (hx : examine (envOf s d) f i (s.table d) = (.passed, s.table d)) : exec .walkExamination s = .next passed := by
      rw [exec_walkExamination hc hw hi hx, withTable_table]
      simp only [afterExamination, passed, x]
      cases nextSlot (s.domain d).banks (some i) <;> rfl
    refine ⟨fun hf => hpassed (examine_free ha hf), fun hf hh hfilter => ?filtered, fun hf hh hfilter => ?found, fun hf hh => ?lost⟩
    case filtered =>
      obtain ⟨a, hfa, howner⟩ := hfilter
      exact hpassed (examine_filtered ha hf hh hfa howner)
    case found =>
      rw [exec_walkExamination hc hw hi (examine_found ha hf hh hfilter), withTable_table]
      rfl
    case lost =>
      have hexec := exec_walkExamination hc hw hi (examine_lost ha hf hh)
      obtain ⟨hpool, hreports, hstate⟩ :=
        quarantine_fields (report (envOf s d) .recordUncorrectable none (some i) none (s.table d))
      generalize quarantine (report (envOf s d) .recordUncorrectable none (some i) none (s.table d)) = u
        at hexec hpool hreports hstate
      have hkept : u.dom.state ≠ .disabled ∨ (s.domain d).state = .disabled := by
        rw [hstate]
        split
        · exact .inl (by simp)
        · exact (em _).symm
      rw [show s.withTable d u = s.putTable d u.dom u.pool from withTable_putTable s d u.dom u.pool hkept] at hexec
      have hdom : (s.putTable d u.dom u.pool).domain d = u.dom := look_put_same ..
      exact ⟨_, hexec, hpool, rfl, (congrArg Domain.state hdom).trans hstate, (congrArg Domain.reports hdom).trans hreports⟩

end Sys2Proof.Machine
end

section
/-! What the writes of one slot's record leave (R16, R64, R67, R68, R102), the requests as a domain takes them (R26), and the
refusals of an ACQUIRE in its searches (R30 to R36). -/

set_option Elab.async false

namespace Sys2Proof.Machine

/-! ### The record of one slot written -/

/-- The pool `q` differs from `p` at most in slot `i`, whose record is `r` with a valid code, its directory entry as it was. -/
structure Written (p : Pool) (i : SlotId) (r : Record) (q : Pool) : Prop where
  wf : Pool.wf q = true
  slot : poolGet q i = { poolGet p i with record := r, health := .clean }
  others : onlySlot i p q

section Written

variable {p q : Pool} {i : SlotId} {r : Record}

theorem Written.refl (hp : Pool.wf p = true) (h : (poolGet p i).health = .clean) : Written p i (recordOf p i) p :=
  ⟨hp, by rw [← h]; rfl, fun _ _ => rfl⟩

theorem Written.write (w : Written p i r q) (r' : Record) : Written p i r' (writeRecord q i r') := by
  refine ⟨wf_writeRecord w.wf i r', ?_, w.others.trans (onlySlot_writeRecord q i r')⟩
  rw [poolGet_writeRecord w.wf, if_pos rfl, w.slot]

theorem written_writeRecord (hp : Pool.wf p = true) (i : SlotId) (r : Record) : Written p i r (writeRecord p i r) := by
  refine ⟨wf_writeRecord hp i r, ?_, onlySlot_writeRecord p i r⟩
  rw [poolGet_writeRecord hp, if_pos rfl]

variable (w : Written p i r q)
include w

theorem Written.record : recordOf q i = r := by
  rw [recordOf, w.slot]

theorem Written.gen : genOf q i = genOf p i := by
  rw [genOf, w.slot]
  rfl

theorem Written.handle : handleOf q i = ⟨i, genOf p i⟩ := by
  rw [handleOf, w.gen]

theorem Written.readsClean (h : (poolGet p i).agrees = true) : (poolGet q i).readsClean = true := by
  rw [w.slot]
  exact h

theorem Written.slot_of_clean (h : (poolGet p i).health = .clean) : poolGet q i = { poolGet p i with record := r } := by
  rw [w.slot, ← h]

theorem Written.freed : poolGet (freeSlot q i) i = retired (genOf p i) ∧ onlySlot i p (freeSlot q i) :=
  ⟨by rw [poolGet_freeSlot_same w.wf, w.gen], w.others.trans (onlySlot_freeSlot q i)⟩

end Written

theorem readsClean_iff (z : Slot) : z.readsClean = true ↔ z.health = .clean ∧ z.agrees = true := by
  simp [Slot.readsClean]

/-! ### An event within the part, and its result -/

/-- An event after which the domain's state is as before leaves the walk of the domain alone. -/
theorem withTable_eq_putTable {s : State} {d : DomainId} {u : LockTable} (h : u.dom.state = (s.domain d).state) :
    s.withTable d u = s.putTable d u.dom u.pool :=
  withTable_putTable s d u.dom u.pool (by rw [h]; exact (em _).symm)

/-! ### The commands of the lock requests -/

section Request

variable {s : State} {d : DomainId} {q : LockRequest} {rest : List SessionItem} {h : Handle} {code : WaitCode}
  (hhead : (s.domain d).fromSession = .request q :: rest)
include hhead

theorem exec_release_request (hbody : q.body = .release h) : exec (.release d) s =
    .next (s.withTable d (decideRelease (envOf s d) q h (popSession (s.table d)))) := by
  obtain ⟨a, quota, live, stamp, era, body⟩ := q
  subst hbody
  change execRelease d s = _
  simp only [execRelease, hhead]

theorem exec_convertUp_request (hbody : q.body = .convertUp h code) : exec (.convertUp d) s =
    .next (s.withTable d (returnDecision q (fun _ => none)
      (decideConvertUp (envOf s d) q.agent h code (popSession (s.table d))))) := by
  obtain ⟨a, quota, live, stamp, era, body⟩ := q
  subst hbody
  change execConvertUp d s = _
  simp only [execConvertUp, hhead]

theorem exec_convertDown_request (hbody : q.body = .convertDown h) : exec (.convertDown d) s =
    .next (s.withTable d (returnDecision q (fun _ => none)
      (decideConvertDown (envOf s d) q.agent h (popSession (s.table d))))) := by
  obtain ⟨a, quota, live, stamp, era, body⟩ := q
  subst hbody
  change execConvertDown d s = _
  simp only [execConvertDown, hhead]

theorem exec_query_request (hbody : q.body = .query h) : exec (.query d) s =
    .next (s.withTable d (returnDecision q (fun _ => none)
      (decideQuery (envOf s d) q.agent h (popSession (s.table d))))) := by
  obtain ⟨a, quota, live, stamp, era, body⟩ := q
  subst hbody
  change execQuery d s = _
  simp only [execQuery, hhead]

/-- A decision that leaves the table as it stood once the request was taken is the domain's answer and nothing else. -/
theorem withTable_returnDecision_unchanged {live : Response → Option LiveChange} {x : Response} {r : Ran Response}
    (hr : r = .ok x (popSession (s.table d))) :
    s.withTable d (returnDecision q live r) = s.setDomain d ((s.domain d).answered rest q x (live x)) := by
  rw [hr]
  exact withTable_returnResult_popSession hhead q x (live x)

omit hhead in
/-- A decision that leaves the domain's state as it was writes domain and pool and nothing else. -/
theorem withTable_returnDecision {live : Response → Option LiveChange} {x : Response} {r : Ran Response} {u : LockTable}
    (hr : r = .ok x u) (hstate : u.dom.state = (s.domain d).state) : s.withTable d (returnDecision q live r) =
      s.putTable d { u.dom with toSession := u.dom.toSession ++ [.result q.agent q.stamp x (live x) q.era] } u.pool := by
  rw [hr]
  exact withTable_eq_putTable (u := returnResult q x (live x) u) hstate

end Request

/-! ### The searches of an ACQUIRE (R30 to R35) -/

section Searches

variable {e : DomainEnv} {a : AgentId} {mode : Mode} {first : Page} {count : Nat} {cookie : BitVec 16} {code : WaitCode}
  {t : LockTable}

/-- A hold of the agent itself conflicts with the claim (R30). -/
def selfConflicts (a : AgentId) (mode : Mode) (first : Page) (count : Nat) (t : LockTable) : Prop :=
  ∃ i ∈ t.dom.occupancy, (recordOf t.pool i).owner = a ∧
    conflicts mode first count (recordOf t.pool i) (recordOf t.pool i).hold = true

/-- The claim conflicts with no hold of the domain and with no claim of its wait queue (R32). -/
def claimClear (mode : Mode) (first : Page) (count : Nat) (t : LockTable) : Prop :=
  noHoldMeets t.pool mode first count t.dom.occupancy = true ∧ noClaimMeets t.pool mode first count t.dom.waitQueue = true

theorem decideAcquire_enabled {q : LockRequest} (hpage : t.dom.holds first = true)
    (hspan : lastPage first count ≤ t.dom.limit.toNat)
    (hstate : t.dom.state = .enabled) (hquota : q.live < q.quota) :
    decideAcquire e q mode first count cookie code t = decideInDomain e q.agent mode first count cookie code t := by
  simp [decideAcquire_inWindow hpage hspan, Domain.unavailable, hstate, Nat.not_le.mpr hquota]

variable (hholds : recordsClean t.pool t.dom.occupancy = true)
include hholds

theorem decideInDomain_selfConflict (h : selfConflicts a mode first count t) :
    decideInDomain e a mode first count cookie code t = .ok (.refused .selfConflict) t := by
  simp only [decideInDomain, readAll_clean e hholds, Ran.bind, (selfConflict_map t.pool a mode first count _).mpr h, if_true]

variable (hself : ¬ selfConflicts a mode first count t)
include hself

theorem decideInDomain_poolEmpty (hfree : t.dom.freeList = []) :
    decideInDomain e a mode first count cookie code t = .ok (.refused .poolEmpty) t := by
  simp only [decideInDomain, readAll_clean e hholds, Ran.bind, mt (selfConflict_map t.pool a mode first count _).mp hself, hfree]
  rfl

variable {i : SlotId} {fl : List SlotId} (hfree : t.dom.freeList = i :: fl) (hclaims : recordsClean t.pool t.dom.waitQueue = true)
include hfree hclaims

theorem decideInDomain_clear (h : claimClear mode first count t) : decideInDomain e a mode first count cookie code t =
    if t.dom.exhausted then .ok (.refused .tokensExhausted) t else grantAcquire e a mode first count cookie code i t := by
  simp only [decideInDomain, readAll_clean e hholds, readAll_clean e hclaims, Ran.bind,
    mt (selfConflict_map t.pool a mode first count _).mp hself, hfree, meetsHold_map, meetsClaim_map, h.1, h.2]
  rfl

theorem decideInDomain_notClear (h : ¬ claimClear mode first count t) : decideInDomain e a mode first count cookie code t =
    if code = 0 then .ok (.refused .conflict) t else queueAcquire e a mode first count cookie code i t := by
  have hmeets : (noHoldMeets t.pool mode first count t.dom.occupancy &&
      noClaimMeets t.pool mode first count t.dom.waitQueue) = false := by
    simpa [claimClear] using h
  simp only [decideInDomain, readAll_clean e hholds, readAll_clean e hclaims, Ran.bind,
    mt (selfConflict_map t.pool a mode first count _).mp hself, hfree, meetsHold_map, meetsClaim_map, Bool.not_not, hmeets]
  rfl

end Searches

/-- Settles O33: each clause is one search of `decideInDomain`, met after the searches before it have passed. -/
theorem acquireRefusedByItsSearches : Obligations.AcquireRefusedByItsSearches := by
  intro s d q rest mode first count cookie code hhead hbody hstate hpage hspan hquota hholds hclaims x refused selfConf grantable
  have hrefused {c : ResultRefusal} (h : decideInDomain (envOf s d) q.agent mode first count cookie code (popSession (s.table d)) =
      .ok (.refused c) (popSession (s.table d))) : exec (.acquire (some d)) s = refused c :=
    exec_acquire_refused hhead hbody ((decideAcquire_enabled (t := popSession (s.table d)) hpage hspan hstate hquota).trans h)
  refine ⟨fun h => hrefused (decideInDomain_selfConflict hholds h), fun hself hfree =>
    hrefused (decideInDomain_poolEmpty hholds hself hfree), fun hself hfree hclear hexhausted => ?exhausted,
    fun hself hfree hclear hcode => ?conflict⟩
  case exhausted =>
    obtain ⟨i, fl, hfl⟩ := List.exists_cons_of_ne_nil hfree
    exact hrefused ((decideInDomain_clear (t := popSession (s.table d)) hholds hself hfl hclaims hclear).trans (if_pos hexhausted))
  case conflict =>
    obtain ⟨i, fl, hfl⟩ := List.exists_cons_of_ne_nil hfree
    exact hrefused ((decideInDomain_notClear (t := popSession (s.table d)) hholds hself hfl hclaims hclear).trans (if_pos hcode))

end Sys2Proof.Machine
end

section
/-! An ACQUIRE granted at once or queued (R17, R32, R35, R38), and a CONVERT UP by its searches (R55 to R57). -/

set_option Elab.async false

namespace Sys2Proof.Machine

/-! ### Tokens and wait deadlines (R21, R38) -/

section Token

variable (e : DomainEnv) (a : AgentId) (i : SlotId) (p : Pool) {x : Domain}

theorem takeToken_advances (h : x.tokenCounter ≠ BitVec.allOnes 40) :
    takeToken e a i ⟨x, p⟩ = (x.tokenCounter, ⟨{ x with tokenCounter := x.tokenCounter + 1 }, p⟩) :=
  if_neg h

theorem takeToken_last (h : x.tokenCounter = BitVec.allOnes 40) : takeToken e a i ⟨x, p⟩ = (x.tokenCounter, ⟨{ x with
    exhausted := true, reports := x.reports ++ [⟨.tokensExhausted, some e.id, some a, some i, none, e.now⟩] }, p⟩) :=
  if_pos h

end Token

theorem waitDeadlineOf_waiting (e : DomainEnv) {code : WaitCode} (h : code ≠ 0) : waitDeadlineOf e code =
    if code = 7 then none else some (e.now + (look e.waits (Fin.ofNat 6 (code.val - 1))).setWidth 32) := by
  match code with
  | 0 => exact absurd rfl h
  | 1 | 2 | 3 | 4 | 5 | 6 | 7 => rfl

/-! ### An ACQUIRE granted or queued -/

section Acquire

variable {e : DomainEnv} {a : AgentId} {mode : Mode} {first : Page} {count : Nat} {cookie : BitVec 16} {code : WaitCode}
  {i : SlotId} {t : LockTable}

/-- The slot that an ACQUIRE fills (R17). -/
def filledSlot (g : Gen) (r : Record) : Slot :=
  { copyA := ⟨g, false⟩, copyB := ⟨g, false⟩, copyC := ⟨g, false⟩, record := r, health := .clean }

/-- The domain once the head of its free list has been filled for the agent (R17, R20). -/
def Domain.allocated (x : Domain) (a : AgentId) : Domain :=
  { x with freeList := x.freeList.tail, live := put x.live a (look x.live a + 1) }

theorem genOf_filled {p : Pool} {g : Gen} {r : Record} (h : poolGet p i = filledSlot g r) : genOf p i = g := by
  rw [genOf, h]
  exact congrArg DirCopy.gen (majority_same _)

variable (hp : Pool.wf t.pool = true) (hi : (poolGet t.pool i).readsClean = true)
include hp hi

theorem allocate_filled (r : Record) : ∃ p, allocate e i r t = .ok () ⟨t.dom.allocated r.owner, p⟩ ∧ Pool.wf p = true ∧
    poolGet p i = filledSlot (genOf t.pool i) r ∧ onlySlot i t.pool p :=
  ⟨_, allocate_clean e r hi, wf_poolPut hp i _, poolGet_poolPut_same hp i _, onlySlot_poolPut t.pool i _⟩

theorem queueAcquire_filled : ∃ p, queueAcquire e a mode first count cookie code i t =
      .ok (.queued ⟨i, genOf t.pool i⟩) ⟨{ t.dom.allocated a with waitQueue := t.dom.waitQueue ++ [i] }, p⟩ ∧
    poolGet p i = filledSlot (genOf t.pool i) (freshRecord a mode first count cookie code .waiting none (waitDeadlineOf e code)) ∧
    onlySlot i t.pool p := by
  obtain ⟨p, halloc, -, hslot, honly⟩ := allocate_filled (e := e) hp hi
    (freshRecord a mode first count cookie code .waiting none (waitDeadlineOf e code))
  refine ⟨p, ?_, hslot, honly⟩
  simp only [queueAcquire, halloc, Ran.bind, handleOf, genOf_filled hslot]
  rfl

theorem grantAcquire_filled {k : Token} {y : Domain}
    (htake : ∀ p, takeToken e a i ⟨t.dom.allocated a, p⟩ = (k, ⟨y, p⟩)) :
    ∃ p, grantAcquire e a mode first count cookie code i t = .ok (.granted ⟨i, genOf t.pool i⟩ k)
        ⟨{ y with occupancy := insertSlot i y.occupancy, tokenMap := y.tokenMap ++ [(k, i)] }, p⟩ ∧
      poolGet p i = filledSlot (genOf t.pool i) (freshRecord a mode first count cookie code .held (some k) none) ∧
      onlySlot i t.pool p := by
  obtain ⟨p, halloc, hwf, hslot, honly⟩ := allocate_filled (e := e) hp hi
    (freshRecord a mode first count cookie code .held none none)
  have hrecord : recordOf p i = freshRecord a mode first count cookie code .held none none := by
    rw [recordOf, hslot]
    rfl
  have w := written_writeRecord hwf i (freshRecord a mode first count cookie code .held (some k) none)
  refine ⟨_, ?_, w.slot.trans (by rw [hslot]; rfl), honly.trans w.others⟩
  have hbind : grantAcquire e a mode first count cookie code i t =
      let (k, t) := takeToken e a i ⟨t.dom.allocated a, p⟩
      let t := setRecord i { recordOf t.pool i with token := some k }
        { t with dom := { t.dom with
            occupancy := insertSlot i t.dom.occupancy
            tokenMap := t.dom.tokenMap ++ [(k, i)] } }
      .ok (.granted (handleOf t.pool i) k) t := by
    simp only [grantAcquire, halloc, Ran.bind]
    rfl
  rw [hbind, htake p]
  simp only [setRecord, hrecord]
  have hhandle := w.handle
  rw [genOf_filled hslot] at hhandle
  exact congrArg₂ Ran.ok (congrArg₂ Response.granted hhandle rfl) rfl

end Acquire

/-- Settles O34: the decision is that of `decideInDomain` past its refusals, and the slot is filled by `allocate_filled`. -/
theorem acquireGrantedOrQueued : Obligations.AcquireGrantedOrQueued := by
  intro s d q rest mode first count cookie code i fl hhead hbody hstate hpage hspan hquota hholds hclaims hself hfree hi hwf
    x k g filled grantable
  have hnone : ¬ selfConflicts q.agent mode first count (popSession (s.table d)) := by
    rintro ⟨j, hj, howner, hmeets⟩
    exact Bool.eq_false_iff.mp (hself j hj howner) hmeets
  have hdecide := decideAcquire_enabled (e := envOf s d) (t := popSession (s.table d)) (mode := mode) (cookie := cookie) (code := code)
    hpage hspan hstate hquota
  have hexec {r : Response} {u : LockTable} (hr : decideInDomain (envOf s d) q.agent mode first count cookie code
      (popSession (s.table d)) = .ok r u) (hu : u.dom.state = (s.domain d).state) : exec (.acquire (some d)) s =
      .next (s.putTable d { u.dom with toSession := u.dom.toSession ++ [.result q.agent q.stamp r (acquireReport r) q.era] } u.pool) :=
    (exec_acquire_request hhead hbody).trans (congrArg _ (withTable_returnDecision (hdecide.trans hr) hu))
  have hrest : x.fromSession.tail = rest := by rw [hhead]; rfl
  have hfl : x.freeList.tail = fl := by rw [hfree]; rfl
  refine ⟨fun hclear hexhausted => ?granted, fun hclear hcode => ?queued⟩
  case granted =>
    have hgrant := (decideInDomain_clear (t := popSession (s.table d)) (e := envOf s d) (cookie := cookie) (code := code)
      hholds hnone hfree hclaims hclear).trans (if_neg (Bool.eq_false_iff.mp hexhausted))
    by_cases hlast : k = BitVec.allOnes 40
    · obtain ⟨p, hran, hslot, honly⟩ := grantAcquire_filled (t := popSession (s.table d)) (e := envOf s d) (a := q.agent) (mode := mode)
        (first := first) (count := count) (cookie := cookie) (code := code) hwf hi (fun p => takeToken_last _ _ i p hlast)
      refine ⟨p, (hexec (hgrant.trans hran) rfl).trans ?_, hslot, honly⟩
      have hk : (k == BitVec.allOnes 40) = true := beq_iff_eq.mpr hlast
      simp only [if_pos hlast, hk, ← hrest, ← hfl]
      rfl
    · obtain ⟨p, hran, hslot, honly⟩ := grantAcquire_filled (t := popSession (s.table d)) (e := envOf s d) (a := q.agent) (mode := mode)
        (first := first) (count := count) (cookie := cookie) (code := code) hwf hi (fun p => takeToken_advances _ _ i p hlast)
      refine ⟨p, (hexec (hgrant.trans hran) rfl).trans ?_, hslot, honly⟩
      have hk : (k == BitVec.allOnes 40) = x.exhausted := (beq_eq_false_iff_ne.mpr hlast).trans hexhausted.symm
      simp only [if_neg hlast, hk, ← hrest, ← hfl]
      rfl
  case queued =>
    obtain ⟨p, hran, hslot, honly⟩ := queueAcquire_filled (t := popSession (s.table d)) (e := envOf s d) (a := q.agent) (mode := mode)
      (first := first) (count := count) (cookie := cookie) (code := code) hwf hi
    have hqueue := (decideInDomain_notClear (t := popSession (s.table d)) (e := envOf s d) (cookie := cookie) (code := code)
      hholds hnone hfree hclaims hclear).trans (if_neg hcode)
    rw [waitDeadlineOf_waiting _ hcode] at hslot
    refine ⟨p, (hexec (hqueue.trans hran) rfl).trans ?_, hslot, honly⟩
    rw [← hrest, ← hfl]
    rfl

/-! ### CONVERT UP (R55 to R57) -/

theorem queuedOver_map (p : Pool) (r : Record) (l : List SlotId) : queuedOver r (l.map fun i => (i, recordOf p i)) = true ↔
    ∃ i ∈ l, overlap r.first r.count (recordOf p i).first (recordOf p i).count = true := by
  simp [queuedOver]

section ConvertUp

variable {e : DomainEnv} {a : AgentId} {h : Handle} {code : WaitCode} {t : LockTable} (hcurrent : current t.dom t.pool h)
  (howner : (recordOf t.pool h.slot).owner = a)
include hcurrent howner

theorem decideConvertUp_wrongMode
    (hmode : ¬((recordOf t.pool h.slot).state = .held ∧ (recordOf t.pool h.slot).mode = .shared)) :
    decideConvertUp e a h code t = .ok (.refused .wrongMode) t := by
  simp only [decideConvertUp, requestedRecord_current e hcurrent howner, Ran.bind]
  exact if_pos (not_and_or.mp hmode)

variable (hheld : (recordOf t.pool h.slot).state = .held) (hshared : (recordOf t.pool h.slot).mode = .shared)
  (hclaims : recordsClean t.pool t.dom.waitQueue = true)
include hheld hshared hclaims

theorem decideConvertUp_upgradeConflict (hover : queuedOver (recordOf t.pool h.slot)
      (t.dom.waitQueue.map fun i => (i, recordOf t.pool i)) = true) :
    decideConvertUp e a h code t = .ok (.refused .upgradeConflict) t := by
  simp only [decideConvertUp, requestedRecord_current e hcurrent howner, Ran.bind, readAll_clean e hclaims, hover, hheld, hshared]
  rfl

variable (hover : ¬ queuedOver (recordOf t.pool h.slot) (t.dom.waitQueue.map fun i => (i, recordOf t.pool i)) = true)
  (hholds : recordsClean t.pool t.dom.occupancy = true)
include hover hholds

theorem decideConvertUp_searched : decideConvertUp e a h code t =
    if noHoldMeets t.pool .exclusive (recordOf t.pool h.slot).first (recordOf t.pool h.slot).count
        (t.dom.occupancy.filter (fun i => i != h.slot)) = true then
      if t.dom.exhausted then .ok (.refused .tokensExhausted) t
      else .ok (upgradeNow e h (recordOf t.pool h.slot) t).1 (upgradeNow e h (recordOf t.pool h.slot) t).2
    else if code = 0 then .ok (.refused .conflict) t
    else .ok (.queued h) (queueUpgrade e h code (recordOf t.pool h.slot) t) := by
  simp only [decideConvertUp, requestedRecord_current e hcurrent howner, Ran.bind, readAll_clean e hclaims, hover, hheld, hshared,
    readAll_clean e hholds, otherHolds_map, meetsHold_map, Bool.not_not]
  rfl

end ConvertUp

theorem upgradeNow_advances (e : DomainEnv) (h : Handle) (r : Record) (x : Domain) (p : Pool)
    (hk : x.tokenCounter ≠ BitVec.allOnes 40) : upgradeNow e h r ⟨x, p⟩ = (.converted h x.tokenCounter,
      ⟨{ x with tokenCounter := x.tokenCounter + 1, tokenMap := dropToken r.token x.tokenMap ++ [(x.tokenCounter, h.slot)] },
        writeRecord p h.slot { r with mode := .exclusive, token := some x.tokenCounter }⟩) := by
  simp only [upgradeNow, takeToken_advances e r.owner h.slot p hk]
  rfl

/-- Settles O37: the refusals and outcomes of `decideConvertUp` in their order. -/
theorem convertUp : Obligations.ConvertUp := by
  intro s d q rest h code hhead hbody hcurrent howner hwf hclaims hholds x r k refused queued clear
  have hexec := exec_convertUp_request hhead hbody
  have hrefused {c : ResultRefusal} (hc : decideConvertUp (envOf s d) q.agent h code (popSession (s.table d)) =
      .ok (.refused c) (popSession (s.table d))) : exec (.convertUp d) s = refused c :=
    hexec.trans (congrArg _ (withTable_returnDecision_unchanged hhead hc))
  have hclean : (poolGet s.pool h.slot).health = .clean := ((readsClean_iff _).mp (current_probe hcurrent).1).1
  have hrest : x.fromSession.tail = rest := by rw [hhead]; rfl
  refine ⟨fun hmode => hrefused (decideConvertUp_wrongMode hcurrent howner hmode), fun hheld hshared => ?_⟩
  have hsearched (hover : ¬ queued) := decideConvertUp_searched (e := envOf s d) (t := popSession (s.table d)) (code := code)
    hcurrent howner hheld hshared hclaims (mt (queuedOver_map s.pool r x.waitQueue).mp hover) hholds
  have hwritten (r' : Record) := written_writeRecord hwf h.slot r'
  refine ⟨fun hover => ?overlapped, fun hover hclear hexhausted => ?exhausted, fun hover hclear hexhausted hk => ?granted,
    fun hover hclear hcode => ?conflict, fun hover hclear hcode => ?queued⟩
  case overlapped =>
    exact hrefused (decideConvertUp_upgradeConflict (t := popSession (s.table d)) hcurrent howner hheld hshared hclaims
      ((queuedOver_map s.pool r x.waitQueue).mpr hover))
  case exhausted =>
    exact hrefused ((hsearched hover).trans ((if_pos hclear).trans (if_pos hexhausted)))
  case granted =>
    have hrun := (hsearched hover).trans ((if_pos hclear).trans (if_neg (Bool.eq_false_iff.mp hexhausted)))
    rw [show upgradeNow (envOf s d) h _ (popSession (s.table d)) = _ from upgradeNow_advances _ _ _ _ _ hk] at hrun
    refine ⟨_, (hexec.trans (congrArg _ (withTable_returnDecision hrun rfl))).trans ?_,
      (hwritten _).slot_of_clean hclean, (hwritten _).others⟩
    rw [← hrest]
    rfl
  case conflict =>
    exact hrefused ((hsearched hover).trans ((if_neg hclear).trans (if_pos hcode)))
  case queued =>
    have hrun := (hsearched hover).trans ((if_neg hclear).trans (if_neg hcode))
    have w := hwritten { r with state := .converting, waitCode := code, waitDeadline := waitDeadlineOf (envOf s d) code }
    refine ⟨_, (hexec.trans (congrArg _ (withTable_returnDecision hrun rfl))).trans ?_,
      (w.slot_of_clean hclean).trans (by rw [waitDeadlineOf_waiting _ hcode]; rfl), w.others⟩
    rw [← hrest]
    rfl

end Sys2Proof.Machine
end

section
/-! The handle checks of RELEASE, CONVERT and QUERY over clean, corrected and lost reads (R54, R165, R166, R167). -/

set_option Elab.async false

namespace Sys2Proof.Machine

/-! ### The read of a slot by an event of a serving domain -/

/-- What the read of slot `i`, not FREE, reports. -/
def readReports (e : DomainEnv) (i : SlotId) (z : Slot) : List Report :=
  repairReports e i z ++ recordReports e i z

section ReadSlot

variable (e : DomainEnv) {i : SlotId} {t : LockTable}

theorem readSlot_ofFree (h : (poolGet t.pool i).directory.free = true) :
    readSlot e i t = .ok ((poolGet t.pool i).directory.gen, none) (repairDirectory e i t) := by
  simp only [readSlot, probe_free e i h]

variable (hp : Pool.wf t.pool = true) (h : (poolGet t.pool i).directory.free = false)
include hp h

theorem readSlot_usable (hh : (poolGet t.pool i).health ≠ .manyBits) : ∃ p, readSlot e i t =
      .ok ((poolGet t.pool i).directory.gen, some (poolGet t.pool i).record)
        (t.readBy (readReports e i (poolGet t.pool i)) p) ∧
    onlySlot i t.pool p ∧ poolGet p i = (poolGet t.pool i).repaired.corrected := by
  obtain ⟨p, hprobe, -, honly, hslot⟩ := probe_used e i hp h
  rw [if_neg hh] at hprobe
  exact ⟨p, by simp only [readSlot, hprobe, readReports], honly, hslot⟩

theorem readSlot_unreadable (hh : (poolGet t.pool i).health = .manyBits) : ∃ p, readSlot e i t =
      .lost (quarantine (t.readBy (readReports e i (poolGet t.pool i)) p)) ∧
    onlySlot i t.pool p ∧ poolGet p i = (poolGet t.pool i).repaired.corrected := by
  obtain ⟨p, hprobe, -, honly, hslot⟩ := probe_used e i hp h
  rw [if_pos hh] at hprobe
  exact ⟨p, by simp only [readSlot, hprobe, readReports], honly, hslot⟩

end ReadSlot

section Reports

variable (e : DomainEnv) (i : SlotId) {z : Slot}

theorem repairReports_agrees (h : z.agrees = true) : repairReports e i z = [] :=
  if_pos h

theorem repairReports_unnamed (h : z.agrees = false) (hz : z.directory.free = true ∨ z.health = .manyBits) :
    repairReports e i z = [⟨.recordCorrected, some e.id, none, some i, none, e.now⟩] := by
  rw [repairReports, if_neg (by simp [h]), if_pos hz]

theorem repairReports_owner (h : z.agrees = false) (hfree : z.directory.free = false) (hh : z.health ≠ .manyBits) :
    repairReports e i z = [⟨.recordCorrected, some e.id, some z.record.owner, some i, none, e.now⟩] := by
  rw [repairReports, if_neg (by simp [h]), if_neg (by simp [hfree, hh])]

theorem recordReports_clean (h : z.health = .clean) : recordReports e i z = [] := by
  simp only [recordReports, h]

theorem recordReports_owner (h : z.health = .oneBit) (hfree : z.directory.free = false) :
    recordReports e i z = [⟨.recordCorrected, some e.id, some z.record.owner, some i, none, e.now⟩] := by
  simp [recordReports, h, correctedOwner, hfree]

theorem recordReports_lost (h : z.health = .manyBits) :
    recordReports e i z = [⟨.recordUncorrectable, some e.id, none, some i, none, e.now⟩] := by
  simp only [recordReports, h]

theorem corrected_oneBit (h : z.health = .oneBit) : z.corrected = { z with health := .clean } := by
  simp [Slot.corrected, h]

end Reports

/-! ### The checks in their order (R54) -/

section Checks

variable {e : DomainEnv} {a : AgentId} {h : Handle} {t u : LockTable}

theorem currentRecord_notOwned (howns : t.dom.owns h.slot = false) : currentRecord e h t = .ok (.error .staleHandle) t := by
  simp [currentRecord, howns]

theorem requestedRecord_failed {c : ResultRefusal} (hr : currentRecord e h t = .ok (.error c) u) :
    requestedRecord e a h t = .ok (.error c) u := by
  simp only [requestedRecord, hr, Ran.bind]

theorem requestedRecord_lost (hr : currentRecord e h t = .lost u) : requestedRecord e a h t = .lost u := by
  simp only [requestedRecord, hr, Ran.bind]

variable (howns : t.dom.owns h.slot = true)
include howns

theorem currentRecord_unavailable (hu : t.dom.unavailable = true) : currentRecord e h t = .ok (.error .domainUnavailable) t := by
  simp [currentRecord, howns, hu]

variable (hu : t.dom.unavailable = false)
include hu

theorem currentRecord_free {g : Gen} (hread : readSlot e h.slot t = .ok (g, none) u) :
    currentRecord e h t = .ok (.error .staleHandle) u := by
  simp [currentRecord, howns, hu, hread, Ran.bind]

theorem currentRecord_stale {g : Gen} {r : Record} (hread : readSlot e h.slot t = .ok (g, some r) u) (hg : g ≠ h.gen) :
    currentRecord e h t = .ok (.error .staleHandle) u := by
  simp [currentRecord, howns, hu, hread, Ran.bind, hg]

theorem currentRecord_lost (hread : readSlot e h.slot t = .lost u) : currentRecord e h t = .lost u := by
  simp [currentRecord, howns, hu, hread, Ran.bind]

theorem requestedRecord_notOwner {r : Record} (hread : readSlot e h.slot t = .ok (h.gen, some r) u) (ho : r.owner ≠ a) :
    requestedRecord e a h t = .ok (.error .notOwner) u := by
  simp [requestedRecord, currentRecord, howns, hu, hread, Ran.bind, ho]

end Checks

/-! ### The four requests that name a handle -/

section Commands

variable {s : State} {d : DomainId} {q : LockRequest} {rest : List SessionItem} {h : Handle} {u : LockTable}
  (hhead : (s.domain d).fromSession = .request q :: rest) (hbody : q.body.handle? = some h)
include hhead hbody

/-- A request whose handle check fails, or whose slot cannot be read, is refused at the table the check leaves. -/
theorem exec_lockCommand_failed {c : ResultRefusal}
    (hr : requestedRecord (envOf s d) q.agent h (popSession (s.table d)) = .ok (.error c) u ∨
      requestedRecord (envOf s d) q.agent h (popSession (s.table d)) = .lost u ∧ c = .domainUnavailable) :
    exec (lockCommand d q.body) s = .next (s.withTable d (returnResult q (.refused c) none u)) := by
  cases hb : q.body with
  | acquire mode first count cookie code => simp [hb, LockBody.handle?] at hbody
  | release k =>
    obtain rfl : k = h := by simpa [hb, LockBody.handle?] using hbody
    refine (exec_release_request hhead hb).trans ?_
    obtain hr | ⟨hr, rfl⟩ := hr <;> simp only [decideRelease, hr]
  | convertUp k code =>
    obtain rfl : k = h := by simpa [hb, LockBody.handle?] using hbody
    refine (exec_convertUp_request hhead hb).trans ?_
    obtain hr | ⟨hr, rfl⟩ := hr <;> simp only [decideConvertUp, hr, Ran.bind, returnDecision]
  | convertDown k =>
    obtain rfl : k = h := by simpa [hb, LockBody.handle?] using hbody
    refine (exec_convertDown_request hhead hb).trans ?_
    obtain hr | ⟨hr, rfl⟩ := hr <;> simp only [decideConvertDown, hr, Ran.bind, returnDecision]
  | query k =>
    obtain rfl : k = h := by simpa [hb, LockBody.handle?] using hbody
    refine (exec_query_request hhead hb).trans ?_
    obtain hr | ⟨hr, rfl⟩ := hr <;> simp only [decideQuery, hr, Ran.bind, returnDecision]

theorem exec_lockCommand_refused_unchanged {c : ResultRefusal}
    (hr : requestedRecord (envOf s d) q.agent h (popSession (s.table d)) = .ok (.error c) (popSession (s.table d))) :
    exec (lockCommand d q.body) s = .next (s.setDomain d ((s.domain d).answered rest q (.refused c) none)) :=
  (exec_lockCommand_failed hhead hbody (.inl hr)).trans (congrArg _ (withTable_returnResult_popSession hhead q _ none))

theorem exec_lockCommand_refused_readBy {c : ResultRefusal} {l : List Report} {p : Pool}
    (hr : requestedRecord (envOf s d) q.agent h (popSession (s.table d)) = .ok (.error c) ((popSession (s.table d)).readBy l p)) :
    exec (lockCommand d q.body) s = .next (s.putTable d
      { (s.domain d).answered rest q (.refused c) none with reports := (s.domain d).reports ++ l } p) := by
  have hrest : (s.domain d).fromSession.tail = rest := by rw [hhead]; rfl
  rw [exec_lockCommand_failed hhead hbody (.inl hr), withTable_eq_putTable (by rfl), ← hrest]
  rfl

end Commands

/-- The domain once an event has lost a record is QUARANTINED, and so serves its walk still. -/
theorem withTable_quarantine {s : State} {d : DomainId} {t : LockTable} (h : t.dom.state = .enabled ∨ t.dom.state = .closing)
    (q : LockRequest) (r : Response) : ∃ x : Domain,
      s.withTable d (returnResult q r none (quarantine t)) = s.putTable d x t.pool ∧ x.state = .quarantined ∧
      x.reports = t.dom.reports ∧ x.toSession = t.dom.toSession ++
        (liveAgents t.dom).map (fun a => .lost a (look t.dom.live a) t.dom.era) ++ [.result q.agent q.stamp r none q.era] := by
  have hlost : quarantine t = tell (.loss t.dom.banks) { t with dom := { t.dom with
      state := .quarantined, live := Vector.replicate 16 0
      toSession := t.dom.toSession ++ (liveAgents t.dom).map (fun a => .lost a (look t.dom.live a) t.dom.era) } } :=
    if_pos (serving_available h).2
  rw [hlost]
  exact ⟨_, withTable_putTable s d _ _ (.inl (by simp [tell])), rfl, rfl, rfl⟩

/-- Settles O35: each clause is one check of `requestedRecord` over what the read of the slot gives. -/
theorem handleChecks : Obligations.HandleChecks := by
  intro s d q rest h hhead hbody x p refused
  have hrefused {c : ResultRefusal} (hr : requestedRecord (envOf s d) q.agent h (popSession (s.table d)) =
      .ok (.error c) (popSession (s.table d))) : exec (lockCommand d q.body) s = refused c :=
    exec_lockCommand_refused_unchanged hhead hbody hr
  refine ⟨fun howns => hrefused (requestedRecord_failed (currentRecord_notOwned (t := popSession (s.table d)) howns)),
    fun howns hstate => ?unavailable,
    fun howns hstate hagrees => ⟨fun hfree => ?free, fun hused hlost => ?lost, fun hused hclean hgen => ?stale,
      fun hused hclean hgen howner => ?notOwner⟩, fun howns hstate hwf => ?corrected⟩
  case unavailable =>
    exact hrefused (requestedRecord_failed (currentRecord_unavailable (t := popSession (s.table d)) howns
      (by simpa [Domain.unavailable] using hstate)))
  all_goals obtain ⟨hav, hserves⟩ := serving_available hstate
  case free =>
    exact hrefused (requestedRecord_failed (currentRecord_free (t := popSession (s.table d)) howns hav
      (readSlot_free (t := popSession (s.table d)) _ hagrees hfree)))
  case lost =>
    have hexec := exec_lockCommand_failed hhead hbody 
      (.inr ⟨requestedRecord_lost (currentRecord_lost (t := popSession (s.table d)) howns hav
        (readSlot_lost (t := popSession (s.table d)) (envOf s d) hagrees hused hlost)), rfl⟩)
    obtain ⟨y, hy, hquarantined, -, hsession⟩ := withTable_quarantine (s := s) (d := d)
      (t := report (envOf s d) .recordUncorrectable none (some h.slot) none (popSession (s.table d))) hstate q
      (.refused .domainUnavailable)
    have hdom : (s.putTable d y s.pool).domain d = y := look_put_same ..
    exact ⟨_, hexec.trans (congrArg _ hy), (congrArg Domain.state hdom).trans hquarantined, rfl,
      (congrArg Domain.toSession hdom).trans hsession⟩
  case stale =>
    exact hrefused (requestedRecord_failed (currentRecord_stale (t := popSession (s.table d)) howns hav
      (readSlot_clean (t := popSession (s.table d)) _ ((readsClean_iff _).mpr ⟨hclean, hagrees⟩) hused) hgen))
  case notOwner =>
    have hread := readSlot_clean (t := popSession (s.table d)) (envOf s d) ((readsClean_iff _).mpr ⟨hclean, hagrees⟩) hused
    rw [show genOf (popSession (s.table d)).pool h.slot = h.gen from hgen] at hread
    exact hrefused (requestedRecord_notOwner (t := popSession (s.table d)) howns hav hread howner)
  case corrected =>
    intro note repaired corrected
    refine ⟨fun hagrees hfree => ?copies, fun hused c hc => ?record, fun hused hagrees hlost => ?unreadable⟩
    case copies =>
      obtain ⟨u, hrepair, -, honly, hslot⟩ := repairDirectory_eq (envOf s d) h.slot (t := popSession (s.table d)) hwf
      have hread := readSlot_ofFree (t := popSession (s.table d)) (envOf s d) hfree
      rw [hrepair] at hread
      rw [show repairReports _ _ (poolGet (popSession (s.table d)).pool h.slot) = [note none] from
        repairReports_unnamed _ _ hagrees (.inl hfree)] at hread
      exact ⟨u, exec_lockCommand_refused_readBy hhead hbody
        (requestedRecord_failed (currentRecord_free (t := popSession (s.table d)) howns hav hread)), hslot, honly⟩
    case record =>
      have hread {l : List Report} {z : Slot} (hh : p.health ≠ .manyBits)
          (hl : readReports (envOf s d) h.slot p = l) (hz : p.repaired.corrected = z) :
          corrected l z c := by
        obtain ⟨u, hread, honly, hslot⟩ := readSlot_usable (t := popSession (s.table d)) (envOf s d) hwf hused hh
        rw [show readReports _ _ (poolGet (popSession (s.table d)).pool h.slot) = l from hl] at hread
        refine ⟨u, exec_lockCommand_refused_readBy hhead hbody ?_, hslot.trans hz, honly⟩
        obtain ⟨rfl, hgen⟩ | ⟨rfl, hgen, howner⟩ := hc
        · exact requestedRecord_failed (currentRecord_stale (t := popSession (s.table d)) howns hav hread hgen)
        · rw [show (poolGet (popSession (s.table d)).pool h.slot).directory.gen = h.gen from hgen] at hread
          exact requestedRecord_notOwner (t := popSession (s.table d)) howns hav hread howner
      refine ⟨fun hagrees hclean => ?_, fun hagrees hbit => ?_, fun hagrees hbit => ?_⟩
      · have hh : p.health ≠ .manyBits := by simp [hclean]
        refine hread hh ?_ (corrected_of_health (ne_of_eq_of_ne hclean (by decide)))
        rw [readReports, repairReports_owner _ _ hagrees hused hh, recordReports_clean _ _ hclean]
        rfl
      · refine hread (by simp [hbit]) ?_ ((congrArg Slot.corrected (repaired_of_agrees hagrees)).trans (corrected_oneBit hbit))
        rw [readReports, repairReports_agrees _ _ hagrees, recordReports_owner _ _ hbit hused]
        rfl
      · have hh : p.health ≠ .manyBits := by simp [hbit]
        refine hread hh ?_ (corrected_oneBit (z := p.repaired) hbit)
        rw [readReports, repairReports_owner _ _ hagrees hused hh, recordReports_owner _ _ hbit hused]
        rfl
    case unreadable =>
      obtain ⟨u, hread, honly, hslot⟩ := readSlot_unreadable (t := popSession (s.table d)) (envOf s d) hwf hused hlost
      have hreports : readReports (envOf s d) h.slot p =
          [note none, ⟨.recordUncorrectable, some d, none, some h.slot, none, s.time⟩] := by
        rw [readReports, repairReports_unnamed _ _ hagrees (.inr hlost), recordReports_lost _ _ hlost]
        rfl
      rw [show readReports _ _ (poolGet (popSession (s.table d)).pool h.slot) = _ from hreports] at hread
      have hexec := exec_lockCommand_failed hhead hbody
        (.inr ⟨requestedRecord_lost (currentRecord_lost (t := popSession (s.table d)) howns hav hread), rfl⟩)
      obtain ⟨y, hy, hquarantined, hnoted, -⟩ := withTable_quarantine (s := s) (d := d)
        (t := (popSession (s.table d)).readBy _ u) hstate q (.refused .domainUnavailable)
      have hdom : (s.putTable d y u).domain d = y := look_put_same ..
      exact ⟨_, hexec.trans (congrArg _ hy), (congrArg Domain.state hdom).trans hquarantined,
        (congrArg Domain.reports hdom).trans hnoted,
        hslot.trans (corrected_of_health (ne_of_eq_of_ne hlost (by decide))), honly⟩

end Sys2Proof.Machine
end

section
/-! The operations on the record of one slot (R16, R64, R67, R68, R102) by what they leave, and with them DONE (R127). -/

set_option Elab.async false

namespace Sys2Proof.Machine

/-! ### Operations on the record of one slot -/

/-- The domain once slot `i` has retired: out of every collection, at the tail of the free list (R16). -/
def Domain.without (x : Domain) (i : SlotId) : Domain :=
  { x with
    waitQueue := dropSlot i x.waitQueue, occupancy := dropSlot i x.occupancy
    tokenMap := x.tokenMap.filter (fun e => e.2 != i), freeList := x.freeList ++ [i] }

theorem dropSlot_dropSlot (i : SlotId) (l : List SlotId) : dropSlot i (dropSlot i l) = dropSlot i l := by
  simp [dropSlot, List.filter_filter]

theorem completeClose_eq (t : LockTable) : completeClose t = ⟨t.dom.closedOut, t.pool⟩ := by
  have hused : t.dom.inUse = 0 ↔ slotCount t.dom.banks ≤ t.dom.freeList.length := Nat.sub_eq_zero_iff_le
  simp only [completeClose, Domain.closedOut, hused]
  split <;> rfl

/-- The close completion looks at neither outgoing queue (R6). -/
theorem closedOut_toSession (x : Domain) (l : List DomainReport) :
    { x.closedOut with toSession := x.closedOut.toSession ++ l } = { x with toSession := x.toSession ++ l }.closedOut := by
  simp only [Domain.closedOut]
  split <;> rfl

theorem placeNotice_newFront {r : Record} (h : r.front = none) (k : NoticeKind) :
    placeNotice r k = (.newFront, { r with front := some ⟨k, false⟩ }) := by
  simp only [placeNotice, h]

section Operations

variable (e : DomainEnv) {p q : Pool} {i : SlotId} {r : Record} {x : Domain} (w : Written p i r q)
include w

theorem post_written (k : NoticeKind) (token : Option Token) : ∃ q', post i k token ⟨x, q⟩ =
      ⟨{ x with toNotice := x.toNotice ++ [⟨x.era, .post r.owner ⟨i, genOf p i⟩ (placeNotice r k).1 ⟨k, r.cookie, token⟩
        (look x.reclaimed r.owner)⟩] }, q'⟩ ∧ Written p i (placeNotice r k).2 q' := by
  refine ⟨_, ?_, w.write _⟩
  simp only [post, w.record, w.handle]
  rfl

variable (ha : (poolGet p i).agrees = true)

section Retire

include ha

theorem retire_written : retire e i ⟨x, q⟩ = .ok () ⟨x.without i, freeSlot q i⟩ :=
  retire_clean e (w.readsClean ha)

theorem leaveDraining_retired (hfront : r.front = none) : ∃ q', leaveDraining e i ⟨x, q⟩ = .ok () ⟨x.without i, q'⟩ ∧
    poolGet q' i = retired (genOf p i) ∧ onlySlot i p q' := by
  have w' := w.write { r with drainDeadline := none }
  refine ⟨_, ?_, w'.freed⟩
  have hnone : r.front.isSome = false := by rw [hfront]; rfl
  simp only [leaveDraining, setRecord, w.record, hnone, Bool.false_eq_true, if_false]
  refine (retire_written e w' ha).trans ?_
  simp only [Domain.without, dropSlot_dropSlot]

/-- A drain that ends with no notice pending retires the slot, where no record is queued behind it (R68). -/
theorem endDrain_retired (hfront : r.front = none) (hqueue : dropSlot i x.waitQueue = []) :
    ∃ q', endDrain e i ⟨x, q⟩ = .ok () ⟨(x.without i).closedOut, q'⟩ ∧ poolGet q' i = retired (genOf p i) ∧ onlySlot i p q' := by
  obtain ⟨q', hleave, hslot⟩ := leaveDraining_retired e (x := x) w ha hfront
  refine ⟨q', ?_, hslot⟩
  have hpass : grantPass e ⟨x.without i, q'⟩ = .ok () ⟨x.without i, q'⟩ := grantPass_nothing e hqueue
  simp only [endDrain, hleave, Ran.bind, hpass, completeClose_eq]

end Retire

theorem leaveDraining_ended (hfront : r.front ≠ none) : ∃ q', leaveDraining e i ⟨x, q⟩ =
      .ok () ⟨{ x with occupancy := dropSlot i x.occupancy }, q'⟩ ∧
    Written p i { r with drainDeadline := none, state := .ended } q' := by
  refine ⟨_, ?_, (w.write { r with drainDeadline := none }).write _⟩
  simp only [leaveDraining, setRecord, w.record, Option.isSome_iff_ne_none.mpr hfront]
  rfl

/-- A drain that ends with a notice pending leaves the record ENDED, where no record is queued behind it (R68). -/
theorem endDrain_ended (hfront : r.front ≠ none) (hqueue : x.waitQueue = []) :
    ∃ q', endDrain e i ⟨x, q⟩ = .ok () ⟨{ x with occupancy := dropSlot i x.occupancy }.closedOut, q'⟩ ∧
      Written p i { r with drainDeadline := none, state := .ended } q' := by
  obtain ⟨q', hleave, hwritten⟩ := leaveDraining_ended e (x := x) w hfront
  refine ⟨q', ?_, hwritten⟩
  have hpass : grantPass e ⟨{ x with occupancy := dropSlot i x.occupancy }, q'⟩ = .ok () _ := grantPass_nothing e hqueue
  simp only [endDrain, hleave, Ran.bind, hpass, completeClose_eq]

end Operations

/-! ### DONE (R127) -/

section Done

variable {e : DomainEnv} {k : Ticket} {t : LockTable}

theorem decideDone_discarded (h : t.dom.owns k.handle.slot = false ∨ t.dom.unavailable = true) : decideDone e k t = .ok () t := by
  obtain h | h := h <;> simp [decideDone, h]

variable (howns : t.dom.owns k.handle.slot = true) (hu : t.dom.unavailable = false)
include howns hu

theorem decideDone_lost {u : LockTable} (hread : readSlot e k.handle.slot t = .lost u) : decideDone e k t = .lost u := by
  simp only [decideDone, howns, hu, hread, Ran.bind]
  rfl

variable (hclean : (poolGet t.pool k.handle.slot).readsClean = true)
include hclean

theorem decideDone_stray (h : (poolGet t.pool k.handle.slot).directory.free = true ∨ genOf t.pool k.handle.slot ≠ k.handle.gen ∨
      inFlight (recordOf t.pool k.handle.slot) k.kind = 0) :
    decideDone e k t = .ok () (report e .strayDone none (some k.handle.slot) (some k.kind) t) := by
  cases hf : (poolGet t.pool k.handle.slot).directory.free with
  | true =>
    simp only [decideDone, howns, hu, readSlot_free e ((readsClean_iff _).mp hclean).2 hf, Ran.bind]
    rfl
  | false =>
    have hstray : genOf t.pool k.handle.slot ≠ k.handle.gen ∨ inFlight (recordOf t.pool k.handle.slot) k.kind = 0 := by
      simpa [hf] using h
    simp only [decideDone, howns, hu, readSlot_clean e hclean hf, Ran.bind]
    exact if_pos hstray

theorem decideDone_counted (hf : (poolGet t.pool k.handle.slot).directory.free = false)
    (hg : genOf t.pool k.handle.slot = k.handle.gen)
    (hn : 0 < inFlight (recordOf t.pool k.handle.slot) k.kind) : decideDone e k t =
      let r := recordOf t.pool k.handle.slot
      let r' := withInFlight r k.kind (inFlight r k.kind - 1)
      let t := setRecord k.handle.slot r' t
      if r.state = .draining ∧ r'.reads = 0 ∧ r'.writes = 0 then endDrain e k.handle.slot t else .ok () t := by
  simp only [decideDone, howns, hu, readSlot_clean e hclean hf, Ran.bind]
  have hcounted : ¬(genOf t.pool k.handle.slot ≠ k.handle.gen ∨ inFlight (recordOf t.pool k.handle.slot) k.kind = 0) := by
    simp [hg, Nat.pos_iff_ne_zero.mp hn]
  exact if_neg hcounted

end Done

/-- The last access of a record is freed exactly where one was counted (R127). -/
theorem withInFlight_last {r : Record} {k : AccessKind} (h : 0 < inFlight r k) :
    (withInFlight r k (inFlight r k - 1)).reads = 0 ∧ (withInFlight r k (inFlight r k - 1)).writes = 0 ↔ r.reads + r.writes = 1 := by
  cases k with
  | read =>
    have h' : 0 < r.reads := h
    show r.reads - 1 = 0 ∧ r.writes = 0 ↔ _
    omega
  | write =>
    have h' : 0 < r.writes := h
    show r.reads = 0 ∧ r.writes - 1 = 0 ↔ _
    omega

theorem inFlight_le (r : Record) (k : AccessKind) : inFlight r k ≤ r.reads + r.writes := by
  cases k with
  | read => exact Nat.le_add_right ..
  | write => exact Nat.le_add_left ..

theorem withInFlight_front (r : Record) (k : AccessKind) (n : Nat) : (withInFlight r k n).front = r.front := by
  cases k <;> rfl

theorem exec_done {s : State} {d : DomainId} {k : Ticket} {rest : List Ticket} (h : (s.domain d).dones = k :: rest) :
    exec (.done d) s = .next (s.withTable d (decideDone (envOf s d) k ⟨{ s.domain d with dones := rest }, s.pool⟩).table) := by
  have hrest : (s.domain d).dones.tail = rest := by rw [h]; rfl
  change execDone d s = _
  simp only [execDone, h]
  rw [← hrest]
  rfl

/-- Settles O40: the outcomes of `decideDone`, the end of a drain by `endDrain_retired` and `endDrain_ended`. -/
theorem doneFreesAnAccess : Obligations.DoneFreesAnAccess := by
  intro s d k rest hhead x i r stray
  have hexec {u : LockTable} {v : Ran Unit} (hrun : decideDone (envOf s d) k ⟨x, s.pool⟩ = v) (hv : v.table = u) :
      exec (.done d) s = .next (s.withTable d u) := by
    rw [exec_done hhead, show decideDone _ _ _ = v from hrun, hv]
  refine ⟨fun hnot => ?discarded, fun howns hserves hagrees hused hlost => ?lost, fun howns hstate hclean hwf =>
    ⟨fun hstray => ?stray, fun hused hgen hcount => ⟨fun hnot => ?counted, fun hdraining hlast =>
      ⟨fun hfront hqueue => ?retired, fun hfront hqueue => ?ended⟩⟩⟩⟩
  case discarded =>
    have hno : x.owns i = false ∨ x.unavailable = true := by simpa [Domain.unavailable] using hnot
    exact (hexec (decideDone_discarded (t := ⟨x, s.pool⟩) hno) rfl).trans (congrArg _ (withTable_sameState rfl))
  case lost =>
    obtain ⟨hav, -⟩ := serving_available (x := x) (by simpa [Domain.serves] using hserves)
    refine (hexec (decideDone_lost (t := ⟨x, s.pool⟩) howns hav
      (readSlot_lost (t := ⟨x, s.pool⟩) (envOf s d) hagrees hused hlost)) (quarantine_report _ _ (t := ⟨x, s.pool⟩) hserves)).trans ?_
    exact congrArg _ (putTable_pool_eq_withTable (.inl (by simp [Domain.quarantinedBy])))
  all_goals obtain ⟨hav, hserves⟩ := serving_available hstate
  case stray =>
    exact (hexec (decideDone_stray (t := ⟨x, s.pool⟩) howns hav hclean hstray) rfl).trans (congrArg _ (withTable_sameState rfl))
  all_goals
    have hdone := decideDone_counted (e := envOf s d) (t := ⟨x, s.pool⟩) howns hav hclean hused hgen hcount
    have w := written_writeRecord hwf i (withInFlight r k.kind (inFlight r k.kind - 1))
    obtain ⟨hhealth, hagrees⟩ := (readsClean_iff _).mp hclean
    have hzero := withInFlight_last hcount
  case counted =>
    refine ⟨_, (hexec (hdone.trans (if_neg fun h => hnot ⟨h.1, hzero.mp h.2⟩)) rfl).trans
      (congrArg _ (withTable_eq_putTable rfl)), w.others, w.slot_of_clean hhealth⟩
  all_goals
    have hend := hdone.trans (if_pos ⟨hdraining, hzero.mpr hlast⟩)
    have hone : inFlight r k.kind - 1 = 0 := by
      have := inFlight_le r k.kind
      omega
  case retired =>
    obtain ⟨q, hrun, hslot, honly⟩ := endDrain_retired (envOf s d) (x := x) w hagrees ((withInFlight_front ..).trans hfront) hqueue
    refine ⟨q, (hexec (hend.trans hrun) rfl).trans ?_, honly, by rw [hslot, hgen]⟩
    simp only [Domain.without, hqueue]
    rfl
  case ended =>
    obtain ⟨q, hrun, w'⟩ := endDrain_ended (envOf s d) (x := x) w (by rw [withInFlight_front]; exact hfront) hqueue
    refine ⟨q, (hexec (hend.trans hrun) rfl).trans rfl, w'.others, ?_⟩
    rw [w'.slot_of_clean hhealth, hone]

end Sys2Proof.Machine
end

section
/-! The timers of a record (R39, R49, R50, R69). -/

set_option Elab.async false

namespace Sys2Proof.Machine

/-! ### Wait expiry and drain overrun -/

section Timer

variable {s : State} {d : DomainId} {i : SlotId} (howner : ownerOf s i = some d)
include howner

theorem exec_waitExpiry_idle (h : dueAt s.time (recordOf s.pool i).waitDeadline = false ∨ (s.domain d).serves = false) :
    exec (.waitExpiry i) s = .next s := by
  change execWaitExpiry i s = _
  simp only [execWaitExpiry, howner]
  exact if_neg (by obtain h | h := h <;> simp [h])

theorem exec_drainOverrun_idle (h : dueAt s.time (recordOf s.pool i).drainDeadline = false ∨ (s.domain d).serves = false) :
    exec (.drainOverrun i) s = .next s := by
  change execDrainOverrun i s = _
  simp only [execDrainOverrun, howner]
  exact if_neg (by obtain h | h := h <;> simp [h])

variable (hserves : (s.domain d).serves = true) {u : LockTable}
include hserves

theorem exec_waitExpiry_due (hdue : dueAt s.time (recordOf s.pool i).waitDeadline = true)
    {r : Ran Unit} (hr : waitExpire (envOf s d) i (s.table d) = r) (hu : r.table = u) :
    exec (.waitExpiry i) s = .next (s.withTable d u) := by
  change execWaitExpiry i s = _
  simp only [execWaitExpiry, howner, hserves, hdue, hr, hu]
  rfl

theorem exec_drainOverrun_due (hdue : dueAt s.time (recordOf s.pool i).drainDeadline = true)
    {r : Ran Unit} (hr : drainOverrun (envOf s d) i (s.table d) = r) (hu : r.table = u) :
    exec (.drainOverrun i) s = .next (s.withTable d u) := by
  change execDrainOverrun i s = _
  simp only [execDrainOverrun, howner, hserves, hdue, hr, hu]
  rfl

end Timer

section Expire

variable (e : DomainEnv) {i : SlotId} {t : LockTable}

theorem waitExpire_lost (h : (poolGet t.pool i).health = .manyBits) :
    waitExpire e i t = .lost (quarantine (report e .recordUncorrectable none (some i) none t)) := by
  simp only [waitExpire, readRecord_lost e h, Ran.bind]

theorem drainOverrun_lost (h : (poolGet t.pool i).health = .manyBits) :
    drainOverrun e i t = .lost (quarantine (report e .recordUncorrectable none (some i) none t)) := by
  simp only [drainOverrun, readRecord_lost e h, Ran.bind]

variable (hp : Pool.wf t.pool = true) (hclean : (poolGet t.pool i).health = .clean)
include hp hclean

section Alone

variable (hqueue : dropSlot i t.dom.waitQueue = []) (hfront : (recordOf t.pool i).front = none)
include hqueue hfront

/-- A WAITING record that expires with no other record queued (R49). -/
theorem waitExpire_waiting (hstate : (recordOf t.pool i).state = .waiting) :
    let r := recordOf t.pool i
    ∃ q, waitExpire e i t = .ok () ⟨{ t.dom with
        waitQueue := [], live := put t.dom.live r.owner (look t.dom.live r.owner - 1)
        toSession := t.dom.toSession ++ [.live r.owner .down t.dom.era]
        toNotice := t.dom.toNotice ++ [⟨t.dom.era, .post r.owner ⟨i, genOf t.pool i⟩ .newFront ⟨.waitExpired, r.cookie, none⟩
          (look t.dom.reclaimed r.owner)⟩] }, q⟩ ∧
      Written t.pool i { r with state := .ended, waitDeadline := none, token := none, front := some ⟨.waitExpired, false⟩ } q := by
  intro r
  have w := written_writeRecord hp i { r with state := .ended, waitDeadline := none, token := none }
  obtain ⟨q, hpost, hwritten⟩ := post_written (x := { t.dom with
    waitQueue := dropSlot i t.dom.waitQueue, live := put t.dom.live r.owner (look t.dom.live r.owner - 1)
    toSession := t.dom.toSession ++ [.live r.owner .down t.dom.era] }) w .waitExpired none
  rw [placeNotice_newFront (by exact hfront)] at hpost hwritten
  refine ⟨q, ?_, hwritten⟩
  simp only [waitExpire, readRecord_clean e hclean, Ran.bind, hstate]
  refine (congrArg (grantPass e) hpost).trans ((grantPass_nothing e hqueue).trans ?_)
  simp only [hqueue]

/-- A CONVERTING record that expires with no other record queued (R50). -/
theorem waitExpire_converting (hstate : (recordOf t.pool i).state = .converting) :
    let r := recordOf t.pool i
    ∃ q, waitExpire e i t = .ok () ⟨{ t.dom with
        waitQueue := []
        toNotice := t.dom.toNotice ++ [⟨t.dom.era, .post r.owner ⟨i, genOf t.pool i⟩ .newFront ⟨.upgradeExpired, r.cookie, none⟩
          (look t.dom.reclaimed r.owner)⟩] }, q⟩ ∧
      Written t.pool i
        { r with state := .held, mode := .shared, waitDeadline := none, front := some ⟨.upgradeExpired, false⟩ } q := by
  intro r
  have w := written_writeRecord hp i { r with state := .held, mode := .shared, waitDeadline := none }
  obtain ⟨q, hpost, hwritten⟩ := post_written (x := { t.dom with waitQueue := dropSlot i t.dom.waitQueue }) w .upgradeExpired none
  rw [placeNotice_newFront (by exact hfront)] at hpost hwritten
  refine ⟨q, ?_, hwritten⟩
  simp only [waitExpire, readRecord_clean e hclean, Ran.bind, hstate]
  refine (congrArg (grantPass e) hpost).trans ((grantPass_nothing e hqueue).trans ?_)
  simp only [hqueue]

end Alone

/-- The drain that overruns ends with both counts 0 and a report (R69). -/
theorem drainOverrun_draining (hstate : (recordOf t.pool i).state = .draining) :
    let r := recordOf t.pool i
    ∃ q, drainOverrun e i t = endDrain e i ⟨{ t.dom with
        reports := t.dom.reports ++ [⟨.drainOverrun, some e.id, some r.owner, some i, none, e.now⟩] }, q⟩ ∧
      Written t.pool i { r with reads := 0, writes := 0 } q := by
  refine ⟨_, ?_, written_writeRecord hp i _⟩
  simp only [drainOverrun, readRecord_clean e hclean, Ran.bind, hstate]
  rfl

end Expire

/-- Settles O39: each timer by the state of the record, and the arithmetic of deadlines. -/
theorem timersOfRecords : Obligations.TimersOfRecords := by
  refine ⟨fun s d i howner => ?_, due_at_or_after, due_before, fun _ => rfl⟩
  intro x r g
  have hquarantined {u : Domain} (hu : u.state = .quarantined) : s.withTable d ⟨u, s.pool⟩ = s.setDomain d u :=
    putTable_pool_eq_withTable (.inl (by simp [hu]))
  refine ⟨exec_waitExpiry_idle howner, exec_drainOverrun_idle howner, fun hserves hlost => ⟨fun hdue => ?_, fun hdue => ?_⟩,
    fun hserves hclean hused hwf hqueue => ?_⟩
  · exact (exec_waitExpiry_due howner hserves hdue (waitExpire_lost _ (t := s.table d) hlost)
      (quarantine_report _ _ (t := s.table d) hserves)).trans (congrArg _ (hquarantined rfl))
  · exact (exec_drainOverrun_due howner hserves hdue (drainOverrun_lost _ (t := s.table d) hlost)
      (quarantine_report _ _ (t := s.table d) hserves)).trans (congrArg _ (hquarantined rfl))
  obtain ⟨hhealth, hagrees⟩ := (readsClean_iff _).mp hclean
  refine ⟨fun hdue hfront => ⟨fun hstate => ?waiting, fun hstate => ?converting⟩, fun hdue hstate => ?overrun⟩
  case waiting =>
    obtain ⟨q, hrun, w⟩ := waitExpire_waiting (envOf s d) (t := s.table d) hwf hhealth hqueue hfront hstate
    exact ⟨q, (exec_waitExpiry_due howner hserves hdue hrun rfl).trans (congrArg _ (withTable_eq_putTable rfl)), w.others,
      w.slot_of_clean hhealth⟩
  case converting =>
    obtain ⟨q, hrun, w⟩ := waitExpire_converting (envOf s d) (t := s.table d) hwf hhealth hqueue hfront hstate
    exact ⟨q, (exec_waitExpiry_due howner hserves hdue hrun rfl).trans (congrArg _ (withTable_eq_putTable rfl)), w.others,
      w.slot_of_clean hhealth⟩
  case overrun =>
    intro overrun
    obtain ⟨p, hrun, w⟩ := drainOverrun_draining (envOf s d) (t := s.table d) hwf hhealth hstate
    refine ⟨fun hfront => ?_, fun hfront hempty => ?_⟩
    · obtain ⟨q, hend, hslot, honly⟩ := endDrain_retired (envOf s d) (x := { x with reports := overrun }) w hagrees hfront hqueue
      refine ⟨q, (exec_drainOverrun_due howner hserves hdue (hrun.trans hend) rfl).trans ?_, honly, hslot⟩
      simp only [Domain.without, hqueue]
      rfl
    · obtain ⟨q, hend, w'⟩ := endDrain_ended (envOf s d) (x := { x with reports := overrun }) w hfront hempty
      exact ⟨q, exec_drainOverrun_due howner hserves hdue (hrun.trans hend) rfl, w'.others, w'.slot_of_clean hhealth⟩

end Sys2Proof.Machine
end

section
/-! What a domain makes of the notice unit's items: claims, presented acknowledgements and reversions (R71, R107, R110, R114). -/

set_option Elab.async false

namespace Sys2Proof.Machine

/-- A slot written as it stands leaves the pool as it is, in its canonical form. -/
theorem poolPut_poolGet {p : Pool} (hp : Pool.wf p = true) (i : SlotId) : poolPut p i (poolGet p i) = p := by
  induction p with
  | nil => simp [poolPut, poolGet]
  | cons z p ih =>
    obtain ⟨k, y⟩ := z
    simp only [Pool.wf, Bool.and_eq_true, bne_iff_ne] at hp
    obtain ⟨⟨hy, habove⟩, hwf⟩ := hp
    rcases lt_trichotomy i k with h | rfl | h
    · have hget : poolGet p i = .reset := poolGet_above (poolAbove_trans h habove)
      simp [poolPut, poolGet, h, h.ne', hget]
    · simp [poolPut, poolGet, hy]
    · simp [poolPut, poolGet, h.not_gt, h.ne', h.ne, ih hwf]

theorem writeRecord_recordOf {p : Pool} (hp : Pool.wf p = true) {i : SlotId} (h : (poolGet p i).health = .clean) :
    writeRecord p i (recordOf p i) = p := by
  have hslot : ({ poolGet p i with record := recordOf p i, health := .clean } : Slot) = poolGet p i := by
    rw [← h]
    rfl
  rw [writeRecord, hslot, poolPut_poolGet hp]

/-! ### The read of a presented handle -/

section Presented

variable (e : DomainEnv) {h : Handle} {t : LockTable}

/-- An item about no current record: the bank is not the domain's, the domain does not serve, or the slot reads clean and is FREE or
of another generation. -/
def presentedStale (h : Handle) (t : LockTable) : Prop :=
  t.dom.owns h.slot = false ∨ t.dom.serves = false ∨
    t.dom.owns h.slot = true ∧ t.dom.serves = true ∧ (poolGet t.pool h.slot).readsClean = true ∧
      ((poolGet t.pool h.slot).directory.free = true ∨ (poolGet t.pool h.slot).directory.gen ≠ h.gen)

theorem presentedRecord_stale (hstale : presentedStale h t) : presentedRecord e h t = .ok none t := by
  obtain hno | hno | ⟨howns, hserves, hclean, hdir⟩ := hstale
  · simp [presentedRecord, hno]
  · simp [presentedRecord, hno]
  · cases hf : (poolGet t.pool h.slot).directory.free with
    | true => simp [presentedRecord, howns, hserves, readSlot_free e ((readsClean_iff _).mp hclean).2 hf, Ran.bind]
    | false =>
      have hgen : genOf t.pool h.slot ≠ h.gen := hdir.resolve_left (by simp [hf])
      simp [presentedRecord, howns, hserves, readSlot_clean e hclean hf, Ran.bind, hgen]

theorem presentedRecord_lost (howns : t.dom.owns h.slot = true) (hserves : t.dom.serves = true)
    (hagrees : (poolGet t.pool h.slot).agrees = true) (hused : (poolGet t.pool h.slot).directory.free = false)
    (hlost : (poolGet t.pool h.slot).health = .manyBits) :
    presentedRecord e h t = .lost ⟨t.dom.quarantinedBy e.id h.slot e.now, t.pool⟩ := by
  simp only [presentedRecord, howns, hserves, readSlot_lost e hagrees hused hlost, Ran.bind, quarantine_report e _ hserves]
  rfl

end Presented

/-! ### The commands -/

section Commands

variable {s : State} {d : DomainId} {a : AgentId} {h : Handle} {rest : List NoticeAsk}

theorem popNotice_table {i : NoticeAsk} (hhead : (s.domain d).fromNotice = i :: rest) :
    popNotice (s.table d) = ⟨{ s.domain d with fromNotice := rest }, s.pool⟩ := by
  have hrest : (s.domain d).fromNotice.tail = rest := by rw [hhead]; rfl
  rw [← hrest]
  rfl

theorem exec_claim (hhead : (s.domain d).fromNotice = .claim a h :: rest) {u : LockTable}
    (hu : takeClaim (envOf s d) a h ⟨{ s.domain d with fromNotice := rest }, s.pool⟩ = u) :
    exec (.claim (some d)) s = .next (s.withTable d u) := by
  change execClaim (some d) s = _
  simp only [execClaim, hhead, popNotice_table hhead, hu]

theorem exec_presentedAcknowledgement (hhead : (s.domain d).fromNotice = .acknowledge a h :: rest) {u : LockTable}
    (hu : takeAcknowledgement (envOf s d) a h ⟨{ s.domain d with fromNotice := rest }, s.pool⟩ = u) :
    exec (.presentedAcknowledgement (some d)) s = .next (s.withTable d u) := by
  change execPresentedAcknowledgement (some d) s = _
  simp only [execPresentedAcknowledgement, hhead, popNotice_table hhead, hu]

theorem exec_reversion (hhead : (s.domain d).fromNotice = .revert h :: rest) {u : LockTable}
    (hu : takeReversion (envOf s d) h ⟨{ s.domain d with fromNotice := rest }, s.pool⟩ = u) :
    exec (.reversion (some d)) s = .next (s.withTable d u) := by
  change execReversion (some d) s = _
  simp only [execReversion, hhead, popNotice_table hhead, hu]

end Commands

section Items

variable (e : DomainEnv) (a : AgentId) {h : Handle} {t : LockTable}

/-! ### A claim (R107) -/

theorem takeClaim_granted {f : NoticeKind} (hcurrent : current t.dom t.pool h)
    (hfront : (recordOf t.pool h.slot).front = some ⟨f, false⟩) : takeClaim e a h t =
      tell (.answer a h true) (setRecord h.slot { recordOf t.pool h.slot with front := some ⟨f, true⟩ } t) := by
  simp only [takeClaim, presentedRecord_current e hcurrent, hfront]
  rfl

theorem takeClaim_stale (hstale : presentedStale h t) : takeClaim e a h t = tell (.answer a h false) t := by
  simp only [takeClaim, presentedRecord_stale e hstale]

theorem takeClaim_lost {u : LockTable} (hread : presentedRecord e h t = .lost u) : takeClaim e a h t = tell (.answer a h false) u := by
  simp only [takeClaim, hread]

theorem takeClaim_declined (hcurrent : current t.dom t.pool h) (hfront : ∀ f, (recordOf t.pool h.slot).front ≠ some ⟨f, false⟩) :
    takeClaim e a h t = tell (.answer a h false) t := by
  match hf : (recordOf t.pool h.slot).front with
  | none => simp only [takeClaim, presentedRecord_current e hcurrent, hf]
  | some ⟨f, true⟩ =>
    simp only [takeClaim, presentedRecord_current e hcurrent, hf]
    rfl
  | some ⟨f, false⟩ => exact absurd hf (hfront f)

/-! ### A presented acknowledgement (R71, R110) -/

theorem takeAcknowledgement_promoted {f k : NoticeKind} (hcurrent : current t.dom t.pool h)
    (hfront : (recordOf t.pool h.slot).front = some ⟨f, true⟩) (hfollow : (recordOf t.pool h.slot).followUp = some k) :
    takeAcknowledgement e a h t = tell (.outcome a h .promoted)
      (setRecord h.slot { recordOf t.pool h.slot with front := some ⟨k, false⟩, followUp := none } t) := by
  simp only [takeAcknowledgement, presentedRecord_current e hcurrent, hfront, hfollow, promoteFollowUp]
  rfl

theorem takeAcknowledgement_removed {f : NoticeKind} (hcurrent : current t.dom t.pool h)
    (hfront : (recordOf t.pool h.slot).front = some ⟨f, true⟩) (hfollow : (recordOf t.pool h.slot).followUp = none)
    (hstate : (recordOf t.pool h.slot).state ≠ .ended) : takeAcknowledgement e a h t =
      tell (.outcome a h .removed) (setRecord h.slot { recordOf t.pool h.slot with front := none } t) := by
  simp only [takeAcknowledgement, presentedRecord_current e hcurrent, hfront, hfollow, promoteFollowUp, hstate]
  rfl

theorem takeAcknowledgement_retired {f : NoticeKind} (hp : Pool.wf t.pool = true) (hcurrent : current t.dom t.pool h)
    (hfront : (recordOf t.pool h.slot).front = some ⟨f, true⟩) (hfollow : (recordOf t.pool h.slot).followUp = none)
    (hstate : (recordOf t.pool h.slot).state = .ended) : ∃ q, takeAcknowledgement e a h t =
      ⟨(Domain.without { t.dom with toNotice := t.dom.toNotice ++ [⟨t.dom.era, .outcome a h .removed⟩] } h.slot).closedOut, q⟩ ∧
      poolGet q h.slot = retired h.gen ∧ onlySlot h.slot t.pool q := by
  obtain ⟨hclean, -, hgen⟩ := current_probe hcurrent
  have w := written_writeRecord hp h.slot (promoteFollowUp (recordOf t.pool h.slot))
  have hfreed := w.freed
  rw [hgen] at hfreed
  refine ⟨_, ?_, hfreed⟩
  simp only [takeAcknowledgement, presentedRecord_current e hcurrent, hfront, hfollow, hstate, setRecord,
    retire_written e w ((readsClean_iff _).mp hclean).2]
  exact completeClose_eq _

theorem takeAcknowledgement_stale (hstale : presentedStale h t) :
    takeAcknowledgement e a h t = tell (.outcome a h .notTaken) t := by
  simp only [takeAcknowledgement, presentedRecord_stale e hstale]

theorem takeAcknowledgement_lost {u : LockTable} (hread : presentedRecord e h t = .lost u) :
    takeAcknowledgement e a h t = tell (.outcome a h .notTaken) u := by
  simp only [takeAcknowledgement, hread]

theorem takeAcknowledgement_notTaken (hcurrent : current t.dom t.pool h)
    (hfront : ∀ f, (recordOf t.pool h.slot).front ≠ some ⟨f, true⟩) :
    takeAcknowledgement e a h t = tell (.outcome a h .notTaken) t := by
  match hf : (recordOf t.pool h.slot).front with
  | none => simp only [takeAcknowledgement, presentedRecord_current e hcurrent, hf]
  | some ⟨f, false⟩ =>
    simp only [takeAcknowledgement, presentedRecord_current e hcurrent, hf]
    rfl
  | some ⟨f, true⟩ => exact absurd hf (hfront f)

/-! ### A reversion (R114) -/

theorem takeReversion_reverted {f : NoticeKind} (hcurrent : current t.dom t.pool h)
    (hfront : (recordOf t.pool h.slot).front = some ⟨f, true⟩) : takeReversion e h t =
      setRecord h.slot { recordOf t.pool h.slot with front := some ⟨f, false⟩ } t := by
  simp only [takeReversion, presentedRecord_current e hcurrent, hfront]

theorem takeReversion_stale (hstale : presentedStale h t) : takeReversion e h t = t := by
  simp only [takeReversion, presentedRecord_stale e hstale]

theorem takeReversion_lost {u : LockTable} (hread : presentedRecord e h t = .lost u) : takeReversion e h t = u := by
  simp only [takeReversion, hread]

theorem takeReversion_unchanged (hp : Pool.wf t.pool = true) (hcurrent : current t.dom t.pool h)
    (hfront : ∀ f, (recordOf t.pool h.slot).front ≠ some ⟨f, true⟩) : takeReversion e h t = t := by
  match hf : (recordOf t.pool h.slot).front with
  | none => simp only [takeReversion, presentedRecord_current e hcurrent, hf]
  | some ⟨f, true⟩ => exact absurd hf (hfront f)
  | some ⟨f, false⟩ =>
    have hclean := ((readsClean_iff _).mp (current_probe hcurrent).1).1
    simp only [takeReversion, presentedRecord_current e hcurrent, hf]
    rw [← hf]
    exact congrArg (LockTable.mk t.dom) (writeRecord_recordOf hp hclean)

end Items

/-- Settles O42: each clause is one outcome of the domain's three events over what the read of the handle gives. -/
theorem claimsAcknowledgementsAndReversions : Obligations.ClaimsAcknowledgementsAndReversions := by
  refine ⟨fun s d a h rest => ?_, fun s a h rest => ⟨fun hhead => ?claimNone, fun hhead => ?acknowledgeNone, fun hhead => ?revertNone⟩⟩
  case claimNone =>
    change execClaim none s = _
    simp only [execClaim, hhead]
  case acknowledgeNone =>
    change execPresentedAcknowledgement none s = _
    simp only [execPresentedAcknowledgement, hhead]
  case revertNone =>
    change execReversion none s = _
    simp only [execReversion, hhead]
  intro x p r said wrote stale unreadable lost lostAnd hwf
  have hread (hu : unreadable) : presentedRecord (envOf s d) h ⟨x, s.pool⟩ = .lost ⟨lost, s.pool⟩ := by
    obtain ⟨howns, hserves, hagrees, hused, hhealth⟩ := hu
    exact presentedRecord_lost (t := ⟨x, s.pool⟩) _ howns hserves hagrees hused hhealth
  have hwrote {c : Host.Outcome State Fault Refusal} {y : Domain} {r' : Record} (hcurrent : current x s.pool h)
      (hc : c = .next (s.withTable d ⟨y, writeRecord s.pool h.slot r'⟩)) (hy : y.state = (s.domain d).state) : wrote y r' c := by
    have w := written_writeRecord hwf h.slot r'
    have hclean := ((readsClean_iff _).mp (current_probe hcurrent).1).1
    exact ⟨_, hc.trans (congrArg _ (withTable_eq_putTable (u := ⟨y, _⟩) hy)), w.others, w.slot_of_clean hclean⟩
  have hkept {c : Host.Outcome State Fault Refusal} {y : Domain} (hc : c = .next (s.withTable d ⟨y, s.pool⟩))
      (hy : y.state = (s.domain d).state) : c = .next (s.setDomain d y) :=
    hc.trans (congrArg _ (withTable_sameState hy))
  have hlost {c : Host.Outcome State Fault Refusal} {y : Domain} (hc : c = .next (s.withTable d ⟨y, s.pool⟩))
      (hy : y.state = .quarantined) : c = .next (s.setDomain d y) :=
    hc.trans (congrArg _ (putTable_pool_eq_withTable (.inl (by simp [hy]))))
  refine ⟨fun hhead => ⟨fun f hcurrent hfront => ?claimed, fun hno => ?declined, fun hu => ?claimLost⟩,
    fun hhead => ⟨fun f k hcurrent hfront hfollow => ?promoted, fun f hcurrent hfront hfollow hstate => ?removed,
      fun f hcurrent hfront hfollow hstate => ?retired, fun hno => ?notTaken, fun hu => ?ackLost⟩,
    fun hhead => ⟨fun f hcurrent hfront => ?reverted, fun hno => ?unsent, fun hu => ?revertLost⟩⟩
  case claimed =>
    exact hwrote hcurrent (exec_claim hhead (takeClaim_granted _ a (t := ⟨x, s.pool⟩) hcurrent hfront)) rfl
  case declined =>
    obtain hstale | ⟨hcurrent, hfront⟩ := hno
    · exact hkept (exec_claim hhead (takeClaim_stale _ a (t := ⟨x, s.pool⟩) hstale)) rfl
    · exact hkept (exec_claim hhead (takeClaim_declined _ a (t := ⟨x, s.pool⟩) hcurrent hfront)) rfl
  case claimLost =>
    exact hlost (exec_claim hhead (takeClaim_lost _ a (hread hu))) rfl
  case promoted =>
    exact hwrote hcurrent (exec_presentedAcknowledgement hhead
      (takeAcknowledgement_promoted _ a (t := ⟨x, s.pool⟩) hcurrent hfront hfollow)) rfl
  case removed =>
    exact hwrote hcurrent (exec_presentedAcknowledgement hhead
      (takeAcknowledgement_removed _ a (t := ⟨x, s.pool⟩) hcurrent hfront hfollow hstate)) rfl
  case retired =>
    obtain ⟨q, htake, hslot, honly⟩ := takeAcknowledgement_retired (envOf s d) a (t := ⟨x, s.pool⟩) hwf hcurrent hfront hfollow hstate
    exact ⟨q, exec_presentedAcknowledgement hhead htake, honly, hslot⟩
  case notTaken =>
    obtain hstale | ⟨hcurrent, hfront⟩ := hno
    · exact hkept (exec_presentedAcknowledgement hhead (takeAcknowledgement_stale _ a (t := ⟨x, s.pool⟩) hstale)) rfl
    · exact hkept (exec_presentedAcknowledgement hhead (takeAcknowledgement_notTaken _ a (t := ⟨x, s.pool⟩) hcurrent hfront)) rfl
  case ackLost =>
    exact hlost (exec_presentedAcknowledgement hhead (takeAcknowledgement_lost _ a (hread hu))) rfl
  case reverted =>
    exact hwrote hcurrent (exec_reversion hhead (takeReversion_reverted _ (t := ⟨x, s.pool⟩) hcurrent hfront)) rfl
  case unsent =>
    obtain hstale | ⟨hcurrent, hfront⟩ := hno
    · exact hkept (exec_reversion hhead (takeReversion_stale _ (t := ⟨x, s.pool⟩) hstale)) rfl
    · exact hkept (exec_reversion hhead (takeReversion_unchanged _ (t := ⟨x, s.pool⟩) hwf hcurrent hfront)) rfl
  case revertLost =>
    exact hlost (exec_reversion hhead (takeReversion_lost _ (hread hu))) rfl

end Sys2Proof.Machine
end

section
/-! The release of a record by RELEASE and REVOKE_RECORD (R61 to R68): its withdrawals, the revocation posted, and the drain. -/

set_option Elab.async false

namespace Sys2Proof.Machine

/-! ### Withdrawals and the revocation's post (R64, R66, R102) -/

theorem withdrawable_eq (k : NoticeKind) : withdrawable k = releaseDrops k := by
  cases k <;> rfl

/-- REVOKED is placed as the table of R102 says. -/
theorem placeNotice_revoked (r : Record) : placeNotice r .revoked = ((placeRevoked r.front r.followUp).1,
    { r with front := (placeRevoked r.front r.followUp).2.1, followUp := (placeRevoked r.front r.followUp).2.2 }) := by
  simp only [placeNotice]
  match hf : r.front, hk : r.followUp with
  | none, k => simp [placeRevoked, ← hk]
  | some ⟨f, true⟩, k => simp [placeRevoked, ← hf]
  | some ⟨f, false⟩, none => simp [placeRevoked, ← hk]
  | some ⟨f, false⟩, some k => simp [placeRevoked, ← hf]

/-- The record once a release has taken it off its wait and its withdrawable notices off it (R63, R64). -/
def Record.released (r : Record) : Record :=
  { r with
    mode := if r.state = .converting then .shared else r.mode, waitDeadline := none
    front := r.keptFront, followUp := r.keptFollowUp }

/-- The domain once the record of slot `i` is no longer live (R20, R63, R64). -/
def Domain.released (x : Domain) (h : Handle) (r : Record) : Domain :=
  { x with
    waitQueue := dropSlot h.slot x.waitQueue, tokenMap := dropToken r.token x.tokenMap
    live := put x.live r.owner (look x.live r.owner - 1), toNotice := x.toNotice ++ r.withdrawals h x.era }

theorem withdraw_eq (i : SlotId) (t : LockTable) : withdraw i t =
    let r := recordOf t.pool i
    if r.dropsFront then tell (.withdrawFront r.owner (handleOf t.pool i)) (setRecord i { r with front := none, followUp := none } t)
    else if r.dropsFollowUp then tell (.withdrawFollowUp r.owner (handleOf t.pool i)) (setRecord i { r with followUp := none } t)
    else t := by
  have hfollow : (recordOf t.pool i).dropsFollowUp = (recordOf t.pool i).followUp.any withdrawable := by
    rw [Record.dropsFollowUp, funext withdrawable_eq]
  simp only [withdraw, hfollow]
  match hf : (recordOf t.pool i).front with
  | none => cases (recordOf t.pool i).followUp <;> simp [Record.dropsFront, hf]
  | some ⟨k, true⟩ => cases (recordOf t.pool i).followUp <;> simp [Record.dropsFront, hf]
  | some ⟨k, false⟩ => cases (recordOf t.pool i).followUp <;> simp [Record.dropsFront, hf, withdrawable_eq]

section Release

variable (e : DomainEnv) {p q : Pool} {i : SlotId} {r : Record} {x : Domain}

theorem withdraw_written (w : Written p i r q) : ∃ q', withdraw i ⟨x, q⟩ =
      ⟨{ x with toNotice := x.toNotice ++ r.withdrawals ⟨i, genOf p i⟩ x.era }, q'⟩ ∧
    Written p i { r with front := r.keptFront, followUp := r.keptFollowUp } q' := by
  rw [withdraw_eq]
  simp only [w.record, w.handle]
  cases hf : r.dropsFront with
  | true =>
    refine ⟨_, ?_, w.write _⟩
    simp [Record.withdrawals, Record.keptFront, Record.keptFollowUp, hf, tell, setRecord]
  | false =>
    cases hk : r.dropsFollowUp with
    | true =>
      refine ⟨_, ?_, w.write _⟩
      simp [Record.withdrawals, Record.keptFront, Record.keptFollowUp, hf, hk, tell, setRecord]
    | false =>
      refine ⟨q, ?_, ?_⟩
      · simp [Record.withdrawals, hf, hk]
      · simpa [Record.keptFront, Record.keptFollowUp, hf, hk] using w

/-- What a release does before its revocation: the wait ended, the token and the withdrawable notices gone, the count lower. -/
theorem release_written (hp : Pool.wf p = true) : ∃ q', liveDown r.owner (withdraw i (unhold i r ⟨x, p⟩)) =
      ⟨x.released ⟨i, genOf p i⟩ r, q'⟩ ∧ Written p i r.released q' := by
  have w := written_writeRecord hp i { r with mode := if r.state = .converting then .shared else r.mode, waitDeadline := none }
  obtain ⟨q', hwithdraw, hwritten⟩ := withdraw_written
    (x := { x with waitQueue := dropSlot i x.waitQueue, tokenMap := dropToken r.token x.tokenMap }) w
  exact ⟨q', congrArg (liveDown r.owner) hwithdraw, hwritten⟩

theorem enterDraining_written (w : Written p i r q) : ∃ q', enterDraining e i ⟨x, q⟩ = ⟨x, q'⟩ ∧
    Written p i { r with state := .draining, drainDeadline := some (e.now + drainTime x) } q' := by
  refine ⟨_, ?_, w.write _⟩
  simp only [enterDraining, w.record]
  rfl

/-! ### The drain of a released record (R63, R67, R68) -/

section Drain

variable {t : LockTable} {revoked : Option Bool} {r' : Record}
  (hstep : reportRevocation i r.owner revoked (liveDown r.owner (withdraw i (unhold i r t))) = ⟨x, q⟩) (w : Written p i r' q)
include hstep w

theorem releaseHeld_draining (hflight : 0 < r.reads + r.writes) (hqueue : r.state = .held ∨ x.waitQueue = []) :
    ∃ q', releaseHeld e i r revoked t = .ok () ⟨x, q'⟩ ∧
      Written p i { r' with state := .draining, drainDeadline := some (e.now + drainTime x) } q' := by
  obtain ⟨q', hdrain, hwritten⟩ := enterDraining_written e (x := x) w
  refine ⟨q', ?_, hwritten⟩
  have hcounts : ¬(r.reads = 0 ∧ r.writes = 0) := by omega
  simp only [releaseHeld, hstep, hdrain, if_neg hcounts]
  obtain hheld | hempty := hqueue
  · exact if_neg (by simp [hheld])
  · rw [grantPass_nothing e (t := ⟨x, q'⟩) hempty, ite_self]

theorem releaseHeld_idle (hreads : r.reads = 0) (hwrites : r.writes = 0) : ∃ q', releaseHeld e i r revoked t = endDrain e i ⟨x, q'⟩ ∧
      Written p i { r' with state := .draining, drainDeadline := some (e.now + drainTime x) } q' := by
  obtain ⟨q', hdrain, hwritten⟩ := enterDraining_written e (x := x) w
  refine ⟨q', ?_, hwritten⟩
  simp only [releaseHeld, hstep, hdrain]
  exact if_pos ⟨hreads, hwrites⟩

theorem releaseHeld_ended (hreads : r.reads = 0) (hwrites : r.writes = 0) (hqueue : x.waitQueue = []) (hfront : r'.front ≠ none) :
    ∃ q', releaseHeld e i r revoked t = .ok () ⟨{ x with occupancy := dropSlot i x.occupancy }.closedOut, q'⟩ ∧
      Written p i { r' with state := .ended, drainDeadline := none } q' := by
  obtain ⟨q₁, hrelease, w₁⟩ := releaseHeld_idle e hstep w hreads hwrites
  obtain ⟨q₂, hend, w₂⟩ := endDrain_ended e (x := x) w₁ hfront hqueue
  exact ⟨q₂, hrelease.trans hend, w₂⟩

theorem releaseHeld_retired (ha : (poolGet p i).agrees = true) (hreads : r.reads = 0) (hwrites : r.writes = 0)
    (hqueue : x.waitQueue = []) (hfront : r'.front = none) :
    ∃ q', releaseHeld e i r revoked t = .ok () ⟨(x.without i).closedOut, q'⟩ ∧
      poolGet q' i = retired (genOf p i) ∧ onlySlot i p q' := by
  obtain ⟨q₁, hrelease, w₁⟩ := releaseHeld_idle e hstep w hreads hwrites
  obtain ⟨q₂, hend, hslot⟩ := endDrain_retired e (x := x) w₁ ha hfront (by rw [hqueue]; rfl)
  exact ⟨q₂, hrelease.trans hend, hslot⟩

end Drain

/-- The cancel of a WAITING record with no other queued retires its slot (R62). -/
theorem cancel_alone (hp : Pool.wf p = true) (hclean : (poolGet p i).readsClean = true) (hqueue : dropSlot i x.waitQueue = []) :
    ∃ q', cancel e i r ⟨x, p⟩ = .ok ()
        ⟨(Domain.without { x with live := put x.live r.owner (look x.live r.owner - 1) } i).closedOut, q'⟩ ∧
      poolGet q' i = retired (genOf p i) ∧ onlySlot i p q' := by
  refine ⟨_, ?_, poolGet_freeSlot_same hp i, onlySlot_freeSlot p i⟩
  have hretire := retire_clean e (t := ⟨{ x with
    waitQueue := dropSlot i x.waitQueue, live := put x.live r.owner (look x.live r.owner - 1) }, p⟩) hclean
  simp only [dropSlot_dropSlot] at hretire
  have hpass := grantPass_nothing e
    (t := ⟨Domain.without { x with live := put x.live r.owner (look x.live r.owner - 1) } i, freeSlot p i⟩) hqueue
  simp only [Domain.without] at hpass
  simp only [cancel, liveDown, hretire, Ran.bind, hpass, completeClose_eq, Domain.without]

end Release

/-! ### RELEASE -/

theorem returnReleased_closedOut (q : LockRequest) (r : Response) (x : Domain) (p : Pool) :
    returnReleased q r (.ok () ⟨x.closedOut, p⟩) =
      ⟨{ x with toSession := x.toSession ++ [DomainReport.result q.agent q.stamp r (some .down) q.era] }.closedOut, p⟩ :=
  congrArg (LockTable.mk · p) (closedOut_toSession x _)

theorem popSession_table {s : State} {d : DomainId} {i : SessionItem} {rest : List SessionItem}
    (hhead : (s.domain d).fromSession = i :: rest) :
    popSession (s.table d) = ⟨{ s.domain d with fromSession := rest }, s.pool⟩ := by
  have hrest : (s.domain d).fromSession.tail = rest := by rw [hhead]; rfl
  rw [← hrest]
  rfl

section Command

variable {s : State} {d : DomainId} {q : LockRequest} {rest : List SessionItem} {h : Handle}
  (hhead : (s.domain d).fromSession = .request q :: rest) (hbody : q.body = .release h) (hcurrent : current (s.domain d) s.pool h)
  (howner : (recordOf s.pool h.slot).owner = q.agent)
include hhead hbody hcurrent howner

theorem exec_release_over (hstate : (recordOf s.pool h.slot).state = .draining ∨ (recordOf s.pool h.slot).state = .ended) :
    exec (.release d) s = .next (s.setDomain d ((s.domain d).answered rest q (.refused .alreadyReleased) none)) := by
  have hread := requestedRecord_current (envOf s d) (t := popSession (s.table d)) hcurrent howner
  rw [exec_release_request hhead hbody, ← withTable_returnResult_popSession hhead q (.refused .alreadyReleased) none]
  simp only [decideRelease, hread]
  obtain hst | hst := hstate <;> simp only [show (recordOf (popSession (s.table d)).pool h.slot).state = _ from hst]

theorem exec_release_waiting (hstate : (recordOf s.pool h.slot).state = .waiting) {u : LockTable}
    (hu : returnReleased q (.cancelled h) (cancel (envOf s d) h.slot (recordOf s.pool h.slot)
      ⟨{ s.domain d with fromSession := rest }, s.pool⟩) = u) :
    exec (.release d) s = .next (s.withTable d u) := by
  rw [← popSession_table hhead] at hu
  have hread := requestedRecord_current (envOf s d) (t := popSession (s.table d)) hcurrent howner
  rw [exec_release_request hhead hbody, ← hu]
  simp only [decideRelease, hread]
  simp only [show (recordOf (popSession (s.table d)).pool h.slot).state = _ from hstate]
  rfl

theorem exec_release_held (hstate : (recordOf s.pool h.slot).state = .held ∨ (recordOf s.pool h.slot).state = .converting)
    {u : LockTable} (hu : returnReleased q (.released h) (releaseHeld (envOf s d) h.slot (recordOf s.pool h.slot) none
      ⟨{ s.domain d with fromSession := rest }, s.pool⟩) = u) :
    exec (.release d) s = .next (s.withTable d u) := by
  rw [← popSession_table hhead] at hu
  have hread := requestedRecord_current (envOf s d) (t := popSession (s.table d)) hcurrent howner
  rw [exec_release_request hhead hbody, ← hu]
  simp only [decideRelease, hread]
  obtain hst | hst := hstate <;> simp only [show (recordOf (popSession (s.table d)).pool h.slot).state = _ from hst] <;> rfl

end Command

/-- Settles O36: RELEASE by the state of the record, through `cancel_alone` and the drain of a released record. -/
theorem releaseByState : Obligations.ReleaseByState := by
  intro s d q rest h hhead hbody hcurrent howner hwf x r live y left
  obtain ⟨hclean, -, hgen⟩ := current_probe hcurrent
  obtain ⟨hhealth, hagrees⟩ := (readsClean_iff _).mp hclean
  have hhandle : (⟨h.slot, genOf s.pool h.slot⟩ : Handle) = h := by rw [hgen]
  refine ⟨exec_release_over hhead hbody hcurrent howner, fun hstate hqueue => ?waiting,
    fun hstate => ⟨fun hqueue hflight => ?draining, fun hqueue hreads hwrites => ⟨fun hfront => ?ended, fun hfront => ?retired⟩⟩⟩
  case waiting =>
    obtain ⟨p, hcancel, hslot, honly⟩ := cancel_alone (envOf s d) (r := r) (x := { x with fromSession := rest }) hwf hclean hqueue
    refine ⟨p, (exec_release_waiting hhead hbody hcurrent howner hstate
      ((congrArg (returnReleased q _) hcancel).trans (returnReleased_closedOut q _ _ p))).trans ?_, by rw [hslot, hgen], honly⟩
    simp only [Domain.without, show r.owner = q.agent from howner]
    rw [← hqueue]
    rfl
  all_goals
    obtain ⟨p, hstep, w⟩ := release_written (r := r) (i := h.slot) (x := { x with fromSession := rest }) hwf
    have hdomain : { Domain.released { x with fromSession := rest } ⟨h.slot, genOf s.pool h.slot⟩ r with
        toSession := x.toSession ++ [.result q.agent q.stamp (.released h) (some .down) q.era] } = y := by
      simp only [Domain.released, hhandle, show r.owner = q.agent from howner]
      rfl
  case draining =>
    obtain ⟨p', hrun, w'⟩ := releaseHeld_draining (envOf s d) (revoked := none) hstep w hflight hqueue
    refine ⟨p', (exec_release_held hhead hbody hcurrent howner hstate (congrArg (returnReleased q _) hrun)).trans ?_,
      w'.slot_of_clean hhealth, w'.others⟩
    rw [← hdomain]
    exact congrArg _ (withTable_eq_putTable rfl)
  case ended =>
    obtain ⟨p', hrun, w'⟩ := releaseHeld_ended (envOf s d) (revoked := none) hstep w hreads hwrites hqueue hfront
    refine ⟨p', (exec_release_held hhead hbody hcurrent howner hstate
      ((congrArg (returnReleased q _) hrun).trans (returnReleased_closedOut q _ _ p'))).trans ?_,
      w'.slot_of_clean hhealth, w'.others⟩
    rw [← hdomain]
    rfl
  case retired =>
    obtain ⟨p', hrun, hslot, honly⟩ := releaseHeld_retired (envOf s d) (revoked := none) hstep w hagrees hreads hwrites hqueue hfront
    refine ⟨p', (exec_release_held hhead hbody hcurrent howner hstate
      ((congrArg (returnReleased q _) hrun).trans (returnReleased_closedOut q _ _ p'))).trans ?_, by rw [hslot, hgen], honly⟩
    simp only [Domain.without, Domain.released, dropSlot_dropSlot, hhandle, show r.owner = q.agent from howner]
    rfl

end Sys2Proof.Machine
end

section
/-! REVOKE_RECORD at the domain that decides it (R65, R66). -/

set_option Elab.async false

namespace Sys2Proof.Machine

/-! ### The revocation -/

/-- The record of a revocation once REVOKED is posted, where its owner is ONLINE (R66, R102). -/
def Record.revoked (r : Record) (online : Bool) : Record :=
  { r.released with
    front := if online then (placeRevoked r.keptFront r.keptFollowUp).2.1 else r.keptFront
    followUp := if online then (placeRevoked r.keptFront r.keptFollowUp).2.2 else r.keptFollowUp }

/-- The domain once the record is no longer live and its revocation is reported (R66). -/
def Domain.revoked (x : Domain) (h : Handle) (r : Record) (online : Bool) : Domain :=
  { x.released h r with
    toSession := x.toSession ++ [.live r.owner .down x.era]
    toNotice := x.toNotice ++ r.withdrawals h x.era ++
      if online then [⟨x.era, .post r.owner h (placeRevoked r.keptFront r.keptFollowUp).1 ⟨.revoked, r.cookie, none⟩
        (look x.reclaimed r.owner)⟩] else [] }

theorem revocation_written {p : Pool} {i : SlotId} {r : Record} {x : Domain} (hp : Pool.wf p = true) (online : Bool) :
    ∃ q, reportRevocation i r.owner (some online) (liveDown r.owner (withdraw i (unhold i r ⟨x, p⟩))) =
      ⟨x.revoked ⟨i, genOf p i⟩ r online, q⟩ ∧ Written p i (r.revoked online) q := by
  obtain ⟨q, hrelease, w⟩ := release_written (r := r) (i := i) (x := x) hp
  rw [hrelease]
  cases online with
  | false =>
    refine ⟨q, ?_, w⟩
    simp only [reportRevocation, reportLive, Domain.revoked, List.append_nil, Bool.false_eq_true, if_false]
    rfl
  | true =>
    obtain ⟨q', hpost, w'⟩ := post_written (x := { x.released ⟨i, genOf p i⟩ r with
      toSession := x.toSession ++ [.live r.owner .down x.era] }) w .revoked none
    rw [placeNotice_revoked] at hpost w'
    exact ⟨q', hpost, w'⟩

/-! ### The checks of REVOKE_RECORD (R65) -/

section Revoke

variable {e : DomainEnv} {online : AgentId → Bool} {h : Handle} {t u : LockTable}

theorem revoke_refused {c : ResultRefusal} (hread : currentRecord e h t = .ok (.error c) u) :
    revoke e online h t = (.refused (revokeReason c), reportRevoke e u) := by
  simp only [revoke, hread]

theorem revoke_lost (hread : currentRecord e h t = .lost u) : revoke e online h t = (.refused .wrongState, reportRevoke e u) := by
  simp only [revoke, hread]

theorem revoke_notHeld {r : Record} (hread : currentRecord e h t = .ok (.ok r) u) (hheld : r.state ≠ .held)
    (hconverting : r.state ≠ .converting) : revoke e online h t = (.refused .notHeld, reportRevoke e u) := by
  cases hs : r.state with
  | held => exact absurd hs hheld
  | converting => exact absurd hs hconverting
  | free | waiting | draining | ended => simp only [revoke, hread, hs]

theorem revoke_held {r : Record} (hread : currentRecord e h t = .ok (.ok r) u) (hstate : r.state = .held ∨ r.state = .converting) :
    revoke e online h t = (.done, (releaseHeld e h.slot r (some (online r.owner)) u).table) := by
  obtain hs | hs := hstate <;> simp only [revoke, hread, hs]

end Revoke

section Command

variable {s : State} {arg : Word} {dest : Option DomainId} (hc : s.management.command = some (.handed .revokeRecord arg dest))
include hc

theorem exec_revokeRecord_none (hdest : dest = none) : exec (.revokeRecord .decide) s =
    .next (answer (reportManagement s .commandRefused none none) .revokeRecord (.refused .staleHandle)) := by
  subst hdest
  exact twoPhase_decide hc

theorem exec_revokeRecord {d : DomainId} (hdest : dest = some d) {a : Answer} {u : LockTable}
    (hr : revoke (envOf s d) (fun n => (s.agent n).state == .online) (handleField arg) (s.table d) = (a, u)) :
    exec (.revokeRecord .decide) s = .next (answer (s.withTable d u) .revokeRecord a) := by
  subst hdest
  refine (twoPhase_decide hc).trans ?_
  simp only [decideRevokeRecord, hr]

end Command

/-- Settles O19: the checks of `revoke` in their order, and the revocation through the drain of a released record. -/
theorem revokeRecordDecision : Obligations.RevokeRecordDecision := by
  intro s arg dest hc h
  refine ⟨exec_revokeRecord_none hc, fun d hdest => ?_⟩
  intro x p refused
  have hrefused {r : Reason} (hr : revoke (envOf s d) (fun n => (s.agent n).state == .online) h (s.table d) =
      (.refused r, reportRevoke (envOf s d) (s.table d))) : exec (.revokeRecord .decide) s = .next (refused r) := by
    refine (exec_revokeRecord hc hdest hr).trans (congrArg (fun u => Host.Outcome.next (answer u .revokeRecord (.refused r))) ?_)
    exact withTable_sameState (d := d) rfl
  refine ⟨fun howns => hrefused (revoke_refused (currentRecord_notOwned (t := s.table d) howns)), fun howns hstate => ?unavailable,
    fun howns hstate hagrees => ?serving⟩
  case unavailable =>
    exact hrefused (revoke_refused (currentRecord_unavailable (t := s.table d) howns (by simpa [Domain.unavailable] using hstate)))
  obtain ⟨hav, hserves⟩ := serving_available hstate
  have hread (hused : p.directory.free = false) (hclean : p.health = .clean) :=
    readSlot_clean (t := s.table d) (envOf s d) ((readsClean_iff _).mpr ⟨hclean, hagrees⟩) hused
  have hrecord (hused : p.directory.free = false) (hclean : p.health = .clean) (hgen : p.directory.gen = h.gen) :
      currentRecord (envOf s d) h (s.table d) = .ok (.ok p.record) (s.table d) :=
    currentRecord_current (t := s.table d) _
      ⟨howns, hserves, (readsClean_iff _).mpr ⟨hclean, hagrees⟩, by rw [← hgen, ← hused]; rfl⟩
  refine ⟨fun hfree => ?free, fun hused hlost => ?lost, fun hused hclean hgen => ?stale, fun hused hclean hgen hheld hconverting =>
    hrefused (revoke_notHeld (hrecord hused hclean hgen) hheld hconverting), fun hused hclean hgen hstate hwf => ?held⟩
  case free =>
    exact hrefused (revoke_refused (currentRecord_free (t := s.table d) howns hav (readSlot_free (t := s.table d) _ hagrees hfree)))
  case stale =>
    exact hrefused (revoke_refused (currentRecord_stale (t := s.table d) howns hav (hread hused hclean) hgen))
  case lost =>
    have hexec := exec_revokeRecord hc hdest (revoke_lost (currentRecord_lost (t := s.table d) howns hav
      ((readSlot_lost (t := s.table d) (envOf s d) hagrees hused hlost).trans
        (congrArg Ran.lost (quarantine_report _ _ (t := s.table d) hserves)))))
    refine ⟨_, hexec, ?_, rfl⟩
    exact congrArg Domain.state (look_put_same ..)
  case held =>
    intro r o online placed front y left
    have hhandle : (⟨h.slot, genOf s.pool h.slot⟩ : Handle) = h := congrArg (Handle.mk h.slot) hgen
    obtain ⟨q, hstep, w⟩ := revocation_written (r := r) (i := h.slot) (x := x) hwf online
    rw [hhandle] at hstep
    have hrun {v : Ran Unit} (hv : releaseHeld (envOf s d) h.slot r (some online) (s.table d) = v) :
        exec (.revokeRecord .decide) s = .next (answer (s.withTable d v.table) .revokeRecord .done) :=
      exec_revokeRecord hc hdest ((revoke_held (hrecord hused hclean hgen) hstate).trans (congrArg (fun v => (_, v.table)) hv))
    refine ⟨fun hflight hqueue => ?_, fun hreads hwrites hqueue => ⟨fun hfront => ?_, fun hfront => ?_⟩⟩
    · obtain ⟨q', hdrain, w'⟩ := releaseHeld_draining (envOf s d) hstep w hflight hqueue
      refine ⟨q', (hrun hdrain).trans ?_, w'.others, w'.slot_of_clean hclean⟩
      exact congrArg (fun u => Host.Outcome.next (answer u .revokeRecord .done)) (withTable_eq_putTable rfl)
    · obtain ⟨q', hend, w'⟩ := releaseHeld_ended (envOf s d) hstep w hreads hwrites hqueue hfront
      exact ⟨q', hrun hend, w'.others, w'.slot_of_clean hclean⟩
    · obtain ⟨q', hend, hslot, honly⟩ := releaseHeld_retired (envOf s d) hstep w hagrees hreads hwrites hqueue hfront
      refine ⟨q', (hrun hend).trans ?_, honly, hslot.trans (congrArg retired hgen)⟩
      simp only [Domain.without, Domain.revoked, Domain.released, dropSlot_dropSlot]
      rfl

end Sys2Proof.Machine
end

section
/-! CONVERT DOWN with the grants it allows (R42 to R46, R59), and QUERY (R158). -/

set_option Elab.async false

namespace Sys2Proof.Machine

/-! ### A step of the grant pass over clean records (R42) -/

section Pass

variable {e : DomainEnv} {i : SlotId} {l : List SlotId} {ahead : List (SlotId × Record)} {t : LockTable}
  (hclean : (poolGet t.pool i).health = .clean) (hholds : recordsClean t.pool t.dom.occupancy = true)
include hclean hholds

theorem passFrom_clean : passFrom e (i :: l) ahead t =
    if grantable i (recordOf t.pool i) (t.dom.occupancy.map fun k => (k, recordOf t.pool k)) ahead then
      if t.dom.exhausted then .ok () t else passFrom e l ahead (grantOne e i (recordOf t.pool i) t)
    else passFrom e l (ahead ++ [(i, recordOf t.pool i)]) t := by
  simp only [passFrom, readRecord_clean e hclean, readAll_clean e hholds, Ran.bind]

theorem passFrom_held (h : grantable i (recordOf t.pool i) (t.dom.occupancy.map fun k => (k, recordOf t.pool k)) ahead = false) :
    passFrom e (i :: l) ahead t = passFrom e l (ahead ++ [(i, recordOf t.pool i)]) t :=
  (passFrom_clean hclean hholds).trans (if_neg (Bool.eq_false_iff.mp h))

variable (h : grantable i (recordOf t.pool i) (t.dom.occupancy.map fun k => (k, recordOf t.pool k)) ahead = true)
include h

theorem passFrom_exhausted (hexhausted : t.dom.exhausted = true) : passFrom e (i :: l) ahead t = .ok () t :=
  (passFrom_clean hclean hholds).trans ((if_pos h).trans (if_pos hexhausted))

theorem passFrom_granted (hexhausted : t.dom.exhausted = false) :
    passFrom e (i :: l) ahead t = passFrom e l ahead (grantOne e i (recordOf t.pool i) t) :=
  (passFrom_clean hclean hholds).trans ((if_pos h).trans (if_neg (Bool.eq_false_iff.mp hexhausted)))

end Pass

theorem grantable_map (i : SlotId) {r : Record} {m : Mode} (hclaim : r.claim = some m) (p : Pool) (l : List SlotId)
    (ahead : List (SlotId × Record)) : grantable i r (l.map fun k => (k, recordOf p k)) ahead =
      (noHoldMeets p m r.first r.count (l.filter (fun k => k != i)) && !meetsClaim m r.first r.count ahead) := by
  simp only [grantable, hclaim, otherHolds_map, meetsHold_map, Bool.not_not]

/-! ### The grant of one record (R43, R44) -/

section Grant

variable (e : DomainEnv) {i : SlotId} {r : Record} {x : Domain} {p : Pool} (hp : Pool.wf p = true) (hfront : r.front = none)
  (hk : x.tokenCounter ≠ BitVec.allOnes 40)
include hp hfront hk

theorem grantOne_waiting (hstate : r.state = .waiting) : ∃ q, grantOne e i r ⟨x, p⟩ = ⟨{ x with
      tokenCounter := x.tokenCounter + 1, waitQueue := dropSlot i x.waitQueue, occupancy := insertSlot i x.occupancy
      tokenMap := x.tokenMap ++ [(x.tokenCounter, i)]
      toNotice := x.toNotice ++ [⟨x.era, .post r.owner ⟨i, genOf p i⟩ .newFront ⟨.granted, r.cookie, some x.tokenCounter⟩
        (look x.reclaimed r.owner)⟩] }, q⟩ ∧
    Written p i { r with
      state := .held, waitDeadline := none, token := some x.tokenCounter, front := some ⟨.granted, false⟩ } q := by
  have w := written_writeRecord hp i { r with state := .held, waitDeadline := none, token := some x.tokenCounter }
  obtain ⟨q, hpost, hwritten⟩ := post_written (x := { x with
    tokenCounter := x.tokenCounter + 1, waitQueue := dropSlot i x.waitQueue, occupancy := insertSlot i x.occupancy
    tokenMap := x.tokenMap ++ [(x.tokenCounter, i)] }) w .granted (some x.tokenCounter)
  rw [placeNotice_newFront (by exact hfront)] at hpost hwritten
  refine ⟨q, ?_, hwritten⟩
  have hnot : r.state ≠ .converting := by simp [hstate]
  simp only [grantOne, if_neg hnot, grantWaiting, takeToken_advances e r.owner i p hk]
  exact hpost

theorem grantOne_converting (hstate : r.state = .converting) : ∃ q, grantOne e i r ⟨x, p⟩ = ⟨{ x with
      tokenCounter := x.tokenCounter + 1, waitQueue := dropSlot i x.waitQueue
      tokenMap := dropToken r.token x.tokenMap ++ [(x.tokenCounter, i)]
      toNotice := x.toNotice ++ [⟨x.era, .post r.owner ⟨i, genOf p i⟩ .newFront ⟨.upgraded, r.cookie, some x.tokenCounter⟩
        (look x.reclaimed r.owner)⟩] }, q⟩ ∧
    Written p i { r with
      state := .held, mode := .exclusive, waitDeadline := none, token := some x.tokenCounter
      front := some ⟨.upgraded, false⟩ } q := by
  have w := written_writeRecord hp i { r with
    state := .held, mode := .exclusive, waitDeadline := none, token := some x.tokenCounter }
  obtain ⟨q, hpost, hwritten⟩ := post_written (x := { x with
    tokenCounter := x.tokenCounter + 1, waitQueue := dropSlot i x.waitQueue
    tokenMap := dropToken r.token x.tokenMap ++ [(x.tokenCounter, i)] }) w .upgraded (some x.tokenCounter)
  rw [placeNotice_newFront (by exact hfront)] at hpost hwritten
  refine ⟨q, ?_, hwritten⟩
  simp only [grantOne, if_pos hstate, grantConverting, takeToken_advances e r.owner i p hk]
  exact hpost

end Grant

/-! ### The other records over a pool with one record written -/

section Others

variable {p q : Pool} {i j : SlotId} {r : Record} (w : Written p i r q)
include w

theorem Written.recordOf_ne (h : j ≠ i) : recordOf q j = recordOf p j := by
  rw [recordOf, w.others j h]
  rfl

theorem Written.genOf_ne (h : j ≠ i) : genOf q j = genOf p j := by
  rw [genOf, w.others j h]
  rfl

theorem Written.recordsClean {l : List SlotId} (h : recordsClean p l = true) : recordsClean q l = true := by
  simp only [Machine.recordsClean, List.all_eq_true, beq_iff_eq] at h ⊢
  intro k hk
  by_cases hki : k = i
  · rw [hki, w.slot]
  · rw [w.others k hki]
    exact h k hk

/-- The holds of the other records stand as they did; that of the record written is as it is now. -/
theorem Written.noHoldMeets_other {m : Mode} {first : Page} {count : Nat} {l : List SlotId}
    (h : noHoldMeets p m first count (l.filter (fun k => k != i && k != j)) = true) (hr : conflicts m first count r r.hold = false) :
    noHoldMeets q m first count (l.filter (fun k => k != j)) = true := by
  simp only [noHoldMeets, List.all_eq_true, List.mem_filter, Bool.and_eq_true, bne_iff_ne, Bool.not_eq_true'] at h ⊢
  rintro k ⟨hk, hkj⟩
  by_cases hki : k = i
  · rw [hki, w.record, hr]
  · rw [w.recordOf_ne hki]
    exact h k ⟨hk, hki, hkj⟩

/-- A queued record with none ahead of it can be granted where its claim meets no hold, that of the record written included (R42). -/
theorem Written.grantable_alone {m : Mode} {l : List SlotId} (hj : j ≠ i) (hclaim : (recordOf p j).claim = some m)
    (h : noHoldMeets p m (recordOf p j).first (recordOf p j).count (l.filter (fun k => k != i && k != j)) = true)
    (hr : conflicts m (recordOf p j).first (recordOf p j).count r r.hold = false) :
    grantable j (recordOf q j) (l.map fun k => (k, recordOf q k)) [] = true := by
  rw [w.recordOf_ne hj, grantable_map j hclaim, w.noHoldMeets_other h hr]
  rfl

end Others

/-! ### CONVERT DOWN and QUERY -/

section Decide

variable {e : DomainEnv} {a : AgentId} {h : Handle} {t : LockTable} (hcurrent : current t.dom t.pool h)
  (howner : (recordOf t.pool h.slot).owner = a)
include hcurrent howner

theorem decideConvertDown_wrongMode
    (hmode : ¬((recordOf t.pool h.slot).state = .held ∧ (recordOf t.pool h.slot).mode = .exclusive)) :
    decideConvertDown e a h t = .ok (.refused .wrongMode) t := by
  simp only [decideConvertDown, requestedRecord_current e hcurrent howner, Ran.bind]
  exact if_pos (not_and_or.mp hmode)

theorem decideQuery_current :
    decideQuery e a h t = .ok (.status (statusOf h (recordOf t.pool h.slot) t)) t := by
  simp only [decideQuery, requestedRecord_current e hcurrent howner, Ran.bind]

variable (hheld : (recordOf t.pool h.slot).state = .held) (hmode : (recordOf t.pool h.slot).mode = .exclusive)
include hheld hmode

theorem decideConvertDown_writesInFlight (hwrites : 0 < (recordOf t.pool h.slot).writes) :
    decideConvertDown e a h t = .ok (.refused .writesInFlight) t := by
  simp only [decideConvertDown, requestedRecord_current e hcurrent howner, Ran.bind, hheld, hmode]
  exact if_pos hwrites

theorem decideConvertDown_converted {k : Token} {u : LockTable} (hwrites : (recordOf t.pool h.slot).writes = 0)
    (htoken : (recordOf t.pool h.slot).token = some k)
    (hpass : grantPass e ⟨t.dom, writeRecord t.pool h.slot { recordOf t.pool h.slot with mode := .shared }⟩ = .ok () u) :
    decideConvertDown e a h t = .ok (.converted h k) u := by
  have hpass' : grantPass e (setRecord h.slot { recordOf t.pool h.slot with mode := .shared } t) = .ok () u := hpass
  have hright : ¬((recordOf t.pool h.slot).state ≠ .held ∨ (recordOf t.pool h.slot).mode ≠ .exclusive) := by simp [hheld, hmode]
  have hdone : ¬ 0 < (recordOf t.pool h.slot).writes := by simp [hwrites]
  simp only [decideConvertDown, requestedRecord_current e hcurrent howner, Ran.bind, if_neg hright, if_neg hdone, hpass']
  simp only [htoken, tokenBits, Option.getD_some]

end Decide

theorem queuePosition_eq (i : SlotId) (r : Record) (t : LockTable) : queuePosition i r t =
    if r.state = .waiting ∨ r.state = .converting then positionIn i t.dom.waitQueue else 0 := by
  cases hs : r.state <;> simp [queuePosition, hs]

/-- Settles O38: the refusals of `decideConvertDown`, and the grant pass over the pool with the record's mode SHARED. -/
theorem convertDownAndQuery : Obligations.ConvertDownAndQuery := by
  intro s d q rest h hhead hcurrent howner hwf x r refused down
  obtain ⟨hclean, -, hgen⟩ := current_probe hcurrent
  obtain ⟨hhealth, -⟩ := (readsClean_iff _).mp hclean
  obtain ⟨-, hserves, -⟩ := id hcurrent
  obtain ⟨p₁, hp₁⟩ : ∃ p, writeRecord s.pool h.slot { r with mode := .shared } = p := ⟨_, rfl⟩
  have w : Written s.pool h.slot { r with mode := .shared } p₁ := hp₁ ▸ written_writeRecord hwf h.slot _
  have hpop := popSession_table hhead
  have hconverted {k : Token} {u : LockTable} (hbody : q.body = .convertDown h) (hheld : r.state = .held) (hmode : r.mode = .exclusive)
      (hwrites : r.writes = 0) (htoken : r.token = some k) (hstate : u.dom.state = x.state)
      (hpass : passFrom (envOf s d) x.waitQueue [] ⟨{ x with fromSession := rest }, p₁⟩ = .ok () u) : exec (.convertDown d) s =
        .next (s.putTable d { u.dom with
          toSession := u.dom.toSession ++ [.result q.agent q.stamp (.converted h k) none q.era] } u.pool) := by
    have hgrant : grantPass (envOf s d)
        ⟨(popSession (s.table d)).dom, writeRecord s.pool h.slot { r with mode := .shared }⟩ = .ok () u := by
      rw [hpop, hp₁]
      exact (if_pos hserves).trans hpass
    exact (exec_convertDown_request hhead hbody).trans (congrArg _ (withTable_returnDecision
      (decideConvertDown_converted (t := popSession (s.table d)) hcurrent howner hheld hmode hwrites htoken hgrant) hstate))
  have hunmoved {k : Token} (hbody : q.body = .convertDown h) (hheld : r.state = .held) (hmode : r.mode = .exclusive)
      (hwrites : r.writes = 0) (htoken : r.token = some k) (hpass : passFrom (envOf s d) x.waitQueue []
        ⟨{ x with fromSession := rest }, p₁⟩ =
          .ok () ⟨{ x with fromSession := rest }, p₁⟩) :
      ∃ p, exec (.convertDown d) s = .next (s.putTable d (x.answered rest q (.converted h k) none) p) ∧
        poolGet p h.slot = down ∧ onlySlot h.slot s.pool p :=
    ⟨_, hconverted hbody hheld hmode hwrites htoken rfl hpass, w.slot_of_clean hhealth, w.others⟩
  have hslots {j : SlotId} {r' : Record} {p : Pool} (w' : Written p₁ j r' p)
      (hj : j ≠ h.slot) (hjclean : (poolGet s.pool j).health = .clean) : poolGet p h.slot = down ∧
        poolGet p j = { poolGet s.pool j with record := r' } ∧ ∀ i, i ≠ h.slot → i ≠ j → poolGet p i = poolGet s.pool i := by
    refine ⟨(w'.others _ hj.symm).trans (w.slot_of_clean hhealth), ?_, fun i hi hij => (w'.others i hij).trans (w.others i hi)⟩
    rw [w'.slot, w.others j hj, ← hjclean]
  have hdrop {j : SlotId} (hqueue : x.waitQueue = [j]) : dropSlot j x.waitQueue = [] := by
    rw [hqueue]
    simp [dropSlot]
  have hrefused {c : ResultRefusal} (hbody : q.body = .convertDown h) (hc : decideConvertDown (envOf s d) q.agent h
      (popSession (s.table d)) = .ok (.refused c) (popSession (s.table d))) : exec (.convertDown d) s = refused c :=
    (exec_convertDown_request hhead hbody).trans (congrArg _ (withTable_returnDecision_unchanged hhead hc))
  have hother {j : SlotId} (hj : j ≠ h.slot) := w.recordOf_ne hj
  have hread {j : SlotId} (hj : j ≠ h.slot) (hclean : (poolGet s.pool j).health = .clean) :
      (poolGet p₁ j).health = .clean := by
    rw [w.others j hj, hclean]
  refine ⟨fun hbody => ⟨fun hmode => hrefused hbody (decideConvertDown_wrongMode hcurrent howner hmode), fun hheld hmode hwrites =>
      hrefused hbody (decideConvertDown_writesInFlight (t := popSession (s.table d)) hcurrent howner hheld hmode hwrites),
      fun k hheld hmode hwrites htoken => ⟨fun hempty => ?empty, fun j hqueue hj hjclean hstate hshared hfront hholds hclear
        hexhausted hk => ?granted⟩⟩,
    fun k hbody hheld hmode hwrites htoken hholds => ⟨fun j hqueue hj hjclean hstate hfront hapart hclear hexhausted hk => ?upgraded,
      fun i j hqueue hi hj hpair hocc histate himode hover hjstate hbehind => ?held,
      fun j js hqueue hj hjclean hstate hshared hclear hexhausted => ?exhausted⟩, fun hbody => ?query⟩
  case empty =>
    exact hunmoved hbody hheld hmode hwrites htoken (congrArg (passFrom _ · [] _) hempty)
  case granted =>
    have hgrantable := w.grantable_alone (m := .shared) hj (by simp [Record.claim, hstate, hshared]) hclear (by simp [Record.hold, conflicts, hheld])
    have hpass := passFrom_granted (e := envOf s d) (l := []) (t := ⟨{ x with fromSession := rest }, _⟩) (hread hj hjclean)
      (w.recordsClean hholds) hgrantable hexhausted
    obtain ⟨p, hgrant, w'⟩ := grantOne_waiting (envOf s d) (i := j) (x := { x with fromSession := rest }) w.wf hfront hk hstate
    rw [hother hj, hgrant, w.genOf_ne hj] at hpass
    refine ⟨p, (hconverted hbody hheld hmode hwrites htoken (by rfl) ((congrArg (passFrom _ · [] _) hqueue).trans hpass)).trans ?_,
      (hslots w' hj hjclean).1, (hslots w' hj hjclean).2.1, (hslots w' hj hjclean).2.2⟩
    rw [show dropSlot j _ = [] from hdrop hqueue]
    rfl
  case upgraded =>
    have hgrantable := w.grantable_alone (m := .exclusive) hj (by simp [Record.claim, hstate]) hclear (by simp [Record.hold, conflicts, hheld, hapart])
    have hpass := passFrom_granted (e := envOf s d) (l := []) (t := ⟨{ x with fromSession := rest }, _⟩) (hread hj hjclean)
      (w.recordsClean hholds) hgrantable hexhausted
    obtain ⟨p, hgrant, w'⟩ := grantOne_converting (envOf s d) (i := j) (x := { x with fromSession := rest }) w.wf hfront hk hstate
    rw [hother hj, hgrant, w.genOf_ne hj] at hpass
    refine ⟨p, (hconverted hbody hheld hmode hwrites htoken (by rfl) ((congrArg (passFrom _ · [] _) hqueue).trans hpass)).trans ?_,
      (hslots w' hj hjclean).1, (hslots w' hj hjclean).2.1, (hslots w' hj hjclean).2.2⟩
    rw [show dropSlot j _ = [] from hdrop hqueue]
    rfl
  case held =>
    have hiclean : (poolGet s.pool i).health = .clean ∧ (poolGet s.pool j).health = .clean := by
      simpa [recordsClean] using hpair
    have hfirst : grantable i (recordOf p₁ i)
        (x.occupancy.map fun k => (k, recordOf p₁ k)) [] = false := by
      rw [hother hi, grantable_map i (m := .exclusive) (by simp [Record.claim, histate, himode])]
      have hmeets : noHoldMeets p₁ .exclusive (recordOf s.pool i).first
          (recordOf s.pool i).count (x.occupancy.filter (fun k => k != i)) = false := by
        simp only [noHoldMeets, List.all_eq_false, List.mem_filter, bne_iff_ne]
        exact ⟨h.slot, ⟨hocc, hi.symm⟩, by simp [w.record, Record.hold, conflicts, hheld, hover]⟩
      rw [hmeets]
      rfl
    have hsecond : grantable j (recordOf p₁ j)
        (x.occupancy.map fun k => (k, recordOf p₁ k))
        [(i, recordOf s.pool i)] = false := by
      obtain ⟨m, hclaim⟩ : ∃ m, (recordOf s.pool j).claim = some m := by
        obtain hst | hst := hjstate <;> simp [Record.claim, hst]
      rw [hother hj, grantable_map j hclaim]
      have hmeets : meetsClaim m (recordOf s.pool j).first (recordOf s.pool j).count [(i, recordOf s.pool i)] = true := by
        simp [meetsClaim, Record.claim, histate, himode, conflicts, hbehind]
      rw [hmeets, Bool.not_true, Bool.and_false]
    have hpass := passFrom_held (e := envOf s d) (l := [j]) (t := ⟨{ x with fromSession := rest }, _⟩) (hread hi hiclean.1)
      (w.recordsClean hholds) hfirst
    have hlast := passFrom_held (e := envOf s d) (l := []) (t := ⟨{ x with fromSession := rest }, _⟩) (hread hj hiclean.2)
      (w.recordsClean hholds) hsecond
    rw [hother hi, List.nil_append] at hpass
    exact hunmoved hbody hheld hmode hwrites htoken ((congrArg (passFrom _ · [] _) hqueue).trans (hpass.trans hlast))
  case exhausted =>
    have hgrantable := w.grantable_alone (m := .shared) hj (by simp [Record.claim, hstate, hshared]) hclear (by simp [Record.hold, conflicts, hheld])
    have hpass := passFrom_exhausted (e := envOf s d) (l := js) (t := ⟨{ x with fromSession := rest }, _⟩) (hread hj hjclean)
      (w.recordsClean hholds) hgrantable hexhausted
    exact hunmoved hbody hheld hmode hwrites htoken ((congrArg (passFrom _ · [] _) hqueue).trans hpass)
  case query =>
    have hstatus := decideQuery_current (e := envOf s d) (t := popSession (s.table d)) hcurrent howner
    refine (exec_query_request hhead hbody).trans (congrArg _ ((withTable_returnDecision_unchanged hhead hstatus).trans ?_))
    rw [statusOf, queuePosition_eq]
    rfl

end Sys2Proof.Machine
end

section
/-! The visits of a reclaim (R72): the slots it finds, and what the visit of one record, and of all of them, leaves. -/

set_option Elab.async false

namespace Sys2Proof.Machine

/-! ### The slots that hold a record of an agent -/

theorem lt_of_poolAbove {i : SlotId} {p : Pool} (h : poolAbove i p = true) : ∀ z ∈ p, i < z.1 := by
  induction p with
  | nil => simp
  | cons z p ih =>
    obtain ⟨k, x⟩ := z
    simp only [poolAbove, Bool.and_eq_true, decide_eq_true_eq] at h
    rintro w hw
    obtain rfl | hw := List.mem_cons.mp hw
    · exact h.1
    · exact ih h.2 w hw

/-- The slots of a pool in canonical form rise. -/
theorem pairwise_slots {p : Pool} (hp : Pool.wf p = true) : p.Pairwise (fun z w => z.1 < w.1) := by
  induction p with
  | nil => exact List.Pairwise.nil
  | cons z p ih =>
    obtain ⟨k, x⟩ := z
    simp only [Pool.wf, Bool.and_eq_true] at hp
    exact List.Pairwise.cons (lt_of_poolAbove hp.1.2) (ih hp.2)

/-- A slot is listed, as it reads, exactly where it is not as after a cold reset. -/
theorem mem_pool_iff {p : Pool} (hp : Pool.wf p = true) (i : SlotId) (x : Slot) : (i, x) ∈ p ↔ poolGet p i = x ∧ x ≠ .reset := by
  induction p with
  | nil => simpa [poolGet] using fun h : Slot.reset = x => h.symm
  | cons z p ih =>
    obtain ⟨k, y⟩ := z
    simp only [Pool.wf, Bool.and_eq_true, bne_iff_ne] at hp
    obtain ⟨⟨hy, habove⟩, hwf⟩ := hp
    by_cases hk : k = i
    · subst hk
      have hnot (x : Slot) : (k, x) ∉ p := fun h => lt_irrefl _ (lt_of_poolAbove habove _ h)
      simp only [List.mem_cons, Prod.mk.injEq, true_and, hnot, or_false, poolGet, if_pos]
      exact ⟨fun h => ⟨h.symm, h ▸ hy⟩, fun h => h.1.symm⟩
    · have hne : (i, x) ≠ (k, y) := fun h => hk (congrArg Prod.fst h).symm
      simp only [List.mem_cons, hne, false_or, poolGet, if_neg hk, ih hwf]

theorem mem_slotsOwnedBy {a : AgentId} {t : LockTable} (hp : Pool.wf t.pool = true) (i : SlotId) : i ∈ slotsOwnedBy a t ↔
    inBanks t.dom.banks i = true ∧ (poolGet t.pool i).directory.free = false ∧ (recordOf t.pool i).owner = a := by
  simp only [slotsOwnedBy, List.mem_map, List.mem_filter, Bool.and_eq_true, Bool.not_eq_true', beq_iff_eq, Prod.exists, mem_pool_iff hp]
  constructor
  · rintro ⟨k, x, ⟨⟨rfl, -⟩, ⟨hbank, hfree⟩, howner⟩, rfl⟩
    exact ⟨hbank, hfree, howner⟩
  · rintro ⟨hbank, hfree, howner⟩
    refine ⟨i, poolGet t.pool i, ⟨⟨rfl, fun h => ?_⟩, ⟨hbank, hfree⟩, howner⟩, rfl⟩
    rw [h] at hfree
    exact absurd hfree (by decide)

theorem pairwise_slotsOwnedBy {a : AgentId} {t : LockTable} (hp : Pool.wf t.pool = true) :
    (slotsOwnedBy a t).Pairwise (· < ·) :=
  List.pairwise_map.mpr ((pairwise_slots hp).filter _)

/-- The visits go through the agent's records in rising slot order (R72). -/
theorem slotsOwnedBy_eq {a : AgentId} {t : LockTable} (hp : Pool.wf t.pool = true) {l : List SlotId} (hl : l.Pairwise (· < ·))
    (hmem : ∀ i, i ∈ l ↔ inBanks t.dom.banks i = true ∧ (poolGet t.pool i).directory.free = false ∧ (recordOf t.pool i).owner = a) :
    slotsOwnedBy a t = l :=
  (pairwise_slotsOwnedBy hp).eq_of_mem_iff hl fun i => (mem_slotsOwnedBy hp i).trans (hmem i).symm

/-! ### The visit of one record (R72) -/

/-- A live record: its visit lowers the agent's live count. -/
def Record.lives (r : Record) : Bool :=
  r.state == .waiting || r.state == .held || r.state == .converting

/-- A record whose visit retires its slot. -/
def Record.gone (r : Record) : Bool :=
  r.state == .waiting || r.state == .ended || ((r.state == .held || r.state == .converting) && r.reads == 0 && r.writes == 0)

/-- A record whose visit hands CLEAR to the notice unit (R104). -/
def Record.clears (r : Record) : Bool :=
  r.state != .waiting && (r.front.isSome || r.followUp.isSome || r.state == .ended)

/-- The record that a visit leaves DRAINING. -/
def Record.drained (r : Record) (deadline : Time) : Record :=
  { r with
    state := .draining, mode := if r.state = .converting then .shared else r.mode
    waitDeadline := if r.state = .draining then r.waitDeadline else none
    drainDeadline := if r.state = .draining then r.drainDeadline else some deadline
    front := none, followUp := none }

/-- The slot that a visit leaves. -/
def visitedSlot (z : Slot) (deadline : Time) : Slot :=
  if z.record.gone then retired z.directory.gen else { z with record := z.record.drained deadline }

/-- The domain once the visit has taken the record off its wait, its token and its notices, and counted it out. -/
def Domain.noted (x : Domain) (h : Handle) (r : Record) : Domain :=
  { x with
    waitQueue := if r.lives then dropSlot h.slot x.waitQueue else x.waitQueue
    tokenMap := if r.state = .held ∨ r.state = .converting then dropToken r.token x.tokenMap else x.tokenMap
    live := if r.lives then put x.live r.owner (look x.live r.owner - 1) else x.live
    toSession := x.toSession ++ if r.lives then [.live r.owner .down x.era] else []
    toNotice := x.toNotice ++ if r.clears then [⟨x.era, .clear r.owner h⟩] else [] }

/-- The domain that the visit of the record leaves. -/
def Domain.visited (x : Domain) (h : Handle) (r : Record) : Domain :=
  if r.gone then (x.noted h r).without h.slot else x.noted h r

theorem visited_gone (x : Domain) (h : Handle) {r : Record} (hgone : r.gone = true) : x.visited h r = (x.noted h r).without h.slot :=
  if_pos hgone

theorem visited_stays (x : Domain) (h : Handle) {r : Record} (hgone : r.gone = false) : x.visited h r = x.noted h r :=
  if_neg (Bool.eq_false_iff.mp hgone)

theorem visitedSlot_gone {z : Slot} (deadline : Time) (hgone : z.record.gone = true) :
    visitedSlot z deadline = retired z.directory.gen :=
  if_pos hgone

theorem visitedSlot_stays {z : Slot} (deadline : Time) (hgone : z.record.gone = false) :
    visitedSlot z deadline = { z with record := z.record.drained deadline } :=
  if_neg (Bool.eq_false_iff.mp hgone)

section Visit

variable (e : DomainEnv) {p q : Pool} {i : SlotId} {r : Record} {x : Domain}

theorem clearNotices_written (w : Written p i r q) : ∃ q', clearNotices i ⟨x, q⟩ =
      ⟨{ x with toNotice := x.toNotice ++
        if r.front.isSome || r.followUp.isSome || r.state == .ended then [⟨x.era, .clear r.owner ⟨i, genOf p i⟩⟩] else [] }, q'⟩ ∧
    Written p i { r with front := none, followUp := none } q' := by
  cases hn : r.front.isSome || r.followUp.isSome || r.state == .ended with
  | true =>
    refine ⟨_, ?_, w.write _⟩
    simp only [clearNotices, w.record, w.handle, hn, if_true]
    rfl
  | false =>
    obtain ⟨⟨hfront, hfollow⟩, -⟩ : (r.front = none ∧ r.followUp = none) ∧ r.state ≠ .ended := by
      simpa only [Bool.or_eq_false_iff, Option.isSome_eq_false_iff, Option.isNone_iff_eq_none, beq_eq_false_iff_ne] using hn
    refine ⟨q, ?_, ?_⟩
    · simp only [clearNotices, w.record, hn, Bool.false_eq_true, if_false, List.append_nil]
    · rw [← hfront, ← hfollow]
      exact w

variable (hp : Pool.wf p = true) (hclean : (poolGet p i).readsClean = true)
include hp hclean

theorem reclaimVisit_waiting (hstate : (recordOf p i).state = .waiting) : ∃ q,
    reclaimVisit e i ⟨x, p⟩ = .ok () ⟨x.visited ⟨i, genOf p i⟩ (recordOf p i), q⟩ ∧
      poolGet q i = retired (genOf p i) ∧ onlySlot i p q := by
  obtain ⟨hhealth, hagrees⟩ := (readsClean_iff _).mp hclean
  have w := Written.refl hp hhealth
  refine ⟨_, ?_, w.freed⟩
  simp only [reclaimVisit, readRecord_clean e (t := ⟨x, p⟩) hhealth, Ran.bind, hstate]
  refine (retire_written e w hagrees).trans ?_
  simp [Domain.visited, Domain.noted, Record.lives, Record.gone, Record.clears, hstate, liveDown]

theorem reclaimVisit_ended (hstate : (recordOf p i).state = .ended) : ∃ q,
    reclaimVisit e i ⟨x, p⟩ = .ok () ⟨x.visited ⟨i, genOf p i⟩ (recordOf p i), q⟩ ∧
      poolGet q i = retired (genOf p i) ∧ onlySlot i p q := by
  obtain ⟨hhealth, hagrees⟩ := (readsClean_iff _).mp hclean
  obtain ⟨q, hclear, w⟩ := clearNotices_written (x := x) (Written.refl hp hhealth)
  refine ⟨_, ?_, w.freed⟩
  simp only [reclaimVisit, readRecord_clean e (t := ⟨x, p⟩) hhealth, Ran.bind, hstate, hclear]
  refine (retire_written e w hagrees).trans ?_
  simp [Domain.visited, Domain.noted, Record.lives, Record.gone, Record.clears, hstate]

theorem reclaimVisit_draining (hstate : (recordOf p i).state = .draining) : ∃ q,
    reclaimVisit e i ⟨x, p⟩ = .ok () ⟨x.visited ⟨i, genOf p i⟩ (recordOf p i), q⟩ ∧
      Written p i { recordOf p i with front := none, followUp := none } q := by
  obtain ⟨hhealth, -⟩ := (readsClean_iff _).mp hclean
  obtain ⟨q, hclear, w⟩ := clearNotices_written (x := x) (Written.refl hp hhealth)
  refine ⟨_, ?_, w⟩
  simp only [reclaimVisit, readRecord_clean e (t := ⟨x, p⟩) hhealth, Ran.bind, hstate, hclear]
  simp [Domain.visited, Domain.noted, Record.lives, Record.gone, Record.clears, hstate]

/-- A HELD or CONVERTING record drains, and leaves its drain at once where no access is in flight. -/
theorem reclaimVisit_entering (hstate : (recordOf p i).state = .held ∨ (recordOf p i).state = .converting) : ∃ q,
    reclaimVisit e i ⟨x, p⟩ = (if (recordOf p i).reads = 0 ∧ (recordOf p i).writes = 0 then
        leaveDraining e i ⟨x.noted ⟨i, genOf p i⟩ (recordOf p i), q⟩
      else .ok () ⟨x.noted ⟨i, genOf p i⟩ (recordOf p i), q⟩) ∧
      Written p i ((recordOf p i).drained (e.now + drainTime x)) q := by
  obtain ⟨hhealth, -⟩ := (readsClean_iff _).mp hclean
  have hnot : (recordOf p i).state ≠ .draining ∧ (recordOf p i).state ≠ .ended ∧ (recordOf p i).state ≠ .waiting := by
    obtain hst | hst := hstate <;> simp [hst]
  obtain ⟨hdraining, hended, hwaiting⟩ := hnot
  have hlives : (recordOf p i).lives = true := by
    obtain hst | hst := hstate <;> simp [Record.lives, hst]
  have hnoted : Domain.noted x ⟨i, genOf p i⟩ (recordOf p i) = { x with
      waitQueue := dropSlot i x.waitQueue, tokenMap := dropToken (recordOf p i).token x.tokenMap
      live := put x.live (recordOf p i).owner (look x.live (recordOf p i).owner - 1)
      toSession := x.toSession ++ [.live (recordOf p i).owner .down x.era]
      toNotice := x.toNotice ++ if (recordOf p i).front.isSome || (recordOf p i).followUp.isSome || (recordOf p i).state == .ended then
        [⟨x.era, .clear (recordOf p i).owner ⟨i, genOf p i⟩⟩] else [] } := by
    simp only [Domain.noted, hlives, hstate, if_true, Record.clears, bne_iff_ne.mpr hwaiting, Bool.true_and]
  have w := written_writeRecord hp i { recordOf p i with
    waitDeadline := none, mode := if (recordOf p i).state = .converting then .shared else (recordOf p i).mode }
  obtain ⟨q₁, hclear, w₁⟩ := clearNotices_written
    (x := { x with waitQueue := dropSlot i x.waitQueue, tokenMap := dropToken (recordOf p i).token x.tokenMap }) w
  obtain ⟨q, hdrain, w₂⟩ := enterDraining_written e (x := x.noted ⟨i, genOf p i⟩ (recordOf p i)) w₁
  refine ⟨q, ?_, ?_⟩
  · have hrun : enterDraining e i (reportLive (recordOf p i).owner .down (liveDown (recordOf p i).owner
        (clearNotices i (unhold i (recordOf p i) ⟨x, p⟩)))) = ⟨x.noted ⟨i, genOf p i⟩ (recordOf p i), q⟩ := by
      refine Eq.trans ?_ hdrain
      rw [hnoted]
      exact congrArg (fun u => enterDraining e i (reportLive _ .down (liveDown _ u))) hclear
    simp only [reclaimVisit, readRecord_clean e (t := ⟨x, p⟩) hhealth, Ran.bind]
    obtain hst | hst := hstate
    · simp only [hst, hrun]
    · simp only [hst, hrun]
  · simp only [Record.drained, if_neg hdraining]
    exact w₂

theorem reclaimVisit_held (hstate : (recordOf p i).state = .held ∨ (recordOf p i).state = .converting) : ∃ q,
    reclaimVisit e i ⟨x, p⟩ = .ok () ⟨x.visited ⟨i, genOf p i⟩ (recordOf p i), q⟩ ∧
      poolGet q i = visitedSlot (poolGet p i) (e.now + drainTime x) ∧ onlySlot i p q := by
  obtain ⟨hhealth, hagrees⟩ := (readsClean_iff _).mp hclean
  obtain ⟨q, hrun, w⟩ := reclaimVisit_entering e (x := x) hp hclean hstate
  have hgone : (recordOf p i).gone = true ↔ (recordOf p i).reads = 0 ∧ (recordOf p i).writes = 0 := by
    obtain hst | hst := hstate <;> simp [Record.gone, hst]
  by_cases hidle : (recordOf p i).reads = 0 ∧ (recordOf p i).writes = 0
  · obtain ⟨q', hleave, hslot, honly⟩ := leaveDraining_retired e (x := x.noted ⟨i, genOf p i⟩ (recordOf p i)) w hagrees rfl
    rw [visited_gone x _ (hgone.mpr hidle), visitedSlot_gone _ (hgone.mpr hidle)]
    exact ⟨q', hrun.trans ((if_pos hidle).trans hleave), hslot, honly⟩
  · have hstays : (recordOf p i).gone = false := Bool.eq_false_iff.mpr (mt hgone.mp hidle)
    rw [visited_stays x _ hstays, visitedSlot_stays _ hstays]
    exact ⟨q, hrun.trans (if_neg hidle), w.slot_of_clean hhealth, w.others⟩

/-- The visit of a record that reads clean, by what it leaves of slot and domain. -/
theorem reclaimVisit_clean (hstate : (recordOf p i).state ≠ .free) : ∃ q,
    reclaimVisit e i ⟨x, p⟩ = .ok () ⟨x.visited ⟨i, genOf p i⟩ (recordOf p i), q⟩ ∧
      poolGet q i = visitedSlot (poolGet p i) (e.now + drainTime x) ∧ onlySlot i p q := by
  obtain ⟨hhealth, -⟩ := (readsClean_iff _).mp hclean
  cases hs : (recordOf p i).state with
  | free => exact absurd hs hstate
  | held => exact reclaimVisit_held e hp hclean (.inl hs)
  | converting => exact reclaimVisit_held e hp hclean (.inr hs)
  | waiting =>
    rw [visitedSlot_gone _ (show (recordOf p i).gone = true by simp [Record.gone, hs])]
    exact reclaimVisit_waiting e hp hclean hs
  | ended =>
    rw [visitedSlot_gone _ (show (recordOf p i).gone = true by simp [Record.gone, hs])]
    exact reclaimVisit_ended e hp hclean hs
  | draining =>
    obtain ⟨q, hrun, w⟩ := reclaimVisit_draining e (x := x) hp hclean hs
    rw [visitedSlot_stays _ (show (recordOf p i).gone = false by simp [Record.gone, hs])]
    refine ⟨q, hrun, (w.slot_of_clean hhealth).trans ?_, w.others⟩
    have hdrained : { recordOf p i with front := none, followUp := none } = (recordOf p i).drained (e.now + drainTime x) := by
      simp [Record.drained, hs]
    rw [hdrained]
    rfl

end Visit

theorem visited_drainLimit (x : Domain) (h : Handle) (r : Record) : (x.visited h r).drainLimit = x.drainLimit := by
  unfold Domain.visited
  split <;> rfl

/-! ### All visits -/

/-- The domain once the records in a list of slots have been visited. -/
def Domain.visitedAll (x : Domain) (p : Pool) (l : List SlotId) : Domain :=
  l.foldl (fun y i => y.visited ⟨i, genOf p i⟩ (recordOf p i)) x

theorem reclaimAll_clean (e : DomainEnv) {l : List SlotId} {x : Domain} {p : Pool} (hp : Pool.wf p = true) (hl : l.Nodup)
    (hclean : ∀ i ∈ l, (poolGet p i).readsClean = true) (hstate : ∀ i ∈ l, (recordOf p i).state ≠ .free) :
    ∃ q, reclaimAll e l ⟨x, p⟩ = .ok () ⟨x.visitedAll p l, q⟩ ∧ Pool.wf q = true ∧
      ∀ i, poolGet q i = if i ∈ l then visitedSlot (poolGet p i) (e.now + drainTime x) else poolGet p i := by
  induction l generalizing x p with
  | nil => exact ⟨p, rfl, hp, fun i => rfl⟩
  | cons i l ih =>
    obtain ⟨hi, hl⟩ := List.nodup_cons.mp hl
    obtain ⟨q₁, hvisit, hslot, honly⟩ := reclaimVisit_clean e (x := x) hp (hclean i List.mem_cons_self) (hstate i List.mem_cons_self)
    have hwf : Pool.wf q₁ = true := by
      have := wf_reclaimVisit e i ⟨x, p⟩ hp
      rwa [hvisit] at this
    have hne {j : SlotId} (hj : j ∈ l) : poolGet q₁ j = poolGet p j := honly j fun h => hi (h ▸ hj)
    obtain ⟨q, hrun, hwf', hslots⟩ := ih (x := x.visited ⟨i, genOf p i⟩ (recordOf p i)) hwf hl
      (fun j hj => by rw [hne hj]; exact hclean j (List.mem_cons_of_mem i hj))
      (fun j hj => by rw [recordOf, hne hj]; exact hstate j (List.mem_cons_of_mem i hj))
    have hfold : (x.visited ⟨i, genOf p i⟩ (recordOf p i)).visitedAll q₁ l = x.visitedAll p (i :: l) := by
      unfold Domain.visitedAll
      exact List.foldl_ext _ _ _ fun y j hj => by rw [genOf, recordOf, hne hj]; rfl
    rw [hfold] at hrun
    refine ⟨q, ?_, hwf', fun j => ?_⟩
    · simp only [reclaimAll, hvisit, Ran.bind, hrun]
    · rw [hslots j, drainTime, visited_drainLimit]
      by_cases hj : j ∈ l
      · rw [if_pos hj, if_pos (List.mem_cons_of_mem i hj), hne hj]
        rfl
      · rw [if_neg hj]
        by_cases hji : j = i
        · subst hji
          rw [if_pos List.mem_cons_self, hslot]
        · rw [if_neg (by simp [hji, hj]), honly j hji]

end Sys2Proof.Machine
end

section
/-! What a reclaim leaves of the domain's collections, where records and collections agree (R18, R72). -/

set_option Elab.async false

namespace Sys2Proof.Machine

/-! ### The collections after all visits -/

/-- What the visit of slot `i` relies on (R18): a DRAINING record waits nowhere and has no token, and the token of a HELD or
CONVERTING one names its slot alone. -/
structure Domain.visitable (x : Domain) (i : SlotId) (r : Record) : Prop where
  live : r.state ≠ .free
  unqueued : r.state = .draining → i ∉ x.waitQueue
  untracked : r.state = .draining → ∀ z ∈ x.tokenMap, z.2 ≠ i
  token : r.state = .held ∨ r.state = .converting → dropToken r.token x.tokenMap = x.tokenMap.filter (fun z => z.2 != i)

/-- The token of a held record, and no other, is dropped with the slot. -/
theorem dropToken_eq_filter {m : List (Token × SlotId)} {i : SlotId} {k : Option Token} (hk : ∀ t, (t, i) ∈ m ↔ k = some t)
    (honce : ∀ t i j, (t, i) ∈ m → (t, j) ∈ m → i = j) : dropToken k m = m.filter (fun z => z.2 != i) := by
  refine List.filter_congr fun z hz => ?_
  obtain ⟨t, j⟩ := z
  have hiff : some t = k ↔ j = i := by
    constructor
    · exact fun h => honce t j i hz ((hk t).mpr h.symm)
    · rintro rfl
      exact ((hk t).mp hz).symm
  exact Bool.eq_iff_iff.mpr (by simp [hiff])

theorem visitable_of_placesRecord {x : Domain} {i : SlotId} {r : Record} (h : x.placesRecord i r) (hlive : r.state ≠ .free)
    (honce : ∀ t i j, (t, i) ∈ x.tokenMap → (t, j) ∈ x.tokenMap → i = j) : x.visitable i r where
  live := hlive
  unqueued hs hi := by
    have := h.waits.mp hi
    simp [hs] at this
  untracked := by
    rintro hs ⟨k, j⟩ hz rfl
    have := (h.token k).mp hz
    simp [hs] at this
  token hs := dropToken_eq_filter (fun t => (h.token t).trans (and_iff_right hs)) honce

/-- The domain once record `r` of slot `i` has been visited, in collections that agree with it. -/
def Domain.taken (x : Domain) (h : Handle) (r : Record) : Domain :=
  { x with
    waitQueue := dropSlot h.slot x.waitQueue
    occupancy := if r.gone then dropSlot h.slot x.occupancy else x.occupancy
    tokenMap := x.tokenMap.filter (fun z => z.2 != h.slot)
    freeList := x.freeList ++ if r.gone then [h.slot] else []
    live := if r.lives then put x.live r.owner (look x.live r.owner - 1) else x.live
    toSession := x.toSession ++ if r.lives then [.live r.owner .down x.era] else []
    toNotice := x.toNotice ++ if r.clears then [⟨x.era, .clear r.owner h⟩] else [] }

theorem visited_eq_taken {x : Domain} {h : Handle} {r : Record} (hv : x.visitable h.slot r) : x.visited h r = x.taken h r := by
  cases hs : r.state with
  | free => exact absurd hs hv.live
  | waiting =>
    simp [Domain.visited, Domain.noted, Domain.taken, Domain.without, Record.gone, Record.lives, Record.clears, hs, dropSlot_dropSlot]
  | ended =>
    simp [Domain.visited, Domain.noted, Domain.taken, Domain.without, Record.gone, Record.lives, Record.clears, hs]
  | draining =>
    have hqueue : dropSlot h.slot x.waitQueue = x.waitQueue :=
      List.filter_eq_self.mpr fun j hj => bne_iff_ne.mpr fun hji => hv.unqueued hs (hji ▸ hj)
    have hmap : x.tokenMap.filter (fun z => z.2 != h.slot) = x.tokenMap :=
      List.filter_eq_self.mpr fun z hz => bne_iff_ne.mpr (hv.untracked hs z hz)
    simp [Domain.visited, Domain.noted, Domain.taken, Record.gone, Record.lives, Record.clears, hs, hqueue, hmap]
  | held | converting =>
    have htoken := hv.token (by simp [hs])
    cases hg : r.gone with
    | true =>
      rw [visited_gone x h hg]
      simp [Domain.noted, Domain.taken, Domain.without, hg, Record.lives, hs, htoken, dropSlot_dropSlot, List.filter_filter]
    | false =>
      rw [visited_stays x h hg]
      simp [Domain.noted, Domain.taken, hg, Record.lives, hs, htoken]

theorem visitable_taken {x : Domain} {h : Handle} {r : Record} {j : SlotId} {r' : Record} (hv : x.visitable j r') :
    (x.taken h r).visitable j r' where
  live := hv.live
  unqueued hs hj := hv.unqueued hs (mem_dropSlot.mp hj).1
  untracked hs z hz := hv.untracked hs z (List.mem_of_mem_filter hz)
  token hs := by
    have htoken := hv.token hs
    unfold dropToken at htoken ⊢
    unfold Domain.taken
    rw [List.filter_comm, htoken, List.filter_comm]

/-- The domain once the records of an agent in a list of slots have been visited, in collections that agree with them. -/
def Domain.takenAll (x : Domain) (p : Pool) (a : AgentId) (l : List SlotId) : Domain :=
  { x with
    waitQueue := x.waitQueue.filter (fun i => !l.contains i)
    occupancy := x.occupancy.filter (fun i => !(l.contains i && (recordOf p i).gone))
    tokenMap := x.tokenMap.filter (fun z => !l.contains z.2)
    freeList := x.freeList ++ l.filter (fun i => (recordOf p i).gone)
    live := put x.live a (look x.live a - (l.filter (fun i => (recordOf p i).lives)).length)
    toSession := x.toSession ++ (l.filter (fun i => (recordOf p i).lives)).map (fun _ => .live a .down x.era)
    toNotice := x.toNotice ++
      (l.filter (fun i => (recordOf p i).clears)).map (fun i => ⟨x.era, .clear a ⟨i, genOf p i⟩⟩) }

theorem takenAll_nil (x : Domain) (p : Pool) (a : AgentId) : x.takenAll p a [] = x := by
  simp [Domain.takenAll]

section TakenAll

variable (p : Pool) (l : List SlotId) (i : SlotId)

theorem filter_not_contains_cons (w : List SlotId) :
    (dropSlot i w).filter (fun j => !l.contains j) = w.filter (fun j => !(i :: l).contains j) := by
  rw [dropSlot, List.filter_filter]
  refine List.filter_congr fun j _ => ?_
  rw [List.contains_cons, Bool.not_or, Bool.and_comm]
  rfl

theorem filter_gone_cons (w : List SlotId) (gone : SlotId → Bool) :
    (if gone i then dropSlot i w else w).filter (fun j => !(l.contains j && gone j)) =
      w.filter (fun j => !((i :: l).contains j && gone j)) := by
  cases hg : gone i with
  | true =>
    rw [if_pos rfl, dropSlot, List.filter_filter]
    refine List.filter_congr fun j _ => ?_
    by_cases hj : j = i <;> simp [hj, hg]
  | false =>
    rw [if_neg (by simp)]
    refine List.filter_congr fun j _ => ?_
    by_cases hj : j = i <;> simp [hj, hg]

theorem append_filter_cons {α : Type} (c : List α) (f : SlotId → Bool) (g : SlotId → α) :
    (c ++ if f i then [g i] else []) ++ (l.filter f).map g = c ++ ((i :: l).filter f).map g := by
  cases hf : f i <;> simp [hf]

theorem takenAll_taken (x : Domain) : (x.taken ⟨i, genOf p i⟩ (recordOf p i)).takenAll p (recordOf p i).owner l =
    x.takenAll p (recordOf p i).owner (i :: l) := by
  have hmap : (x.tokenMap.filter (fun z => z.2 != i)).filter (fun z => !l.contains z.2) =
      x.tokenMap.filter (fun z => !(i :: l).contains z.2) := by
    rw [List.filter_filter]
    refine List.filter_congr fun z _ => ?_
    rw [List.contains_cons, Bool.not_or, Bool.and_comm]
    rfl
  have hfree : (x.freeList ++ if (recordOf p i).gone then [i] else []) ++ l.filter (fun j => (recordOf p j).gone) =
      x.freeList ++ (i :: l).filter (fun j => (recordOf p j).gone) := by
    simpa using append_filter_cons l i x.freeList (fun j => (recordOf p j).gone) id
  have hlive : put (if (recordOf p i).lives then put x.live (recordOf p i).owner (look x.live (recordOf p i).owner - 1) else x.live)
        (recordOf p i).owner
        (look (if (recordOf p i).lives then put x.live (recordOf p i).owner (look x.live (recordOf p i).owner - 1) else x.live)
          (recordOf p i).owner - (l.filter (fun j => (recordOf p j).lives)).length) =
      put x.live (recordOf p i).owner
        (look x.live (recordOf p i).owner - ((i :: l).filter (fun j => (recordOf p j).lives)).length) := by
    cases hl : (recordOf p i).lives with
    | true => simp [hl, Nat.sub_sub, Nat.add_comm]
    | false => simp [hl]
  simp only [Domain.takenAll, Domain.taken, filter_not_contains_cons, filter_gone_cons l i x.occupancy (fun j => (recordOf p j).gone),
    hmap, hfree, hlive,
    append_filter_cons l i x.toSession (fun j => (recordOf p j).lives) (fun _ => .live (recordOf p i).owner .down x.era),
    append_filter_cons l i x.toNotice (fun j => (recordOf p j).clears) (fun j => ⟨x.era, .clear (recordOf p i).owner ⟨j, genOf p j⟩⟩)]

end TakenAll

theorem visitedAll_eq_takenAll {x : Domain} {p : Pool} {a : AgentId} {l : List SlotId} (hv : ∀ i ∈ l, x.visitable i (recordOf p i))
    (howner : ∀ i ∈ l, (recordOf p i).owner = a) : x.visitedAll p l = x.takenAll p a l := by
  induction l generalizing x with
  | nil => exact (takenAll_nil x p a).symm
  | cons i l ih =>
    have hhead := hv i List.mem_cons_self
    calc x.visitedAll p (i :: l) = (x.visited ⟨i, genOf p i⟩ (recordOf p i)).visitedAll p l := rfl
      _ = (x.taken ⟨i, genOf p i⟩ (recordOf p i)).visitedAll p l := by rw [visited_eq_taken (h := ⟨i, genOf p i⟩) hhead]
      _ = (x.taken ⟨i, genOf p i⟩ (recordOf p i)).takenAll p a l :=
        ih (fun j hj => visitable_taken (hv j (List.mem_cons_of_mem i hj))) fun j hj => howner j (List.mem_cons_of_mem i hj)
      _ = x.takenAll p a (i :: l) := by rw [← howner i List.mem_cons_self, takenAll_taken]

end Sys2Proof.Machine
end

section
/-! RECLAIM at a domain (R8, R72, R73): its visits, its grant pass and what they keep of other agents' records. -/

set_option Elab.async false

namespace Sys2Proof.Machine

/-! ### What a grant pass keeps (R42 to R44) -/

/-- What a grant pass keeps of every slot, over records that read clean: its directory entry, whose record it is and of
which pages, and all of a record that presents no claim. -/
structure PassKept (t u : LockTable) : Prop where
  wf : Pool.wf u.pool = true
  clean : ∀ i, (poolGet u.pool i).health = .clean
  session : u.dom.fromSession = t.dom.fromSession
  reclaimed : u.dom.reclaimed = t.dom.reclaimed
  directory : ∀ i, (poolGet u.pool i).directory = (poolGet t.pool i).directory
  owner : ∀ i, (recordOf u.pool i).owner = (recordOf t.pool i).owner
  first : ∀ i, (recordOf u.pool i).first = (recordOf t.pool i).first
  count : ∀ i, (recordOf u.pool i).count = (recordOf t.pool i).count
  unclaimed : ∀ i, (recordOf t.pool i).claim = none → recordOf u.pool i = recordOf t.pool i

theorem PassKept.refl {t : LockTable} (hp : Pool.wf t.pool = true) (hclean : ∀ i, (poolGet t.pool i).health = .clean) :
    PassKept t t :=
  ⟨hp, hclean, rfl, rfl, fun _ => rfl, fun _ => rfl, fun _ => rfl, fun _ => rfl, fun _ _ => rfl⟩

theorem PassKept.trans {t u v : LockTable} (h : PassKept t u) (g : PassKept u v) : PassKept t v where
  wf := g.wf
  clean := g.clean
  session := g.session.trans h.session
  reclaimed := g.reclaimed.trans h.reclaimed
  directory i := (g.directory i).trans (h.directory i)
  owner i := (g.owner i).trans (h.owner i)
  first i := (g.first i).trans (h.first i)
  count i := (g.count i).trans (h.count i)
  unclaimed i hi := by
    have hu := h.unclaimed i hi
    exact (g.unclaimed i (by rw [hu, hi])).trans hu

theorem placeNotice_place (r : Record) (k : NoticeKind) : (placeNotice r k).2.owner = r.owner ∧
    (placeNotice r k).2.first = r.first ∧ (placeNotice r k).2.count = r.count := by
  have hcases : ∃ f n, (placeNotice r k).2 = { r with front := f, followUp := n } := by
    unfold placeNotice
    match hf : r.front, hn : r.followUp with
    | none, n => exact ⟨some ⟨k, false⟩, n, by simp [← hn]⟩
    | some ⟨f, true⟩, n => exact ⟨some ⟨f, true⟩, some k, by simp [← hf]⟩
    | some ⟨f, false⟩, none => exact ⟨some ⟨k, false⟩, none, by simp [← hn]⟩
    | some ⟨f, false⟩, some n => exact ⟨some ⟨f, false⟩, some k, by simp [← hf]⟩
  obtain ⟨f, n, h⟩ := hcases
  rw [h]
  exact ⟨rfl, rfl, rfl⟩

theorem takeToken_kept (e : DomainEnv) (a : AgentId) (i : SlotId) (x : Domain) (p : Pool) : ∃ k y,
    takeToken e a i ⟨x, p⟩ = (k, ⟨y, p⟩) ∧
    y.fromSession = x.fromSession ∧ y.reclaimed = x.reclaimed := by
  by_cases hk : x.tokenCounter = BitVec.allOnes 40
  · exact ⟨_, _, takeToken_last e a i p hk, rfl, rfl⟩
  · exact ⟨_, _, takeToken_advances e a i p hk, rfl, rfl⟩

section Written

variable {p q : Pool} {i : SlotId} {r : Record} (w : Written p i r q)
include w

theorem Written.directory (j : SlotId) : (poolGet q j).directory = (poolGet p j).directory := by
  by_cases hj : j = i
  · rw [hj, w.slot]
    rfl
  · rw [w.others j hj]

/-- What the record written has in common with the one before, every record has. -/
theorem Written.keeps {α : Type} (f : Record → α) (h : f r = f (recordOf p i)) (j : SlotId) :
    f (recordOf q j) = f (recordOf p j) := by
  by_cases hj : j = i
  · rw [hj, w.record, h]
  · rw [w.recordOf_ne hj]

theorem Written.clean (h : ∀ j, (poolGet p j).health = .clean) (j : SlotId) : (poolGet q j).health = .clean := by
  by_cases hj : j = i
  · rw [hj, w.slot]
  · rw [w.others j hj, h j]

end Written

section Grant

variable (e : DomainEnv) {i : SlotId} {r : Record} {x : Domain} {p : Pool} (hp : Pool.wf p = true)
include hp

theorem grantOne_place : ∃ y q r', grantOne e i r ⟨x, p⟩ = ⟨y, q⟩ ∧ Written p i r' q ∧
    (r'.owner = r.owner ∧ r'.first = r.first ∧ r'.count = r.count) ∧
    y.fromSession = x.fromSession ∧ y.reclaimed = x.reclaimed := by
  obtain ⟨k, y, htake, hsession, hreclaimed⟩ := takeToken_kept e r.owner i x p
  by_cases hs : r.state = .converting
  · have w := written_writeRecord hp i { r with state := .held, mode := .exclusive, waitDeadline := none, token := some k }
    have hgrant : grantOne e i r ⟨x, p⟩ = post i .upgraded (some k)
        ⟨{ y with waitQueue := dropSlot i y.waitQueue, tokenMap := dropToken r.token y.tokenMap ++ [(k, i)] },
          writeRecord p i { r with state := .held, mode := .exclusive, waitDeadline := none, token := some k }⟩ := by
      simp only [grantOne, if_pos hs, grantConverting, htake]
      rfl
    obtain ⟨q, hpost, hwritten⟩ := post_written w .upgraded (some k)
    exact ⟨_, q, _, hgrant.trans hpost, hwritten, placeNotice_place _ _, hsession, hreclaimed⟩
  · have w := written_writeRecord hp i { r with state := .held, waitDeadline := none, token := some k }
    have hgrant : grantOne e i r ⟨x, p⟩ = post i .granted (some k) ⟨{ y with
        waitQueue := dropSlot i y.waitQueue, occupancy := insertSlot i y.occupancy, tokenMap := y.tokenMap ++ [(k, i)] },
          writeRecord p i { r with state := .held, waitDeadline := none, token := some k }⟩ := by
      simp only [grantOne, if_neg hs, grantWaiting, htake]
      rfl
    obtain ⟨q, hpost, hwritten⟩ := post_written w .granted (some k)
    exact ⟨_, q, _, hgrant.trans hpost, hwritten, placeNotice_place _ _, hsession, hreclaimed⟩

theorem passKept_grantOne (hclean : ∀ j, (poolGet p j).health = .clean) (hclaim : (recordOf p i).claim ≠ none) :
    PassKept ⟨x, p⟩ (grantOne e i (recordOf p i) ⟨x, p⟩) := by
  obtain ⟨y, q, r', hgrant, w, ⟨howner, hfirst, hcount⟩, hsession, hreclaimed⟩ :=
    grantOne_place e (i := i) (r := recordOf p i) (x := x) hp
  rw [hgrant]
  exact ⟨w.wf, w.clean hclean, hsession, hreclaimed, w.directory, w.keeps Record.owner howner, w.keeps Record.first hfirst,
    w.keeps Record.count hcount, fun j hj => w.recordOf_ne fun hji => hclaim (hji ▸ hj)⟩

end Grant

theorem claim_of_grantable {i : SlotId} {r : Record} {holds ahead : List (SlotId × Record)} (h : grantable i r holds ahead = true) :
    r.claim ≠ none := by
  intro hclaim
  simp only [grantable, hclaim] at h
  exact absurd h (by decide)

theorem recordsClean_of_all {p : Pool} (h : ∀ i, (poolGet p i).health = .clean) (l : List SlotId) : recordsClean p l = true := by
  simp [recordsClean, h]

theorem passFrom_kept (e : DomainEnv) (l : List SlotId) (ahead : List (SlotId × Record)) {t : LockTable} (hp : Pool.wf t.pool = true)
    (hclean : ∀ i, (poolGet t.pool i).health = .clean) : ∃ u, passFrom e l ahead t = .ok () u ∧ PassKept t u := by
  induction l generalizing ahead t with
  | nil => exact ⟨t, rfl, .refl hp hclean⟩
  | cons i l ih =>
    have hholds := recordsClean_of_all hclean t.dom.occupancy
    cases hg : grantable i (recordOf t.pool i) (t.dom.occupancy.map fun k => (k, recordOf t.pool k)) ahead with
    | false =>
      rw [passFrom_held (hclean i) hholds hg]
      exact ih _ hp hclean
    | true =>
      cases hx : t.dom.exhausted with
      | true => exact ⟨t, passFrom_exhausted (hclean i) hholds hg hx, .refl hp hclean⟩
      | false =>
        have hgrant := passKept_grantOne e (x := t.dom) hp hclean (claim_of_grantable hg)
        obtain ⟨u, hrun, hkept⟩ := ih ahead hgrant.wf hgrant.clean
        exact ⟨u, (passFrom_granted (hclean i) hholds hg hx).trans hrun, hgrant.trans hkept⟩

theorem grantPass_kept (e : DomainEnv) {t : LockTable} (hp : Pool.wf t.pool = true)
    (hclean : ∀ i, (poolGet t.pool i).health = .clean) : ∃ u, grantPass e t = .ok () u ∧ PassKept t u := by
  by_cases hs : t.dom.serves = true
  · obtain ⟨u, hrun, hkept⟩ := passFrom_kept e t.dom.waitQueue [] hp hclean
    exact ⟨u, (if_pos hs).trans hrun, hkept⟩
  · exact ⟨t, if_neg hs, .refl hp hclean⟩

/-! ### RECLAIM -/

theorem closedOut_kept (x : Domain) : x.closedOut.fromSession = x.fromSession ∧ x.closedOut.reclaimed = x.reclaimed := by
  unfold Domain.closedOut
  split <;> exact ⟨rfl, rfl⟩

theorem visitedAll_kept (x : Domain) (p : Pool) (l : List SlotId) :
    (x.visitedAll p l).fromSession = x.fromSession ∧ (x.visitedAll p l).reclaimed = x.reclaimed := by
  have hvisit (y : Domain) (h : Handle) (r : Record) :
      (y.visited h r).fromSession = y.fromSession ∧ (y.visited h r).reclaimed = y.reclaimed := by
    unfold Domain.visited
    split <;> exact ⟨rfl, rfl⟩
  induction l generalizing x with
  | nil => exact ⟨rfl, rfl⟩
  | cons i l ih =>
    obtain ⟨hsession, hreclaimed⟩ := ih (x.visited ⟨i, genOf p i⟩ (recordOf p i))
    exact ⟨hsession.trans (hvisit ..).1, hreclaimed.trans (hvisit ..).2⟩

section Reclaim

variable {s : State} {d : DomainId} {a : AgentId} {k : Nat} {rest : List SessionItem}
  (hhead : (s.domain d).fromSession = .reclaim a k :: rest)
include hhead

theorem takeReclaim_table : exec (.reclaim d) s = .next (s.withTable d (if (s.domain d).serves then
      (reclaimAgent (envOf s d) a
        ⟨{ s.domain d with fromSession := rest, reclaimed := put (s.domain d).reclaimed a k }, s.pool⟩).table
    else ⟨{ s.domain d with fromSession := rest, reclaimed := put (s.domain d).reclaimed a k }, s.pool⟩)) := by
  have hrest : (s.domain d).fromSession.tail = rest := by rw [hhead]; rfl
  change execReclaim d s = _
  simp only [execReclaim, hhead]
  rw [← hrest]
  rfl

theorem exec_reclaim_ignored (h : (s.domain d).serves = false) : exec (.reclaim d) s = .next (s.setDomain d
    { s.domain d with fromSession := rest, reclaimed := put (s.domain d).reclaimed a k }) := by
  rw [takeReclaim_table hhead, if_neg (by simp [h])]
  exact congrArg _ (withTable_sameState rfl)

theorem exec_reclaim (h : (s.domain d).serves = true) {r : Ran Unit} (hr : reclaimAgent (envOf s d) a
      ⟨{ s.domain d with fromSession := rest, reclaimed := put (s.domain d).reclaimed a k }, s.pool⟩ = r) :
    exec (.reclaim d) s = .next (s.withTable d r.table) := by
  rw [takeReclaim_table hhead, if_pos h, hr]

end Reclaim

theorem reclaimAgent_visited {e : DomainEnv} {a : AgentId} {t u : LockTable} (h : reclaimAll e (slotsOwnedBy a t) t = .ok () u) :
    reclaimAgent e a t = (grantPass e u).bind fun _ t => .ok () (completeClose t) := by
  simp only [reclaimAgent, h, Ran.bind]

theorem reclaimAgent_lost {e : DomainEnv} {a : AgentId} {t u : LockTable} (h : reclaimAll e (slotsOwnedBy a t) t = .lost u) :
    reclaimAgent e a t = .lost u := by
  simp only [reclaimAgent, h, Ran.bind]

theorem reclaimAll_lost (e : DomainEnv) {i : SlotId} {l : List SlotId} {t : LockTable} (h : (poolGet t.pool i).health = .manyBits)
    (hserves : t.dom.serves = true) : reclaimAll e (i :: l) t = .lost ⟨t.dom.quarantinedBy e.id i e.now, t.pool⟩ := by
  simp only [reclaimAll, reclaimVisit, readRecord_lost e h, Ran.bind, quarantine_report e i hserves]

theorem visitedSlot_clean {z : Slot} (deadline : Time) (h : z.health = .clean) : (visitedSlot z deadline).health = .clean := by
  unfold visitedSlot
  split
  · rfl
  · exact h

/-- A visited slot that still holds a record holds it DRAINING, without notices. -/
theorem visitedSlot_used {z : Slot} {deadline : Time} (h : (visitedSlot z deadline).directory.free = false) :
    (visitedSlot z deadline).record = z.record.drained deadline := by
  cases hg : z.record.gone with
  | true =>
    rw [visitedSlot_gone deadline hg] at h
    simp [retired, Slot.directory] at h
  | false => rw [visitedSlot_stays deadline hg]

/-- A reclaim over a domain whose slots all read clean: its agent's records are left DRAINING or not at all, and other agents'
records are still theirs. -/
theorem reclaimAgent_served (e : DomainEnv) (a : AgentId) {t : LockTable} (hp : Pool.wf t.pool = true)
    (hclean : ∀ i, (poolGet t.pool i).readsClean = true)
    (hstate : ∀ i, (poolGet t.pool i).directory.free = false → (recordOf t.pool i).state ≠ .free) :
    ∃ u : LockTable, reclaimAgent e a t = .ok () ⟨u.dom.closedOut, u.pool⟩ ∧
      u.dom.fromSession = t.dom.fromSession ∧ u.dom.reclaimed = t.dom.reclaimed ∧
      (∀ i, inBanks t.dom.banks i = true → (poolGet u.pool i).directory.free = false → (recordOf u.pool i).owner = a →
        (recordOf u.pool i).state = .draining ∧ (recordOf u.pool i).front = none) ∧
      ∀ i, (recordOf t.pool i).owner ≠ a → (poolGet u.pool i).directory = (poolGet t.pool i).directory ∧
        (recordOf u.pool i).owner = (recordOf t.pool i).owner ∧ (recordOf u.pool i).first = (recordOf t.pool i).first ∧
        (recordOf u.pool i).count = (recordOf t.pool i).count := by
  have hmem := mem_slotsOwnedBy (a := a) hp
  obtain ⟨q, hall, hwf, hq⟩ := reclaimAll_clean e (x := t.dom) hp (pairwise_slotsOwnedBy (a := a) hp).nodup (fun i _ => hclean i)
    fun i hi => hstate i ((hmem i).mp hi).2.1
  have hhealth (i : SlotId) : (poolGet q i).health = .clean := by
    have hi := ((readsClean_iff _).mp (hclean i)).1
    rw [hq i]
    split
    · exact visitedSlot_clean _ hi
    · exact hi
  obtain ⟨u, hpass, hkept⟩ := grantPass_kept e (t := ⟨t.dom.visitedAll t.pool (slotsOwnedBy a t), q⟩) hwf hhealth
  obtain ⟨hsession, hreclaimed⟩ := visitedAll_kept t.dom t.pool (slotsOwnedBy a t)
  refine ⟨u, ?_, hkept.session.trans hsession, hkept.reclaimed.trans hreclaimed, fun i hbank hused howner => ?_, fun i howner => ?_⟩
  · rw [reclaimAgent_visited hall, hpass, Ran.bind, completeClose_eq]
  · have husedq : (poolGet q i).directory.free = false := by rw [← hkept.directory i, hused]
    have hownerq : (poolGet q i).record.owner = a := (hkept.owner i).symm.trans howner
    by_cases hi : i ∈ slotsOwnedBy a t
    · rw [hq i, if_pos hi] at husedq
      have hrecord : recordOf q i = (recordOf t.pool i).drained (e.now + drainTime t.dom) := by
        rw [recordOf, hq i, if_pos hi]
        exact visitedSlot_used husedq
      have hunclaimed : recordOf u.pool i = recordOf q i := hkept.unclaimed i (by rw [hrecord]; rfl)
      rw [hunclaimed, hrecord]
      exact ⟨rfl, rfl⟩
    · rw [hq i, if_neg hi] at husedq hownerq
      exact absurd ((hmem i).mpr ⟨hbank, husedq, hownerq⟩) hi
  · have hslot : poolGet q i = poolGet t.pool i := (hq i).trans (if_neg fun hi => howner ((hmem i).mp hi).2.2)
    have hrecord : recordOf q i = recordOf t.pool i := congrArg Slot.record hslot
    exact ⟨(hkept.directory i).trans (congrArg Slot.directory hslot), (hkept.owner i).trans (congrArg Record.owner hrecord),
      (hkept.first i).trans (congrArg Record.first hrecord), (hkept.count i).trans (congrArg Record.count hrecord)⟩

/-- Settles O41: the visits by `reclaimAll_clean`, the collections by `visitedAll_eq_takenAll`, what the grant pass keeps by
`reclaimAgent_served`. -/
theorem reclaimTakesEveryRecord : Obligations.ReclaimTakesEveryRecord := by
  refine ⟨fun s d a k rest hhead => ⟨exec_reclaim_ignored hhead, fun hserves hwf hclean hstates => ?served⟩,
    fun s d a k rest slots hhead hserves hsorted hslots hwf => ?visits⟩
  case served =>
    obtain ⟨u, hrun, hsession, hreclaimed, hagent, hothers⟩ := reclaimAgent_served (envOf s d) a
      (t := ⟨{ s.domain d with fromSession := rest, reclaimed := put (s.domain d).reclaimed a k }, s.pool⟩) hwf hclean hstates
    have hdom : (s.withTable d ⟨u.dom.closedOut, u.pool⟩).domain d = u.dom.closedOut := look_put_same ..
    obtain ⟨hkeptSession, hkeptReclaimed⟩ := closedOut_kept u.dom
    refine ⟨_, exec_reclaim hhead hserves hrun, ?_, ?_, hagent, fun i howner _ => hothers i howner⟩
    · exact (congrArg Domain.fromSession hdom).trans (hkeptSession.trans hsession)
    · exact (congrArg (look · a) ((congrArg Domain.reclaimed hdom).trans (hkeptReclaimed.trans hreclaimed))).trans (look_put_same ..)
  case visits =>
    intro x r lives gone clears
    have howned : slotsOwnedBy a ⟨x, s.pool⟩ = slots := slotsOwnedBy_eq (t := ⟨x, s.pool⟩) hwf hsorted hslots
    refine ⟨fun i more hcons hlost => ?lost, fun hread honce => ?clean⟩
    case lost =>
      have hall := reclaimAll_lost (envOf s d) (l := more) (t := ⟨x, s.pool⟩) hlost hserves
      rw [← hcons, ← howned] at hall
      refine (exec_reclaim hhead hserves (reclaimAgent_lost hall)).trans (congrArg _ ?_)
      exact putTable_pool_eq_withTable (.inl (by simp [Domain.quarantinedBy]))
    case clean =>
      obtain ⟨q, hall, -, hq⟩ := reclaimAll_clean (envOf s d) (x := x) hwf hsorted.nodup (fun i hi => (hread i hi).1)
        fun i hi => (hread i hi).2.1
      have hvisited : x.visitedAll s.pool slots = x.takenAll s.pool a slots :=
        visitedAll_eq_takenAll (fun i hi => visitable_of_placesRecord (hread i hi).2.2 (hread i hi).2.1 honce)
          fun i hi => ((hslots i).mp hi).2.2
      refine ⟨q, fun i => (hq i).trans (ite_congr rfl (fun hi => ?_) fun _ => rfl), ?_⟩
      · have hwait : (if (r i).state = .draining then (r i).waitDeadline else none) = none := by
          refine ite_eq_right_iff.mpr fun hs => by_contra fun hw => ?_
          have := (hread i hi).2.2.waitDeadline hw
          simp [r, show (recordOf s.pool i).state = .draining from hs] at this
        cases hg : gone i with
        | true =>
          rw [if_pos rfl]
          exact visitedSlot_gone _ hg
        | false =>
          rw [if_neg (by simp), visitedSlot_stays _ hg]
          simp only [Record.drained]
          rw [show (if (poolGet s.pool i).record.state = .draining then (poolGet s.pool i).record.waitDeadline else none) = none
            from hwait]
          rfl
      · intro visited
        rw [hvisited] at hall
        have hrun := reclaimAgent_visited (t := ⟨x, s.pool⟩) (by rw [howned]; exact hall)
        refine (exec_reclaim hhead hserves hrun).trans ?_
        change Host.Outcome.next (s.withTable d (Ran.table (Ran.bind (grantPass (envOf s d) ⟨visited, q⟩) _))) = _
        cases grantPass (envOf s d) ⟨visited, q⟩ with
        | ok _ t => exact congrArg (fun t => Host.Outcome.next (s.withTable d t)) (completeClose_eq t)
        | lost t => rfl

end Sys2Proof.Machine
end
